-- ==== Sys2Proof/Word.lean ====
section
/-! DEFINITION. The words of the ZT4016: bytes, counts, frame numbers and sixteen-byte cells. -/

namespace Sys2Proof

/-- One octet of a span frame, one highway slot, one byte of a cell (spec/00_scope.md, 1.5). -/
abbrev Byte := BitVec 8

/-- A 16-bit value: a performance count or an alarm set (R158, Table 9-1). -/
abbrev Word := BitVec 16

/-- The 24-bit office frame number (R107). -/
abbrev FrameNumber := BitVec 24

/-- A cell: sixteen bytes, numbered 0 to 15 (R137). -/
abbrev Cell := Vector Byte 16

end Sys2Proof
end

