-- ==== Sys2Proof/Syntax.lean ====
section
/-! DEFINITION. The commands of the block: one constructor for each row of spec/opcode_table.json.
The first rows are events (restarts, events of span timing, reference events, office boundaries); the
others are the orders of Table 8-4, each with its tag and its parameter bytes as the order cell carries them. -/

namespace Sys2Proof

/-- Where a reference event comes from (R71): a pulse at REFA, a pulse at REFB, or the start of an
aligned frame of a receive span. -/
inductive RefInput where
  | refA
  | refB
  | span (n : Fin 16)
  deriving DecidableEq, Repr

/-- The three samples the sampler takes of one bit, around the centre of its clock period (R3). -/
abbrev Looks := BitVec 3

/-- A span at a moment of its read side: how many bits into its frame of the present office frame that side
stands when an event of the span comes (R27, R31). -/
structure SpanMoment where
  span : Fin 16
  readSoFar : Nat
  deriving DecidableEq, Repr

/-- The handlings of one office frame boundary whose order of taking the manual leaves free
(R69, R115 to R117, R141). The order channel's handling is stage 1 and stage 2 of R145. -/
inductive Handling where
  /-- the office frame number is formed (R107) -/
  | number
  /-- action timer `n` compares its match (R115) -/
  | timer (n : Fin 4)
  /-- retiming store `n` decides, and its drift meter takes the boundary report (R33, R51) -/
  | store (n : Fin 16)
  /-- the office timing unit: monitors and the three stages (R69) -/
  | otu
  /-- OFFICE pulses of the timing outputs (R80) -/
  | outputs
  /-- swap requests that fall due (R103) -/
  | swaps
  /-- triggers of sources 1 and 2 are offered (R123) -/
  | units
  /-- the order channel forms its send cell and examines its receive cell (R145) -/
  | orderChannel
  deriving DecidableEq, Repr

/-- One command of the block: a row of spec/opcode_table.json. -/
inductive Instr where
  -- restarts and pins
  /-- POWER_ON (R163): supply rises; `resetLow` is the level of RESET_N then (true: low). -/
  | powerOn (resetLow : Bool)
  /-- COLD_RESTART_BEGIN (R163): RESET_N goes low. -/
  | coldRestartBegin
  /-- SUPPLY_FALL (R163): supply falls while RESET_N is low. -/
  | supplyFall
  /-- RESTART_END (R163): the restart in progress ends; `straps` are SA4 to SA0. -/
  | restartEnd (straps : BitVec 5)
  -- events of span timing
  /-- CLOCK_PRESENT_RISE (R7) of a span. -/
  | clockPresentRise (span : Fin 16)
  /-- CLOCK_PRESENT_FALL (R7) of a span, at a moment of its read side: what it has read whole stays
  delivered if the event ends alignment (R27). -/
  | clockPresentFall (moment : SpanMoment)
  /-- LINE_WINDOW_END (R5): the 336 bits of the window, each as its three samples (R3);
  `moment` as in CLOCK_PRESENT_FALL. -/
  | lineWindowEnd (moment : SpanMoment) (samples : Vector Looks 336)
  /-- NOISE_PERIOD_END (R6). -/
  | noisePeriodEnd (span : Fin 16)
  /-- HUNT_CANDIDATE_FOUND (R8): the last eight bits as the sampler took them, in order of arrival, and the
  position of the first of them. -/
  | huntCandidateFound (span : Fin 16) (position : Nat) (looks : Vector Looks 8)
  /-- VERIFY_CHECK (R9): the eight bits at a position as the sampler took them. -/
  | verifyCheck (span : Fin 16) (position : Nat) (looks : Vector Looks 8)
  /-- EXPECTED_ALIGNMENT_OCTET (R10): the eight bits at a position as the sampler took them; `moment` as in
  CLOCK_PRESENT_FALL. -/
  | expectedAlignmentOctet (moment : SpanMoment) (position : Nat) (looks : Vector Looks 8)
  /-- ALIGNED_FRAME (R12): the next bits of the aligned stream as the sampler took them (a whole frame is 336
  of them), handed over when the read side stands `readSoFar` bits into its frame of the present office frame. -/
  | alignedFrame (span : Fin 16) (readSoFar : Nat) (looks : List Looks)
  /-- STORE_UNDERRUN (R38). -/
  | storeUnderrun (span : Fin 16)
  /-- REFERENCE_EVENT (R71): its time against the nearest office frame boundary, in picoseconds, and
  the frequency offset (ppm of nominal) the phase detector measures at it. -/
  | referenceEvent (input : RefInput) (time : Int) (frequency : Rat)
  /-- OFFICE_FRAME_BOUNDARY (R63): the egress bytes received in the office frame just ended, as
  `sampledEgress` takes them from the lanes EHD0 to EHD3 (R87), the order in which the handlings are taken,
  and whether an acquisition count that would reach 256 here, the timeout, is left to the step of its own row. -/
  | officeFrameBoundary (egress : Vector Byte 640) (order : List Handling) (timeoutApart : Bool)
  /-- QUALIFICATION_COMPLETE (R68) of an entry. -/
  | qualificationComplete (entry : Fin 4)
  /-- ACQUISITION_TIMEOUT (R72). -/
  | acquisitionTimeout
  -- orders (Table 8-4)
  /-- UNKNOWN_ORDER (R142): a taken order whose code is not assigned. -/
  | unknownOrder (tag code : Byte)
  /-- IDENTIFY, 01h (R167). -/
  | identify (tag : Byte)
  /-- WARM RESTART, 02h (R164). -/
  | warmRestart (tag : Byte)
  /-- SET SPAN, 10h (R21). -/
  | setSpan (tag span enable transmitMode loopback conditioned noiseLimit : Byte)
  /-- SPAN RESTART, 11h (R22). -/
  | spanRestart (tag span : Byte)
  /-- READ SPAN, 12h (R23). -/
  | readSpan (tag span : Byte)
  /-- SET THRESHOLDS, 13h (R43). -/
  | setThresholds (tag span : Byte) (low high : Word)
  /-- READ STORE, 14h (R46). -/
  | readStore (tag span : Byte)
  /-- SET DRIFT, 15h (R60). -/
  | setDrift (tag span k : Byte) (limit : Word)
  /-- READ DRIFT, 16h (R61). -/
  | readDrift (tag span : Byte)
  /-- SET REFERENCE, 20h (R83). -/
  | setReference (tag entry enable priority q span : Byte)
  /-- SET TIMING MODE, 21h (R78). -/
  | setTimingMode (tag mode revertive : Byte)
  /-- SELECT REFERENCE, 22h (R77). -/
  | selectReference (tag entry : Byte)
  /-- READ REFERENCE, 23h (R84). -/
  | readReference (tag entry : Byte)
  /-- READ TIMING, 24h (R85). -/
  | readTiming (tag : Byte)
  /-- SET TIMING OUTPUT, 25h (R82). -/
  | setTimingOutput (tag output enable source rate squelch : Byte)
  /-- WRITE INGRESS ENTRY, 30h (R98). -/
  | writeIngressEntry (tag lane slot kind arg1 arg2 : Byte)
  /-- WRITE EGRESS ENTRY, 31h (R99). -/
  | writeEgressEntry (tag span channel kind arg1 arg2 : Byte)
  /-- READ INGRESS ENTRY, 32h (R100). -/
  | readIngressEntry (tag lane slot bank : Byte)
  /-- READ EGRESS ENTRY, 33h (R100). -/
  | readEgressEntry (tag span channel bank : Byte)
  /-- SWAP MAPS, 34h (R102). -/
  | swapMaps (tag direction : Byte)
  /-- COPY MAPS, 35h (R101). -/
  | copyMaps (tag direction : Byte)
  /-- SET TIMER, 40h (R111). -/
  | setTimer (tag timer mode : Byte) (period : Word) (action param : Byte)
  /-- LOAD MATCH, 41h (R112). -/
  | loadMatch (tag timer : Byte) (value : FrameNumber)
  /-- ARM TIMER, 42h (R113). -/
  | armTimer (tag timer : Byte)
  /-- DISARM TIMER, 43h (R113). -/
  | disarmTimer (tag timer : Byte)
  /-- READ TIMER, 44h (R114). -/
  | readTimer (tag timer : Byte)
  /-- SET FRAME NUMBER, 45h (R108). -/
  | setFrameNumber (tag : Byte) (value : FrameNumber)
  /-- SET UNIT, 50h (R130). -/
  | setUnit (tag number mode kind arg1 arg2 source count repeating : Byte)
  /-- START UNIT, 51h (R131). -/
  | startUnit (tag number : Byte)
  /-- STOP UNIT, 52h (R132). -/
  | stopUnit (tag number : Byte)
  /-- TRIGGER UNIT, 53h (R133). -/
  | triggerUnit (tag number : Byte)
  /-- READ UNIT, 54h (R134). -/
  | readUnit (tag number : Byte)
  /-- READ BUFFER, 55h (R135). -/
  | readBuffer (tag number offset : Byte)
  /-- WRITE BUFFER, 56h (R135). -/
  | writeBuffer (tag number offset : Byte) (data : Vector Byte 8)
  /-- READ ALARMS, 60h (R157). -/
  | readAlarms (tag owner : Byte)
  /-- CLEAR LATCHED, 61h (R156). -/
  | clearLatched (tag owner : Byte)
  /-- READ COUNTS, 62h (R159). -/
  | readCounts (tag group span clear : Byte)
  deriving DecidableEq, Repr

end Sys2Proof
end

