-- ==== Sys2Proof/WellFormed.lean ====
section
/-! DEFINITION. Which commands are well formed: the checks that the types of the operands do not make. -/

namespace Sys2Proof

/-- The codes of Table 8-4. -/
def assignedCodes : List Byte :=
  [0x01, 0x02, 0x10, 0x11, 0x12, 0x13, 0x14, 0x15, 0x16, 0x20, 0x21, 0x22, 0x23, 0x24, 0x25,
   0x30, 0x31, 0x32, 0x33, 0x34, 0x35, 0x40, 0x41, 0x42, 0x43, 0x44, 0x45,
   0x50, 0x51, 0x52, 0x53, 0x54, 0x55, 0x56, 0x60, 0x61, 0x62]

/-- A code of a taken order that is no order of Table 8-4: not 00h, which marks an empty cell (R140),
and not assigned (R142). -/
def unassignedCode (code : Byte) : Bool := code != 0 && !assignedCodes.contains code

/-- A command is well formed when: an aligned-frame handover holds 1 to 336 bits (R12), and an event that
names how far the read side stands names at most the 336 bits of its frame (R31); a boundary names each
handling at most once; an unknown order carries an unassigned code (R142). Every other operand is in range by its type or is judged, as a
parameter byte, by its order's own rule. -/
def Instr.wellFormed : Instr → Bool
  | .alignedFrame _ readSoFar looks => readSoFar ≤ 336 && 1 ≤ looks.length && looks.length ≤ 336
  | .clockPresentFall moment => moment.readSoFar ≤ 336
  | .lineWindowEnd moment _ => moment.readSoFar ≤ 336
  | .expectedAlignmentOctet moment _ _ => moment.readSoFar ≤ 336
  | .officeFrameBoundary _ order _ => decide order.Nodup
  | .unknownOrder _ code => unassignedCode code
  | _ => true

end Sys2Proof
end

