-- ==== Sys2Proof/Decode.lean ====
section
/-! DEFINITION. Order cells: the check word (R138), the order a cell carries and the cell of an order
(Tables 8-1 and 8-4). The rows of spec/opcode_table.json give no bits, so no table word spells a command. -/

namespace Sys2Proof

/-- The command that a table word spells: none, because spec/opcode_table.json gives no row any bits. -/
def decodeTableWord (_nbits _w : Nat) : Option Instr := none

/-! ### The check word (R138) -/

/-- Bytes `2 i` and `2 i + 1` of a cell as a 16-bit word, the even-numbered byte the more significant. -/
def cellWord (cell : Cell) (i : Fin 8) : Word := cell[2 * i.val] ++ cell[2 * i.val + 1]

/-- The sum of the first seven words of a cell, modulo 65536. -/
def cellHead (cell : Cell) : Word :=
  cellWord cell 0 + cellWord cell 1 + cellWord cell 2 + cellWord cell 3 + cellWord cell 4 + cellWord cell 5 + cellWord cell 6

/-- The sum of the eight words of a cell, modulo 65536. -/
def cellSum (cell : Cell) : Word := cellHead cell + cellWord cell 7

/-- A receive cell meets the check. -/
def meetsCheck (cell : Cell) : Bool := cellSum cell == 0

/-- The check word placed in bytes 14 and 15: 65536 less the sum of the first seven words. -/
def sealCell (cell : Cell) : Cell :=
  let w : Word := 0 - cellHead cell
  (cell.set 14 (w.extractLsb' 8 8)).set 15 (w.extractLsb' 0 8)

/-! ### The order of a cell (Table 8-4) -/

/-- A 16-bit field of a cell, at bytes `i` and the next. -/
def cell16 (hi lo : Byte) : Word := hi ++ lo

/-- A 24-bit field of a cell. -/
def cell24 (a b c : Byte) : BitVec 24 := a ++ b ++ c

/-- The order a cell carries: code in byte 1, tag in byte 2, parameter byte n in byte n + 2 (R141). A code
that is not assigned is an unknown order (R142). -/
def decodeOrder (cell : Cell) : Instr :=
  let t := cell[2]
  match cell[1].toNat with
  | 0x01 => .identify t
  | 0x02 => .warmRestart t
  | 0x10 => .setSpan t cell[3] cell[4] cell[5] cell[6] cell[7] cell[8]
  | 0x11 => .spanRestart t cell[3]
  | 0x12 => .readSpan t cell[3]
  | 0x13 => .setThresholds t cell[3] (cell16 cell[4] cell[5]) (cell16 cell[6] cell[7])
  | 0x14 => .readStore t cell[3]
  | 0x15 => .setDrift t cell[3] cell[4] (cell16 cell[5] cell[6])
  | 0x16 => .readDrift t cell[3]
  | 0x20 => .setReference t cell[3] cell[4] cell[5] cell[6] cell[7]
  | 0x21 => .setTimingMode t cell[3] cell[4]
  | 0x22 => .selectReference t cell[3]
  | 0x23 => .readReference t cell[3]
  | 0x24 => .readTiming t
  | 0x25 => .setTimingOutput t cell[3] cell[4] cell[5] cell[6] cell[7]
  | 0x30 => .writeIngressEntry t cell[3] cell[4] cell[5] cell[6] cell[7]
  | 0x31 => .writeEgressEntry t cell[3] cell[4] cell[5] cell[6] cell[7]
  | 0x32 => .readIngressEntry t cell[3] cell[4] cell[5]
  | 0x33 => .readEgressEntry t cell[3] cell[4] cell[5]
  | 0x34 => .swapMaps t cell[3]
  | 0x35 => .copyMaps t cell[3]
  | 0x40 => .setTimer t cell[3] cell[4] (cell16 cell[5] cell[6]) cell[7] cell[8]
  | 0x41 => .loadMatch t cell[3] (cell24 cell[4] cell[5] cell[6])
  | 0x42 => .armTimer t cell[3]
  | 0x43 => .disarmTimer t cell[3]
  | 0x44 => .readTimer t cell[3]
  | 0x45 => .setFrameNumber t (cell24 cell[3] cell[4] cell[5])
  | 0x50 => .setUnit t cell[3] cell[4] cell[5] cell[6] cell[7] cell[8] cell[9] cell[10]
  | 0x51 => .startUnit t cell[3]
  | 0x52 => .stopUnit t cell[3]
  | 0x53 => .triggerUnit t cell[3]
  | 0x54 => .readUnit t cell[3]
  | 0x55 => .readBuffer t cell[3] cell[4]
  | 0x56 => .writeBuffer t cell[3] cell[4] #v[cell[5], cell[6], cell[7], cell[8], cell[9], cell[10], cell[11], cell[12]]
  | 0x60 => .readAlarms t cell[3]
  | 0x61 => .clearLatched t cell[3]
  | 0x62 => .readCounts t cell[3] cell[4] cell[5]
  | _ => .unknownOrder t cell[1]

/-! ### The cell of an order (Table 8-1, procedure 8.11) -/

/-- An order cell with its check: station, code, tag and the eleven parameter bytes, unused ones 00h. -/
def cellOf (station code tag : Byte) (p : List Byte) : Cell :=
  sealCell #v[station, code, tag, p.getD 0 0, p.getD 1 0, p.getD 2 0, p.getD 3 0, p.getD 4 0, p.getD 5 0,
    p.getD 6 0, p.getD 7 0, p.getD 8 0, p.getD 9 0, p.getD 10 0, 0, 0]

/-- The high, middle and low bytes of a field. -/
def fieldBytes16 (w : Word) : List Byte := [w.extractLsb' 8 8, w.extractLsb' 0 8]

def fieldBytes24 (w : BitVec 24) : List Byte := [w.extractLsb' 16 8, w.extractLsb' 8 8, w.extractLsb' 0 8]

/-- The cell by which the control shelf sends an order to a station; none for an event. -/
def orderCell (s : Byte) : Instr → Option Cell
  | .powerOn _ => none
  | .coldRestartBegin => none
  | .supplyFall => none
  | .restartEnd _ => none
  | .clockPresentRise _ => none
  | .clockPresentFall _ => none
  | .lineWindowEnd _ _ => none
  | .noisePeriodEnd _ => none
  | .huntCandidateFound _ _ _ => none
  | .verifyCheck _ _ _ => none
  | .expectedAlignmentOctet _ _ _ => none
  | .alignedFrame _ _ _ => none
  | .storeUnderrun _ => none
  | .referenceEvent _ _ _ => none
  | .officeFrameBoundary _ _ _ => none
  | .qualificationComplete _ => none
  | .acquisitionTimeout => none
  | .unknownOrder t code => some (cellOf s code t [])
  | .identify t => some (cellOf s 0x01 t [])
  | .warmRestart t => some (cellOf s 0x02 t [])
  | .setSpan t n a b c d e => some (cellOf s 0x10 t [n, a, b, c, d, e])
  | .spanRestart t n => some (cellOf s 0x11 t [n])
  | .readSpan t n => some (cellOf s 0x12 t [n])
  | .setThresholds t n l h => some (cellOf s 0x13 t ([n] ++ fieldBytes16 l ++ fieldBytes16 h))
  | .readStore t n => some (cellOf s 0x14 t [n])
  | .setDrift t n k l => some (cellOf s 0x15 t ([n, k] ++ fieldBytes16 l))
  | .readDrift t n => some (cellOf s 0x16 t [n])
  | .setReference t a b c d e => some (cellOf s 0x20 t [a, b, c, d, e])
  | .setTimingMode t a b => some (cellOf s 0x21 t [a, b])
  | .selectReference t a => some (cellOf s 0x22 t [a])
  | .readReference t a => some (cellOf s 0x23 t [a])
  | .readTiming t => some (cellOf s 0x24 t [])
  | .setTimingOutput t a b c d e => some (cellOf s 0x25 t [a, b, c, d, e])
  | .writeIngressEntry t a b c d e => some (cellOf s 0x30 t [a, b, c, d, e])
  | .writeEgressEntry t a b c d e => some (cellOf s 0x31 t [a, b, c, d, e])
  | .readIngressEntry t a b c => some (cellOf s 0x32 t [a, b, c])
  | .readEgressEntry t a b c => some (cellOf s 0x33 t [a, b, c])
  | .swapMaps t a => some (cellOf s 0x34 t [a])
  | .copyMaps t a => some (cellOf s 0x35 t [a])
  | .setTimer t a b p c d => some (cellOf s 0x40 t ([a, b] ++ fieldBytes16 p ++ [c, d]))
  | .loadMatch t a v => some (cellOf s 0x41 t ([a] ++ fieldBytes24 v))
  | .armTimer t a => some (cellOf s 0x42 t [a])
  | .disarmTimer t a => some (cellOf s 0x43 t [a])
  | .readTimer t a => some (cellOf s 0x44 t [a])
  | .setFrameNumber t v => some (cellOf s 0x45 t (fieldBytes24 v))
  | .setUnit t a b c d e f g h => some (cellOf s 0x50 t [a, b, c, d, e, f, g, h])
  | .startUnit t a => some (cellOf s 0x51 t [a])
  | .stopUnit t a => some (cellOf s 0x52 t [a])
  | .triggerUnit t a => some (cellOf s 0x53 t [a])
  | .readUnit t a => some (cellOf s 0x54 t [a])
  | .readBuffer t a b => some (cellOf s 0x55 t [a, b])
  | .writeBuffer t a b d => some (cellOf s 0x56 t [a, b, d[0], d[1], d[2], d[3], d[4], d[5], d[6], d[7]])
  | .readAlarms t a => some (cellOf s 0x60 t [a])
  | .clearLatched t a => some (cellOf s 0x61 t [a])
  | .readCounts t a b c => some (cellOf s 0x62 t [a, b, c])

end Sys2Proof
end

