-- ==== Sys2Proof/Config.lean ====
section
/-! DEFINITION. The fixed figures of the part, and the one open choice of the manual as a constant without a body. -/

namespace Sys2Proof

/-- The alignment octet of every span frame (R1). -/
def Config.alignmentOctet : Byte := 0xB2

/-- The superframe marker, the overhead octet of frame 0 (R1). -/
def Config.superframeMarker : Byte := 0x2D

/-- The vacant byte (spec/05, Table 5-1). -/
def Config.vacantByte : Byte := 0xFF

/-- Bits of a span frame, of a line window and of a slot of a retiming store (R1, R4, R25). -/
def Config.frameBits : Nat := 336

/-- Places of the ring of a retiming store (R25). -/
def Config.ringBits : Nat := 1344

/-- Noise period in windows (R4). -/
def Config.noisePeriod : Nat := 16

/-- The loop oscillator's pull range either side of nominal, in ppm (R64). -/
def Config.pullRange : Rat := 100

/-- The window of the lock detector, in picoseconds either side (R71). -/
def Config.lockWindow : Int := 1000000

/-- The vendor code IDENTIFY returns (R167). -/
def Config.vendorCode : Byte := 0x3C

/-- The part code IDENTIFY returns (R167). -/
def Config.partCode : Word := 0x4016

/-- The revision IDENTIFY returns (R167). -/
def Config.revision : Byte := 0x01

/-- R22 sets a restarted span's latched set "equal to its active set at the moment of taking", and one
action also ends some of those alarms. Whether an alarm that the restart itself ends stays latched is
not decided by those words: this constant has no body, so no proof can lean on either reading.
DESIGN CHOICE, safe (notes/assumptions/9.md). -/
opaque Config.spanRestartKeepsEndedAlarms : Bool

end Sys2Proof
end

