-- ==== Sys2Proof/Machine/State.lean ====
section
/-! DEFINITION. Every piece of state the manual gives the part, as plain data, and the state after a
POWER-ON restart. Each structure cites the rule or table that names its fields. -/

namespace Sys2Proof.Machine

/-- The reasons a command could stop the machine with a fault. The manual names none: every event and
every order has an effect or an outcome in every state, so there is no constructor. -/
inductive Fault where
  deriving DecidableEq, Repr

/-- The reasons a command is refused. -/
inductive Refusal where
  /-- A command that has no meaning yet; raised only by an arm of exec. Safe. No arm raises it. -/
  | notModelled (mnemonic : String)
  deriving DecidableEq, Repr

/-! ### Span lines (chapter 1) -/

/-- transmit mode of a span record (Table 1-4). -/
inductive TransmitMode where
  | normal | blank | off
  deriving DecidableEq, Repr

/-- loopback of a span record (Table 1-4). -/
inductive Loopback where
  | none | line
  deriving DecidableEq, Repr

/-- The span record (R2, Table 1-4). -/
structure SpanRecord where
  enable : Bool
  transmitMode : TransmitMode
  loopback : Loopback
  conditioned : Byte
  noiseLimit : Nat
  deriving DecidableEq, Repr

/-- The frame aligner (R7 to R11). Positions count sampled bits since the sampler started, or since the
last SPAN RESTART. HUNT holds where its search began (R8); VERIFY its candidate, the checks made and
those that failed (R9); LOCKED and FLYWHEEL the position of the last expected octet, and FLYWHEEL the
miss count 1 to 3 (R10). -/
inductive Aligner where
  | off
  | absent
  | hunt (searchFrom : Nat)
  | verify (candidate made failed : Nat)
  | locked (octetAt : Nat)
  | flywheel (octetAt misses : Nat)
  deriving DecidableEq, Repr

/-- A condition held with a streak of 0 or 1: BLANK and BREAK (R5), FAR-END (R16). -/
structure Condition where
  active : Bool
  streak : Bool
  deriving DecidableEq, Repr

/-- The receive side: the level of clock-present, the aligner, and how far the aligned frame in
progress has been handed over (R12), with the bits of its overhead octet that have arrived. -/
structure Receiver where
  clockPresent : Bool
  aligner : Aligner
  frameBit : Nat
  overhead : Byte
  deriving DecidableEq, Repr

/-- The line windows (R4 to R6): windows completed since counting began, windows and noisy windows of
the noise period in progress, and the three line conditions. -/
structure LineWindows where
  windows : Nat
  periodWindows : Nat
  tally : Nat
  blank : Condition
  brk : Condition
  noisy : Bool
  deriving DecidableEq, Repr

/-- The superframe aligner's state (R13, R14): in SF-SEARCH the aligned frames counted since the
candidate, if one is held; in SF-LOCKED the receive frame index and the missed-marker count. -/
inductive SuperframeState where
  | search (candidate : Option Nat)
  | locked (index : Fin 16) (missed : Bool)
  deriving DecidableEq, Repr

/-- The superframe aligner with the far-end report it reads (R13 to R16). -/
structure Superframe where
  state : SuperframeState
  report : Byte
  reportValid : Bool
  farEnd : Condition
  deriving DecidableEq, Repr

/-- The span transmitter (R17 to R20): both slip indications; the transmit mode, loopback and
conditioned byte in force for the office frame in progress; octet 1 of that frame; and the frame that
was sent in the office frame just ended (none: the line was not driven). -/
structure Transmitter where
  currentSlip : Bool
  previousSlip : Bool
  modeInForce : TransmitMode
  loopbackInForce : Loopback
  conditionedInForce : Byte
  overhead : Byte
  sent : Option (Vector Byte 42)
  deriving DecidableEq, Repr

/-! ### Retiming stores (chapter 2) -/

/-- The store states (Table 2-1). -/
inductive StoreState where
  | detached | centring | attached | faulted
  deriving DecidableEq, Repr

/-- last fault of a store (R45, Table 2-3). -/
inductive StoreFault where
  | none | underrun | overrun
  deriving DecidableEq, Repr

/-- A retiming store (R25 to R47). Place `i` of the ring is bit `i` counted from the most significant.
`out` holds, in order, the bits the read side has read in the office frame in progress. -/
structure Store where
  ring : BitVec 1344
  writePos : Nat
  readPos : Nat
  fill : Nat
  state : StoreState
  low : Nat
  high : Nat
  lowStored : Nat
  highStored : Nat
  lastFill : Nat
  lastFault : StoreFault
  out : List Bool
  deriving DecidableEq, Repr

/-! ### Drift meters (chapter 3) -/

/-- A drift meter (Table 3-1): `baseline` holds P_prev while it is present; `net` is N, `average` E. -/
structure Meter where
  baseline : Option Nat
  net : Int
  average : Int
  k : Nat
  kStored : Nat
  limit : Nat
  limitStored : Nat
  lastD : Int
  lastDValid : Bool
  lastHit : Bool
  drift : Bool
  deriving DecidableEq, Repr

/-- The eight performance counts of a span (Table 9-2, groups 0 and 1). -/
structure SpanCounts where
  repeatSlips : Word
  skipSlips : Word
  alignmentLosses : Word
  marginalLocks : Word
  noisyWindows : Word
  phaseHits : Word
  storeFaults : Word
  farEndSlips : Word
  deriving DecidableEq, Repr

/-- Everything the part holds for one span; `latched` is the span's latched alarm set (R155). -/
structure Span where
  record : SpanRecord
  rx : Receiver
  win : LineWindows
  sf : Superframe
  tx : Transmitter
  store : Store
  meter : Meter
  counts : SpanCounts
  latched : Word
  deriving DecidableEq, Repr

/-! ### Office timing (chapter 4) -/

/-- qualification period Q (Table 4-2). -/
inductive QPeriod where
  | q16 | q64 | q256 | q1024
  deriving DecidableEq, Repr

/-- state of a reference entry (Table 4-2). -/
inductive EntryState where
  | disabled | qualifying | qualified | faulted
  deriving DecidableEq, Repr

/-- last fault reason of a reference entry (Table 4-2). -/
inductive FaultReason where
  | none | noActivity | notAligned | drift | timeout
  deriving DecidableEq, Repr

/-- A row of the reference table (R65, Table 4-2). `span` acts in the LINE entries alone. -/
structure RefEntry where
  enable : Bool
  priority : Nat
  q : QPeriod
  span : Fin 16
  state : EntryState
  reason : FaultReason
  count : Nat
  target : QPeriod
  deriving DecidableEq, Repr

/-- An input monitor (R66); `pulse` says whether a pulse has arrived in the office frame in progress. -/
structure Monitor where
  noActivity : Bool
  streak : Nat
  pulse : Bool
  deriving DecidableEq, Repr

/-- The timing loop's state (Table 4-5). -/
inductive LoopState where
  | free | acquiring | locked | holdover
  deriving DecidableEq, Repr

/-- The timing loop (R64, R70, R74). Frequencies are ppm from nominal. `fresh` marks a selection made
since the last office superframe boundary opened (R72); `timeoutDue` marks a 256th acquisition count that a
boundary has left to be made by ACQUISITION_TIMEOUT (R72; notes/assumptions/11.md); `history` holds the oscillator frequencies of
the present stretch in LOCKED, newest first, at most 64. -/
structure Loop where
  state : LoopState
  selected : Option (Fin 4)
  fresh : Bool
  timeoutDue : Bool
  lockCount : Nat
  acqCount : Nat
  holdoverValid : Bool
  holdoverFreq : Rat
  freq : Rat
  history : List Rat
  deriving DecidableEq, Repr

/-- The phase detector and the lock detector (R71): the zero, the last phase error, the frequency
measured, and for the superframe in progress whether an error was measured and all lay inside. -/
structure Detector where
  zero : Option Int
  lastError : Option Int
  frequency : Option Rat
  measured : Bool
  inside : Bool
  deriving DecidableEq, Repr

/-- The timing mode (R78). -/
inductive TimingMode where
  | auto | manual
  deriving DecidableEq, Repr

/-- source of a timing output: OFFICE, or a reference entry (Table 4-7). -/
inductive OutputSource where
  | office
  | entry (e : Fin 4)
  deriving DecidableEq, Repr

/-- rate of a timing output, in pulses per second (Table 4-7). -/
inductive OutputRate where
  | r8000 | r4000 | r2000
  deriving DecidableEq, Repr

/-- A timing output record (R79, Table 4-7). -/
structure OutputRecord where
  enable : Bool
  source : OutputSource
  rate : OutputRate
  squelch : Bool
  deriving DecidableEq, Repr

/-- A timing output: its record as stored and as in force (R79), and the pulses begun on the pin in the
office frame in progress (R80). -/
structure TimingOutput where
  stored : OutputRecord
  inForce : OutputRecord
  pulses : Nat
  deriving DecidableEq, Repr

/-- The office timing unit (chapter 4). -/
structure Timing where
  entries : Vector RefEntry 4
  monitorA : Monitor
  monitorB : Monitor
  loop : Loop
  detector : Detector
  mode : TimingMode
  revertive : Bool
  toa : TimingOutput
  tob : TimingOutput
  deriving DecidableEq, Repr

/-! ### Highways and channel maps (chapter 5) -/

/-- An entry of the ingress map (Table 5-1). -/
inductive IngressEntry where
  | unused
  | fixed (value : Byte)
  | bearer (span : Fin 16) (channel : Fin 40)
  deriving DecidableEq, Repr

/-- An entry of the egress map (Table 5-1). -/
inductive EgressEntry where
  | idle
  | fixed (value : Byte)
  | office (lane : Fin 4) (slot : Fin 160)
  deriving DecidableEq, Repr

/-- A swap request (R102). `due` says that the boundary it records has come. -/
inductive SwapRequest where
  | absent
  | pending (due : Bool)
  deriving DecidableEq, Repr

/-- A channel map: two banks, the active-bank pointer, the swap request and the note that the map has
been swapped at the present boundary (R92 to R94, R102, R104). -/
structure ChannelMap (entry : Type) where
  banks : Vector (Vector entry 640) 2
  active : Fin 2
  request : SwapRequest
  swapped : Bool
  deriving DecidableEq, Repr

/-- The highway interface: both maps, both holds (R90, R91), and the bytes carried by the ingress
highway in the office frame just ended. Highway position (lane, slot) is index 160 × lane + slot; map
position (span, channel) is index 40 × span + channel. Index 0 of the egress hold is not used. -/
structure Highway where
  ingress : ChannelMap IngressEntry
  egress : ChannelMap EgressEntry
  retimed : Vector (Vector Byte 40) 16
  held : Vector Byte 640
  sent : Vector Byte 640
  deriving DecidableEq, Repr

/-! ### Action timers (chapter 6) -/

/-- mode of an action timer (Table 6-1). -/
inductive TimerMode where
  | oneShot | periodic
  deriving DecidableEq, Repr

/-- action of an action timer (Table 6-1). -/
inductive TimerAction where
  | mark | swapIngress | swapEgress | swapBoth | selectReference
  deriving DecidableEq, Repr

/-- last outcome of an action timer (Table 6-1). -/
inductive TimerOutcome where
  | none | done | wrongMode | notQualified
  deriving DecidableEq, Repr

/-- An action timer (R110, Table 6-1). `param` is 0 unless the action is SELECT-REFERENCE. -/
structure Timer where
  matchAt : FrameNumber
  mode : TimerMode
  period : Word
  action : TimerAction
  param : Fin 4
  armed : Bool
  matched : Bool
  lastOutcome : TimerOutcome
  deriving DecidableEq, Repr

/-- A pending office frame number (R108). `due` says that the boundary it records has come. -/
structure PendingNumber where
  value : FrameNumber
  due : Bool
  deriving DecidableEq, Repr

/-! ### Channel test units (chapter 7) -/

/-- mode of a test unit (Table 7-1). -/
inductive UnitMode where
  | capture | insert
  deriving DecidableEq, Repr

/-- point of a test unit (Table 7-1). -/
inductive Point where
  | rx (span : Fin 16) (channel : Fin 40)
  | tx (span : Fin 16) (channel : Fin 40)
  | ingress (lane : Fin 4) (slot : Fin 160)
  | egress (lane : Fin 4) (slot : Fin 160)
  deriving DecidableEq, Repr

/-- state of a test unit (Table 7-1). -/
inductive UnitState where
  | stopped | running | done
  deriving DecidableEq, Repr

/-- A channel test unit (R120, Table 7-1). -/
structure TestUnit where
  mode : UnitMode
  point : Point
  source : Fin 8
  count : Nat
  repeating : Bool
  state : UnitState
  pointer : Fin 64
  remaining : Nat
  wraps : Nat
  newTrigger : Bool
  pending : Bool
  collided : Bool
  buffer : Vector Byte 64
  deriving DecidableEq, Repr

/-! ### The order channel (chapter 8) -/

/-- The outcomes of orders (Table 8-3). -/
inductive OrderOutcome where
  | done | doneClamped | accepted | unknownOrder | badParameter | badSlot | swapPending
  | notQualified | inUse | wrongMode | unitRunning
  deriving DecidableEq, Repr

/-- A pending reply (R146): code and tag as received, the outcome and result bytes 1 to 9. -/
structure Reply where
  code : Byte
  tag : Byte
  outcome : OrderOutcome
  results : Vector Byte 9
  deriving DecidableEq, Repr

/-- The order channel interface: the receive cell being gathered, the send cell of the superframe in
progress, the pending reply (R137, R145, R151), and whether the first office superframe boundary since
office timing started has come, from which cells are gathered and sent. -/
structure OrderChannel where
  receive : Cell
  send : Option Cell
  reply : Option Reply
  framed : Bool
  deriving DecidableEq, Repr

/-! ### Alarm collector and restarts (chapters 9 and 10) -/

/-- The device latched set and the device counts (Table 9-1, Table 9-2 group 2). -/
structure Device where
  latched : Word
  checkErrors : Word
  acquisitionTimeouts : Word
  referenceSwitches : Word
  deriving DecidableEq, Repr

/-- The kinds of restart of the part that hold it until they end (R163). -/
inductive RestartKind where
  | powerOn | cold
  deriving DecidableEq, Repr

/-- The restart-cause record (R165). -/
inductive RestartCause where
  | powerOn | cold | warm
  deriving DecidableEq, Repr

/-- Restart state: the restart in progress, if one is; the levels of RESET_N and of the supply; the
restart-cause record, restart count and restart notice (R163, R165, R166); the station number held
(R139). -/
structure Restart where
  inProgress : Option RestartKind
  resetLow : Bool
  supplyUp : Bool
  cause : RestartCause
  count : Byte
  notice : Bool
  station : BitVec 5
  deriving DecidableEq, Repr

/-- The state of the part, and the queue of the commands that wait. -/
structure State where
  pending : List Instr
  restart : Restart
  spans : Vector Span 16
  timing : Timing
  highway : Highway
  frameNumber : FrameNumber
  pendingNumber : Option PendingNumber
  timers : Vector Timer 4
  units : Vector TestUnit 4
  channel : OrderChannel
  device : Device
  deriving DecidableEq, Repr

/-! ### The values after POWER-ON and COLD -/

/-- The span record after POWER-ON or COLD (Table 1-4). -/
def SpanRecord.reset : SpanRecord :=
  { enable := false, transmitMode := .off, loopback := .none, conditioned := 0xFF, noiseLimit := 8 }

/-- An inactive condition with streak 0. -/
def Condition.reset : Condition := { active := false, streak := false }

/-- Line windows stopped: no window or period in progress, every line condition inactive (R4, R24). -/
def LineWindows.reset : LineWindows :=
  { windows := 0, periodWindows := 0, tally := 0, blank := .reset, brk := .reset, noisy := false }

/-- The superframe aligner in SF-SEARCH with no candidate, last report 00h and not valid (R24). -/
def Superframe.reset : Superframe :=
  { state := .search none, report := 0, reportValid := false, farEnd := .reset }

/-- The receiver with the aligner in OFF (R24). -/
def Receiver.reset : Receiver :=
  { clockPresent := false, aligner := .off, frameBit := 0, overhead := 0 }

/-- The transmitter with mode OFF in force and both slip indications clear (R24). -/
def Transmitter.reset : Transmitter :=
  { currentSlip := false, previousSlip := false, modeInForce := .off, loopbackInForce := .none,
    conditionedInForce := 0xFF, overhead := 0xFF, sent := none }

/-- A store after POWER-ON or COLD (R47). -/
def Store.reset : Store :=
  { ring := 0, writePos := 0, readPos := 0, fill := 0, state := .detached, low := 168, high := 1176,
    lowStored := 168, highStored := 1176, lastFill := 0, lastFault := .none, out := [] }

/-- A meter after POWER-ON or COLD (Table 3-1). -/
def Meter.reset : Meter :=
  { baseline := none, net := 0, average := 0, k := 4, kStored := 4, limit := 0, limitStored := 0,
    lastD := 0, lastDValid := false, lastHit := false, drift := false }

/-- Every count of a span at 0 (R162). -/
def SpanCounts.reset : SpanCounts :=
  { repeatSlips := 0, skipSlips := 0, alignmentLosses := 0, marginalLocks := 0,
    noisyWindows := 0, phaseHits := 0, storeFaults := 0, farEndSlips := 0 }

/-- A span after POWER-ON or COLD. -/
def Span.reset : Span :=
  { record := .reset, rx := .reset, win := .reset, sf := .reset, tx := .reset, store := .reset,
    meter := .reset, counts := .reset, latched := 0 }

/-- The reference table after POWER-ON or COLD (Table 4-3). -/
def RefEntry.resetTable : Vector RefEntry 4 :=
  #v[ { enable := true, priority := 1, q := .q64, span := 0, state := .qualifying, reason := .none,
        count := 0, target := .q64 },
      { enable := true, priority := 2, q := .q64, span := 0, state := .qualifying, reason := .none,
        count := 0, target := .q64 },
      { enable := false, priority := 3, q := .q256, span := 0, state := .disabled, reason := .none,
        count := 0, target := .q256 },
      { enable := false, priority := 4, q := .q256, span := 1, state := .disabled, reason := .none,
        count := 0, target := .q256 } ]

/-- An input monitor after POWER-ON or COLD (R66). -/
def Monitor.reset : Monitor := { noActivity := false, streak := 0, pulse := false }

/-- The phase detector with nothing measured. -/
def Detector.reset : Detector :=
  { zero := none, lastError := none, frequency := none, measured := false, inside := true }

/-- The loop after POWER-ON or COLD (R70). -/
def Loop.reset : Loop :=
  { state := .free, selected := none, fresh := false, timeoutDue := false, lockCount := 0, acqCount := 0,
    holdoverValid := false, holdoverFreq := 0, freq := 0, history := [] }

/-- A timing output record after POWER-ON or COLD (Table 4-7). -/
def OutputRecord.reset : OutputRecord :=
  { enable := false, source := .office, rate := .r8000, squelch := true }

/-- A timing output after POWER-ON or COLD. -/
def TimingOutput.reset : TimingOutput := { stored := .reset, inForce := .reset, pulses := 0 }

/-- Office timing after POWER-ON or COLD (R86). -/
def Timing.reset : Timing :=
  { entries := RefEntry.resetTable, monitorA := .reset, monitorB := .reset, loop := .reset,
    detector := .reset, mode := .auto, revertive := false, toa := .reset, tob := .reset }

/-- A map whose every entry of both banks is `e`, bank 0 active, no request (R106). -/
def ChannelMap.reset {entry : Type} (e : entry) : ChannelMap entry :=
  { banks := Vector.replicate 2 (Vector.replicate 640 e), active := 0, request := .absent,
    swapped := false }

/-- The highway interface after POWER-ON or COLD (R106). -/
def Highway.reset : Highway :=
  { ingress := .reset .unused, egress := .reset .idle,
    retimed := Vector.replicate 16 (Vector.replicate 40 0xFF),
    held := Vector.replicate 640 0xFF, sent := Vector.replicate 640 0xFF }

/-- An action timer after POWER-ON, COLD or WARM (Table 6-1). -/
def Timer.reset : Timer :=
  { matchAt := 0, mode := .oneShot, period := 1, action := .mark, param := 0, armed := false,
    matched := false, lastOutcome := .none }

/-- A test unit after POWER-ON, COLD or WARM (Table 7-1). -/
def TestUnit.reset : TestUnit :=
  { mode := .capture, point := .rx 0 0, source := 0, count := 1, repeating := false,
    state := .stopped, pointer := 0, remaining := 0, wraps := 0, newTrigger := false,
    pending := false, collided := false, buffer := Vector.replicate 64 0 }

/-- The order channel after POWER-ON or COLD (R151). -/
def OrderChannel.reset : OrderChannel :=
  { receive := Vector.replicate 16 0, send := none, reply := none, framed := false }

/-- The device sets and counts after POWER-ON or COLD: FREE alone is latched (R162). -/
def Device.reset : Device :=
  { latched := 0x0020, checkErrors := 0, acquisitionTimeouts := 0, referenceSwitches := 0 }

/-- Restart state right after a POWER-ON restart (R163, R165, R166). The straps are not given by the
manual: all low is this model's choice (notes/assumptions/2.md). -/
def Restart.reset : Restart :=
  { inProgress := none, resetLow := false, supplyUp := true, cause := .powerOn, count := 0,
    notice := true, station := 0 }

/-- The part right after a POWER-ON restart has ended: office timing has just started (R63). -/
def State.reset : State :=
  { pending := [], restart := .reset, spans := Vector.replicate 16 .reset, timing := .reset,
    highway := .reset, frameNumber := 0, pendingNumber := none,
    timers := Vector.replicate 4 .reset, units := Vector.replicate 4 .reset, channel := .reset,
    device := .reset }

end Sys2Proof.Machine
end

