-- ==== Sys2Proof/Machine/Operands.lean ====
section
/-! DEFINITION. The operand forms: how parameter bytes are read and how fields are coded in result
bytes (Tables 1-6, 2-3, 4-9, 5-2, 6-2, 7-2 and 8-3). A reading answers none where the manual gives
BAD-PARAMETER. -/

namespace Sys2Proof.Machine

/-! ### Bytes of multi-byte fields, most significant first (1.5) -/

/-- The high byte of a 16-bit field. -/
def hi16 (w : Word) : Byte := w.extractLsb' 8 8

/-- The low byte of a 16-bit field. -/
def lo16 (w : Word) : Byte := w.extractLsb' 0 8

/-- The three bytes of a 24-bit field. -/
def bytes24 (w : BitVec 24) : List Byte :=
  [w.extractLsb' 16 8, w.extractLsb' 8 8, w.extractLsb' 0 8]

/-- The two bytes of a 16-bit field. -/
def bytes16 (w : Word) : List Byte := [hi16 w, lo16 w]

/-- A Bool as a byte, 0 or 1. -/
def bit (b : Bool) : Byte := if b then 1 else 0

/-- A Bool as bit `i` of a byte. -/
def flag (i : Nat) (b : Bool) : Byte := if b then (1 : Byte) <<< i else 0

/-! ### Numbers with a range -/

/-- A number parameter below `n`. -/
def below (n : Nat) (b : Byte) : Option (Fin n) := if h : b.toNat < n then some ⟨b.toNat, h⟩ else none

/-- A span number 0 to 15. -/
def spanOf (b : Byte) : Option (Fin 16) := below 16 b

/-- A code that stands for OFF or ON, no or yes: 0 or 1. -/
def boolOf (b : Byte) : Option Bool := if b = 0 then some false else if b = 1 then some true else none

/-- `x` brought into `lo` to `hi` (R144). -/
def clamp (lo hi x : Nat) : Nat := max lo (min hi x)

/-! ### Span fields (Table 1-6) -/

def transmitModeOf (b : Byte) : Option TransmitMode :=
  if b = 0 then some .normal else if b = 1 then some .blank else if b = 2 then some .off else none

def TransmitMode.code : TransmitMode → Byte
  | .normal => 0
  | .blank => 1
  | .off => 2

def loopbackOf (b : Byte) : Option Loopback :=
  if b = 0 then some .none else if b = 1 then some .line else none

def Loopback.code : Loopback → Byte
  | .none => 0
  | .line => 1

def Aligner.code : Aligner → Byte
  | .off => 0
  | .absent => 1
  | .hunt _ => 2
  | .verify _ _ _ => 3
  | .locked _ => 4
  | .flywheel _ _ => 5

/-- The miss count: 0 in every state but FLYWHEEL (R10). -/
def Aligner.missCount : Aligner → Nat
  | .flywheel _ m => m
  | _ => 0

def SuperframeState.code : SuperframeState → Byte
  | .search _ => 0
  | .locked _ _ => 1

/-! ### Store fields (Table 2-3) -/

def StoreState.code : StoreState → Byte
  | .detached => 0
  | .centring => 1
  | .attached => 2
  | .faulted => 3

def StoreFault.code : StoreFault → Byte
  | .none => 0
  | .underrun => 1
  | .overrun => 2

/-! ### Timing fields (Table 4-9) -/

def qOf (b : Byte) : Option QPeriod :=
  if b = 0 then some .q16 else if b = 1 then some .q64 else if b = 2 then some .q256
  else if b = 3 then some .q1024 else none

def QPeriod.code : QPeriod → Byte
  | .q16 => 0
  | .q64 => 1
  | .q256 => 2
  | .q1024 => 3

/-- Q in superframes (Table 4-2). -/
def QPeriod.superframes : QPeriod → Nat
  | .q16 => 16
  | .q64 => 64
  | .q256 => 256
  | .q1024 => 1024

/-- A priority 1 to 4 (R83). -/
def priorityOf (b : Byte) : Option Nat := if 1 ≤ b.toNat ∧ b.toNat ≤ 4 then some b.toNat else none

def EntryState.code : EntryState → Byte
  | .disabled => 0
  | .qualifying => 1
  | .qualified => 2
  | .faulted => 3

def FaultReason.code : FaultReason → Byte
  | .none => 0
  | .noActivity => 1
  | .notAligned => 2
  | .drift => 3
  | .timeout => 4

def LoopState.code : LoopState → Byte
  | .free => 0
  | .acquiring => 1
  | .locked => 2
  | .holdover => 3

def timingModeOf (b : Byte) : Option TimingMode :=
  if b = 0 then some .auto else if b = 1 then some .manual else none

def TimingMode.code : TimingMode → Byte
  | .auto => 0
  | .manual => 1

def outputSourceOf (b : Byte) : Option OutputSource :=
  if b = 0 then some .office else if b = 1 then some (.entry 0) else if b = 2 then some (.entry 1)
  else if b = 3 then some (.entry 2) else if b = 4 then some (.entry 3) else none

def OutputSource.code : OutputSource → Byte
  | .office => 0
  | .entry e => BitVec.ofNat 8 (e.val + 1)

def outputRateOf (b : Byte) : Option OutputRate :=
  if b = 0 then some .r8000 else if b = 1 then some .r4000 else if b = 2 then some .r2000 else none

def OutputRate.code : OutputRate → Byte
  | .r8000 => 0
  | .r4000 => 1
  | .r2000 => 2

/-- The divisor of OFFICE pulses (R80). -/
def OutputRate.divisor : OutputRate → Nat
  | .r8000 => 1
  | .r4000 => 2
  | .r2000 => 4

/-- A selected entry as a byte: FFh for none. -/
def selectedCode : Option (Fin 4) → Byte
  | none => 0xFF
  | some e => BitVec.ofNat 8 e.val

/-- Whether an entry is LINE-1 or LINE-2 (Table 4-2). -/
def isLine (e : Fin 4) : Bool := decide (2 ≤ e.val)

/-! ### Map fields (Table 5-2) -/

/-- The index of highway position (lane, slot). -/
def slotIndex (lane : Fin 4) (slot : Fin 160) : Fin 640 := ⟨160 * lane.val + slot.val, by omega⟩

/-- The index of map position (span, channel). -/
def channelIndex (span : Fin 16) (channel : Fin 40) : Fin 640 :=
  ⟨40 * span.val + channel.val, by omega⟩

/-- An ingress entry as written: kind code and two arguments (R98). -/
def ingressEntryOf (kind arg1 arg2 : Byte) : Option IngressEntry :=
  if kind = 0 then some .unused
  else if kind = 1 then some (.fixed arg1)
  else if kind = 2 then
    match below 16 arg1, below 40 arg2 with
    | some n, some c => some (.bearer n c)
    | _, _ => none
  else none

/-- An ingress entry as stored: kind and two arguments, unused ones 00h (5.5). -/
def IngressEntry.bytes : IngressEntry → List Byte
  | .unused => [0, 0, 0]
  | .fixed v => [1, v, 0]
  | .bearer n c => [2, BitVec.ofNat 8 n.val, BitVec.ofNat 8 c.val]

/-- An egress entry as written (R99); OFFICE naming (0, 0) is judged by the order. -/
def egressEntryOf (kind arg1 arg2 : Byte) : Option EgressEntry :=
  if kind = 0 then some .idle
  else if kind = 1 then some (.fixed arg1)
  else if kind = 2 then
    match below 4 arg1, below 160 arg2 with
    | some l, some t => some (.office l t)
    | _, _ => none
  else none

/-- An egress entry as stored. -/
def EgressEntry.bytes : EgressEntry → List Byte
  | .idle => [0, 0, 0]
  | .fixed v => [1, v, 0]
  | .office l t => [2, BitVec.ofNat 8 l.val, BitVec.ofNat 8 t.val]

/-- A direction: whether it names the ingress map, and whether the egress map. -/
def directionOf (b : Byte) : Option (Bool × Bool) :=
  if b = 0 then some (true, false) else if b = 1 then some (false, true)
  else if b = 2 then some (true, true) else none

/-! ### Timer fields (Table 6-2) -/

def timerModeOf (b : Byte) : Option TimerMode :=
  if b = 0 then some .oneShot else if b = 1 then some .periodic else none

def TimerMode.code : TimerMode → Byte
  | .oneShot => 0
  | .periodic => 1

/-- An action with its parameter: an entry number for SELECT-REFERENCE, else not examined and stored
as 0 (R111). -/
def timerActionOf (action param : Byte) : Option (TimerAction × Fin 4) :=
  if action = 0 then some (.mark, 0)
  else if action = 1 then some (.swapIngress, 0)
  else if action = 2 then some (.swapEgress, 0)
  else if action = 3 then some (.swapBoth, 0)
  else if action = 4 then (below 4 param).map fun e => (.selectReference, e)
  else none

def TimerAction.code : TimerAction → Byte
  | .mark => 0
  | .swapIngress => 1
  | .swapEgress => 2
  | .swapBoth => 3
  | .selectReference => 4

def TimerOutcome.code : TimerOutcome → Byte
  | .done => 0x00
  | .notQualified => 0x14
  | .wrongMode => 0x16
  | .none => 0xFF

/-! ### Unit fields (Table 7-2) -/

def unitModeOf (b : Byte) : Option UnitMode :=
  if b = 0 then some .capture else if b = 1 then some .insert else none

def UnitMode.code : UnitMode → Byte
  | .capture => 0
  | .insert => 1

def UnitState.code : UnitState → Byte
  | .stopped => 0
  | .running => 1
  | .done => 2

/-- A point as kind and two arguments (7.1, R130 step 1). -/
def pointOf (kind arg1 arg2 : Byte) : Option Point :=
  if kind = 0 ∨ kind = 1 then
    match below 16 arg1, below 40 arg2 with
    | some n, some c => some (if kind = 0 then .rx n c else .tx n c)
    | _, _ => none
  else if kind = 2 ∨ kind = 3 then
    match below 4 arg1, below 160 arg2 with
    | some l, some t => some (if kind = 2 then .ingress l t else .egress l t)
    | _, _ => none
  else none

/-- A point as its three bytes. -/
def Point.bytes : Point → List Byte
  | .rx n c => [0, BitVec.ofNat 8 n.val, BitVec.ofNat 8 c.val]
  | .tx n c => [1, BitVec.ofNat 8 n.val, BitVec.ofNat 8 c.val]
  | .ingress l t => [2, BitVec.ofNat 8 l.val, BitVec.ofNat 8 t.val]
  | .egress l t => [3, BitVec.ofNat 8 l.val, BitVec.ofNat 8 t.val]

/-- The span a point lies on, for trigger sources 3 and 4 (R123). -/
def Point.span? : Point → Option (Fin 16)
  | .rx n _ => some n
  | .tx n _ => some n
  | .ingress _ _ => none
  | .egress _ _ => none

/-- Whether a point lies in the management slot (R130 step 2). -/
def Point.management : Point → Bool
  | .ingress l t => l == 0 && t == 0
  | .egress l t => l == 0 && t == 0
  | _ => false

/-- Whether a mode can be set to a point (R122): INSERT to TX and IN points alone. -/
def UnitMode.allows : UnitMode → Point → Bool
  | .capture, _ => true
  | .insert, .tx _ _ => true
  | .insert, .ingress _ _ => true
  | .insert, _ => false

/-! ### Outcomes and owners -/

/-- The outcome codes (Table 8-3). -/
def OrderOutcome.code : OrderOutcome → Byte
  | .done => 0x00
  | .doneClamped => 0x01
  | .accepted => 0x02
  | .unknownOrder => 0x10
  | .badParameter => 0x11
  | .badSlot => 0x12
  | .swapPending => 0x13
  | .notQualified => 0x14
  | .inUse => 0x15
  | .wrongMode => 0x16
  | .unitRunning => 0x17

/-- The outcome of a selection request as an order's outcome (R77). -/
def TimerOutcome.toOrder : TimerOutcome → OrderOutcome
  | .done => .done
  | .wrongMode => .wrongMode
  | .notQualified => .notQualified
  | .none => .done

/-- The owner of alarm sets: a span 0 to 15 (`some`), or 10h for the device (`none`) (R156). -/
def ownerOf (b : Byte) : Option (Option (Fin 16)) :=
  if b = 0x10 then some none else (below 16 b).map some

/-- The restart-cause codes (R167). -/
def RestartCause.code : RestartCause → Byte
  | .powerOn => 1
  | .cold => 2
  | .warm => 3

end Sys2Proof.Machine
end

