-- ==== Sys2Proof/Machine/Flags.lean ====
section
/-! DEFINITION. Every flag computation: the active alarm sets, the attention summary, the flag bytes of
replies and status cells, and the output pins, all read off the state (chapters 9 and 10, R134, R61). -/

namespace Sys2Proof.Machine

/-- aligned: LOCKED or FLYWHEEL (1.11). -/
def Aligner.aligned : Aligner → Bool
  | .locked _ => true
  | .flywheel _ _ => true
  | _ => false

/-- In HUNT or VERIFY: the condition of NOT-ALIGNED (Table 9-1). -/
def Aligner.seeking : Aligner → Bool
  | .hunt _ => true
  | .verify _ _ _ => true
  | _ => false

def SuperframeState.isLocked : SuperframeState → Bool
  | .locked _ _ => true
  | .search _ => false

/-- The sampler runs while enable is ON and clock-present is high (R3). -/
def Span.sampling (sp : Span) : Bool := sp.record.enable && sp.rx.clockPresent

/-- A Bool as bit `i` of a 16-bit alarm set. -/
def alarmBit (i : Nat) (b : Bool) : Word := if b then (1 : Word) <<< i else 0

/-- STORE-FAULT in a span set, and CHECK-ERROR in the device set (Table 9-1). -/
def storeFaultAlarm : Word := 0x0100
def checkErrorAlarm : Word := 0x0040

/-- The span active set (R153, Table 9-1). -/
def Span.active (sp : Span) : Word :=
  alarmBit 0 (sp.record.enable && sp.rx.aligner == .absent) |||
  alarmBit 1 sp.win.blank.active |||
  alarmBit 2 sp.win.brk.active |||
  alarmBit 3 sp.win.noisy |||
  alarmBit 4 sp.rx.aligner.seeking |||
  alarmBit 5 (sp.rx.aligner.aligned && !sp.sf.state.isLocked) |||
  alarmBit 6 sp.sf.farEnd.active |||
  alarmBit 7 sp.meter.drift

/-- The device active set of office timing (R154, Table 9-1). -/
def Timing.active (t : Timing) : Word :=
  alarmBit 0 (t.entries[0].state == .faulted) |||
  alarmBit 1 (t.entries[1].state == .faulted) |||
  alarmBit 2 (t.entries[2].state == .faulted) |||
  alarmBit 3 (t.entries[3].state == .faulted) |||
  alarmBit 4 (t.loop.state == .holdover) |||
  alarmBit 5 (t.loop.state == .free)

/-- An enabled span that is not aligned: bit 7 of the far-end report (R18) and the UNALIGNED bit. -/
def Span.unaligned (sp : Span) : Bool := sp.record.enable && !sp.rx.aligner.aligned

def SwapRequest.isPending : SwapRequest → Bool
  | .pending _ => true
  | .absent => false

/-- Whether the latched set of some span is non-empty (R160 bit 6). -/
def State.spanLatched (s : State) : Bool := s.spans.toList.any fun sp => sp.latched != 0

/-- The attention summary (R160, Table 9-3). -/
def State.summary (s : State) : Byte :=
  flag 7 (s.timing.loop.state != .locked) |||
  flag 6 s.spanLatched |||
  flag 5 (s.device.latched != 0) |||
  flag 4 (s.units.toList.any fun u => u.state == .done) |||
  flag 3 (s.timers.toList.any fun t => t.matched) |||
  flag 2 (s.highway.ingress.request.isPending || s.highway.egress.request.isPending) |||
  flag 1 s.restart.notice |||
  flag 0 (s.spans.toList.any fun sp => sp.unaligned)

/-- The line conditions byte of READ SPAN (Table 1-6). -/
def Span.lineConditions (sp : Span) : Byte :=
  flag 7 sp.rx.clockPresent ||| flag 3 sp.sf.farEnd.active ||| flag 2 sp.win.noisy |||
  flag 1 sp.win.brk.active ||| flag 0 sp.win.blank.active

/-- The settings byte of READ SPAN (Table 8-4, code 12h, result 7). -/
def SpanRecord.settings (r : SpanRecord) : Byte :=
  flag 7 r.enable ||| (r.transmitMode.code <<< 4) ||| r.loopback.code

/-- The flags byte of READ DRIFT (R61). -/
def Meter.flags (m : Meter) : Byte :=
  flag 7 m.baseline.isSome ||| flag 6 m.drift ||| flag 5 m.lastDValid ||| flag 4 m.lastHit |||
  BitVec.ofNat 8 m.k

/-- The flags byte of READ TIMING (Table 4-8, result 3). -/
def Timing.flags (t : Timing) : Byte :=
  flag 7 (t.mode == .manual) ||| flag 6 t.revertive ||| flag 5 t.loop.holdoverValid

/-- A timing output record as one byte (Table 4-8, results 7 and 8). -/
def OutputRecord.byte (r : OutputRecord) : Byte :=
  flag 7 r.enable ||| flag 6 r.squelch ||| (r.source.code <<< 3) ||| r.rate.code

/-- The timer flags byte (Table 6-2). -/
def Timer.flags (t : Timer) : Byte :=
  flag 7 t.armed ||| flag 6 t.matched ||| flag 5 (t.mode == .periodic)

/-- The unit flags byte (R134, result 2). -/
def TestUnit.flags (u : TestUnit) : Byte :=
  flag 7 u.pending ||| flag 6 u.newTrigger ||| flag 5 u.collided ||| flag 4 (u.mode == .insert) |||
  flag 3 u.repeating ||| BitVec.ofNat 8 u.source.val

/-- The pending-swap flags (Table 5-2). -/
def Highway.swapFlags (h : Highway) : Byte :=
  flag 1 h.egress.request.isPending ||| flag 0 h.ingress.request.isPending

/-- The aligned-span set of the eight spans from `base` up, bit 0 for span `base` (Table 8-2). -/
def State.alignedSet (s : State) (base : Nat) : Byte :=
  (List.range 8).foldl
    (fun acc i => acc ||| flag i ((s.spans[base + i]?.map fun sp => sp.rx.aligner.aligned).getD false)) 0

/-- The running-unit set (Table 8-2). -/
def State.runningSet (s : State) : Byte :=
  flag 0 (s.units[0].state == .running) ||| flag 1 (s.units[1].state == .running) |||
  flag 2 (s.units[2].state == .running) ||| flag 3 (s.units[3].state == .running)

/-- The armed-timer set (Table 8-2). -/
def State.armedSet (s : State) : Byte :=
  flag 0 s.timers[0].armed ||| flag 1 s.timers[1].armed |||
  flag 2 s.timers[2].armed ||| flag 3 s.timers[3].armed

/-! ### Output pins -/

/-- ALM is asserted while some latched set is non-empty, and released while a restart holds the part
(R161, R163). -/
def State.alm (s : State) : Bool :=
  s.restart.inProgress.isNone && (s.spanLatched || s.device.latched != 0)

/-- TDE of a span: active in NORMAL and BLANK, inactive while a restart holds the part (R20, R163). -/
def State.tde (s : State) (n : Fin 16) : Bool :=
  s.restart.inProgress.isNone && s.spans[n].tx.modeInForce != .off

/-- Office timing, and with it HCK, HFP and the ingress lanes, runs but for a restart in progress
(R63, R88). -/
def State.officeRuns (s : State) : Bool := s.restart.inProgress.isNone

/-- HCK: while office timing runs one period for each bit of a lane (none: no level to give); held high
while a restart holds the part (R88, R163). -/
def State.hck (s : State) : Option Bool := if s.officeRuns then none else some true

/-- The width of the HFP pulse at the start of the office frame in progress, in HCK periods: two at an
office superframe boundary, one otherwise; no pulse while office timing does not run (R88). -/
def State.hfpWidth (s : State) : Nat :=
  if s.officeRuns then
    if s.channel.framed && s.frameNumber.toNat % 16 == 0 then 2 else 1
  else 0

/-- HFP in a period of HCK of the office frame in progress; held high while a restart holds the part
(R88, R163). DESIGN CHOICE, unsafe (notes/assumptions/19.md): the manual gives HFP no active level, and the
model takes asserted as high. -/
def State.hfp (s : State) (period : Fin 1280) : Bool := !s.officeRuns || decide (period.val < s.hfpWidth)

/-! ### Lanes (R87) -/

/-- Bit `i` of a lane, counted from the start of the office frame: slot s occupies bits 8 × s to 8 × s + 7,
most significant bit first (R87). -/
def laneBit (bytes : Vector Byte 640) (lane : Fin 4) (i : Fin 1280) : Bool :=
  (bytes[slotIndex lane ⟨i.val / 8, by omega⟩]).getMsbD (i.val % 8)

/-- IHD of a lane at bit `i` of the office frame just ended, true for a 1 bit; held high while a restart holds the
part (R87, R163). DESIGN CHOICE, unsafe (notes/assumptions/19.md): the manual gives no levels, and the model takes
a 1 bit on the lane as the high level of R163. -/
def State.ihd (s : State) (lane : Fin 4) (i : Fin 1280) : Bool := !s.officeRuns || laneBit s.highway.sent lane i

/-- The bytes received on the egress highway in an office frame: each lane as EHD0 to EHD3 brought it, one
sample for each period of HCK, the first the most significant (R87, R88). -/
def sampledEgress (lanes : Vector (BitVec 1280) 4) : Vector Byte 640 :=
  Vector.ofFn fun i : Fin 640 => (lanes[i.val / 160]).extractLsb' (1272 - 8 * (i.val % 160)) 8

/-! ### Transmit lines (R1, R17) -/

/-- Bit `i` of a span frame, counted from its start: octet o occupies bits 8 × o to 8 × o + 7, most significant
bit first (R1, R17). -/
def lineBit (frame : Vector Byte 42) (i : Fin 336) : Bool := (frame[i.val / 8]).getMsbD (i.val % 8)

/-- TD of a span at bit `i` of the transmit frame just ended; none where the line was not driven: in mode OFF, and
while a restart holds the part with TDE inactive (R1, R17, R20, R163). A driven bit is given as the bit, not as a
level. -/
def State.td (s : State) (n : Fin 16) (i : Fin 336) : Option Bool :=
  if s.officeRuns then s.spans[n].tx.sent.map fun frame => lineBit frame i else none

/-! ### The office frame number read as a position (R107) -/

/-- The office frame number divided by 16: the superframe count (R107). -/
def superframeCount (n : FrameNumber) : Nat := n.toNat / 16

/-- The frame index within the office superframe (R107). -/
def frameIndex (n : FrameNumber) : Nat := n.toNat % 16

end Sys2Proof.Machine
end

