-- ==== Sys2Proof/Machine/Ops.lean ====
section
/-! DEFINITION. The named operations that every block shares: access to spans, entries, timers and
units; latching of alarms; counts; triggers of test units; replies; the reference entries' following of
their fault conditions and the dropping and making of selections. A block has no exception entry; what
stands in its place, an alarm raised or a trigger offered, is here. -/

namespace Sys2Proof.Machine

/-! ### Access -/

def State.span (s : State) (n : Fin 16) : Span := s.spans[n]

def State.setSpan (s : State) (n : Fin 16) (sp : Span) : State := { s with spans := s.spans.set n sp }

/-- Span `n` changed by `f`, everything else kept. -/
def State.modSpan (s : State) (n : Fin 16) (f : Span → Span) : State := s.setSpan n (f (s.span n))

def State.entry (s : State) (e : Fin 4) : RefEntry := s.timing.entries[e]

def State.setEntry (s : State) (e : Fin 4) (x : RefEntry) : State :=
  { s with timing := { s.timing with entries := s.timing.entries.set e x } }

def State.setLoop (s : State) (l : Loop) : State := { s with timing := { s.timing with loop := l } }

def State.setTimer (s : State) (n : Fin 4) (t : Timer) : State := { s with timers := s.timers.set n t }

def State.setUnit (s : State) (u : Fin 4) (x : TestUnit) : State := { s with units := s.units.set u x }

/-- Every span number, in order. -/
def allSpans : List (Fin 16) := [0, 1, 2, 3, 4, 5, 6, 7, 8, 9, 10, 11, 12, 13, 14, 15]

/-- Every entry, timer or unit number, in order. -/
def allFour : List (Fin 4) := [0, 1, 2, 3]

/-! ### Alarms and counts (R155, R158) -/

/-- A 16-bit count raised by one, unless it stands at 65535 (R158). -/
def raise (c : Word) : Word := if c = 0xFFFF then c else c + 1

/-- Every active alarm of the span is latched (R155). -/
def Span.latch (sp : Span) : Span := { sp with latched := sp.latched ||| sp.active }

/-- Every active device alarm is latched (R155). -/
def State.latchDevice (s : State) : State :=
  { s with device := { s.device with latched := s.device.latched ||| s.timing.active } }

/-! ### Triggers of the test units (R123, R124) -/

/-- The new-trigger flag of the present office frame is set. -/
def TestUnit.trigger (u : TestUnit) : TestUnit := { u with newTrigger := true }

/-- An event of source `src` offered to all four units. -/
def State.offerTrigger (s : State) (src : Fin 8) : State :=
  { s with units := s.units.map fun u => if u.source = src then u.trigger else u }

/-- An event of source 3 or 4 of span `n`, offered to all four units. -/
def State.offerSpanTrigger (s : State) (src : Fin 8) (n : Fin 16) : State :=
  { s with units := s.units.map fun u => if u.source = src ∧ u.point.span? = some n then u.trigger else u }

/-- An event of source 5 or 6, offered to unit `u` alone. -/
def State.offerUnitTrigger (s : State) (src : Fin 8) (u : Fin 4) : State :=
  if s.units[u].source = src then s.setUnit u s.units[u].trigger else s

/-! ### Conditions with a streak (R5, R16) -/

/-- One step of a condition: `q` says whether this window or report qualifies (R5 table, R16). -/
def Condition.step (c : Condition) (q : Bool) : Condition :=
  if c.active = q then { c with streak := false }
  else if c.streak then { active := q, streak := false }
  else { c with streak := true }

/-! ### Replies (R146) -/

/-- Result bytes 1 to 9, those not filled set to 00h. -/
def results9 (l : List Byte) : Vector Byte 9 :=
  #v[l.getD 0 0, l.getD 1 0, l.getD 2 0, l.getD 3 0, l.getD 4 0, l.getD 5 0, l.getD 6 0, l.getD 7 0, l.getD 8 0]

/-- The pending reply of the order taken. -/
def State.answer (s : State) (code tag : Byte) (o : OrderOutcome) (results : List Byte) : State :=
  { s with channel := { s.channel with reply := some ⟨code, tag, o, results9 results⟩ } }

/-- A refused order: nothing changes but that the reply is pending, result bytes 00h (R143). -/
def State.refuse (s : State) (code tag : Byte) (o : OrderOutcome) : State := s.answer code tag o []

/-- The active-bank number of a map, as a byte. -/
def ChannelMap.activeCode {entry : Type} (m : ChannelMap entry) : Byte := BitVec.ofNat 8 m.active.val

/-- A map order's reply: results 1 to 7, then the active-bank numbers in 8 and 9 whatever the outcome
(R143). -/
def State.answerMap (s : State) (code tag : Byte) (o : OrderOutcome) (results : List Byte) : State :=
  s.answer code tag o
    ((results ++ List.replicate 7 0).take 7 ++ [s.highway.ingress.activeCode, s.highway.egress.activeCode])

/-- An order is taken while office timing runs; while a restart holds the part nothing is taken
(R151, R163). -/
def whenRunning (s : State) (t : State) : Host.Outcome State Fault Refusal :=
  .next (if s.officeRuns then t else s)

/-! ### Selection of a reference (R70, R73, R75) -/

/-- A reference switch event: REFERENCE SWITCHES rises and trigger source 7 is offered (R75). -/
def State.referenceSwitch (s : State) : State :=
  ({ s with device := { s.device with referenceSwitches := raise s.device.referenceSwitches } }).offerTrigger 7

/-- Entry `e` is selected: ACQUIRING, both counts 0, the phase detector restarts (R70); the frequency is
not changed. -/
def State.selectEntry (s : State) (e : Fin 4) : State :=
  { s with timing :=
      { s.timing with
        loop := { s.timing.loop with
          state := .acquiring, selected := some e, fresh := true, timeoutDue := false, lockCount := 0, acqCount := 0 }
        detector := .reset } }.referenceSwitch

/-- The selection is dropped: HOLDOVER if holdover-valid is set, else FREE; both counts 0 (R73). -/
def State.dropSelection (s : State) : State :=
  { s with timing :=
      { s.timing with
        loop := { s.timing.loop with
          state := if s.timing.loop.holdoverValid then .holdover else .free
          selected := none, fresh := false, timeoutDue := false, lockCount := 0, acqCount := 0 }
        detector := .reset } }.referenceSwitch.latchDevice

/-! ### Reference entries following their fault conditions (R66 to R68) -/

/-- The fault condition of a LINE entry that names this span (R67). -/
def Span.lineFault (sp : Span) : Option FaultReason :=
  if !sp.record.enable || !sp.rx.aligner.aligned || sp.win.blank.active || sp.win.brk.active then
    some .notAligned
  else if sp.meter.drift then some .drift
  else none

/-- The fault condition an entry would have if it named span `n` (R66, R67). -/
def State.faultOf (s : State) (e : Fin 4) (n : Fin 16) : Option FaultReason :=
  if isLine e then (s.span n).lineFault
  else if (if e = 0 then s.timing.monitorA else s.timing.monitorB).noActivity then some .noActivity
  else none

/-- The fault condition of entry `e`. -/
def State.entryFault (s : State) (e : Fin 4) : Option FaultReason := s.faultOf e (s.entry e).span

/-- The selection is dropped if `e` is the selected entry. -/
def State.dropIfSelected (s : State) (e : Fin 4) : State :=
  if s.timing.loop.selected = some e then s.dropSelection else s

/-- Entry `e` becomes FAULTED with count 0; the alarm is latched, and a selected entry is left
(Table 4-4, R73). -/
def State.faultEntry (s : State) (e : Fin 4) (why : FaultReason) : State :=
  ((s.setEntry e { s.entry e with state := .faulted, count := 0, reason := why }).latchDevice).dropIfSelected e

/-- The entry in QUALIFYING from count 0 toward its stored Q (Table 4-4). -/
def RefEntry.requalify (x : RefEntry) : RefEntry := { x with state := .qualifying, count := 0, target := x.q }

/-- Entry `e` moves with its fault condition as Table 4-4 gives: a condition that has arisen faults it,
one that has changed its reason is recorded, one that has cleared starts a qualification. A DISABLED
entry does not follow. -/
def State.followEntry (s : State) (e : Fin 4) : State :=
  match (s.entry e).state, s.entryFault e with
  | .disabled, _ => s
  | .faulted, some why => s.setEntry e { s.entry e with reason := why }
  | .faulted, none => s.setEntry e (s.entry e).requalify
  | .qualifying, some why => s.faultEntry e why
  | .qualified, some why => s.faultEntry e why
  | .qualifying, none => s
  | .qualified, none => s

/-- Every entry moves with its fault condition. -/
def State.followEntries (s : State) : State := allFour.foldl State.followEntry s

/-- A change of span `n` is published: its alarms are latched as they arise, and the LINE entries follow
(R153, R155, R67). -/
def State.publish (s : State) (n : Fin 16) : State := (s.modSpan n Span.latch).followEntries

/-! ### Restart count (R165) -/

/-- The restart count raised by one, unless it stands at 255. -/
def raiseByte (c : Byte) : Byte := if c = 0xFF then c else c + 1

end Sys2Proof.Machine
end

