-- ==== Sys2Proof/Machine/Collector.lean ====
section
/-! DEFINITION. The alarm collector's orders (R156, R157, R159). -/

namespace Sys2Proof.Machine

/-- CLEAR LATCHED (R156): alarms not active leave the latched set named; the restart notice is cleared
whichever set is named (R166). -/
def takeClearLatched (tag owner : Byte) (s : State) : State :=
  match ownerOf owner with
  | none => s.refuse 0x61 tag .badParameter
  | some (some n) =>
    let l := (s.span n).latched &&& (s.span n).active
    let s1 := s.modSpan n fun sp => { sp with latched := l }
    ({ s1 with restart := { s1.restart with notice := false } }).answer 0x61 tag .done (bytes16 l)
  | some none =>
    let l := s.device.latched &&& s.timing.active
    ({ s with device := { s.device with latched := l }, restart := { s.restart with notice := false } }).answer 0x61 tag .done
      (bytes16 l)

def execClearLatched (tag owner : Byte) (s : State) : Host.Outcome State Fault Refusal :=
  whenRunning s (takeClearLatched tag owner s)

/-- READ ALARMS (R157). -/
def takeReadAlarms (tag owner : Byte) (s : State) : State :=
  match ownerOf owner with
  | none => s.refuse 0x60 tag .badParameter
  | some (some n) => s.answer 0x60 tag .done (bytes16 (s.span n).active ++ bytes16 (s.span n).latched)
  | some none => s.answer 0x60 tag .done (bytes16 s.timing.active ++ bytes16 s.device.latched)

def execReadAlarms (tag owner : Byte) (s : State) : Host.Outcome State Fault Refusal :=
  whenRunning s (takeReadAlarms tag owner s)

/-- The counts of groups 0 and 1 in the positions of Table 9-2. -/
def SpanCounts.group0 (c : SpanCounts) : List Byte :=
  bytes16 c.repeatSlips ++ bytes16 c.skipSlips ++ bytes16 c.alignmentLosses ++ bytes16 c.marginalLocks

def SpanCounts.group1 (c : SpanCounts) : List Byte :=
  bytes16 c.noisyWindows ++ bytes16 c.phaseHits ++ bytes16 c.storeFaults ++ bytes16 c.farEndSlips

/-- Every count of group 0, or of group 1, set to 0. -/
def SpanCounts.clear0 (c : SpanCounts) : SpanCounts :=
  { c with repeatSlips := 0, skipSlips := 0, alignmentLosses := 0, marginalLocks := 0 }

def SpanCounts.clear1 (c : SpanCounts) : SpanCounts :=
  { c with noisyWindows := 0, phaseHits := 0, storeFaults := 0, farEndSlips := 0 }

/-- The counts of group 2. -/
def Device.group2 (d : Device) : List Byte :=
  bytes16 d.checkErrors ++ bytes16 d.acquisitionTimeouts ++ bytes16 d.referenceSwitches

/-- READ COUNTS (R159). For group 2 the span byte is not examined. -/
def takeReadCounts (tag group span clear : Byte) (s : State) : State :=
  match boolOf clear with
  | none => s.refuse 0x62 tag .badParameter
  | some cl =>
    if group = 2 then
      (if cl then { s with device := { s.device with checkErrors := 0, acquisitionTimeouts := 0, referenceSwitches := 0 } }
        else s).answer 0x62 tag .done s.device.group2
    else
      match spanOf span with
      | none => s.refuse 0x62 tag .badParameter
      | some n =>
        let c := (s.span n).counts
        if group = 0 then
          (if cl then s.modSpan n fun sp => { sp with counts := sp.counts.clear0 } else s).answer 0x62 tag .done c.group0
        else if group = 1 then
          (if cl then s.modSpan n fun sp => { sp with counts := sp.counts.clear1 } else s).answer 0x62 tag .done c.group1
        else s.refuse 0x62 tag .badParameter

def execReadCounts (tag group span clear : Byte) (s : State) : Host.Outcome State Fault Refusal :=
  whenRunning s (takeReadCounts tag group span clear s)

end Sys2Proof.Machine
end

