-- ==== Sys2Proof/Machine/Restart.lean ====
section
/-! DEFINITION. The restarts of the part and its identity (chapter 10). -/

namespace Sys2Proof.Machine

/-- Work in progress is abandoned at the beginning of a POWER-ON or COLD restart: the pending reply and the
cells in progress, pending swaps and a pending frame number; the timing outputs are held low and the ingress
lanes high (R163, R151, R79). -/
def State.abandon (s : State) : State :=
  { s with
    channel := .reset
    pendingNumber := none
    highway := { s.highway with
      ingress := { s.highway.ingress with request := .absent }
      egress := { s.highway.egress with request := .absent }
      sent := Vector.replicate 640 0xFF }
    timing := { s.timing with toa := { s.timing.toa with pulses := 0 }, tob := { s.timing.tob with pulses := 0 } } }

/-- A restart of this kind is in progress. -/
def State.hold (s : State) (k : RestartKind) (resetLow supplyUp : Bool) : State :=
  { s.abandon with restart := { s.restart with inProgress := some k, resetLow := resetLow, supplyUp := supplyUp } }

/-- POWER_ON: supply rises and a POWER-ON restart begins (R163). -/
def execPowerOn (resetLow : Bool) (s : State) : Host.Outcome State Fault Refusal :=
  .next (s.hold .powerOn resetLow true)

/-- COLD_RESTART_BEGIN: RESET_N goes low. A COLD restart begins, unless a restart is in progress, which then
stays the one restart (R163). -/
def execColdRestartBegin (s : State) : Host.Outcome State Fault Refusal :=
  match s.restart.inProgress with
  | none => .next (s.hold .cold true s.restart.supplyUp)
  | some k => .next (s.hold k true s.restart.supplyUp)

/-- SUPPLY_FALL: supply falls while RESET_N is low, and the restart in progress becomes a POWER-ON restart,
which can end only once supply has risen. With RESET_N high this is not the event of R163 and nothing
changes. -/
def execSupplyFall (s : State) : Host.Outcome State Fault Refusal :=
  match s.restart.inProgress with
  | none => .next s
  | some _ => if s.restart.resetLow then .next (s.hold .powerOn true false) else .next s

/-- Restart cause, count and notice at the end of a restart (R165, R166), with the station read from the
straps (R139). -/
def Restart.ended (r : Restart) (k : RestartKind) (straps : BitVec 5) : Restart :=
  { inProgress := none, resetLow := false, supplyUp := r.supplyUp
    cause := match k with
      | .powerOn => .powerOn
      | .cold => .cold
    count := match k with
      | .powerOn => 0
      | .cold => raiseByte r.count
    notice := true, station := straps }

/-- Every block at its values after POWER-ON or COLD; the levels of clock-present are the pins' own. -/
def State.restarted (s : State) (k : RestartKind) (straps : BitVec 5) : State :=
  { State.reset with
    pending := s.pending
    restart := s.restart.ended k straps
    spans := s.spans.map fun sp => { Span.reset with rx := { Receiver.reset with clockPresent := sp.rx.clockPresent } } }

/-- RESTART_END: the restart in progress ends at the release of RESET_N, or at supply rise with RESET_N high;
it does not end while supply is down (R163). -/
def execRestartEnd (straps : BitVec 5) (s : State) : Host.Outcome State Fault Refusal :=
  match s.restart.inProgress with
  | none => .next s
  | some k => if s.restart.supplyUp then .next (s.restarted k straps) else .next s

/-- The counts at 0 and the latched set equal to the active set, of a span (R162). -/
def Span.warm (sp : Span) : Span := { sp with counts := .reset, latched := sp.active }

/-- The restart performed by WARM RESTART, as one action (R164, R165). -/
def State.warm (s : State) : State :=
  { s with
    timers := Vector.replicate 4 .reset
    units := Vector.replicate 4 .reset
    spans := s.spans.map Span.warm
    device := { latched := s.timing.active, checkErrors := 0, acquisitionTimeouts := 0, referenceSwitches := 0 }
    restart := { s.restart with cause := .warm, count := raiseByte s.restart.count, notice := true } }

/-- WARM RESTART (R164). -/
def takeWarmRestart (tag : Byte) (s : State) : State :=
  s.warm.answer 0x02 tag .done [s.warm.restart.cause.code, s.warm.restart.count]

def execWarmRestart (tag : Byte) (s : State) : Host.Outcome State Fault Refusal := whenRunning s (takeWarmRestart tag s)

/-- IDENTIFY (R167). -/
def takeIdentify (tag : Byte) (s : State) : State :=
  s.answer 0x01 tag .done
    ([Config.vendorCode] ++ bytes16 Config.partCode ++
      [Config.revision, s.restart.station.setWidth 8, s.restart.cause.code, s.restart.count])

def execIdentify (tag : Byte) (s : State) : Host.Outcome State Fault Refusal := whenRunning s (takeIdentify tag s)

end Sys2Proof.Machine
end

