-- ==== Sys2Proof/Machine/Store.lean ====
section
/-! DEFINITION. Retiming stores and drift meters (chapters 2 and 3): the write side and the read side
bit by bit, slips, centring, faults, boundary reports, drift samples, and their orders. -/

namespace Sys2Proof.Machine

/-! ### The ring (R25) -/

/-- The bit held at place `p`. -/
def ringBit (ring : BitVec 1344) (p : Nat) : Bool := ring.getMsbD p

/-- The ring with place `p` holding `b`. -/
def setRingBit (ring : BitVec 1344) (p : Nat) (b : Bool) : BitVec 1344 :=
  let mask := (1 : BitVec 1344) <<< (1343 - p)
  if b then ring ||| mask else ring &&& ~~~mask

/-- The place `n` places after `p` round the ring. -/
def ringAfter (p n : Nat) : Nat := (p + n) % 1344

/-- The place `n` places before `p` round the ring, for `n` at most 1344. -/
def ringBefore (p n : Nat) : Nat := (p + 1344 - n) % 1344

/-! ### Write side (R30, R37, R39) -/

/-- The bit is written at the write position, which moves forward one place. -/
def Store.put (st : Store) (b : Bool) : Store :=
  { st with ring := setRingBit st.ring st.writePos b, writePos := ringAfter st.writePos 1 }

/-- One arriving bit of the aligned stream. In ATTACHED a write that makes the fill 1344 is an overrun;
in FAULTED after an overrun the bit is passed over and the write position alone moves; in CENTRING the
fill never passes 1344, the oldest bit being overwritten. -/
def Store.writeBit (st : Store) (b : Bool) : Store :=
  match st.state with
  | .detached => st
  | .centring => { st.put b with fill := min (st.fill + 1) 1344 }
  | .attached =>
    if st.fill + 1 = 1344 then { st.put b with fill := 1344, state := .faulted, lastFault := .overrun }
    else { st.put b with fill := st.fill + 1 }
  | .faulted =>
    if st.lastFault = .overrun then { st with writePos := ringAfter st.writePos 1 }
    else { st.put b with fill := min (st.fill + 1) 1344 }

/-! ### Read side (R31, R37, R38) -/

/-- One read of an ATTACHED store; a read that makes the fill 0 is an underrun. -/
def Store.readBit (st : Store) : Store :=
  let read := { st with out := st.out ++ [ringBit st.ring st.readPos], readPos := ringAfter st.readPos 1, fill := st.fill - 1 }
  if st.fill ≤ 1 then { read with state := .faulted, lastFault := .underrun } else read

/-! ### Leaving and entering service (R28, R29, R32, R40) -/

/-- Entry to DETACHED: both sides stop, the fill and the last fill become 0. A store already DETACHED
is not changed. What was read whole in this office frame stays delivered (R27). -/
def Store.detach (st : Store) : Store :=
  match st.state with
  | .detached => st
  | _ => { st with state := .detached, fill := 0, lastFill := 0 }

/-- A DETACHED store whose aligner becomes aligned (R29). -/
def Store.startCentring (st : Store) : Store :=
  match st.state with
  | .detached => { st with state := .centring, writePos := 0, fill := 0 }
  | _ => st

/-- The distance from the one slot start that lies 672 to 1007 places behind the write position (R32). -/
def Store.centreDistance (st : Store) : Nat := 672 + st.writePos % 336

/-- The read side is placed at that slot start and the store is ATTACHED (R32, R40). -/
def Store.place (st : Store) : Store :=
  { st with readPos := ringBefore st.writePos st.centreDistance, fill := st.centreDistance
            state := .attached, lastFill := st.centreDistance }

/-! ### The boundary (R32 to R35, R40, R41) -/

/-- The slip field of a boundary report (R41). -/
inductive Slip where
  | none | rep | skip
  deriving DecidableEq, Repr

/-- A boundary report (R41); the fill is absent when attached is no. -/
structure Report where
  fill : Option Nat
  slip : Slip
  centred : Bool
  deriving DecidableEq, Repr

/-- The attached field: yes exactly when the report has a fill (R41). -/
def Report.attached (r : Report) : Bool := r.fill.isSome

/-- The slip decision (R33). -/
def Store.decision (st : Store) : Slip :=
  if st.fill < st.low then .rep else if st.fill > st.high then .skip else .none

/-- The slip carried out (R34, R35) and the last fill set to F_post. -/
def Store.slip (st : Store) : Slip → Store
  | .none => { st with lastFill := st.fill }
  | .rep => { st with readPos := ringBefore st.readPos 336, fill := st.fill + 336, lastFill := st.fill + 336 }
  | .skip => { st with readPos := ringAfter st.readPos 336, fill := st.fill - 336, lastFill := st.fill - 336 }

/-- An overrun that falls together with the boundary and is taken first: it came when every read of the
office frame had been made (R40, R59). -/
def Store.faultsAtBoundary (st : Store) : Bool :=
  decide (st.state = .faulted) && decide (st.lastFault = .overrun) && decide (336 ≤ st.out.length)

/-- The read side begins its frame anew (R31). -/
def Store.beginFrame (st : Store) : Store := { st with out := [] }

/-- The store at an office frame boundary: an ATTACHED store makes its slip decision, a CENTRING store
centres once its fill is 672 or more, a FAULTED store recentres by either course (R32, R33, R40). The
report says how the store stands after that; centred is yes at a centring and at both courses of
recentring (R41). DESIGN CHOICE, unsafe (notes/assumptions/18.md): it does so too where an overrun falls
together with the boundary and is taken first, where R59 has the store report attached no. -/
def Store.boundary (st : Store) : Store × Report :=
  let b := st.beginFrame
  match st.state with
  | .detached => (b, ⟨none, .none, false⟩)
  | .centring =>
    if st.fill < 672 then (b, ⟨none, .none, false⟩)
    else (b.place, ⟨some b.place.fill, .none, true⟩)
  | .attached =>
    let d := b.decision
    (b.slip d, ⟨some (b.slip d).fill, d, false⟩)
  | .faulted =>
    if st.fill < 672 then ({ b with state := .centring }, ⟨none, .none, true⟩)
    else (b.place, ⟨some b.place.fill, .none, true⟩)

/-! ### The drift meter (R49 to R58) -/

/-- The baseline is cleared (R50). -/
def Meter.clearBaseline (m : Meter) : Meter := { m with baseline := none, net := 0 }

/-- The store has entered DETACHED or FAULTED: the baseline is cleared and DRIFT ends (R50, R58). -/
def Meter.storeLeft (m : Meter) : Meter := { m.clearBaseline with drift := false }

/-- The offset O of a drift average, in 0.1 ppm (R56). -/
def driftOffset (e : Int) : Int :=
  e.sign * (((e.natAbs * 10000000 + 688128) / 1376256 : Nat) : Int)

/-- The update of the drift average by a sample D with filter shift k (R54). -/
def driftUpdate (e d : Int) (k : Nat) : Int := e + (256 * d - e) / (2 ^ k : Int)

/-- The evaluation of DRIFT (R57). -/
def driftEvaluate (before : Bool) (limit : Nat) (o : Int) : Bool :=
  if limit = 0 then false
  else if before then decide (limit - limit / 8 < o.natAbs) else decide (limit < o.natAbs)

/-- A sample of F_post `fill` (R51 to R53): a baseline sample, or a drift sample that updates E or is a
phase hit. The second component says whether it was a phase hit. -/
def Meter.sample (m : Meter) (fill : Nat) : Meter × Bool :=
  match m.baseline with
  | none => ({ m with baseline := some fill, net := 0 }, false)
  | some prev =>
    let d : Int := fill + 336 * m.net - prev
    let hit := decide (127 < d.natAbs)
    let e := if hit then m.average else driftUpdate m.average d m.k
    ({ m with baseline := some fill, net := 0, average := e, lastD := d, lastDValid := true, lastHit := hit
              drift := driftEvaluate m.drift m.limit (driftOffset e) }, hit)

/-- The slip field of a report counted into N while the baseline is present (R49). -/
def Meter.countSlip (m : Meter) (slip : Slip) : Meter :=
  if m.baseline.isSome then
    match slip with
    | .none => m
    | .rep => { m with net := m.net - 1 }
    | .skip => { m with net := m.net + 1 }
  else m

/-- Whether the meter examines the report of a boundary for a sample: at an office superframe boundary (R51),
but not where an overrun falls together with it and is taken first: then no sample is taken and the baseline
stays absent (R59). DESIGN CHOICE, unsafe: by R50 and R51 the recentred fill would give a new baseline at
once (notes/assumptions/18.md). -/
def Store.sampledAt (st : Store) (superframe : Bool) : Bool := superframe && !st.faultsAtBoundary

/-- A boundary report handled at once: centred clears the baseline, then the slip is counted, then, where the
report is examined for a sample, one with attached yes gives it (R49 to R51). -/
def Meter.report (m : Meter) (examined : Bool) (r : Report) : Meter × Bool :=
  let m1 := (if r.centred then m.clearBaseline else m).countSlip r.slip
  match examined, r.fill with
  | true, some fill => m1.sample fill
  | _, _ => (m1, false)

/-- A stored k and limit come into force; a limit of 0 ends DRIFT (R60, R58). -/
def Meter.commit (m : Meter) : Meter :=
  { m with k := m.kStored, limit := m.limitStored, drift := m.drift && m.limitStored != 0 }

/-! ### The store and the meter of one span together -/

/-- What a store fault brings: STORE FAULTS, STORE-FAULT latched, the meter told (R37, R58). -/
def Span.storeFaulted (sp : Span) : Span :=
  { sp with counts := { sp.counts with storeFaults := raise sp.counts.storeFaults }
            latched := sp.latched ||| storeFaultAlarm
            meter := sp.meter.storeLeft }

/-- The span with its store become `st`; a move from ATTACHED to FAULTED is a store fault. -/
def Span.withStore (sp : Span) (st : Store) : Span :=
  if sp.store.state = .attached ∧ st.state = .faulted then { sp with store := st }.storeFaulted
  else { sp with store := st }

/-- `n` reads of the store, stopping when it is not ATTACHED. -/
def Span.readBits (sp : Span) : Nat → Span
  | 0 => sp
  | n + 1 =>
    if sp.store.state = .attached then Span.readBits (sp.withStore sp.store.readBit) n else sp

/-- The read side stands `r` bits, at most 336, into its frame of the present office frame (R31). -/
def Span.readTo (sp : Span) (r : Nat) : Span := sp.readBits (min r 336 - sp.store.out.length)

/-- The slip counted and recorded: REPEAT SLIPS or SKIP SLIPS, and the transmitter's
current-superframe slip indication (R33, R36, R19). -/
def Span.slipped (sp : Span) : Slip → Span
  | .none => sp
  | .rep =>
    { sp with counts := { sp.counts with repeatSlips := raise sp.counts.repeatSlips }
              tx := { sp.tx with currentSlip := true } }
  | .skip =>
    { sp with counts := { sp.counts with skipSlips := raise sp.counts.skipSlips }
              tx := { sp.tx with currentSlip := true } }

/-- PHASE HITS raised by a phase hit (R53). -/
def Span.hitCounted (sp : Span) (hit : Bool) : Span :=
  if hit then { sp with counts := { sp.counts with phaseHits := raise sp.counts.phaseHits } } else sp

/-- DRIFT settings come into force (R60). -/
def Span.commitDrift (sp : Span) : Span := { sp with meter := sp.meter.commit }

/-- The store and the meter at an office frame boundary: the store's action, the slip event and the
report to the meter (R41, R36, R51). -/
def Span.boundary (sp : Span) (superframe : Bool) : Span × Slip :=
  let b := sp.store.boundary
  let m := sp.meter.report (sp.store.sampledAt superframe) b.2
  (({ sp with store := b.1, meter := m.1 }.slipped b.2.slip).hitCounted m.2, b.2.slip)

/-- The handling of store `n` at a boundary: the store and its meter, the slip event as trigger source
3, and at an office superframe boundary the stored drift settings, which come into force just after the
sample (R36, R60). Each change is published as it happens. -/
def State.storeBoundary (s : State) (superframe : Bool) (n : Fin 16) : State :=
  let r := (s.span n).boundary superframe
  let s1 := s.setSpan n r.1
  let s2 := (if r.2 = .none then s1 else s1.offerSpanTrigger 3 n).publish n
  if superframe then (s2.modSpan n Span.commitDrift).publish n else s2

/-! ### STORE_UNDERRUN (R38) -/

/-- The reads left in the office frame before a store runs empty, if it runs empty in this frame. -/
def Store.runsDry (st : Store) : Bool := decide (st.state = .attached) && decide (st.fill + st.out.length ≤ 336)

/-- STORE_UNDERRUN: the read side reads the bits that are left and the store faults (R37, R38). Where
the store is not ATTACHED, or holds more than the read side reads in this office frame, no such read
happens and nothing changes. -/
def State.underrun (s : State) (n : Fin 16) : State :=
  if (s.span n).store.runsDry then (s.modSpan n fun sp => sp.readBits sp.store.fill).publish n else s

def execStoreUnderrun (span : Fin 16) (s : State) : Host.Outcome State Fault Refusal :=
  whenRunning s (s.underrun span)

/-! ### Orders of the store (R43, R46) -/

/-- SET THRESHOLDS (R43): each threshold is clamped into its own range and stored. -/
def takeSetThresholds (tag span : Byte) (low high : Word) (s : State) : State :=
  match spanOf span with
  | none => s.refuse 0x13 tag .badParameter
  | some n =>
    let l := clamp 48 336 low.toNat
    let h := clamp 1008 1296 high.toNat
    let clamped := l != low.toNat || h != high.toNat
    (s.modSpan n fun sp => { sp with store := { sp.store with lowStored := l, highStored := h } }).answer 0x13 tag
      (if clamped then .doneClamped else .done)
      ([span] ++ bytes16 (BitVec.ofNat 16 l) ++ bytes16 (BitVec.ofNat 16 h))

def execSetThresholds (tag span : Byte) (low high : Word) (s : State) : Host.Outcome State Fault Refusal :=
  whenRunning s (takeSetThresholds tag span low high s)

/-- READ STORE (R46). -/
def takeReadStore (tag span : Byte) (s : State) : State :=
  match spanOf span with
  | none => s.refuse 0x14 tag .badParameter
  | some n =>
    let st := (s.span n).store
    s.answer 0x14 tag .done
      ([st.state.code] ++ bytes16 (BitVec.ofNat 16 st.lastFill) ++ bytes16 (BitVec.ofNat 16 st.lowStored) ++
        bytes16 (BitVec.ofNat 16 st.highStored) ++ [st.lastFault.code])

def execReadStore (tag span : Byte) (s : State) : Host.Outcome State Fault Refusal :=
  whenRunning s (takeReadStore tag span s)

/-! ### Orders of the meter (R60, R61) -/

/-- SET DRIFT (R60): k above 7 is stored as 7. `sampled` says that the sample of the boundary of taking
has been made, so that the settings come into force at once; else they come into force just after it. -/
def takeSetDrift (sampled : Bool) (tag span k : Byte) (limit : Word) (s : State) : State :=
  match spanOf span with
  | none => s.refuse 0x15 tag .badParameter
  | some n =>
    let k' := min k.toNat 7
    let s1 := s.modSpan n fun sp =>
      { sp with meter := { sp.meter with kStored := k', limitStored := limit.toNat } }
    let s2 := if sampled then (s1.modSpan n Span.commitDrift).publish n else s1
    s2.answer 0x15 tag (if k' != k.toNat then .doneClamped else .done)
      ([span, BitVec.ofNat 8 k'] ++ bytes16 limit)

def execSetDrift (tag span k : Byte) (limit : Word) (s : State) : Host.Outcome State Fault Refusal :=
  whenRunning s (takeSetDrift true tag span k limit s)

/-- READ DRIFT (R61). -/
def takeReadDrift (tag span : Byte) (s : State) : State :=
  match spanOf span with
  | none => s.refuse 0x16 tag .badParameter
  | some n =>
    let m := (s.span n).meter
    s.answer 0x16 tag .done
      ([m.flags] ++ bytes16 (BitVec.ofInt 16 m.average) ++ bytes24 (BitVec.ofInt 24 (driftOffset m.average)) ++
        bytes16 (BitVec.ofInt 16 m.lastD))

def execReadDrift (tag span : Byte) (s : State) : Host.Outcome State Fault Refusal :=
  whenRunning s (takeReadDrift tag span s)

end Sys2Proof.Machine
end

