-- ==== Sys2Proof/Machine/Span.lean ====
section
/-! DEFINITION. Span lines (chapter 1): sampling and line windows, the frame aligner, the superframe
aligner with the far-end report, the hand-over of aligned frames, and the span orders. -/

namespace Sys2Proof.Machine

/-! ### The sampler (R3) -/

/-- The value of a bit: that of at least two of its three samples. -/
def majority (x : Looks) : Bool :=
  (x.getLsbD 0 && x.getLsbD 1) || (x.getLsbD 0 && x.getLsbD 2) || (x.getLsbD 1 && x.getLsbD 2)

/-- A bit is noisy when its three samples do not all agree. -/
def noisyBit (x : Looks) : Bool := x != 0 && x != 7

/-- The sampled bit stream: every bit, noisy or not, with its majority value. -/
def sampledBits (looks : List Looks) : List Bool := looks.map majority

/-- The octet of eight bits from bit `i` of a list, the first the most significant. -/
def octetAt (bits : List Bool) (i : Nat) : Byte :=
  (List.range 8).foldl (fun acc k => (acc <<< 1) ||| (if bits.getD (i + k) false then 1 else 0)) 0

/-- Eight bits of the sampled stream as an octet: the first to arrive is the most significant (R1, R8). -/
def arrivingOctet (looks : Vector Looks 8) : Byte := octetAt (sampledBits looks.toList) 0

/-! ### The superframe aligner (R13 to R16) -/

/-- SF-SEARCH with no candidate. A move out of SF-LOCKED clears report-valid; FAR-END becomes inactive
with streak 0 and the last report keeps its value (R14 to R16). -/
def Superframe.toSearch (sf : Superframe) : Superframe :=
  { sf with state := .search none, farEnd := .reset
            reportValid := if sf.state.isLocked then false else sf.reportValid }

/-- A received far-end report (R15, R16). -/
def Superframe.takeReport (sf : Superframe) (o : Byte) : Superframe :=
  { sf with report := o, reportValid := true, farEnd := sf.farEnd.step (o.getLsbD 7) }

/-- The overhead octet of an aligned frame (R13, R14, R15). -/
def Superframe.octet (sf : Superframe) (o : Byte) : Superframe :=
  let marker := o == Config.superframeMarker
  match sf.state with
  | .search none => if marker then { sf with state := .search (some 0) } else sf
  | .search (some c) =>
    if c + 1 = 16 then
      if marker then { sf with state := .locked 0 false } else { sf with state := .search none }
    else { sf with state := .search (some (c + 1)) }
  | .locked i missed =>
    let j := i + 1
    if j = 0 then
      if marker then { sf with state := .locked j false }
      else if missed then sf.toSearch
      else { sf with state := .locked j true }
    else if j = 1 then { sf with state := .locked j missed }.takeReport o
    else { sf with state := .locked j missed }

/-- Whether this overhead octet is a received report with bit 6 set, which counts a FAR-END SLIP (R15). -/
def Superframe.slipReport (sf : Superframe) (o : Byte) : Bool :=
  match sf.state with
  | .locked i _ => i + 1 == 1 && o.getLsbD 6
  | .search _ => false

/-- The overhead octet handed to the span's superframe aligner, with the count and the alarms. -/
def Span.overheadOctet (sp : Span) (o : Byte) : Span :=
  { sp with
    sf := sp.sf.octet o
    counts := if sp.sf.slipReport o then { sp.counts with farEndSlips := raise sp.counts.farEndSlips } else sp.counts }.latch

/-! ### Moves of the frame aligner (R7 to R11) -/

/-- What leaving alignment does on the span: the superframe aligner goes to SF-SEARCH, the store to
DETACHED, and the drift meter follows the store (R14, R28, R50, R58). -/
def Span.leaveAlignment (sp : Span) : Span :=
  { sp with sf := sp.sf.toSearch, store := sp.store.detach, meter := sp.meter.storeLeft }

/-- The frame aligner moves to `a`. Leaving alignment has its effects; no aligned frame stays in
progress unless the span stays aligned (R12). -/
def Span.toAligner (sp : Span) (a : Aligner) : Span :=
  if a.aligned then { sp with rx := { sp.rx with aligner := a } }
  else
    let sp1 := { sp with rx := { sp.rx with aligner := a, frameBit := 0, overhead := 0 } }
    if sp.rx.aligner.aligned then sp1.leaveAlignment else sp1

/-- The span becomes aligned at a third check: LOCKED, the first aligned frame about to be handed over,
a DETACHED store to CENTRING (R9, R12, R29). -/
def Span.becomeAligned (sp : Span) (octetAt : Nat) : Span :=
  { sp with rx := { sp.rx with aligner := .locked octetAt, frameBit := 0, overhead := 0 }
            store := sp.store.startCentring }

/-- The read side of span `n` stands `readSoFar` bits into its frame of the present office frame; an
underrun among its reads is published (R31, R38). -/
def State.readSide (s : State) (n : Fin 16) (readSoFar : Nat) : State :=
  (s.modSpan n fun sp => sp.readTo readSoFar).publish n

/-- An alignment-lost event where the span is aligned: the reads of the store up to this moment are made,
so that what was read whole is delivered (R27); ALIGNMENT LOSSES rises and trigger source 4 is offered;
then the aligner moves to `a`, and the change is published (R11). -/
def State.loseAlignment (s : State) (n : Fin 16) (readSoFar : Nat) (a : Aligner) : State :=
  if (s.span n).rx.aligner.aligned then
    (((s.readSide n readSoFar).modSpan n fun sp =>
        { sp with counts := { sp.counts with alignmentLosses := raise sp.counts.alignmentLosses } }.toAligner a).offerSpanTrigger
      4 n).publish n
  else (s.modSpan n fun sp => sp.toAligner a).publish n

/-! ### Clock-present (R3, R4, R7) -/

/-- The sampler starts or stops: windows and noise period are discarded, counting begins afresh, and
BLANK, BREAK and NOISY are inactive (R4). -/
def Span.clearWindows (sp : Span) : Span := { sp with win := .reset }

/-- The level of clock-present. -/
def Span.setClock (sp : Span) (level : Bool) : Span := { sp with rx := { sp.rx with clockPresent := level } }

/-- CLOCK_PRESENT_RISE: the aligner goes from ABSENT to HUNT and the sampler and windows start; a
disabled span only has its clock-present high (R7). -/
def State.clockRise (s : State) (n : Fin 16) : State :=
  let s1 := s.modSpan n fun sp => sp.setClock true
  if (s.span n).record.enable ∧ (s.span n).rx.clockPresent = false then
    (s1.modSpan n fun sp => sp.clearWindows.toAligner (.hunt 0)).publish n
  else s1

def execClockPresentRise (span : Fin 16) (s : State) : Host.Outcome State Fault Refusal :=
  .next (if s.officeRuns then s.clockRise span else s.modSpan span fun sp => sp.setClock true)

/-- CLOCK_PRESENT_FALL: the aligner goes to ABSENT, the sampler and windows stop; from alignment the
move is an alignment-lost event (R7, R11). -/
def State.clockFall (s : State) (n : Fin 16) (readSoFar : Nat) : State :=
  let s1 := s.modSpan n fun sp => sp.setClock false
  if (s.span n).record.enable ∧ (s.span n).rx.clockPresent = true then
    (s1.modSpan n Span.clearWindows).loseAlignment n readSoFar .absent
  else s1

def execClockPresentFall (moment : SpanMoment) (s : State) : Host.Outcome State Fault Refusal :=
  .next (if s.officeRuns then s.clockFall moment.span moment.readSoFar
    else s.modSpan moment.span fun sp => sp.setClock false)

/-! ### Line windows (R4 to R6) -/

/-- NOISY evaluated at the end of a noise period; the tally returns to 0 (R6). -/
def Span.noiseEvaluate (sp : Span) : Span :=
  { sp with win := { sp.win with noisy := decide (sp.record.noiseLimit ≤ sp.win.tally), tally := 0, periodWindows := 0 } }

/-- A noise period is complete and its evaluation has not been taken. -/
def Span.noiseDue (sp : Span) : Bool := decide (sp.win.periodWindows = Config.noisePeriod)

/-- The facts of a window entered: the noisy window counted, BLANK and BREAK stepped (R4, R5). -/
def Span.windowCounted (sp : Span) (zeros ones : Nat) (noisy : Bool) : Span :=
  { sp with
    win := { sp.win with
      windows := sp.win.windows + 1
      periodWindows := sp.win.periodWindows + 1
      tally := if noisy then sp.win.tally + 1 else sp.win.tally
      blank := sp.win.blank.step (zeros < 3)
      brk := sp.win.brk.step (ones < 3) }
    counts := if noisy then { sp.counts with noisyWindows := raise sp.counts.noisyWindows } else sp.counts }

/-- BLANK or BREAK is active. -/
def LineWindows.held (w : LineWindows) : Bool := w.blank.active || w.brk.active

/-- BLANK or BREAK has become active between `w` and `w'`. -/
def LineWindows.arises (w w' : LineWindows) : Bool :=
  (!w.blank.active && w'.blank.active) || (!w.brk.active && w'.brk.active)

/-- What a window's end does to the aligner: a condition that has become active takes VERIFY, LOCKED or
FLYWHEEL to HUNT; when both have just become inactive in HUNT, a search begins (R8, R11). Both begin at
the end of the window. -/
def State.windowActs (s : State) (n : Fin 16) (readSoFar : Nat) (before : LineWindows) : State :=
  let sp := s.span n
  let here := Config.frameBits * sp.win.windows
  match sp.rx.aligner with
  | .hunt _ =>
    if before.held && !sp.win.held then (s.modSpan n fun sp => sp.toAligner (.hunt here)).publish n
    else s.publish n
  | .verify _ _ _ | .locked _ | .flywheel _ _ =>
    if before.arises sp.win then s.loseAlignment n readSoFar (.hunt here) else s.publish n
  | .off | .absent => s.publish n

/-- LINE_WINDOW_END (R4, R5, R11). A noise period whose evaluation is due is evaluated first (R6). -/
def State.windowEnd (s : State) (n : Fin 16) (readSoFar : Nat) (samples : Vector Looks 336) : State :=
  if (s.span n).sampling then
    let s1 := if (s.span n).noiseDue then (s.modSpan n Span.noiseEvaluate).publish n else s
    let ones := (sampledBits samples.toList).countP id
    let s2 := s1.modSpan n fun sp => sp.windowCounted (336 - ones) ones (samples.toList.any noisyBit)
    s2.windowActs n readSoFar (s1.span n).win
  else s

def execLineWindowEnd (moment : SpanMoment) (samples : Vector Looks 336) (s : State) :
    Host.Outcome State Fault Refusal :=
  whenRunning s (s.windowEnd moment.span moment.readSoFar samples)

/-- NOISE_PERIOD_END, at the end of a period's sixteenth window (R6). -/
def State.noiseEnd (s : State) (n : Fin 16) : State :=
  if (s.span n).sampling && (s.span n).noiseDue then (s.modSpan n Span.noiseEvaluate).publish n else s

def execNoisePeriodEnd (span : Fin 16) (s : State) : Host.Outcome State Fault Refusal :=
  whenRunning s (s.noiseEnd span)

/-! ### The frame aligner (R8 to R10) -/

/-- HUNT_CANDIDATE_FOUND (R8): in HUNT with BLANK and BREAK inactive, eight bits equal to B2h, all
sampled since the search began. -/
def State.huntFound (s : State) (n : Fin 16) (position : Nat) (octet : Byte) : State :=
  match (s.span n).rx.aligner with
  | .hunt searchFrom =>
    if searchFrom ≤ position ∧ octet = Config.alignmentOctet ∧ (s.span n).win.held = false then
      (s.modSpan n fun sp => sp.toAligner (.verify position 0 0)).publish n
    else s
  | _ => s

def execHuntCandidateFound (span : Fin 16) (position : Nat) (looks : Vector Looks 8) (s : State) :
    Host.Outcome State Fault Refusal :=
  whenRunning s (s.huntFound span position (arrivingOctet looks))

/-- A VERIFY check with its result (R9): a second failure goes to HUNT at once, searching from the bit
after the failed octet; the third check with at most one failure goes to LOCKED, a MARGINAL LOCK when
there was one. -/
def State.verifyResult (s : State) (n : Fin 16) (position candidate made failed : Nat) (ok : Bool) : State :=
  if ok = false ∧ failed ≠ 0 then (s.modSpan n fun sp => sp.toAligner (.hunt (position + 8))).publish n
  else
    let failed' := if ok then failed else failed + 1
    if made + 1 = 3 then
      (s.modSpan n fun sp =>
        { sp.becomeAligned position with
          counts := if failed' = 1 then { sp.counts with marginalLocks := raise sp.counts.marginalLocks } else sp.counts }).publish n
    else (s.modSpan n fun sp => sp.toAligner (.verify candidate (made + 1) failed')).publish n

/-- VERIFY_CHECK at candidate + 336, + 672 or + 1008 (R9); at any other position no check is made. -/
def State.verifyCheck (s : State) (n : Fin 16) (position : Nat) (octet : Byte) : State :=
  match (s.span n).rx.aligner with
  | .verify candidate made failed =>
    if position = candidate + Config.frameBits * (made + 1) then
      s.verifyResult n position candidate made failed (octet == Config.alignmentOctet)
    else s
  | _ => s

def execVerifyCheck (span : Fin 16) (position : Nat) (looks : Vector Looks 8) (s : State) :
    Host.Outcome State Fault Refusal :=
  whenRunning s (s.verifyCheck span position (arrivingOctet looks))

/-- The aligner moves within alignment. -/
def State.keepAligned (s : State) (n : Fin 16) (a : Aligner) : State := (s.modSpan n fun sp => sp.toAligner a).publish n

/-- EXPECTED_ALIGNMENT_OCTET (R10), 336 bits after the last position matched or assumed: LOCKED and
FLYWHEEL move by the match; the fourth successive miss is an alignment-lost event. -/
def State.expectedOctet (s : State) (n : Fin 16) (readSoFar : Nat) (position : Nat) (octet : Byte) : State :=
  let ok := octet == Config.alignmentOctet
  match (s.span n).rx.aligner with
  | .locked at' =>
    if position = at' + Config.frameBits then
      s.keepAligned n (if ok then .locked position else .flywheel position 1)
    else s
  | .flywheel at' misses =>
    if position = at' + Config.frameBits then
      if ok then s.keepAligned n (.locked position)
      else if misses < 3 then s.keepAligned n (.flywheel position (misses + 1))
      else s.loseAlignment n readSoFar (.hunt (position + 8))
    else s
  | _ => s

def execExpectedAlignmentOctet (moment : SpanMoment) (position : Nat) (looks : Vector Looks 8) (s : State) :
    Host.Outcome State Fault Refusal :=
  whenRunning s (s.expectedOctet moment.span moment.readSoFar position (arrivingOctet looks))

/-! ### Aligned frames (R12, R30) -/

/-- One bit of the aligned stream: written into the store, and as bit 8 to 15 of its frame entered in
the overhead octet, which goes to the superframe aligner when it is whole. -/
def Span.receiveBit (sp : Span) (b : Bool) : Span :=
  let sp1 := sp.withStore (sp.store.writeBit b)
  let o := (sp.rx.overhead <<< 1) ||| (if b then 1 else 0)
  let sp2 := { sp1 with rx := { sp1.rx with frameBit := (sp.rx.frameBit + 1) % 336
                                            overhead := if 8 ≤ sp.rx.frameBit ∧ sp.rx.frameBit < 16 then o else sp.rx.overhead } }
  if sp.rx.frameBit = 15 then sp2.overheadOctet o else sp2

/-- The bits of the aligned stream in order of arrival. -/
def Span.receiveBits (sp : Span) (bits : List Bool) : Span := bits.foldl Span.receiveBit sp

/-- ALIGNED_FRAME (R12): the read side stands where `readSoFar` says when the bits are handed over. -/
def State.alignedFrame (s : State) (n : Fin 16) (readSoFar : Nat) (bits : List Bool) : State :=
  if (s.span n).rx.aligner.aligned then
    (s.modSpan n fun sp => (sp.readTo readSoFar).receiveBits bits).publish n
  else s

def execAlignedFrame (span : Fin 16) (readSoFar : Nat) (looks : List Looks) (s : State) : Host.Outcome State Fault Refusal :=
  whenRunning s (s.alignedFrame span readSoFar (sampledBits looks))

/-! ### Span orders (R21 to R23) -/

/-- A changed enable acts on the aligner as R7 gives; an unchanged one does not act. -/
def Span.enableActs (sp : Span) (was : Bool) : Span :=
  if was = sp.record.enable then sp
  else if sp.record.enable then
    sp.clearWindows.toAligner (if sp.rx.clockPresent then .hunt 0 else .absent)
  else (sp.clearWindows.toAligner .off)

/-- The record as stored, in parameter order (Table 8-4, code 10h). -/
def SpanRecord.bytes (r : SpanRecord) : List Byte :=
  [bit r.enable, r.transmitMode.code, r.loopback.code, r.conditioned, BitVec.ofNat 8 r.noiseLimit]

/-- SET SPAN (R21). -/
def takeSetSpan (tag span enable transmitMode loopback conditioned noiseLimit : Byte) (s : State) : State :=
  match spanOf span, boolOf enable, transmitModeOf transmitMode, loopbackOf loopback with
  | some n, some en, some tm, some lb =>
    let limit := clamp 1 16 noiseLimit.toNat
    let r : SpanRecord := ⟨en, tm, lb, conditioned, limit⟩
    ((s.modSpan n fun sp => { sp with record := r }.enableActs sp.record.enable).publish n).answer 0x10 tag
      (if limit != noiseLimit.toNat then .doneClamped else .done) (span :: r.bytes)
  | _, _, _, _ => s.refuse 0x10 tag .badParameter

def execSetSpan (tag span enable transmitMode loopback conditioned noiseLimit : Byte) (s : State) : Host.Outcome State Fault Refusal :=
  whenRunning s (takeSetSpan tag span enable transmitMode loopback conditioned noiseLimit s)

/-- The superframe aligner, FAR-END and the far-end report after SPAN RESTART (R22, R15). -/
def Span.restartSuperframe (sp : Span) : Span := { sp with sf := .reset }

/-- The store and the meter after SPAN RESTART: DETACHED, last fault NONE, thresholds kept; baseline
absent, E 0, last D 0, DRIFT inactive, k and limit kept (R47, R62). -/
def Span.restartStore (sp : Span) : Span :=
  { sp with
    store := { sp.store.detach with lastFault := .none }
    meter := { sp.meter.storeLeft with average := 0, lastD := 0, lastDValid := false, lastHit := false } }

/-- The aligner after SPAN RESTART (R22). -/
def Span.restartAligner (sp : Span) : Aligner :=
  if sp.record.enable then (if sp.rx.clockPresent then .hunt 0 else .absent) else .off

/-- SPAN RESTART of one span, as one action (R22). -/
def Span.restart (sp : Span) : Span :=
  let sp1 := ((sp.toAligner sp.restartAligner).clearWindows.restartSuperframe).restartStore
  let sp2 := { sp1 with tx := { sp1.tx with currentSlip := false, previousSlip := false }, counts := .reset }
  { sp2 with latched := sp2.active ||| (if Config.spanRestartKeepsEndedAlarms then sp.active else 0) }

/-- SPAN RESTART (R22). -/
def takeSpanRestart (tag span : Byte) (s : State) : State :=
  match spanOf span with
  | none => s.refuse 0x11 tag .badParameter
  | some n => ((s.modSpan n Span.restart).publish n).answer 0x11 tag .done [span]

def execSpanRestart (tag span : Byte) (s : State) : Host.Outcome State Fault Refusal :=
  whenRunning s (takeSpanRestart tag span s)

/-- READ SPAN (R23). -/
def takeReadSpan (tag span : Byte) (s : State) : State :=
  match spanOf span with
  | none => s.refuse 0x12 tag .badParameter
  | some n =>
    let sp := s.span n
    s.answer 0x12 tag .done
      [sp.rx.aligner.code, BitVec.ofNat 8 sp.rx.aligner.missCount, sp.sf.state.code, sp.lineConditions,
       sp.sf.report, bit sp.sf.reportValid, sp.record.settings, sp.record.conditioned,
       BitVec.ofNat 8 sp.record.noiseLimit]

def execReadSpan (tag span : Byte) (s : State) : Host.Outcome State Fault Refusal :=
  whenRunning s (takeReadSpan tag span s)

end Sys2Proof.Machine
end

