-- ==== Sys2Proof/Machine/Highway.lean ====
section
/-! DEFINITION. Highways and channel maps (chapter 5), with the choice of bytes, the insertion arbiter and
the points of the test units (R121, R129), the swaps, and the map orders. -/

namespace Sys2Proof.Machine

/-! ### Banks and swaps (R94, R101 to R104) -/

/-- The number of the standby bank. -/
def ChannelMap.standby {entry : Type} (m : ChannelMap entry) : Fin 2 := m.active + 1

/-- The entry at index `i` of the bank in force. -/
def ChannelMap.inForce {entry : Type} (m : ChannelMap entry) (i : Fin 640) : entry := m.banks[m.active][i]

/-- An entry written into the standby bank. -/
def ChannelMap.writeStandby {entry : Type} (m : ChannelMap entry) (i : Fin 640) (e : entry) : ChannelMap entry :=
  { m with banks := m.banks.set m.standby (m.banks[m.standby].set i e) }

/-- The active bank copied into the standby bank (R101). -/
def ChannelMap.copy {entry : Type} (m : ChannelMap entry) : ChannelMap entry :=
  { m with banks := m.banks.set m.standby m.banks[m.active] }

/-- A swap: the pointer moves, the map is noted as swapped at this boundary, no entry is copied (R103). -/
def ChannelMap.swap {entry : Type} (m : ChannelMap entry) : ChannelMap entry :=
  { m with active := m.standby, swapped := true }

/-- A timer swap (R104): a map already swapped at this boundary is not swapped again; the request becomes
absent either way. -/
def ChannelMap.timerSwap {entry : Type} (m : ChannelMap entry) : ChannelMap entry :=
  { (if m.swapped then m else m.swap) with request := .absent }

/-- A pending request that falls due at this boundary is performed (R103). -/
def ChannelMap.performDue {entry : Type} (m : ChannelMap entry) : ChannelMap entry :=
  match m.request with
  | .pending true => { (if m.swapped then m else m.swap) with request := .absent }
  | _ => m

/-- SWAP MAPS sets a request or joins the one pending (R102). -/
def ChannelMap.ask {entry : Type} (m : ChannelMap entry) : ChannelMap entry :=
  match m.request with
  | .absent => { m with request := .pending false }
  | .pending _ => m

/-- A boundary opens: the note of a swap is cleared, and at an office superframe boundary a pending request
has come to the boundary it records (R102, R104). -/
def ChannelMap.openBoundary {entry : Type} (m : ChannelMap entry) (superframe : Bool) : ChannelMap entry :=
  { m with
    swapped := false
    request := match m.request with
      | .pending due => .pending (due || superframe)
      | .absent => .absent }

/-- Both maps at the swaps of an office superframe boundary (R103). -/
def State.performSwaps (s : State) : State :=
  { s with highway := { s.highway with ingress := s.highway.ingress.performDue, egress := s.highway.egress.performDue } }

/-- A timer swap of the maps named (R104). -/
def State.timerSwap (s : State) (ingress egress : Bool) : State :=
  { s with highway :=
      { s.highway with
        ingress := if ingress then s.highway.ingress.timerSwap else s.highway.ingress
        egress := if egress then s.highway.egress.timerSwap else s.highway.egress } }

/-! ### The insertion arbiter (R126, R129) -/

/-- Unit `u` makes its transfer in the office frame in progress. -/
def State.transfers (s : State) (u : Fin 4) : Bool := s.units[u].state == .running && s.units[u].pending

/-- Unit `u` inserts at point `p` in the office frame in progress. -/
def State.inserts (s : State) (p : Point) (u : Fin 4) : Bool :=
  s.transfers u && s.units[u].mode == .insert && s.units[u].point == p

/-- The lowest-numbered unit that inserts at `p`. -/
def State.winner (s : State) (p : Point) : Option (Fin 4) := allFour.find? (s.inserts p)

/-- The insertion the arbiter gives at `p`. -/
def State.insertion (s : State) (p : Point) : Option Byte :=
  (s.winner p).map fun u => s.units[u].buffer[s.units[u].pointer]

/-! ### The choice of bytes (R89, R95, R96) -/

/-- The byte of the ingress management slot: byte f of the send cell at frame index f, FFh before the first
office superframe boundary (R89, R137, R151). -/
def State.managementByte (s : State) : Byte :=
  match s.channel.send with
  | none => Config.vacantByte
  | some cell => cell[Fin.ofNat 16 s.frameNumber.toNat]

/-- The byte an ingress entry gives (Table 5-1). -/
def State.ingressGives (s : State) : IngressEntry → Byte
  | .unused => Config.vacantByte
  | .fixed v => v
  | .bearer n c => s.highway.retimed[n][c]

/-- The byte an egress entry gives (Table 5-1). -/
def State.egressGives (s : State) : EgressEntry → Byte
  | .idle => Config.vacantByte
  | .fixed v => v
  | .office l t => s.highway.held[slotIndex l t]

/-- The byte of ingress position (lane, slot) in the office frame in progress (R89, R95). -/
def State.ingressByte (s : State) (lane : Fin 4) (slot : Fin 160) : Byte :=
  if lane = 0 ∧ slot = 0 then s.managementByte
  else
    match s.insertion (.ingress lane slot) with
    | some b => b
    | none => s.ingressGives (s.highway.ingress.inForce (slotIndex lane slot))

/-- The byte of channel `c` of transmit span `t` in the office frame in progress (R96, R97). -/
def State.channelByte (s : State) (t : Fin 16) (c : Fin 40) : Byte :=
  match s.insertion (.tx t c) with
  | some b => b
  | none =>
    match (s.span t).tx.loopbackInForce with
    | .line => s.highway.retimed[t][c]
    | .none => s.egressGives (s.highway.egress.inForce (channelIndex t c))

/-- The byte at a point in the office frame in progress, in which `received` came on the egress highway
(R121). -/
def State.pointByte (s : State) (received : Vector Byte 640) : Point → Byte
  | .rx n c => s.highway.retimed[n][c]
  | .tx n c => s.channelByte n c
  | .ingress l t => s.ingressByte l t
  | .egress l t => received[slotIndex l t]

/-! ### WRITE INGRESS ENTRY and WRITE EGRESS ENTRY (R98, R99) -/

/-- The bank numbers of both maps as bytes come with every map order's reply (R143). -/
def bankCode (b : Fin 2) : Byte := BitVec.ofNat 8 b.val

/-- WRITE INGRESS ENTRY (R98). -/
def takeWriteIngressEntry (tag lane slot kind arg1 arg2 : Byte) (s : State) : State :=
  match below 4 lane, below 160 slot, ingressEntryOf kind arg1 arg2 with
  | some l, some t, some e =>
    if l = 0 ∧ t = 0 then s.answerMap 0x30 tag .badSlot []
    else if s.highway.ingress.request.isPending then s.answerMap 0x30 tag .swapPending []
    else
      ({ s with highway := { s.highway with ingress := s.highway.ingress.writeStandby (slotIndex l t) e } }).answerMap 0x30 tag
        .done ([bankCode s.highway.ingress.standby, lane, slot] ++ e.bytes)
  | _, _, _ => s.answerMap 0x30 tag .badParameter []

def execWriteIngressEntry (tag lane slot kind arg1 arg2 : Byte) (s : State) : Host.Outcome State Fault Refusal :=
  whenRunning s (takeWriteIngressEntry tag lane slot kind arg1 arg2 s)

/-- WRITE EGRESS ENTRY (R99). -/
def takeWriteEgressEntry (tag span channel kind arg1 arg2 : Byte) (s : State) : State :=
  match spanOf span, below 40 channel, egressEntryOf kind arg1 arg2 with
  | some n, some c, some e =>
    if e = .office 0 0 then s.answerMap 0x31 tag .badSlot []
    else if s.highway.egress.request.isPending then s.answerMap 0x31 tag .swapPending []
    else
      ({ s with highway := { s.highway with egress := s.highway.egress.writeStandby (channelIndex n c) e } }).answerMap 0x31 tag
        .done ([bankCode s.highway.egress.standby, span, channel] ++ e.bytes)
  | _, _, _ => s.answerMap 0x31 tag .badParameter []

def execWriteEgressEntry (tag span channel kind arg1 arg2 : Byte) (s : State) : Host.Outcome State Fault Refusal :=
  whenRunning s (takeWriteEgressEntry tag span channel kind arg1 arg2 s)

/-! ### READ INGRESS ENTRY and READ EGRESS ENTRY (R100) -/

/-- The bank a selector names at the moment of taking: active or standby. -/
def ChannelMap.bankNamed {entry : Type} (m : ChannelMap entry) (standby : Bool) : Fin 2 :=
  if standby then m.standby else m.active

/-- READ INGRESS ENTRY (R100). -/
def takeReadIngressEntry (tag lane slot bank : Byte) (s : State) : State :=
  match below 4 lane, below 160 slot, boolOf bank with
  | some l, some t, some b =>
    if l = 0 ∧ t = 0 then s.answerMap 0x32 tag .badSlot []
    else
      let m := s.highway.ingress
      s.answerMap 0x32 tag .done
        ([bankCode (m.bankNamed b), bankCode m.active, lane, slot] ++ (m.banks[m.bankNamed b][slotIndex l t]).bytes)
  | _, _, _ => s.answerMap 0x32 tag .badParameter []

def execReadIngressEntry (tag lane slot bank : Byte) (s : State) : Host.Outcome State Fault Refusal :=
  whenRunning s (takeReadIngressEntry tag lane slot bank s)

/-- READ EGRESS ENTRY (R100). -/
def takeReadEgressEntry (tag span channel bank : Byte) (s : State) : State :=
  match spanOf span, below 40 channel, boolOf bank with
  | some n, some c, some b =>
    let m := s.highway.egress
    s.answerMap 0x33 tag .done
      ([bankCode (m.bankNamed b), bankCode m.active, span, channel] ++ (m.banks[m.bankNamed b][channelIndex n c]).bytes)
  | _, _, _ => s.answerMap 0x33 tag .badParameter []

def execReadEgressEntry (tag span channel bank : Byte) (s : State) : Host.Outcome State Fault Refusal :=
  whenRunning s (takeReadEgressEntry tag span channel bank s)

/-! ### SWAP MAPS and COPY MAPS (R102, R101) -/

/-- Requests set for the maps named. -/
def Highway.ask (h : Highway) (ingress egress : Bool) : Highway :=
  { h with ingress := if ingress then h.ingress.ask else h.ingress, egress := if egress then h.egress.ask else h.egress }

/-- SWAP MAPS (R102). -/
def takeSwapMaps (tag direction : Byte) (s : State) : State :=
  match directionOf direction with
  | none => s.answerMap 0x34 tag .badParameter []
  | some (i, e) =>
    let h := s.highway.ask i e
    ({ s with highway := h }).answerMap 0x34 tag .accepted [h.swapFlags]

def execSwapMaps (tag direction : Byte) (s : State) : Host.Outcome State Fault Refusal :=
  whenRunning s (takeSwapMaps tag direction s)

/-- The active banks of the maps named copied into their standby banks. -/
def Highway.copy (h : Highway) (ingress egress : Bool) : Highway :=
  { h with ingress := if ingress then h.ingress.copy else h.ingress, egress := if egress then h.egress.copy else h.egress }

/-- COPY MAPS (R101). -/
def takeCopyMaps (tag direction : Byte) (s : State) : State :=
  match directionOf direction with
  | none => s.answerMap 0x35 tag .badParameter []
  | some (i, e) =>
    if (i && s.highway.ingress.request.isPending) || (e && s.highway.egress.request.isPending) then
      s.answerMap 0x35 tag .swapPending []
    else ({ s with highway := s.highway.copy i e }).answerMap 0x35 tag .done []

def execCopyMaps (tag direction : Byte) (s : State) : Host.Outcome State Fault Refusal :=
  whenRunning s (takeCopyMaps tag direction s)

end Sys2Proof.Machine
end

