-- ==== Sys2Proof/Machine/Timing.lean ====
section
/-! DEFINITION. Office timing (chapter 4): reference events, input monitors, qualification, selection,
lock and acquisition, the loop's frequency, the timing outputs, and the timing orders. -/

namespace Sys2Proof.Machine

/-! ### Timing outputs (R80, R81) -/

/-- The squelch condition of a record that has squelch ON (R81). -/
def Timing.squelched (t : Timing) (r : OutputRecord) : Bool :=
  r.squelch &&
    match r.source with
    | .office => t.loop.state == .free || t.loop.state == .holdover
    | .entry e => t.entries[e].state == .disabled || t.entries[e].state == .faulted

/-- One more pulse begun on an output, if its record in force is enabled, has this source and is not
squelched. -/
def TimingOutput.pulse (o : TimingOutput) (t : Timing) (fires : OutputRecord → Bool) : TimingOutput :=
  if o.inForce.enable && fires o.inForce && !t.squelched o.inForce then { o with pulses := o.pulses + 1 } else o

/-- Both outputs pulsed by a source. -/
def Timing.pulse (t : Timing) (fires : OutputRecord → Bool) : Timing :=
  { t with toa := t.toa.pulse t fires, tob := t.tob.pulse t fires }

/-- The OFFICE pulse at a boundary whose number is `n`: a multiple of the record's divisor (R80). -/
def officeFires (n : FrameNumber) (r : OutputRecord) : Bool :=
  r.source == .office && n.toNat % r.rate.divisor == 0

/-- The OFFICE pulses of an office frame boundary. -/
def State.officePulses (s : State) (n : FrameNumber) : State := { s with timing := s.timing.pulse (officeFires n) }

/-! ### Reference events (R71) -/

/-- Whether entry `e` takes its events from this input: a LINE entry from the span it names (R71, R80). -/
def feedsEntry (input : RefInput) (t : Timing) (e : Fin 4) : Bool :=
  match input with
  | .refA => e == 0
  | .refB => e == 1
  | .span n => isLine e && t.entries[e].span == n

/-- A phase error within ±1.0 µs (R71). -/
def withinLock (err : Int) : Bool := decide (err.natAbs ≤ Config.lockWindow.natAbs)

/-- A reference frequency within the pull range of ±100 ppm; one beyond it reads outside (R64, R71). -/
def withinPull (frequency : Rat) : Bool := decide (-Config.pullRange ≤ frequency ∧ frequency ≤ Config.pullRange)

/-- The detector at a reference event of the selected entry: the first event sets the zero, a later one
gives a phase error, which the lock detector judges while the loop is ACQUIRING: inside are the phase
errors within the lock window of a reference within the pull range (R71; notes/assumptions/12.md). -/
def Detector.measure (d : Detector) (judging : Bool) (time : Int) (frequency : Rat) : Detector :=
  match d.zero with
  | none => { d with zero := some time, frequency := some frequency }
  | some z =>
    let err := time - z
    { d with lastError := some err, frequency := some frequency
             measured := d.measured || judging
             inside := d.inside && (!judging || (withinLock err && withinPull frequency)) }

/-- A pulse noted by the input monitor of its input (R66). -/
def Timing.notePulse (t : Timing) : RefInput → Timing
  | .refA => { t with monitorA := { t.monitorA with pulse := true } }
  | .refB => { t with monitorB := { t.monitorB with pulse := true } }
  | .span _ => t

/-- The event measured where its input feeds the selected entry. -/
def Timing.measure (t : Timing) (input : RefInput) (time : Int) (frequency : Rat) : Timing :=
  match t.loop.selected with
  | none => t
  | some e =>
    if feedsEntry input t e then
      { t with detector := t.detector.measure (t.loop.state == .acquiring) time frequency }
    else t

/-- The pulses an event passes through to the outputs whose source it feeds (R80). -/
def passFires (input : RefInput) (t : Timing) (r : OutputRecord) : Bool :=
  match r.source with
  | .office => false
  | .entry e => feedsEntry input t e

/-- A reference event at the office timing unit. -/
def Timing.referenceEvent (t : Timing) (input : RefInput) (time : Int) (frequency : Rat) : Timing :=
  let t1 := (t.notePulse input).measure input time frequency
  t1.pulse (passFires input t1)

/-- The start of an aligned frame needs an aligned span; a pulse at REFA or REFB needs nothing. -/
def State.occurs (s : State) : RefInput → Bool
  | .refA => true
  | .refB => true
  | .span n => (s.span n).rx.aligner.aligned

def execReferenceEvent (input : RefInput) (time : Int) (frequency : Rat) (s : State) : Host.Outcome State Fault Refusal :=
  whenRunning s (if s.occurs input then { s with timing := s.timing.referenceEvent input time frequency } else s)

/-! ### Input monitors (R66) -/

/-- The monitor at the boundary that ends an office frame. -/
def Monitor.frameEnd (m : Monitor) : Monitor :=
  if m.noActivity then
    if m.pulse then
      if m.streak = 7 then { noActivity := false, streak := 0, pulse := false }
      else { m with streak := m.streak + 1, pulse := false }
    else { m with streak := 0, pulse := false }
  else if m.pulse then { m with pulse := false }
  else { noActivity := true, streak := 0, pulse := false }

/-- Both monitors evaluate the office frame just ended, and the entries follow. -/
def State.monitors (s : State) : State :=
  { s with timing := { s.timing with monitorA := s.timing.monitorA.frameEnd, monitorB := s.timing.monitorB.frameEnd } }.followEntries

/-! ### Stage 1: qualification (R68) -/

/-- The qualification count of an entry in QUALIFYING advanced by one; at the target it is QUALIFIED. -/
def RefEntry.qualify (x : RefEntry) : RefEntry :=
  match x.state with
  | .qualifying =>
    if x.target.superframes ≤ x.count + 1 then { x with state := .qualified, count := x.target.superframes }
    else { x with count := x.count + 1 }
  | _ => x

/-- Stage 1 of a superframe boundary. -/
def State.qualifyAll (s : State) : State :=
  { s with timing := { s.timing with entries := s.timing.entries.map RefEntry.qualify } }

/-! ### Stage 2: automatic selection (R76) -/

/-- The better of the best entry so far and entry `e`: QUALIFIED, and of strictly lower priority number. -/
def Timing.better (t : Timing) (best : Option (Fin 4)) (e : Fin 4) : Option (Fin 4) :=
  if t.entries[e].state = .qualified then
    match best with
    | none => some e
    | some b => if t.entries[e].priority < t.entries[b].priority then some e else some b
  else best

/-- The best QUALIFIED entry: lowest priority number, then lowest entry number. -/
def Timing.best (t : Timing) : Option (Fin 4) := allFour.foldl t.better none

/-- The automatic evaluation (Table 4-6). -/
def State.autoSelect (s : State) : State :=
  match s.timing.mode, s.timing.best with
  | .manual, _ => s
  | .auto, none => s
  | .auto, some b =>
    match s.timing.loop.selected with
    | none => s.selectEntry b
    | some e =>
      if s.timing.revertive ∧ (s.entry b).priority < (s.entry e).priority then s.selectEntry b else s

/-! ### Stage 3: lock and acquisition (R72) -/

/-- The lock reading of the superframe just ended (R71). -/
def Detector.reading (d : Detector) : Bool := d.measured && d.inside

/-- The acquisition timeout: the selected entry is FAULTED with reason TIMEOUT, its alarm latched, and goes
at once to QUALIFYING from 0; ACQUISITION TIMEOUTS rises; the selection is dropped (Table 4-4, R72, R73). -/
def State.timeout (s : State) : State :=
  match s.timing.loop.selected with
  | none => s
  | some e =>
    let s1 := (s.setEntry e { s.entry e with state := .faulted, count := 0, reason := .timeout }).latchDevice
    let s2 := s1.setEntry e (s1.entry e).requalify
    ({ s2 with device := { s2.device with acquisitionTimeouts := raise s2.device.acquisitionTimeouts } }).dropSelection

/-- Lock is declared: LOCKED, holdover-valid set, a new stretch in LOCKED begins (R72, R74). -/
def Loop.declareLock (l : Loop) : Loop :=
  { l with state := .locked, timeoutDue := false, lockCount := 4, holdoverValid := true, history := [] }

/-- Stage 3 for a loop in ACQUIRING whose entry was selected before the boundary. The count that would reach 256
is the timeout (R70, R72), so the count held is never above 255; with `apart`, that count is left to be made by the
step ACQUISITION_TIMEOUT (notes/assumptions/11.md). -/
def State.lockStage (s : State) (apart : Bool) : State :=
  let l := s.timing.loop
  if l.state = .acquiring ∧ l.fresh = false then
    let count := if s.timing.detector.reading then l.lockCount + 1 else 0
    if 4 ≤ count then s.setLoop l.declareLock
    else
      let l1 := { l with lockCount := count }
      if l.acqCount < 255 then s.setLoop { l1 with acqCount := l.acqCount + 1 }
      else if apart then s.setLoop { l1 with timeoutDue := true }
      else (s.setLoop l1).timeout
  else s

/-! ### The loop's frequency (R64, R74) -/

/-- A frequency held within the pull range (R64). -/
def pullIn (f : Rat) : Rat := max (-Config.pullRange) (min Config.pullRange f)

/-- The target frequency of the loop's state; with no frequency measured since the phase detector
restarted, the frequency the loop has. -/
def Timing.target (t : Timing) : Rat :=
  match t.loop.state with
  | .free => 0
  | .holdover => t.loop.holdoverFreq
  | .acquiring | .locked => pullIn (t.detector.frequency.getD t.loop.freq)

/-- One superframe's slew: 1.0 ppm toward the target, or the whole distance where that is less (R64). -/
def slew (freq target : Rat) : Rat :=
  if target < freq - 1 then freq - 1 else if freq + 1 < target then freq + 1 else target

/-- The mean of a list of frequencies. -/
def mean (l : List Rat) : Rat := l.sum / l.length

/-- The oscillator at a superframe boundary: slewed toward its target, and while LOCKED entered in the
stretch whose mean over at most 64 superframes is the holdover frequency (R64, R74). -/
def Timing.steer (t : Timing) : Timing :=
  let f := slew t.loop.freq t.target
  if t.loop.state = .locked then
    let h := (f :: t.loop.history).take 64
    { t with loop := { t.loop with freq := f, history := h, holdoverFreq := mean h } }
  else { t with loop := { t.loop with freq := f } }

/-- The lock detector starts the next superframe's reading. -/
def Detector.nextSuperframe (d : Detector) : Detector := { d with measured := false, inside := true }

/-! ### The handling of a boundary (R69) -/

/-- The three stages of an office superframe boundary, and the oscillator. -/
def State.otuSuperframe (s : State) (apart : Bool) : State :=
  let s1 := (s.qualifyAll.autoSelect).lockStage apart
  { s1 with timing := { s1.timing.steer with detector := s1.timing.detector.nextSuperframe } }

/-- The office timing unit's handling of an office frame boundary. -/
def State.otuBoundary (s : State) (superframe apart : Bool) : State :=
  if superframe then s.monitors.otuSuperframe apart else s.monitors

/-! ### QUALIFICATION_COMPLETE and ACQUISITION_TIMEOUT as steps of their own (R68, R72) -/

/-- The office frame number the next boundary forms (R107, R109). -/
def State.nextNumber (s : State) : FrameNumber :=
  match s.pendingNumber with
  | some ⟨v, true⟩ => v
  | _ => s.frameNumber + 1

/-- The boundary that ends the office frame in progress is an office superframe boundary: the number
that counting gives there is a multiple of 16 (R63, R107). -/
def State.superframeNext (s : State) : Bool := frameIndex (s.frameNumber + 1) == 0

/-- QUALIFICATION_COMPLETE: at the superframe boundary that ends this office frame the count of an entry in
QUALIFYING reaches its target, and this step is the first taken there. -/
def State.qualificationComplete (s : State) (e : Fin 4) : State :=
  let x := s.entry e
  if s.superframeNext ∧ x.state = .qualifying ∧ x.target.superframes ≤ x.count + 1 then s.setEntry e x.qualify else s

def execQualificationComplete (entry : Fin 4) (s : State) : Host.Outcome State Fault Refusal :=
  whenRunning s (s.qualificationComplete entry)

/-- ACQUISITION_TIMEOUT: the acquisition count reaches 256 where a boundary has left that count to this step, and
with it the timeout occurs (R70, R72). -/
def State.acquisitionTimeout (s : State) : State :=
  if s.timing.loop.state = .acquiring ∧ s.timing.loop.timeoutDue = true then s.timeout else s

def execAcquisitionTimeout (s : State) : Host.Outcome State Fault Refusal := whenRunning s s.acquisitionTimeout

/-! ### Selection requests (R77) -/

/-- A selection request for entry `e`, with its outcome. -/
def State.selectionRequest (s : State) (e : Fin 4) : State × TimerOutcome :=
  if s.timing.mode = .auto then (s, .wrongMode)
  else if s.timing.loop.selected = some e then (s, .done)
  else if (s.entry e).state = .qualified then (s.selectEntry e, .done)
  else (s, .notQualified)

/-- SELECT REFERENCE (R77). -/
def takeSelectReference (tag entry : Byte) (s : State) : State :=
  match below 4 entry with
  | none => s.refuse 0x22 tag .badParameter
  | some e =>
    match s.selectionRequest e with
    | (s1, .done) => s1.answer 0x22 tag .done [entry, selectedCode s1.timing.loop.selected, s1.timing.loop.state.code]
    | (s1, o) => s1.refuse 0x22 tag o.toOrder

def execSelectReference (tag entry : Byte) (s : State) : Host.Outcome State Fault Refusal :=
  whenRunning s (takeSelectReference tag entry s)

/-! ### SET REFERENCE and SET TIMING MODE (R83, R78) -/

/-- The entry that a change of enable or of span leads to (Table 4-4). `x` is the entry with its four fields
written, `was` the entry before, `fault` its present fault condition. -/
def RefEntry.rewritten (was x : RefEntry) (fault : Option FaultReason) (spanChanged : Bool) : RefEntry :=
  if x.enable = false then (if was.enable then { x with state := .disabled, count := 0 } else x)
  else if was.enable = false then
    match fault with
    | some why => { x with state := .faulted, count := 0, target := x.q, reason := why }
    | none => x.requalify
  else if spanChanged then
    match fault with
    | some why => { x with state := .faulted, count := 0, reason := why }
    | none => x.requalify
  else x

/-- The span byte of SET REFERENCE: for REF-A and REF-B it is not examined (R83). -/
def referenceSpan (e : Fin 4) (span : Byte) (was : Fin 16) : Option (Fin 16) :=
  if isLine e then spanOf span else some was

/-- The entry as the reply to SET REFERENCE carries it (Table 8-4, code 20h). -/
def RefEntry.reply (x : RefEntry) (e : Fin 4) : List Byte :=
  [bit x.enable, BitVec.ofNat 8 x.priority, x.q.code, (if isLine e then BitVec.ofNat 8 x.span.val else 0xFF), x.state.code] ++
    bytes16 (BitVec.ofNat 16 x.count)

/-- The taken order writes the entry and its alarm is latched if the change faults it. -/
def State.writeReference (s : State) (e : Fin 4) (en : Bool) (p : Nat) (q : QPeriod) (n : Fin 16) : State :=
  let was := s.entry e
  let x := { was with enable := en, priority := p, q := q, span := n }
  (s.setEntry e (was.rewritten x (s.faultOf e n) (isLine e && n != was.span))).latchDevice

/-- SET REFERENCE (R83). -/
def takeSetReference (tag entry enable priority q span : Byte) (s : State) : State :=
  match below 4 entry, boolOf enable, priorityOf priority, qOf q with
  | some e, some en, some p, some q' =>
    match referenceSpan e span (s.entry e).span with
    | none => s.refuse 0x20 tag .badParameter
    | some n =>
      if s.timing.loop.selected = some e ∧ (en = false ∨ (isLine e ∧ n ≠ (s.entry e).span)) then
        s.refuse 0x20 tag .inUse
      else
        let s1 := s.writeReference e en p q' n
        s1.answer 0x20 tag .done (entry :: (s1.entry e).reply e)
  | _, _, _, _ => s.refuse 0x20 tag .badParameter

def execSetReference (tag entry enable priority q span : Byte) (s : State) : Host.Outcome State Fault Refusal :=
  whenRunning s (takeSetReference tag entry enable priority q span s)

/-- SET TIMING MODE (R78). -/
def takeSetTimingMode (tag mode revertive : Byte) (s : State) : State :=
  match timingModeOf mode, boolOf revertive with
  | some m, some r =>
    ({ s with timing := { s.timing with mode := m, revertive := r } }).answer 0x21 tag .done [m.code, bit r]
  | _, _ => s.refuse 0x21 tag .badParameter

def execSetTimingMode (tag mode revertive : Byte) (s : State) : Host.Outcome State Fault Refusal :=
  whenRunning s (takeSetTimingMode tag mode revertive s)

/-! ### READ REFERENCE and READ TIMING (R84, R85) -/

/-- READ REFERENCE (Table 4-8). -/
def takeReadReference (tag entry : Byte) (s : State) : State :=
  match below 4 entry with
  | none => s.refuse 0x23 tag .badParameter
  | some e =>
    let x := s.entry e
    s.answer 0x23 tag .done
      ([x.state.code, x.reason.code, bit x.enable, BitVec.ofNat 8 x.priority, x.q.code,
        (if isLine e then BitVec.ofNat 8 x.span.val else 0xFF)] ++ bytes16 (BitVec.ofNat 16 x.count) ++ [x.target.code])

def execReadReference (tag entry : Byte) (s : State) : Host.Outcome State Fault Refusal :=
  whenRunning s (takeReadReference tag entry s)

/-- READ TIMING (Table 4-8). -/
def takeReadTiming (tag : Byte) (s : State) : State :=
  let t := s.timing
  s.answer 0x24 tag .done
    ([t.loop.state.code, selectedCode t.loop.selected, t.flags, BitVec.ofNat 8 t.loop.lockCount] ++
      bytes16 (BitVec.ofNat 16 t.loop.acqCount) ++ [t.toa.stored.byte, t.tob.stored.byte, 0])

def execReadTiming (tag : Byte) (s : State) : Host.Outcome State Fault Refusal := whenRunning s (takeReadTiming tag s)

/-! ### SET TIMING OUTPUT (R82) -/

/-- The record as stored, in parameter order. -/
def OutputRecord.bytes (r : OutputRecord) : List Byte := [bit r.enable, r.source.code, r.rate.code, bit r.squelch]

/-- SET TIMING OUTPUT (R82): the record is stored whole; it comes into force at the next office frame
boundary (R79). -/
def takeSetTimingOutput (tag output enable source rate squelch : Byte) (s : State) : State :=
  match boolOf output, boolOf enable, outputSourceOf source, outputRateOf rate, boolOf squelch with
  | some b, some en, some src, some rt, some sq =>
    let r : OutputRecord := ⟨en, src, rt, sq⟩
    let t := if b then { s.timing with tob := { s.timing.tob with stored := r } }
             else { s.timing with toa := { s.timing.toa with stored := r } }
    ({ s with timing := t }).answer 0x25 tag .done (output :: r.bytes)
  | _, _, _, _, _ => s.refuse 0x25 tag .badParameter

def execSetTimingOutput (tag output enable source rate squelch : Byte) (s : State) : Host.Outcome State Fault Refusal :=
  whenRunning s (takeSetTimingOutput tag output enable source rate squelch s)

end Sys2Proof.Machine
end

