-- ==== Sys2Proof/Machine/Timers.lean ====
section
/-! DEFINITION. Action timers and the office frame number (chapter 6). -/

namespace Sys2Proof.Machine

/-! ### The office frame number (R107, R109) -/

/-- The number is formed: a pending value that falls due, or the number before plus one. -/
def State.formNumber (s : State) : State :=
  { s with
    frameNumber := s.nextNumber
    pendingNumber := match s.pendingNumber with
      | some ⟨_, true⟩ => none
      | p => p }

/-- A boundary opens: at an office superframe boundary a pending number has come to the boundary it records. -/
def openNumber (superframe : Bool) : Option PendingNumber → Option PendingNumber
  | some p => some { p with due := p.due || superframe }
  | none => none

/-! ### Matching (R115, R116) -/

/-- The action of timer `t` performed, with its outcome (R116). -/
def State.performAction (s : State) (t : Timer) : State × TimerOutcome :=
  match t.action with
  | .mark => (s, .done)
  | .swapIngress => (s.timerSwap true false, .done)
  | .swapEgress => (s.timerSwap false true, .done)
  | .swapBoth => (s.timerSwap true true, .done)
  | .selectReference => s.selectionRequest t.param

/-- The timer's record after a match with outcome `o` (R115 steps 1, 2 and 4). -/
def Timer.afterMatch (t : Timer) (o : TimerOutcome) : Timer :=
  match t.mode with
  | .oneShot => { t with matched := true, lastOutcome := o, armed := false }
  | .periodic => { t with matched := true, lastOutcome := o, matchAt := t.matchAt + t.period.setWidth 24 }

/-- Timer `n` at a boundary, once the number has been formed (R115, R118). -/
def State.matchTimer (s : State) (n : Fin 4) : State :=
  let t := s.timers[n]
  if t.armed ∧ t.matchAt = s.frameNumber then
    let r := s.performAction t
    (r.1.setTimer n (t.afterMatch r.2)).offerUnitTrigger 5 n
  else s

/-! ### Orders (R108, R111 to R114) -/

/-- SET TIMER (R111). -/
def takeSetTimer (tag timer mode : Byte) (period : Word) (action param : Byte) (s : State) : State :=
  match below 4 timer, timerModeOf mode, timerActionOf action param with
  | some n, some m, some (a, p) =>
    if period = 0 then s.refuse 0x40 tag .badParameter
    else
      let t := { s.timers[n] with mode := m, period := period, action := a, param := p, armed := false }
      (s.setTimer n t).answer 0x40 tag .done
        ([t.flags, m.code] ++ bytes16 period ++ [a.code, BitVec.ofNat 8 p.val])
  | _, _, _ => s.refuse 0x40 tag .badParameter

def execSetTimer (tag timer mode : Byte) (period : Word) (action param : Byte) (s : State) : Host.Outcome State Fault Refusal :=
  whenRunning s (takeSetTimer tag timer mode period action param s)

/-- The reply of LOAD MATCH, ARM TIMER and DISARM TIMER: flags, match, office frame number as seen. -/
def Timer.seen (t : Timer) (n : FrameNumber) : List Byte := [t.flags] ++ bytes24 t.matchAt ++ bytes24 n

/-- LOAD MATCH (R112). -/
def takeLoadMatch (tag timer : Byte) (value : FrameNumber) (s : State) : State :=
  match below 4 timer with
  | none => s.refuse 0x41 tag .badParameter
  | some n =>
    let t := { s.timers[n] with matchAt := value, armed := false }
    (s.setTimer n t).answer 0x41 tag .done (t.seen s.frameNumber)

def execLoadMatch (tag timer : Byte) (value : FrameNumber) (s : State) : Host.Outcome State Fault Refusal :=
  whenRunning s (takeLoadMatch tag timer value s)

/-- A timer armed or disarmed, with MATCHED cleared (R113). -/
def takeArming (code : Byte) (armed : Bool) (tag timer : Byte) (s : State) : State :=
  match below 4 timer with
  | none => s.refuse code tag .badParameter
  | some n =>
    let t := { s.timers[n] with armed := armed, matched := false }
    (s.setTimer n t).answer code tag .done (t.seen s.frameNumber)

/-- ARM TIMER (R113). -/
def takeArmTimer (tag timer : Byte) (s : State) : State := takeArming 0x42 true tag timer s

def execArmTimer (tag timer : Byte) (s : State) : Host.Outcome State Fault Refusal :=
  whenRunning s (takeArmTimer tag timer s)

/-- DISARM TIMER (R113). -/
def takeDisarmTimer (tag timer : Byte) (s : State) : State := takeArming 0x43 false tag timer s

def execDisarmTimer (tag timer : Byte) (s : State) : Host.Outcome State Fault Refusal :=
  whenRunning s (takeDisarmTimer tag timer s)

/-- READ TIMER (R114). -/
def takeReadTimer (tag timer : Byte) (s : State) : State :=
  match below 4 timer with
  | none => s.refuse 0x44 tag .badParameter
  | some n =>
    let t := s.timers[n]
    s.answer 0x44 tag .done
      ([t.flags] ++ bytes24 t.matchAt ++ bytes16 t.period ++ [t.action.code, BitVec.ofNat 8 t.param.val, t.lastOutcome.code])

def execReadTimer (tag timer : Byte) (s : State) : Host.Outcome State Fault Refusal :=
  whenRunning s (takeReadTimer tag timer s)

/-- SET FRAME NUMBER (R108). -/
def takeSetFrameNumber (tag : Byte) (value : FrameNumber) (s : State) : State :=
  if value.toNat % 16 = 0 then
    ({ s with pendingNumber := some ⟨value, false⟩ }).answer 0x45 tag .accepted (bytes24 value ++ bytes24 s.frameNumber)
  else s.refuse 0x45 tag .badParameter

def execSetFrameNumber (tag : Byte) (value : FrameNumber) (s : State) : Host.Outcome State Fault Refusal :=
  whenRunning s (takeSetFrameNumber tag value s)

end Sys2Proof.Machine
end

