-- ==== Sys2Proof/Machine/Units.lean ====
section
/-! DEFINITION. Channel test units (chapter 7): transfers and runs, chaining, the pending flag, and the
unit orders. -/

namespace Sys2Proof.Machine

/-! ### Transfers and runs (R126, R127) -/

/-- The transfer of unit `u` at its point: a capture enters the byte in the buffer; an insertion that loses
the arbiter sets COLLIDED (R126, R129). -/
def State.moved (s : State) (received : Vector Byte 640) (u : Fin 4) : TestUnit :=
  let t := s.units[u]
  match t.mode with
  | .capture => { t with buffer := t.buffer.set t.pointer (s.pointByte received t.point) }
  | .insert => { t with collided := t.collided || s.winner t.point != some u }

/-- Pending cleared, the pointer advanced modulo 64 and remaining lowered; a run whose remaining is then 0
is complete: DONE in single mode, reloaded in repeat mode with the wrap count raised to at most 255. -/
def TestUnit.advance (t : TestUnit) : TestUnit :=
  let t1 := { t with pending := false, pointer := t.pointer + 1, remaining := t.remaining - 1 }
  if t1.remaining = 0 then
    if t.repeating then { t1 with remaining := t.count, pointer := 0, wraps := min (t.wraps + 1) 255 }
    else { t1 with state := .done }
  else t1

/-- Unit `u` at the end of the office frame in progress. -/
def State.transferred (s : State) (received : Vector Byte 640) (u : Fin 4) : TestUnit :=
  if s.transfers u then (s.moved received u).advance else s.units[u]

/-- The transfer of unit `u` completes its run and offers a chain trigger (R127). -/
def State.completesRun (s : State) (u : Fin 4) : Bool := s.transfers u && decide (s.units[u].remaining ≤ 1)

/-- The unit numbered one higher, modulo 4, takes a chain trigger from unit `u` (R127). -/
def State.chain (before : State) (s : State) (u : Fin 4) : State :=
  if before.completesRun u then s.offerUnitTrigger 6 (u + 1) else s

/-- At the end of an office frame a set new-trigger flag sets pending; the next frame's flag begins clear
(R125). -/
def TestUnit.endFrame (t : TestUnit) : TestUnit :=
  { t with pending := t.pending || t.newTrigger, newTrigger := false }

/-- The test units at the end of an office frame: transfers, chain triggers, pending (R125 to R127). -/
def State.unitsEndFrame (s : State) (received : Vector Byte 640) : State :=
  let s1 := { s with units := Vector.ofFn fun u => s.transferred received u }
  let s2 := allFour.foldl s.chain s1
  { s2 with units := s2.units.map TestUnit.endFrame }

/-! ### Orders (R130 to R135) -/

/-- SET UNIT (R130). -/
def takeSetUnit (tag number mode kind arg1 arg2 source count repeating : Byte) (s : State) : State :=
  match below 4 number, unitModeOf mode, pointOf kind arg1 arg2, below 8 source, boolOf repeating with
  | some u, some m, some p, some src, some rep =>
    if count.toNat = 0 ∨ 64 < count.toNat then s.refuse 0x50 tag .badParameter
    else if m.allows p = false then s.refuse 0x50 tag .badParameter
    else if p.management then s.refuse 0x50 tag .badSlot
    else if s.units[u].state = .running then s.refuse 0x50 tag .unitRunning
    else
      let t := { s.units[u] with mode := m, point := p, source := src, count := count.toNat, repeating := rep
                                 newTrigger := false, pending := false, state := .stopped }
      (s.setUnit u t).answer 0x50 tag .done
        ([t.state.code, m.code] ++ p.bytes ++ [source, count, repeating])
  | _, _, _, _, _ => s.refuse 0x50 tag .badParameter

def execSetUnit (tag number mode kind arg1 arg2 source count repeating : Byte) (s : State) : Host.Outcome State Fault Refusal :=
  whenRunning s (takeSetUnit tag number mode kind arg1 arg2 source count repeating s)

/-- The reply of START UNIT and STOP UNIT. -/
def TestUnit.progress (t : TestUnit) : List Byte :=
  [t.state.code, t.flags, BitVec.ofNat 8 t.pointer.val, BitVec.ofNat 8 t.remaining]

/-- START UNIT (R131). -/
def takeStartUnit (tag number : Byte) (s : State) : State :=
  match below 4 number with
  | none => s.refuse 0x51 tag .badParameter
  | some u =>
    let t := { s.units[u] with state := .running, pointer := 0, remaining := s.units[u].count, wraps := 0, collided := false }
    (s.setUnit u t).answer 0x51 tag .done t.progress

def execStartUnit (tag number : Byte) (s : State) : Host.Outcome State Fault Refusal :=
  whenRunning s (takeStartUnit tag number s)

/-- STOP UNIT (R132). -/
def takeStopUnit (tag number : Byte) (s : State) : State :=
  match below 4 number with
  | none => s.refuse 0x52 tag .badParameter
  | some u =>
    let t := { s.units[u] with state := .stopped }
    (s.setUnit u t).answer 0x52 tag .done t.progress

def execStopUnit (tag number : Byte) (s : State) : Host.Outcome State Fault Refusal :=
  whenRunning s (takeStopUnit tag number s)

/-- TRIGGER UNIT (R133). -/
def takeTriggerUnit (tag number : Byte) (s : State) : State :=
  match below 4 number with
  | none => s.refuse 0x53 tag .badParameter
  | some u =>
    let t := s.units[u].trigger
    (s.setUnit u t).answer 0x53 tag .done [t.flags]

def execTriggerUnit (tag number : Byte) (s : State) : Host.Outcome State Fault Refusal :=
  whenRunning s (takeTriggerUnit tag number s)

/-- READ UNIT (R134). -/
def takeReadUnit (tag number : Byte) (s : State) : State :=
  match below 4 number with
  | none => s.refuse 0x54 tag .badParameter
  | some u =>
    let t := s.units[u]
    s.answer 0x54 tag .done
      ([t.state.code, t.flags, BitVec.ofNat 8 t.pointer.val, BitVec.ofNat 8 t.remaining, BitVec.ofNat 8 t.wraps] ++
        t.point.bytes ++ [BitVec.ofNat 8 t.count])

def execReadUnit (tag number : Byte) (s : State) : Host.Outcome State Fault Refusal :=
  whenRunning s (takeReadUnit tag number s)

/-- The eight bytes from an offset, taken modulo 64 (R135). -/
def bufferFrom (b : Vector Byte 64) (offset : Fin 64) : List Byte :=
  [b[offset], b[offset + 1], b[offset + 2], b[offset + 3], b[offset + 4], b[offset + 5], b[offset + 6], b[offset + 7]]

/-- Byte `x` written at offset `i` of a buffer. -/
def putByte (b : Vector Byte 64) (i : Fin 64) (x : Byte) : Vector Byte 64 := b.set i x

/-- Eight bytes written from an offset, taken modulo 64 (R135). -/
def bufferWith (b : Vector Byte 64) (o : Fin 64) (d : Vector Byte 8) : Vector Byte 64 :=
  putByte (putByte (putByte (putByte (putByte (putByte (putByte (putByte b o d[0]) (o + 1) d[1]) (o + 2) d[2]) (o + 3) d[3])
    (o + 4) d[4]) (o + 5) d[5]) (o + 6) d[6]) (o + 7) d[7]

/-- READ BUFFER (R135). -/
def takeReadBuffer (tag number offset : Byte) (s : State) : State :=
  match below 4 number, below 64 offset with
  | some u, some o => s.answer 0x55 tag .done (offset :: bufferFrom s.units[u].buffer o)
  | _, _ => s.refuse 0x55 tag .badParameter

def execReadBuffer (tag number offset : Byte) (s : State) : Host.Outcome State Fault Refusal :=
  whenRunning s (takeReadBuffer tag number offset s)

/-- WRITE BUFFER (R135). -/
def takeWriteBuffer (tag number offset : Byte) (data : Vector Byte 8) (s : State) : State :=
  match below 4 number, below 64 offset with
  | some u, some o =>
    (s.setUnit u { s.units[u] with buffer := bufferWith s.units[u].buffer o data }).answer 0x56 tag .done
      [offset, BitVec.ofNat 8 s.units[u].pointer.val]
  | _, _ => s.refuse 0x56 tag .badParameter

def execWriteBuffer (tag number offset : Byte) (data : Vector Byte 8) (s : State) : Host.Outcome State Fault Refusal :=
  whenRunning s (takeWriteBuffer tag number offset data s)

end Sys2Proof.Machine
end

