-- ==== Sys2Proof/Machine/OrderChannel.lean ====
section
/-! DEFINITION. The order channel interface (chapter 8): unknown orders, the dispatch of a taken order to the
rule of its owner, the examination of a receive cell, and the forming of send cells. -/

namespace Sys2Proof.Machine

/-! ### UNKNOWN_ORDER (R142) -/

/-- A taken order whose code is not assigned: the code and tag echoed, every result byte 00h. -/
def takeUnknownOrder (tag code : Byte) (s : State) : State := s.answer code tag .unknownOrder []

/-- A cell with an unassigned code. An assigned code is that order's own command, and 00h marks an empty
cell: neither is an unknown order, and nothing happens. -/
def execUnknownOrder (tag code : Byte) (s : State) : Host.Outcome State Fault Refusal :=
  whenRunning s (if unassignedCode code then takeUnknownOrder tag code s else s)

/-! ### Carrying out a taken order (R141) -/

/-- The order carried out by its owner's rule. `sampled n` says that the drift meter of span n has made the
sample of this boundary (R60). An event is no order. -/
def State.takeOrder (sampled : Fin 16 → Bool) (s : State) : Instr → State
  | .powerOn _ => s
  | .coldRestartBegin => s
  | .supplyFall => s
  | .restartEnd _ => s
  | .clockPresentRise _ => s
  | .clockPresentFall _ => s
  | .lineWindowEnd _ _ => s
  | .noisePeriodEnd _ => s
  | .huntCandidateFound _ _ _ => s
  | .verifyCheck _ _ _ => s
  | .expectedAlignmentOctet _ _ _ => s
  | .alignedFrame _ _ _ => s
  | .storeUnderrun _ => s
  | .referenceEvent _ _ _ => s
  | .officeFrameBoundary _ _ _ => s
  | .qualificationComplete _ => s
  | .acquisitionTimeout => s
  | .unknownOrder tag code => takeUnknownOrder tag code s
  | .identify tag => takeIdentify tag s
  | .warmRestart tag => takeWarmRestart tag s
  | .setSpan tag n a b c d e => takeSetSpan tag n a b c d e s
  | .spanRestart tag n => takeSpanRestart tag n s
  | .readSpan tag n => takeReadSpan tag n s
  | .setThresholds tag n l h => takeSetThresholds tag n l h s
  | .readStore tag n => takeReadStore tag n s
  | .setDrift tag n k l => takeSetDrift ((spanOf n).elim false sampled) tag n k l s
  | .readDrift tag n => takeReadDrift tag n s
  | .setReference tag a b c d e => takeSetReference tag a b c d e s
  | .setTimingMode tag a b => takeSetTimingMode tag a b s
  | .selectReference tag a => takeSelectReference tag a s
  | .readReference tag a => takeReadReference tag a s
  | .readTiming tag => takeReadTiming tag s
  | .setTimingOutput tag a b c d e => takeSetTimingOutput tag a b c d e s
  | .writeIngressEntry tag a b c d e => takeWriteIngressEntry tag a b c d e s
  | .writeEgressEntry tag a b c d e => takeWriteEgressEntry tag a b c d e s
  | .readIngressEntry tag a b c => takeReadIngressEntry tag a b c s
  | .readEgressEntry tag a b c => takeReadEgressEntry tag a b c s
  | .swapMaps tag a => takeSwapMaps tag a s
  | .copyMaps tag a => takeCopyMaps tag a s
  | .setTimer tag a b p c d => takeSetTimer tag a b p c d s
  | .loadMatch tag a v => takeLoadMatch tag a v s
  | .armTimer tag a => takeArmTimer tag a s
  | .disarmTimer tag a => takeDisarmTimer tag a s
  | .readTimer tag a => takeReadTimer tag a s
  | .setFrameNumber tag v => takeSetFrameNumber tag v s
  | .setUnit tag a b c d e f g h => takeSetUnit tag a b c d e f g h s
  | .startUnit tag a => takeStartUnit tag a s
  | .stopUnit tag a => takeStopUnit tag a s
  | .triggerUnit tag a => takeTriggerUnit tag a s
  | .readUnit tag a => takeReadUnit tag a s
  | .readBuffer tag a b => takeReadBuffer tag a b s
  | .writeBuffer tag a b d => takeWriteBuffer tag a b d s
  | .readAlarms tag a => takeReadAlarms tag a s
  | .clearLatched tag a => takeClearLatched tag a s
  | .readCounts tag a b c => takeReadCounts tag a b c s

/-! ### The receive cell (R137, R139, R140) -/

/-- The held station number as a byte. -/
def State.stationByte (s : State) : Byte := s.restart.station.setWidth 8

/-- The egress byte of the office frame just ended, written into the receive cell at its frame index; not
before the first office superframe boundary (R137, R151). -/
def State.gather (s : State) (byte : Byte) : State :=
  if s.channel.framed then
    { s with channel := { s.channel with
        receive := Vector.ofFn fun i : Fin 16 => if i.val = frameIndex s.frameNumber then byte else s.channel.receive[i] } }
  else s

/-- A check error: CHECK ERRORS rises and CHECK-ERROR is latched (R140). -/
def State.checkError (s : State) : State :=
  { s with device := { s.device with checkErrors := raise s.device.checkErrors, latched := s.device.latched ||| checkErrorAlarm } }

/-- The three tests of R140 on a receive cell, and the taking of an order addressed to the part. -/
def State.judgeCell (s : State) (sampled : Fin 16 → Bool) (cell : Cell) : State :=
  if cell[1] = 0 then s
  else if meetsCheck cell = false then s.checkError
  else if cell[0] = s.stationByte ∨ cell[0] = 31 then s.takeOrder sampled (decodeOrder cell)
  else s

/-- The receive cell cleared (R140). -/
def State.clearCell (s : State) : State := { s with channel := { s.channel with receive := Vector.replicate 16 0 } }

/-- Stage 2 of R145: the completed receive cell is examined and cleared. At the first office superframe boundary
no cell is examined (R151). -/
def State.examine (s : State) (sampled : Fin 16 → Bool) : State :=
  if s.channel.framed then (s.judgeCell sampled s.channel.receive).clearCell else s

/-! ### The send cell (R145 to R149) -/

/-- A status cell as it stands at the forming, byte 2 still open (R148, Table 8-2). -/
def State.statusCell (s : State) : Cell :=
  sealCell #v[s.stationByte, 0, 0, 0, s.timing.loop.state.code, selectedCode s.timing.loop.selected,
    ((s.entry 0).state.code <<< 4) ||| (s.entry 1).state.code, ((s.entry 2).state.code <<< 4) ||| (s.entry 3).state.code,
    s.alignedSet 8, s.alignedSet 0, s.highway.swapFlags, s.runningSet, s.armedSet, s.summary, 0, 0]

/-- The cell of a pending reply, with the attention summary as it stands when the reply becomes the send cell
(R146, R149). -/
def State.replyCell (s : State) (r : Reply) : Cell :=
  sealCell #v[s.stationByte, r.code, r.tag, r.outcome.code, r.results[0], r.results[1], r.results[2], r.results[3],
    r.results[4], r.results[5], r.results[6], r.results[7], r.results[8], s.summary, 0, 0]

/-- Stage 1 of R145: the send cell is formed and a pending reply is released. -/
def State.formSend (s : State) : State :=
  { s with channel := { s.channel with
      send := some (match s.channel.reply with
        | some r => s.replyCell r
        | none => s.statusCell)
      reply := none } }

/-- Byte 2 of a status cell: the low byte of the superframe count of the number `n` (R148). -/
def stampStatus (n : FrameNumber) (cell : Cell) : Cell := sealCell (cell.set 2 (BitVec.ofNat 8 (superframeCount n)))

/-- The order channel at an office superframe boundary (R145). -/
def State.orderBoundary (s : State) (sampled : Fin 16 → Bool) : State := s.formSend.examine sampled

end Sys2Proof.Machine
end

