-- ==== Sys2Proof/Machine/Boundary.lean ====
section
/-! DEFINITION. The office frame boundary (R63): the end of the office frame in progress, the handlings of the
blocks in the order given, and the beginning of the next office frame. -/

namespace Sys2Proof.Machine

/-! ### The end of the office frame (R27, R31, R89 to R91, R125 to R127) -/

/-- Every read side reads the rest of its frame (R31). -/
def State.finishReads (s : State) : State :=
  allSpans.foldl (fun s n => s.readSide n 336) s

/-- The channel byte the store delivered in the office frame just ended: octet c + 2 of the frame read where it
was read whole, else the conditioned byte in force (R27). -/
def Span.delivered (sp : Span) (c : Fin 40) : Byte :=
  if 8 * c.val + 24 ≤ sp.store.out.length then octetAt sp.store.out (8 * c.val + 16) else sp.tx.conditionedInForce

/-- The frame the transmitter sent in the office frame just ended (R17, R20). -/
def State.sentFrame (s : State) (n : Fin 16) : Option (Vector Byte 42) :=
  match (s.span n).tx.modeInForce with
  | .off => none
  | .blank => some (Vector.replicate 42 0xFF)
  | .normal => some (Vector.ofFn fun i : Fin 42 =>
      if i.val = 0 then Config.alignmentOctet
      else if i.val = 1 then (s.span n).tx.overhead
      else s.channelByte n (Fin.ofNat 40 (i.val - 2)))

/-- The byte of ingress position `i` in the office frame in progress. -/
def State.ingressAt (s : State) (i : Fin 640) : Byte :=
  s.ingressByte ⟨i.val / 160, by omega⟩ ⟨i.val % 160, by omega⟩

/-- The bytes of the office frame just ended leave on the transmit lines and the ingress highway, and both holds
take theirs (R90, R91). -/
def State.takeHolds (s : State) (received : Vector Byte 640) : State :=
  { s with
    spans := Vector.ofFn fun n : Fin 16 => { s.span n with tx := { (s.span n).tx with sent := s.sentFrame n } }
    highway := { s.highway with
      sent := Vector.ofFn fun i => s.ingressAt i
      retimed := Vector.ofFn fun n : Fin 16 => Vector.ofFn fun c : Fin 40 => (s.span n).delivered c
      held := received.set 0 0xFF } }

/-- The office frame in progress ends: reads, management byte, transfers and insertions of the test units, then
the holds. The holds are taken from the state in which the units had not yet moved on. -/
def State.endFrame (s : State) (received : Vector Byte 640) : State :=
  let s1 := s.finishReads.gather received[0]
  { s1.takeHolds received with units := (s1.unitsEndFrame received).units }

/-! ### The boundary opens -/

/-- What comes into force for a span at the boundary: thresholds, transmit mode, loopback and conditioned byte;
at an office superframe boundary the slip indications turn over (R44, R20, R97, R27, R19). -/
def Span.openBoundary (sp : Span) (superframe : Bool) : Span :=
  { sp with
    store := { sp.store with low := sp.store.lowStored, high := sp.store.highStored }
    tx := { sp.tx with
      modeInForce := sp.record.transmitMode, loopbackInForce := sp.record.loopback, conditionedInForce := sp.record.conditioned
      previousSlip := if superframe then sp.tx.currentSlip else sp.tx.previousSlip
      currentSlip := if superframe then false else sp.tx.currentSlip } }

/-- A timing output at the boundary: its stored record comes into force, and a new office frame's pulses are
counted (R79). -/
def TimingOutput.openBoundary (o : TimingOutput) : TimingOutput := { o with inForce := o.stored, pulses := 0 }

/-- The boundary opens: stored settings come into force, and at an office superframe boundary what was due there
is due (R44, R79, R102, R104, R109, R72). -/
def State.openBoundary (s : State) (superframe : Bool) : State :=
  { s with
    spans := s.spans.map fun sp => sp.openBoundary superframe
    timing := { s.timing with
      toa := s.timing.toa.openBoundary, tob := s.timing.tob.openBoundary
      loop := { s.timing.loop with fresh := s.timing.loop.fresh && !superframe } }
    highway := { s.highway with
      ingress := s.highway.ingress.openBoundary superframe, egress := s.highway.egress.openBoundary superframe }
    pendingNumber := openNumber superframe s.pendingNumber }

/-! ### The handlings (R69, R115, R141) -/

/-- The handlings in the order the model takes where a command names none. -/
def defaultOrder : List Handling :=
  [.number, .timer 0, .timer 1, .timer 2, .timer 3] ++ allSpans.map Handling.store ++ [.otu, .outputs, .swaps, .units, .orderChannel]

/-- What a handling brings with it: a timer compares once the number has been formed, and an order is not taken
between the forming of the number and the comparisons (R107, R115). -/
def expand (done : List Handling) : Handling → List Handling
  | .timer n => [.number, .timer n]
  | .orderChannel =>
    if .number ∈ done then [.timer 0, .timer 1, .timer 2, .timer 3, .orderChannel] else [.orderChannel]
  | h => [h]

/-- A handling added to those before it, each taken once. -/
def addHandling (done : List Handling) (h : Handling) : List Handling :=
  done ++ (expand done h).filter fun x => !done.contains x

/-- Every handling once, in the order a command names and then in the model's order. -/
def schedule (order : List Handling) : List Handling := (order ++ defaultOrder).foldl addHandling []

/-- One handling; `done` are those taken before it at this boundary. -/
def State.handle (s : State) (superframe apart : Bool) (done : List Handling) : Handling → State
  | .number => s.formNumber
  | .timer n => s.matchTimer n
  | .store n => s.storeBoundary superframe n
  | .otu => s.otuBoundary superframe apart
  | .outputs => s.officePulses (if .number ∈ done then s.frameNumber else s.nextNumber)
  | .swaps => if superframe then s.performSwaps else s
  | .units => if superframe then (s.offerTrigger 1).offerTrigger 2 else s.offerTrigger 1
  | .orderChannel => if superframe then s.orderBoundary fun n => decide (.store n ∈ done) else s

/-- The handlings one after another. -/
def State.handleAll (superframe apart : Bool) : List Handling → List Handling → State → State
  | _, [], s => s
  | done, h :: rest, s => State.handleAll superframe apart (h :: done) rest (s.handle superframe apart done h)

/-! ### The next office frame begins (R18, R148) -/

/-- The far-end report of R18. -/
def Span.farEndReport (sp : Span) : Byte := flag 7 sp.unaligned ||| flag 6 sp.tx.previousSlip ||| 0x3F

/-- Octet 1 of the transmit frame of index `i`. -/
def Span.overheadAt (sp : Span) (i : Nat) : Byte :=
  if i = 0 then Config.superframeMarker else if i = 1 then sp.farEndReport else 0xFF

/-- The next office frame begins: the overhead octets are formed, cells are framed from the first office superframe
boundary on, and a status cell formed at this boundary carries the superframe count. -/
def State.closeBoundary (s : State) (superframe status : Bool) : State :=
  { s with
    spans := s.spans.map fun sp => { sp with tx := { sp.tx with overhead := sp.overheadAt (frameIndex s.frameNumber) } }
    channel := { s.channel with
      framed := s.channel.framed || superframe
      send := if superframe && status then s.channel.send.map (stampStatus s.frameNumber) else s.channel.send } }

/-! ### OFFICE_FRAME_BOUNDARY -/

/-- The office frame boundary, whole. An acquisition timeout that the boundary before left to its own step is
taken first (R72). -/
def State.boundary (s : State) (received : Vector Byte 640) (order : List Handling) (apart : Bool) : State :=
  let superframe := s.superframeNext
  let opened := (s.acquisitionTimeout.endFrame received).openBoundary superframe
  (opened.handleAll superframe apart [] (schedule order)).closeBoundary superframe s.channel.reply.isNone

/-- OFFICE_FRAME_BOUNDARY (R63). While a restart holds the part no boundary is produced. -/
def execOfficeFrameBoundary (egress : Vector Byte 640) (order : List Handling) (timeoutApart : Bool) (s : State) :
    Host.Outcome State Fault Refusal :=
  whenRunning s (s.boundary egress order timeoutApart)

end Sys2Proof.Machine
end

