-- ==== Sys2Proof/Machine/Dispatch.lean ====
section
/-! DEFINITION. The dispatch of commands: one arm per row of spec/opcode_table.json. -/

namespace Sys2Proof.Machine

def exec (i : Instr) (s : State) : Host.Outcome State Fault Refusal :=
  match i with
  | .powerOn resetLow => Sys2Proof.Machine.execPowerOn resetLow s
  | .coldRestartBegin => Sys2Proof.Machine.execColdRestartBegin s
  | .supplyFall => Sys2Proof.Machine.execSupplyFall s
  | .restartEnd straps => Sys2Proof.Machine.execRestartEnd straps s
  | .clockPresentRise span => Sys2Proof.Machine.execClockPresentRise span s
  | .clockPresentFall moment => Sys2Proof.Machine.execClockPresentFall moment s
  | .lineWindowEnd moment samples => Sys2Proof.Machine.execLineWindowEnd moment samples s
  | .noisePeriodEnd span => Sys2Proof.Machine.execNoisePeriodEnd span s
  | .huntCandidateFound span position looks => Sys2Proof.Machine.execHuntCandidateFound span position looks s
  | .verifyCheck span position looks => Sys2Proof.Machine.execVerifyCheck span position looks s
  | .expectedAlignmentOctet moment position looks => Sys2Proof.Machine.execExpectedAlignmentOctet moment position looks s
  | .alignedFrame span readSoFar looks => Sys2Proof.Machine.execAlignedFrame span readSoFar looks s
  | .storeUnderrun span => Sys2Proof.Machine.execStoreUnderrun span s
  | .referenceEvent input time frequency => Sys2Proof.Machine.execReferenceEvent input time frequency s
  | .officeFrameBoundary egress order timeoutApart => Sys2Proof.Machine.execOfficeFrameBoundary egress order timeoutApart s
  | .qualificationComplete entry => Sys2Proof.Machine.execQualificationComplete entry s
  | .acquisitionTimeout => Sys2Proof.Machine.execAcquisitionTimeout s
  | .unknownOrder tag code => Sys2Proof.Machine.execUnknownOrder tag code s
  | .identify tag => Sys2Proof.Machine.execIdentify tag s
  | .warmRestart tag => Sys2Proof.Machine.execWarmRestart tag s
  | .setSpan tag span enable transmitMode loopback conditioned noiseLimit => Sys2Proof.Machine.execSetSpan tag span enable transmitMode loopback conditioned noiseLimit s
  | .spanRestart tag span => Sys2Proof.Machine.execSpanRestart tag span s
  | .readSpan tag span => Sys2Proof.Machine.execReadSpan tag span s
  | .setThresholds tag span low high => Sys2Proof.Machine.execSetThresholds tag span low high s
  | .readStore tag span => Sys2Proof.Machine.execReadStore tag span s
  | .setDrift tag span k limit => Sys2Proof.Machine.execSetDrift tag span k limit s
  | .readDrift tag span => Sys2Proof.Machine.execReadDrift tag span s
  | .setReference tag entry enable priority q span => Sys2Proof.Machine.execSetReference tag entry enable priority q span s
  | .setTimingMode tag mode revertive => Sys2Proof.Machine.execSetTimingMode tag mode revertive s
  | .selectReference tag entry => Sys2Proof.Machine.execSelectReference tag entry s
  | .readReference tag entry => Sys2Proof.Machine.execReadReference tag entry s
  | .readTiming tag => Sys2Proof.Machine.execReadTiming tag s
  | .setTimingOutput tag output enable source rate squelch => Sys2Proof.Machine.execSetTimingOutput tag output enable source rate squelch s
  | .writeIngressEntry tag lane slot kind arg1 arg2 => Sys2Proof.Machine.execWriteIngressEntry tag lane slot kind arg1 arg2 s
  | .writeEgressEntry tag span channel kind arg1 arg2 => Sys2Proof.Machine.execWriteEgressEntry tag span channel kind arg1 arg2 s
  | .readIngressEntry tag lane slot bank => Sys2Proof.Machine.execReadIngressEntry tag lane slot bank s
  | .readEgressEntry tag span channel bank => Sys2Proof.Machine.execReadEgressEntry tag span channel bank s
  | .swapMaps tag direction => Sys2Proof.Machine.execSwapMaps tag direction s
  | .copyMaps tag direction => Sys2Proof.Machine.execCopyMaps tag direction s
  | .setTimer tag timer mode period action param => Sys2Proof.Machine.execSetTimer tag timer mode period action param s
  | .loadMatch tag timer value => Sys2Proof.Machine.execLoadMatch tag timer value s
  | .armTimer tag timer => Sys2Proof.Machine.execArmTimer tag timer s
  | .disarmTimer tag timer => Sys2Proof.Machine.execDisarmTimer tag timer s
  | .readTimer tag timer => Sys2Proof.Machine.execReadTimer tag timer s
  | .setFrameNumber tag value => Sys2Proof.Machine.execSetFrameNumber tag value s
  | .setUnit tag number mode kind arg1 arg2 source count repeating => Sys2Proof.Machine.execSetUnit tag number mode kind arg1 arg2 source count repeating s
  | .startUnit tag number => Sys2Proof.Machine.execStartUnit tag number s
  | .stopUnit tag number => Sys2Proof.Machine.execStopUnit tag number s
  | .triggerUnit tag number => Sys2Proof.Machine.execTriggerUnit tag number s
  | .readUnit tag number => Sys2Proof.Machine.execReadUnit tag number s
  | .readBuffer tag number offset => Sys2Proof.Machine.execReadBuffer tag number offset s
  | .writeBuffer tag number offset data => Sys2Proof.Machine.execWriteBuffer tag number offset data s
  | .readAlarms tag owner => Sys2Proof.Machine.execReadAlarms tag owner s
  | .clearLatched tag owner => Sys2Proof.Machine.execClearLatched tag owner s
  | .readCounts tag group span clear => Sys2Proof.Machine.execReadCounts tag group span clear s

end Sys2Proof.Machine
end

