-- ==== Sys2Proof/Safety.lean ====
section
/-! DEFINITION. The laws the part keeps, one for each kind of state: what a safe state is. -/

namespace Sys2Proof.Machine

/-! ### Span side (chapter 1) -/

/-- The frame aligner's own counts: a VERIFY in progress has made at most two checks and failed at most one
(R9); the miss count of FLYWHEEL is 1 to 3 (R10). -/
def Aligner.counted : Aligner → Prop
  | .verify _ made failed => made ≤ 2 ∧ failed ≤ 1 ∧ failed ≤ made
  | .flywheel _ misses => 1 ≤ misses ∧ misses ≤ 3
  | _ => True

/-- The aligner follows enable and clock-present (R7): OFF exactly while disabled, ABSENT exactly while enabled
without clock. -/
def Span.follows (sp : Span) : Prop :=
  (sp.rx.aligner = .off ↔ sp.record.enable = false) ∧
  (sp.rx.aligner = .absent ↔ sp.record.enable = true ∧ sp.rx.clockPresent = false)

/-- BLANK and BREAK: never both active (R5), with the streaks that make it so. -/
def LineWindows.exclusive (w : LineWindows) : Prop :=
  ¬(w.blank.active = true ∧ w.brk.active = true) ∧
  (w.blank.active = true → w.brk.streak = true → w.blank.streak = true) ∧
  (w.brk.active = true → w.blank.streak = true → w.brk.streak = true)

/-- The span law: the aligner's counts; the line windows (R4, R5) and the hold of the search while BLANK or BREAK
is active (R8, R11); the noise limit (R2); and SF-SEARCH, with no far-end report valid and FAR-END inactive,
wherever the span is not aligned (R14 to R16). -/
def Span.lineLaw (sp : Span) : Prop :=
  sp.rx.aligner.counted ∧ sp.win.exclusive ∧
  (sp.win.held = true → sp.rx.aligner.aligned = false ∧ (∀ c m f, sp.rx.aligner ≠ .verify c m f)) ∧
  sp.win.tally ≤ sp.win.periodWindows ∧ sp.win.periodWindows ≤ 16 ∧
  1 ≤ sp.record.noiseLimit ∧ sp.record.noiseLimit ≤ 16 ∧
  (∀ c, sp.sf.state = .search (some c) → c ≤ 15) ∧
  (sp.sf.state.isLocked = false → sp.sf.reportValid = false ∧ sp.sf.farEnd = .reset) ∧
  (sp.rx.aligner.aligned = false → sp.sf.state = .search none)

/-! ### Stores and meters (chapters 2 and 3) -/

/-- The thresholds of R42, both pairs. -/
def Store.thresholds (st : Store) : Prop :=
  48 ≤ st.low ∧ st.low ≤ 336 ∧ 1008 ≤ st.high ∧ st.high ≤ 1296 ∧
  48 ≤ st.lowStored ∧ st.lowStored ≤ 336 ∧ 1008 ≤ st.highStored ∧ st.highStored ≤ 1296

/-- The store law: thresholds in range (R42); the fill within the ring (R26) and, while ATTACHED, from 1 to 1343
(R37) and equal to the distance from the read position to the write position (R26), with the read side as far into
a slot as into its frame (R31). A DETACHED store is empty (R28), and a FAULTED one names its fault (R45). -/
def Store.law (st : Store) : Prop :=
  st.thresholds ∧ st.writePos < 1344 ∧ st.readPos < 1344 ∧ st.fill ≤ 1344 ∧ st.out.length ≤ 336 ∧
  (st.state = .attached →
    1 ≤ st.fill ∧ st.fill ≤ 1343 ∧ (st.readPos + st.fill) % 1344 = st.writePos ∧ st.readPos % 336 = st.out.length % 336) ∧
  (st.state = .detached → st.fill = 0 ∧ st.lastFill = 0) ∧
  (st.state = .faulted → st.lastFault ≠ .none)

/-- The store is DETACHED exactly while the span is not aligned (R28, R29). -/
def Span.storeFollows (sp : Span) : Prop := sp.store.state = .detached ↔ sp.rx.aligner.aligned = false

/-- The meter law: k at most 7, with the stored k and limit those in force between boundaries, since an order that
stores others is taken where they come into force (R60); the drift average within 127 bits per superframe (R55);
and no baseline and no DRIFT but with an ATTACHED store (R50, R58). -/
def Span.meterLaw (sp : Span) : Prop :=
  sp.meter.k ≤ 7 ∧ sp.meter.kStored ≤ 7 ∧ sp.meter.kStored = sp.meter.k ∧ sp.meter.limitStored = sp.meter.limit ∧
  sp.meter.average.natAbs ≤ 32512 ∧
  (sp.store.state ≠ .attached → sp.meter.baseline = none ∧ sp.meter.drift = false)

/-! ### Office timing (chapter 4) -/

/-- A frequency within the pull range (R64). -/
def inPull (f : Rat) : Prop := -Config.pullRange ≤ f ∧ f ≤ Config.pullRange

/-- An entry: DISABLED exactly while its enable is OFF; a priority 1 to 4; in QUALIFYING the count has not reached
the target (R65, R68). -/
def RefEntry.law (x : RefEntry) : Prop :=
  (x.state = .disabled ↔ x.enable = false) ∧ 1 ≤ x.priority ∧ x.priority ≤ 4 ∧
  (x.state = .qualifying → x.count < x.target.superframes)

/-- The loop law of R70: ACQUIRING or LOCKED exactly when an entry is selected, and then that entry is enabled and
QUALIFIED; with the ranges of the counts, of the frequencies (R64, R74), and holdover-valid as R74 has it. The
acquisition count is never above 255: the count that would reach 256 is the timeout (R72), and where a boundary has
left it to ACQUISITION_TIMEOUT, the count stands at 255 and the loop is still ACQUIRING (notes/assumptions/11.md). -/
def Timing.law (t : Timing) : Prop :=
  (∀ e : Fin 4, t.entries[e].law) ∧
  (t.loop.selected.isSome = true ↔ t.loop.state = .acquiring ∨ t.loop.state = .locked) ∧
  (∀ e, t.loop.selected = some e → t.entries[e].enable = true ∧ t.entries[e].state = .qualified) ∧
  (t.loop.state = .acquiring → t.loop.lockCount ≤ 3) ∧ (t.loop.state = .locked → t.loop.lockCount = 4) ∧
  t.loop.acqCount ≤ 255 ∧ (t.loop.timeoutDue = true → t.loop.state = .acquiring ∧ t.loop.acqCount = 255) ∧
  (t.loop.state = .free ∨ t.loop.state = .holdover → t.loop.lockCount = 0 ∧ t.loop.acqCount = 0) ∧
  (t.loop.state = .free → t.loop.holdoverValid = false) ∧
  (t.loop.state = .locked ∨ t.loop.state = .holdover → t.loop.holdoverValid = true) ∧
  inPull t.loop.freq ∧ inPull t.loop.holdoverFreq ∧ t.loop.history.length ≤ 64 ∧ (∀ f ∈ t.loop.history, inPull f)

/-- Entries follow their fault conditions (R66, R67): QUALIFYING and QUALIFIED without one, FAULTED with the one that
is its last fault reason. -/
def State.entriesFollow (s : State) : Prop :=
  ∀ e : Fin 4,
    ((s.entry e).state = .qualifying ∨ (s.entry e).state = .qualified → s.entryFault e = none) ∧
    ((s.entry e).state = .faulted → s.entryFault e = some (s.entry e).reason)

/-! ### Maps (chapter 5) -/

/-- The map law: position (0, 0) of the ingress map is vacant in both banks (R92), and no OFFICE entry names (0, 0)
in either bank of the egress map (R93). -/
def Highway.law (h : Highway) : Prop :=
  (∀ b : Fin 2, h.ingress.banks[b][(0 : Fin 640)] = .unused) ∧
  (∀ (b : Fin 2) (i : Fin 640), h.egress.banks[b][i] ≠ .office 0 0)

/-! ### Office frame number, timers and units (chapters 6 and 7) -/

/-- A pending office frame number is a multiple of 16, and between boundaries it is not overdue (R108, R109); nor is
a pending swap (R103). -/
def State.dueLaw (s : State) : Prop :=
  (∀ p, s.pendingNumber = some p → p.value.toNat % 16 = 0 ∧ p.due = false) ∧
  s.highway.ingress.request ≠ .pending true ∧ s.highway.egress.request ≠ .pending true

/-- A timer's parameter is 0 unless its action is SELECT-REFERENCE, and its period is not 0 (R110, R111). -/
def Timer.law (t : Timer) : Prop := t.period ≠ 0 ∧ (t.action ≠ .selectReference → t.param = 0)

/-- The unit law of R128, with the record R130 allows: a count 1 to 64, a point its mode can be set to, outside the
management slot; while RUNNING, remaining 1 to the count and the pointer equal to the count less remaining. -/
def TestUnit.law (u : TestUnit) : Prop :=
  1 ≤ u.count ∧ u.count ≤ 64 ∧ u.mode.allows u.point = true ∧ u.point.management = false ∧ u.wraps ≤ 255 ∧
  (u.state = .running → 1 ≤ u.remaining ∧ u.remaining ≤ u.count ∧ u.pointer.val + u.remaining = u.count)

/-! ### The order channel and the collector (chapters 8 and 9) -/

/-- A send cell is held exactly from the first office superframe boundary on (R150, R151), and it meets the check
(R138). -/
def OrderChannel.law (c : OrderChannel) : Prop :=
  (c.framed = true ↔ c.send.isSome = true) ∧ (∀ cell, c.send = some cell → meetsCheck cell = true)

/-- Every alarm of one set is in the other. -/
def subset (a b : Word) : Prop := a &&& b = a

/-- Every active alarm is also in the latched set (R155). -/
def State.latchLaw (s : State) : Prop :=
  (∀ n : Fin 16, subset (s.span n).active (s.span n).latched) ∧ subset s.timing.active s.device.latched

/-! ### What a command leaves alone -/

/-- The commands that act while a restart holds the part: the restarts themselves and the levels of
clock-present (R163). -/
def actsInRestart : Instr → Bool
  | .powerOn _ => true
  | .coldRestartBegin => true
  | .supplyFall => true
  | .restartEnd _ => true
  | .clockPresentRise _ => true
  | .clockPresentFall _ => true
  | _ => false

/-- The state with a pending reply and nothing else changed (R146). -/
def State.replied (s : State) (code tag : Byte) (o : OrderOutcome) (results : Vector Byte 9) : State :=
  { s with channel := { s.channel with reply := some ⟨code, tag, o, results⟩ } }

/-- The nine result bytes of a refused order (R143). -/
def noResults : Vector Byte 9 := Vector.replicate 9 0

/-- A refused order: nothing changes but the pending reply (R143). -/
def State.refused (s : State) (code tag : Byte) (o : OrderOutcome) : State := s.replied code tag o noResults

/-- A refused map order carries the active-bank numbers in result bytes 8 and 9 (R143). -/
def State.refusedMap (s : State) (code tag : Byte) (o : OrderOutcome) : State :=
  s.replied code tag o
    #v[0, 0, 0, 0, 0, 0, 0, BitVec.ofNat 8 s.highway.ingress.active.val, BitVec.ofNat 8 s.highway.egress.active.val]

/-- The settings of a reference entry, which no event changes (R65). -/
def RefEntry.sameSettings (x y : RefEntry) : Prop :=
  y.enable = x.enable ∧ y.priority = x.priority ∧ y.q = x.q ∧ y.span = x.span

/-- What an event at span `n` leaves alone: every other span, the highway interface, the frame number, the timers
and the restart record; of a test unit all but its new-trigger flag; of office timing all but the entries' states
and the selection they carry; of the device the counts it cannot raise, with no latched alarm lost. -/
def State.keepsBut (s : State) (n : Fin 16) (t : State) : Prop :=
  (∀ m, m ≠ n → t.span m = s.span m) ∧ t.pending = s.pending ∧ t.restart = s.restart ∧ t.highway = s.highway ∧
  t.frameNumber = s.frameNumber ∧ t.pendingNumber = s.pendingNumber ∧ t.timers = s.timers ∧
  (∀ u : Fin 4, t.units[u] = s.units[u] ∨ t.units[u] = { s.units[u] with newTrigger := true }) ∧
  (∀ e, (s.entry e).sameSettings (t.entry e)) ∧
  t.timing.monitorA = s.timing.monitorA ∧ t.timing.monitorB = s.timing.monitorB ∧ t.timing.mode = s.timing.mode ∧
  t.timing.revertive = s.timing.revertive ∧ t.timing.toa = s.timing.toa ∧ t.timing.tob = s.timing.tob ∧
  t.timing.loop.freq = s.timing.loop.freq ∧ t.timing.loop.holdoverFreq = s.timing.loop.holdoverFreq ∧
  t.timing.loop.holdoverValid = s.timing.loop.holdoverValid ∧
  t.device.checkErrors = s.device.checkErrors ∧ t.device.acquisitionTimeouts = s.device.acquisitionTimeouts ∧
  subset s.device.latched t.device.latched

/-- No order is taken at the boundary that ends this office frame: it is no office superframe boundary, or it is the
first (R151), or its receive cell is empty (R140). -/
def State.takesNoOrder (s : State) : Prop :=
  (s.frameNumber.toNat + 1) % 16 ≠ 0 ∨ s.channel.framed = false ∨ s.channel.receive[1] = 0

/-- The status bytes of a cell and its attention summary are those of the state (Table 8-2, R149), with the codes of Table
4-9 spelled out. -/
def State.statusBytes (s : State) (cell : Cell) : Prop :=
  let loopState (l : LoopState) : Byte := match l with | .free => 0 | .acquiring => 1 | .locked => 2 | .holdover => 3
  let entryState (x : EntryState) : Byte := match x with | .disabled => 0 | .qualifying => 1 | .qualified => 2 | .faulted => 3
  cell[4] = loopState s.timing.loop.state ∧ cell[5] = (s.timing.loop.selected.elim 0xFF fun e => BitVec.ofNat 8 e.val) ∧
  cell[6] = (entryState (s.entry 0).state <<< 4) ||| entryState (s.entry 1).state ∧
  cell[7] = (entryState (s.entry 2).state <<< 4) ||| entryState (s.entry 3).state ∧
  (∀ i : Fin 8, cell[8].getLsbD i.val = (s.span ⟨8 + i.val, by omega⟩).rx.aligner.aligned ∧
    cell[9].getLsbD i.val = (s.span ⟨i.val, by omega⟩).rx.aligner.aligned) ∧
  (∀ i : Fin 8,
    (cell[10].getLsbD i.val = true ↔
      (i = 1 ∧ s.highway.egress.request ≠ .absent) ∨ (i = 0 ∧ s.highway.ingress.request ≠ .absent)) ∧
    (cell[11].getLsbD i.val = true ↔ ∃ u : Fin 4, u.val = i.val ∧ s.units[u].state = .running) ∧
    (cell[12].getLsbD i.val = true ↔ ∃ n : Fin 4, n.val = i.val ∧ s.timers[n].armed = true)) ∧
  cell[13] = s.summary

/-- A reference event of this input is one of entry `e` (R71, R80). -/
def State.feeds (s : State) (input : RefInput) (e : Fin 4) : Prop :=
  (input = .refA ∧ e = 0) ∨ (input = .refB ∧ e = 1) ∨ (2 ≤ e.val ∧ input = .span (s.entry e).span)

/-- The reads of an ATTACHED store up to `readSoFar` bits of its frame run it empty (R31, R37). -/
def Store.dryBy (st : Store) (readSoFar : Nat) : Bool :=
  let k := min readSoFar 336 - st.out.length
  decide (st.state = .attached) && decide (1 ≤ k) && decide (st.fill ≤ k)

/-- A store that leaves alignment when its read side stands `readSoFar` bits into its frame: it is DETACHED and empty
(R28), with nothing written, and what it has read by then stays to be delivered (R27). -/
def Store.leaves (st : Store) (readSoFar : Nat) (st' : Store) : Prop :=
  let k := min (min readSoFar 336 - st.out.length) st.fill
  st'.state = .detached ∧ (st.state ≠ .detached → st'.fill = 0 ∧ st'.lastFill = 0) ∧
  st'.ring = st.ring ∧ st'.writePos = st.writePos ∧
  (st.state ≠ .attached → st'.out = st.out) ∧
  (st.state = .attached → 1 ≤ st.fill → st.readPos < 1344 →
    st'.out = st.out ++ (List.range k).map fun j => ringBit st.ring ((st.readPos + j) % 1344)) ∧
  st'.lastFault = (if st.dryBy readSoFar then .underrun else st.lastFault)

/-- What the beginning of a restart abandons, the ingress lanes held high, and what it keeps until its end
(R163, R151; that it keeps is notes/assumptions/13.md). -/
def State.abandons (s t : State) : Prop :=
  t.channel = .reset ∧ t.pendingNumber = none ∧
  t.highway = { s.highway with
    ingress := { s.highway.ingress with request := .absent }, egress := { s.highway.egress with request := .absent }
    sent := Vector.replicate 640 0xFF } ∧
  t.timing = { s.timing with toa := { s.timing.toa with pulses := 0 }, tob := { s.timing.tob with pulses := 0 } } ∧
  t.pending = s.pending ∧ t.spans = s.spans ∧ t.frameNumber = s.frameNumber ∧ t.timers = s.timers ∧ t.units = s.units ∧
  t.device = s.device

end Sys2Proof.Machine
end

