-- ==== Sys2Proof/Certificates/Slice0/Obligations.lean ====
section
/-! DEFINITION. The statements for the provers. -/

open Sys2Proof Sys2Proof.Machine

/-! ### The machine -/

/-- A step takes the command at the front of the queue and carries it out on the state with the queue's rest; on an
empty queue the block idles (both DESIGN CHOICES, notes/assumptions/1.md). -/
def Obligations.StepTakesTheFront : Prop :=
  (∀ (c : Instr) (rest : List Instr) (s : State), step { s with pending := c :: rest } = exec c { s with pending := rest }) ∧
  (∀ s : State, s.pending = [] → step s = .next s)

/-- Every command completes in every state, and none touches the queue (R141, R163; spec/95). The queue, and that an event
out of season has no effect, are DESIGN CHOICES (notes/assumptions/1.md), as are the course of a restart
(notes/assumptions/13.md) and an UNKNOWN_ORDER with an assigned code (notes/assumptions/16.md); that the part has no fault
is DEDUCED (notes/assumptions/17.md). -/
def Obligations.EveryCommandCompletes : Prop :=
  ∀ (c : Instr) (s : State), ∃ t, exec c s = .next t ∧ t.pending = s.pending

/-! ### Reset -/

/-- The values the manual gives after a POWER-ON restart (R24, R47, R62, R86, R106, R119, R136, R151, R162). -/
def Obligations.ResetValues : Prop :=
  (∀ n : Fin 16,
    let sp := State.reset.span n
    sp.record = ⟨false, .off, .none, 0xFF, 8⟩ ∧ sp.rx.aligner = .off ∧ sp.win.blank = ⟨false, false⟩ ∧
    sp.win.brk = ⟨false, false⟩ ∧ sp.win.noisy = false ∧ sp.win.tally = 0 ∧ sp.sf = ⟨.search none, 0, false, ⟨false, false⟩⟩ ∧
    sp.tx.currentSlip = false ∧ sp.tx.previousSlip = false ∧ sp.tx.modeInForce = .off ∧
    sp.store.state = .detached ∧ sp.store.fill = 0 ∧ sp.store.lastFill = 0 ∧ sp.store.lastFault = .none ∧
    sp.store.low = 168 ∧ sp.store.high = 1176 ∧ sp.store.lowStored = 168 ∧ sp.store.highStored = 1176 ∧
    sp.meter = ⟨none, 0, 0, 4, 4, 0, 0, 0, false, false, false⟩ ∧ sp.counts = ⟨0, 0, 0, 0, 0, 0, 0, 0⟩ ∧ sp.latched = 0) ∧
  State.reset.timing.entries =
    #v[⟨true, 1, .q64, 0, .qualifying, .none, 0, .q64⟩, ⟨true, 2, .q64, 0, .qualifying, .none, 0, .q64⟩,
       ⟨false, 3, .q256, 0, .disabled, .none, 0, .q256⟩, ⟨false, 4, .q256, 1, .disabled, .none, 0, .q256⟩] ∧
  State.reset.timing.monitorA.noActivity = false ∧ State.reset.timing.monitorB.noActivity = false ∧
  State.reset.timing.monitorA.streak = 0 ∧ State.reset.timing.monitorB.streak = 0 ∧
  State.reset.timing.loop.state = .free ∧ State.reset.timing.loop.selected = none ∧ State.reset.timing.loop.lockCount = 0 ∧
  State.reset.timing.loop.acqCount = 0 ∧ State.reset.timing.loop.holdoverValid = false ∧ State.reset.timing.loop.freq = 0 ∧
  State.reset.timing.loop.holdoverFreq = 0 ∧ State.reset.timing.mode = .auto ∧ State.reset.timing.revertive = false ∧
  State.reset.timing.toa.inForce = ⟨false, .office, .r8000, true⟩ ∧ State.reset.timing.tob.inForce = ⟨false, .office, .r8000, true⟩ ∧
  State.reset.highway.ingress.active = 0 ∧ State.reset.highway.egress.active = 0 ∧
  (∀ (b : Fin 2) (i : Fin 640), State.reset.highway.ingress.banks[b][i] = .unused ∧ State.reset.highway.egress.banks[b][i] = .idle) ∧
  State.reset.highway.ingress.request = .absent ∧ State.reset.highway.egress.request = .absent ∧
  (∀ i : Fin 640, State.reset.highway.held[i] = 0xFF) ∧
  (∀ (n : Fin 16) (c : Fin 40), State.reset.highway.retimed[n][c] = 0xFF) ∧
  State.reset.frameNumber = 0 ∧ State.reset.pendingNumber = none ∧
  (∀ n : Fin 4, State.reset.timers[n] = ⟨0, .oneShot, 1, .mark, 0, false, false, .none⟩) ∧
  (∀ u : Fin 4, State.reset.units[u] =
    ⟨.capture, .rx 0 0, 0, 1, false, .stopped, 0, 0, 0, false, false, false, Vector.replicate 64 0⟩) ∧
  State.reset.channel.reply = none ∧ State.reset.channel.send = none ∧ State.reset.channel.framed = false ∧
  State.reset.device = ⟨0x0020, 0, 0, 0⟩ ∧ State.reset.restart.cause = .powerOn ∧ State.reset.restart.count = 0 ∧
  State.reset.restart.notice = true ∧ State.reset.restart.inProgress = none

/-- Every law holds right after reset (R37, R55, R60, R70, R92, R93, R128, R138, R155). -/
def Obligations.LawsHoldAtReset : Prop :=
  (∀ n, (State.reset.span n).lineLaw ∧ (State.reset.span n).follows ∧ (State.reset.span n).store.law ∧
    (State.reset.span n).storeFollows ∧ (State.reset.span n).meterLaw) ∧
  State.reset.timing.law ∧ State.reset.entriesFollow ∧ State.reset.highway.law ∧ State.reset.dueLaw ∧
  (∀ n : Fin 4, State.reset.timers[n].law) ∧ (∀ u : Fin 4, State.reset.units[u].law) ∧ State.reset.channel.law ∧
  State.reset.latchLaw

/-! ### Invariants kept by every step -/

/-- Every step keeps the span law (R5, R8 to R11, R14 to R16). -/
def Obligations.LineLawKept : Prop :=
  ∀ s t : State, (∀ n, (s.span n).lineLaw) → step s = .next t → ∀ n, (t.span n).lineLaw

/-- While office timing runs, every step keeps the aligners in OFF and ABSENT exactly as enable and clock-present
say (R7). -/
def Obligations.AlignerFollowsKept : Prop :=
  ∀ s t : State, (s.officeRuns = true → ∀ n, (s.span n).follows) → step s = .next t →
    t.officeRuns = true → ∀ n, (t.span n).follows

/-- Every step keeps the store law: in ATTACHED the fill is 1 to 1343 and is the distance from the read position to
the write position (R26, R37, R42), and a store is DETACHED exactly while its span is not aligned (R28, R29). -/
def Obligations.StoreLawKept : Prop :=
  ∀ s t : State, (∀ n, (s.span n).store.law ∧ (s.span n).storeFollows) → step s = .next t →
    ∀ n, (t.span n).store.law ∧ (t.span n).storeFollows

/-- Every step keeps the meter law: the drift average within 32512 (R55), the stored filter shift and drift limit the ones in
force between boundaries (R60), no baseline and no DRIFT but in ATTACHED (R50, R58). -/
def Obligations.MeterLawKept : Prop :=
  ∀ s t : State, (∀ n, (s.span n).meterLaw) → step s = .next t → ∀ n, (t.span n).meterLaw

/-- Every step keeps the loop law of R70, with the entries following their fault conditions (R66 to R68). -/
def Obligations.TimingLawKept : Prop :=
  ∀ s t : State, s.timing.law ∧ s.entriesFollow → step s = .next t → t.timing.law ∧ t.entriesFollow

/-- Every step keeps the management slot out of both maps (R92, R93), a pending frame number a multiple of 16 with nothing
overdue (R103, R108, R109), the timers' records in range (R110, R111), and the unit law of R128. -/
def Obligations.RecordLawsKept : Prop :=
  (∀ s t : State, s.highway.law → step s = .next t → t.highway.law) ∧
  (∀ s t : State, s.dueLaw → step s = .next t → t.dueLaw) ∧
  (∀ s t : State, (∀ n : Fin 4, s.timers[n].law) → step s = .next t → ∀ n : Fin 4, t.timers[n].law) ∧
  (∀ s t : State, (∀ u : Fin 4, s.units[u].law) → step s = .next t → ∀ u : Fin 4, t.units[u].law)

/-- Every step keeps a send cell present exactly from the first office superframe boundary on, and meeting the check
(R138, R150, R151). -/
def Obligations.SendCellLawKept : Prop := ∀ s t : State, s.channel.law → step s = .next t → t.channel.law

/-- Every step keeps every active alarm latched (R155). -/
def Obligations.LatchLawKept : Prop := ∀ s t : State, s.latchLaw → step s = .next t → t.latchLaw

/-! ### Cells -/

/-- R138: the check word makes the eight words sum to 0 modulo 65536; it is 65536 less the sum of the first seven;
every reply and status cell the part forms meets the check; the check of an empty cell is not examined. -/
def Obligations.CheckWord : Prop :=
  (∀ cell : Cell,
    (sealCell cell)[14] ++ (sealCell cell)[15] =
      BitVec.ofNat 16 (65536 - (∑ i : Fin 7, (256 * cell[2 * i.val].toNat + cell[2 * i.val + 1].toNat)) % 65536) ∧
    (∀ i : Fin 14, (sealCell cell)[i.val] = cell[i.val]) ∧
    (meetsCheck cell = true ↔ (∑ i : Fin 8, (256 * cell[2 * i.val].toNat + cell[2 * i.val + 1].toNat)) % 65536 = 0) ∧
    meetsCheck (sealCell cell) = true) ∧
  (∀ (s : State) (r : Reply), meetsCheck (s.replyCell r) = true) ∧ (∀ s : State, meetsCheck s.statusCell = true) ∧
  (∀ (n : FrameNumber) (cell : Cell), meetsCheck (stampStatus n cell) = true) ∧
  (∀ (s : State) (sampled : Fin 16 → Bool) (cell : Cell), cell[1] = 0 → s.judgeCell sampled cell = s)

/-- The cell of every well-formed order is addressed to its station and carries exactly that order (Tables 8-1 and
8-4, R141, R142). -/
def Obligations.OrderCellRoundTrip : Prop :=
  ∀ (i : Instr) (station : Byte) (cell : Cell), i.wellFormed = true → orderCell station i = some cell →
    decodeOrder cell = i ∧ cell[0] = station

/-- An order given as a command does what its taking from a cell does once every meter has made its sample of the
boundary (R141; DESIGN CHOICE, notes/assumptions/10.md). -/
def Obligations.DirectOrderIsTaking : Prop :=
  ∀ (i : Instr) (s : State) (station : Byte), i.wellFormed = true → (orderCell station i).isSome = true → s.officeRuns = true →
    exec i s = .next (s.takeOrder (fun _ => true) i)

/-- The three tests of R140 on a complete receive cell, and its clearing; and the taking of them at an office superframe
boundary, once cells are framed (R137, R141, R145, R151): the cell, with the byte of its last frame, is examined and cleared, a
failed check raises CHECK ERRORS and latches CHECK-ERROR, and a taken order leaves its reply pending, code and tag echoed (R146).
Where the order channel's handling is left last, the boundary leaves what it leaves with an empty cell, and the order carried out
on it. No other boundary examines a cell. -/
def Obligations.CellExamination : Prop :=
  (∀ (s : State) (sampled : Fin 16 → Bool), s.channel.framed = true →
    let cell := s.channel.receive
    (cell[1] = 0 → s.examine sampled = s.clearCell) ∧
    (cell[1] ≠ 0 → meetsCheck cell = false →
      s.examine sampled =
        { s with device := { s.device with checkErrors := raise s.device.checkErrors, latched := s.device.latched ||| 0x0040 } }.clearCell) ∧
    (cell[1] ≠ 0 → meetsCheck cell = true → cell[0].toNat ≠ s.restart.station.toNat → cell[0] ≠ 31 →
      s.examine sampled = s.clearCell) ∧
    (cell[1] ≠ 0 → meetsCheck cell = true → (cell[0].toNat = s.restart.station.toNat ∨ cell[0] = 31) →
      s.examine sampled = (s.takeOrder sampled (decodeOrder cell)).clearCell)) ∧
  (∀ (s : State) (egress : Vector Byte 640) (order : List Handling) (apart : Bool), s.officeRuns = true →
    ((s.frameNumber.toNat + 1) % 16 ≠ 0 ∨ s.channel.framed = false →
      ∃ t, exec (.officeFrameBoundary egress order apart) s = .next t ∧ t.device.checkErrors = s.device.checkErrors ∧
        ((s.frameNumber.toNat + 1) % 16 ≠ 0 → t.channel.reply = s.channel.reply) ∧
        ((s.frameNumber.toNat + 1) % 16 = 0 → t.channel.reply = none) ∧
        (s.channel.framed = false → t.channel.receive = s.channel.receive)) ∧
    ((s.frameNumber.toNat + 1) % 16 = 0 → s.channel.framed = true →
      let cell := s.channel.receive.set 15 egress[0]
      let passed := cell[1] = 0 ∨ (meetsCheck cell = true ∧ cell[0].toNat ≠ s.restart.station.toNat ∧ cell[0] ≠ 31)
      let failed := cell[1] ≠ 0 ∧ meetsCheck cell = false
      let taken := cell[1] ≠ 0 ∧ meetsCheck cell = true ∧ (cell[0].toNat = s.restart.station.toNat ∨ cell[0] = 31)
      ∃ t, exec (.officeFrameBoundary egress order apart) s = .next t ∧ t.channel.receive = Vector.replicate 16 0 ∧
        (passed → t.channel.reply = none ∧ t.device.checkErrors = s.device.checkErrors) ∧
        (failed → t.channel.reply = none ∧ t.device.checkErrors = raise s.device.checkErrors ∧
          t.device.latched.getLsbD 6 = true) ∧
        (taken → ∃ r, t.channel.reply = some r ∧ r.code = cell[1] ∧ r.tag = cell[2]) ∧
        (.orderChannel ∉ order → s.dueLaw → (∀ u : Fin 4, s.units[u].point.management = false) →
          ∃ e, exec (.officeFrameBoundary (egress.set 0 0) order apart)
              { s with channel := { s.channel with receive := Vector.replicate 16 0 } } = .next e ∧
            (passed → t = e) ∧
            (failed → t = { e with device := { e.device with
              checkErrors := raise e.device.checkErrors, latched := e.device.latched ||| 0x0040 } }) ∧
            (taken → t = e.takeOrder (fun _ => true) (decodeOrder cell)))))

/-- The send cell (R145, R146, R148, R149): when it is formed, a pending reply becomes it and is released, else a status cell
with the status bytes of Table 8-2, byte 3 of a reply the outcome code of Table 8-3; byte 13 is the attention summary as it stands then. At an office superframe boundary the
cell so formed is sent, byte 2 of a status cell being the low byte of the superframe count; where a boundary takes no order
and the forming is left last, the status bytes and the summary are those of the state the boundary leaves. -/
def Obligations.SuperframeBoundarySends : Prop :=
  let outcome (o : OrderOutcome) : Byte := match o with
    | .done => 0x00 | .doneClamped => 0x01 | .accepted => 0x02 | .unknownOrder => 0x10 | .badParameter => 0x11
    | .badSlot => 0x12 | .swapPending => 0x13 | .notQualified => 0x14 | .inUse => 0x15 | .wrongMode => 0x16
    | .unitRunning => 0x17
  (∀ m : State, ∃ cell, m.formSend = { m with channel := { m.channel with send := some cell, reply := none } } ∧
      meetsCheck cell = true ∧ cell[0].toNat = m.restart.station.toNat ∧ cell[13] = m.summary ∧
      (∀ r, m.channel.reply = some r → cell[1] = r.code ∧ cell[2] = r.tag ∧ cell[3] = outcome r.outcome ∧
        (∀ i : Fin 9, cell[4 + i.val] = r.results[i.val])) ∧
      (m.channel.reply = none → cell[1] = 0 ∧ cell[3] = 0 ∧ m.statusBytes cell)) ∧
  (∀ (s : State) (egress : Vector Byte 640) (order : List Handling) (apart : Bool),
    s.officeRuns = true → s.superframeNext = true →
    ∃ t cell, exec (.officeFrameBoundary egress order apart) s = .next t ∧ t.channel.send = some cell ∧
      meetsCheck cell = true ∧ cell[0].toNat = s.restart.station.toNat ∧ t.channel.framed = true ∧
      (∀ r, s.channel.reply = some r → cell[1] = r.code ∧ cell[2] = r.tag ∧ cell[3] = outcome r.outcome ∧
        (∀ i : Fin 9, cell[4 + i.val] = r.results[i.val])) ∧
      (s.channel.reply = none → cell[1] = 0 ∧ cell[2] = BitVec.ofNat 8 (t.frameNumber.toNat / 16) ∧ cell[3] = 0) ∧
      (s.takesNoOrder → t.channel.reply = none ∧
        (.orderChannel ∉ order → cell[13] = t.summary ∧ (s.channel.reply = none → t.statusBytes cell))))

/-- UNKNOWN_ORDER (R142): an unassigned code is answered so, code and tag echoed, every result 00h, and nothing else
changes; and a cell with such a code is taken as an unknown order. -/
def Obligations.UnknownOrderAnswered : Prop :=
  ∀ (tag code : Byte), code ≠ 0 → code ∉ assignedCodes →
    (∀ s : State, s.officeRuns = true →
      exec (.unknownOrder tag code) s = .next (s.replied code tag .unknownOrder (Vector.replicate 9 0))) ∧
    (∀ cell : Cell, cell[1] = code → cell[2] = tag → decodeOrder cell = .unknownOrder tag code)

/-! ### Restarts and identity -/

/-- POWER_ON, COLD_RESTART_BEGIN and SUPPLY_FALL: which restart is in progress, what is abandoned, and that TDE and ALM are
inactive and no frame pulse is begun while it holds the part (R163, R151, R161). What the beginning keeps until the end of
the restart (`State.abandons`), and that SUPPLY_FALL with no restart in progress or with RESET_N high has no effect, are
DESIGN CHOICES, unsafe (notes/assumptions/13.md). While a restart holds the part nothing acts but the restarts, and
clock-present is only followed as a level (the following of the level is a DESIGN CHOICE, notes/assumptions/3.md). -/
def Obligations.RestartBegins : Prop :=
  (∀ s : State,
      (∀ low, ∃ t, exec (.powerOn low) s = .next t ∧ s.abandons t ∧
        t.restart = { s.restart with inProgress := some .powerOn, resetLow := low, supplyUp := true } ∧
        t.alm = false ∧ t.hfpWidth = 0 ∧ ∀ n, t.tde n = false) ∧
      (∃ t, exec .coldRestartBegin s = .next t ∧ s.abandons t ∧
        t.restart = { s.restart with inProgress := some (s.restart.inProgress.getD .cold), resetLow := true } ∧
        t.alm = false ∧ t.hfpWidth = 0 ∧ ∀ n, t.tde n = false) ∧
      (s.restart.inProgress.isSome = true → s.restart.resetLow = true →
        ∃ t, exec .supplyFall s = .next t ∧ s.abandons t ∧
          t.restart = { s.restart with inProgress := some .powerOn, supplyUp := false }) ∧
      (s.restart.inProgress = none ∨ s.restart.resetLow = false → exec .supplyFall s = .next s)) ∧
  (∀ (c : Instr) (s : State) (k : RestartKind), s.restart.inProgress = some k →
      (actsInRestart c = false → exec c s = .next s) ∧
      (∀ n, exec (.clockPresentRise n) s =
        .next (s.setSpan n { s.span n with rx := { (s.span n).rx with clockPresent := true } })) ∧
      (∀ n readSoFar, exec (.clockPresentFall ⟨n, readSoFar⟩) s =
        .next (s.setSpan n { s.span n with rx := { (s.span n).rx with clockPresent := false } })))

/-- RESTART_END: every block takes its values after POWER-ON or COLD, the straps are read, and ALM is asserted at
once with the summary at A2h; a restart does not end while supply is down (R163, R139, R160, R161). That a command to
end a restart with none in progress has no effect is a DESIGN CHOICE (notes/assumptions/1.md); that clock-present keeps
its level is one too (notes/assumptions/3.md). -/
def Obligations.RestartEnds : Prop :=
  ∀ (s : State) (straps : BitVec 5),
    (∀ k, s.restart.inProgress = some k → s.restart.supplyUp = true →
      ∃ t, exec (.restartEnd straps) s = .next t ∧ t.pending = s.pending ∧
        t.restart.station = straps ∧ t.restart.inProgress = none ∧ t.restart.notice = true ∧
        (∀ n, t.span n = { Span.reset with rx := { Receiver.reset with clockPresent := (s.span n).rx.clockPresent } }) ∧
        t.timing = .reset ∧ t.highway = .reset ∧ t.frameNumber = 0 ∧ t.pendingNumber = none ∧
        t.timers = Vector.replicate 4 .reset ∧ t.units = Vector.replicate 4 .reset ∧ t.channel = .reset ∧ t.device = .reset ∧
        t.officeRuns = true ∧ t.alm = true ∧ t.summary = 0xA2) ∧
    (∀ k, s.restart.inProgress = some k → s.restart.supplyUp = false → exec (.restartEnd straps) s = .next s) ∧
    (s.restart.inProgress = none → exec (.restartEnd straps) s = .next s)

/-- R165: what each kind of restart does to the restart-cause record and the restart count, and that SPAN RESTART and
every other command leave both alone; a boundary changes them only as WARM RESTART does. -/
def Obligations.RestartRecord : Prop :=
  (∀ (s t : State) (straps : BitVec 5), s.restart.supplyUp = true → exec (.restartEnd straps) s = .next t →
    (s.restart.inProgress = some .powerOn → t.restart.cause = .powerOn ∧ t.restart.count = 0) ∧
    (s.restart.inProgress = some .cold → t.restart.cause = .cold ∧
      t.restart.count.toNat = min 255 (s.restart.count.toNat + 1))) ∧
  (∀ (s : State) (tag : Byte), s.officeRuns = true →
    ∃ t, exec (.warmRestart tag) s = .next t ∧ t.restart.cause = .warm ∧
      t.restart.count.toNat = min 255 (s.restart.count.toNat + 1)) ∧
  (∀ (c : Instr) (s t : State), exec c s = .next t →
    (∀ straps, c ≠ .restartEnd straps) → (∀ tag, c ≠ .warmRestart tag) →
    (t.restart.cause = s.restart.cause ∧ t.restart.count = s.restart.count) ∨
    ((∃ e o a, c = .officeFrameBoundary e o a) ∧ t.restart.cause = .warm ∧
      t.restart.count.toNat = min 255 (s.restart.count.toNat + 1)))

/-- WARM RESTART (R164): timers and units at their restart values, counts 0, latched sets equal to active sets, cause,
count and notice; everything else carries on; the reply carries cause and count. -/
def Obligations.WarmRestart : Prop :=
  ∀ (s : State) (tag : Byte), s.officeRuns = true →
    ∃ t, exec (.warmRestart tag) s = .next t ∧
      t.timers = Vector.replicate 4 .reset ∧ t.units = Vector.replicate 4 .reset ∧
      (∀ n, t.span n = { s.span n with counts := .reset, latched := (s.span n).active }) ∧
      t.device = ⟨s.timing.active, 0, 0, 0⟩ ∧ t.timing = s.timing ∧ t.highway = s.highway ∧
      t.frameNumber = s.frameNumber ∧ t.pendingNumber = s.pendingNumber ∧
      t.restart = { s.restart with cause := .warm, count := t.restart.count, notice := true } ∧
      t.restart.count.toNat = min 255 (s.restart.count.toNat + 1) ∧
      t.channel = { s.channel with reply := some ⟨0x02, tag, .done, #v[3, t.restart.count, 0, 0, 0, 0, 0, 0, 0]⟩ }

/-- IDENTIFY (R167). -/
def Obligations.IdentifyReply : Prop :=
  ∀ (s : State) (tag : Byte), s.officeRuns = true →
    ∃ cause : Byte,
      (s.restart.cause = .powerOn → cause = 1) ∧ (s.restart.cause = .cold → cause = 2) ∧ (s.restart.cause = .warm → cause = 3) ∧
      exec (.identify tag) s = .next (s.replied 0x01 tag .done
        #v[0x3C, 0x40, 0x16, 0x01, BitVec.ofNat 8 s.restart.station.toNat, cause, s.restart.count, 0, 0])

/-! ### Span lines -/

/-- CLOCK_PRESENT_RISE and CLOCK_PRESENT_FALL (R7, R11). The reads the store has made when alignment ends stay delivered
(R27). That a rise with clock-present already high, or a fall with it already low, changes nothing else is a DESIGN CHOICE
(an event out of season, notes/assumptions/1.md). Where the span is not aligned (always so before a rise, by R7), a rise or a
fall leaves its store, drift meter and superframe aligner alone, and its latched set gains the alarms then active (R155). -/
def Obligations.ClockPresentEvents : Prop :=
  ∀ (s : State) (n : Fin 16) (readSoFar : Nat), s.officeRuns = true →
    (∃ t, exec (.clockPresentRise n) s = .next t ∧ s.keepsBut n t ∧ t.channel = s.channel ∧
      (t.span n).rx.clockPresent = true ∧ (t.span n).record = (s.span n).record ∧ (t.span n).tx = (s.span n).tx ∧
      (t.span n).counts = (s.span n).counts ∧
      ((s.span n).record.enable = true → (s.span n).rx.clockPresent = false →
        (t.span n).rx.aligner = .hunt 0 ∧ (t.span n).win = .reset ∧
        ((s.span n).rx.aligner.aligned = false →
          (t.span n).store = (s.span n).store ∧ (t.span n).meter = (s.span n).meter ∧ (t.span n).sf = (s.span n).sf ∧
          (t.span n).latched = (s.span n).latched ||| (t.span n).active)) ∧
      ((s.span n).record.enable = false ∨ (s.span n).rx.clockPresent = true →
        t = s.setSpan n { s.span n with rx := { (s.span n).rx with clockPresent := true } })) ∧
    (∃ t, exec (.clockPresentFall ⟨n, readSoFar⟩) s = .next t ∧ s.keepsBut n t ∧ t.channel = s.channel ∧
      (t.span n).rx.clockPresent = false ∧ (t.span n).record = (s.span n).record ∧ (t.span n).tx = (s.span n).tx ∧
      ((s.span n).record.enable = true → (s.span n).rx.clockPresent = true →
        (t.span n).rx.aligner = .absent ∧ (t.span n).win = .reset ∧
        ((s.span n).rx.aligner.aligned = false → (t.span n).counts = (s.span n).counts ∧ (t.span n).store = (s.span n).store ∧
          (t.span n).meter = (s.span n).meter ∧ (t.span n).sf = (s.span n).sf ∧
          (t.span n).latched = (s.span n).latched ||| (t.span n).active) ∧
        ((s.span n).rx.aligner.aligned = true →
          (t.span n).counts = { (s.span n).counts with
            alignmentLosses := raise (s.span n).counts.alignmentLosses
            storeFaults := if (s.span n).store.dryBy readSoFar then raise (s.span n).counts.storeFaults
              else (s.span n).counts.storeFaults } ∧
          (t.span n).sf.state = .search none ∧ (s.span n).store.leaves readSoFar (t.span n).store ∧
          (t.span n).meter = { (s.span n).meter with baseline := none, net := 0, drift := false } ∧
          subset (s.span n).latched (t.span n).latched ∧ subset (t.span n).active (t.span n).latched ∧
          ∀ u : Fin 4, s.units[u].source = 4 → s.units[u].point.span? = some n → t.units[u].newTrigger = true)) ∧
      ((s.span n).record.enable = false ∨ (s.span n).rx.clockPresent = false →
        t = s.setSpan n { s.span n with rx := { (s.span n).rx with clockPresent := false } }))

/-- LINE_WINDOW_END while the sampler runs and no noise evaluation is due (R3, R4, R5, R8, R11); where it ends
alignment, what the store has read stays delivered (R27). NOISE_PERIOD_END at the
end of a period's sixteenth window (R6); at any other moment NOISE_PERIOD_END has no effect (a DESIGN CHOICE,
notes/assumptions/8.md). -/
def Obligations.LineWindowEnds : Prop :=
  (∀ (s : State) (n : Fin 16) (readSoFar : Nat) (samples : Vector Looks 336),
      s.officeRuns = true → (s.span n).sampling = true → (s.span n).win.periodWindows < 16 →
      let sp := s.span n
      let ones := samples.toList.countP fun x => x == 3 || x == 5 || x == 6 || x == 7
      let noisy := samples.toList.any fun x => x != 0 && x != 7
      ∃ t, exec (.lineWindowEnd ⟨n, readSoFar⟩ samples) s = .next t ∧ s.keepsBut n t ∧ t.channel = s.channel ∧
        (t.span n).record = sp.record ∧ (t.span n).tx = sp.tx ∧
        (t.span n).win =
          { windows := sp.win.windows + 1, periodWindows := sp.win.periodWindows + 1
            tally := if noisy then sp.win.tally + 1 else sp.win.tally
            blank := sp.win.blank.step (336 - ones < 3), brk := sp.win.brk.step (ones < 3), noisy := sp.win.noisy } ∧
        (t.span n).counts.noisyWindows = (if noisy then raise sp.counts.noisyWindows else sp.counts.noisyWindows) ∧
        (sp.win.arises (t.span n).win = true → sp.rx.aligner.aligned = true →
          (t.span n).rx.aligner = .hunt (336 * (sp.win.windows + 1)) ∧
          (t.span n).counts.alignmentLosses = raise sp.counts.alignmentLosses ∧
          sp.store.leaves readSoFar (t.span n).store ∧ (t.span n).meter.baseline = none ∧
          ∀ u : Fin 4, s.units[u].source = 4 → s.units[u].point.span? = some n → t.units[u].newTrigger = true) ∧
        (sp.win.arises (t.span n).win = false ∨ sp.rx.aligner.aligned = false →
          (t.span n).store = sp.store ∧ (t.span n).meter = sp.meter) ∧
        (∀ c m f, sp.win.arises (t.span n).win = true → sp.rx.aligner = .verify c m f →
          (t.span n).rx.aligner = .hunt (336 * (sp.win.windows + 1)) ∧
          (t.span n).counts.alignmentLosses = sp.counts.alignmentLosses) ∧
        (∀ f, sp.rx.aligner = .hunt f → (t.span n).rx.aligner =
          .hunt (if sp.win.held && !(t.span n).win.held then 336 * (sp.win.windows + 1) else f)) ∧
        (sp.win.arises (t.span n).win = false → (∀ f, sp.rx.aligner ≠ .hunt f) → (t.span n).rx = sp.rx ∧ (t.span n).sf = sp.sf)) ∧
  (∀ (s : State) (n : Fin 16), s.officeRuns = true →
      ((s.span n).sampling = true → (s.span n).win.periodWindows = 16 →
        ∃ t, exec (.noisePeriodEnd n) s = .next t ∧ s.keepsBut n t ∧ t.channel = s.channel ∧
          t.span n = { s.span n with
            win := { (s.span n).win with
              noisy := decide ((s.span n).record.noiseLimit ≤ (s.span n).win.tally), tally := 0, periodWindows := 0 }
            latched := (s.span n).latched ||| (t.span n).active }) ∧
      ((s.span n).sampling = false ∨ (s.span n).win.periodWindows ≠ 16 → exec (.noisePeriodEnd n) s = .next s))

/-- HUNT_CANDIDATE_FOUND and VERIFY_CHECK (R8, R9): the candidate, the three checks, the return to HUNT at a second
failure, and LOCKED with a MARGINAL LOCK after one; the store leaves DETACHED (R29). EXPECTED_ALIGNMENT_OCTET (R10, R11): a
match leads to LOCKED, a miss to FLYWHEEL with a higher miss count, and the fourth successive miss out of alignment,
where what the store has read stays delivered (R27). The eight bits compared are those the sampler took, each with the value of
at least two of its three samples, the first to arrive the most significant (R1, R3). -/
def Obligations.AlignerEvents : Prop :=
  (∀ (looks : Vector Looks 8) (k : Fin 8),
      (arrivingOctet looks).getMsbD k.val = (looks[k] == 3 || looks[k] == 5 || looks[k] == 6 || looks[k] == 7)) ∧
  (∀ (s : State) (n : Fin 16) (position : Nat) (looks : Vector Looks 8), s.officeRuns = true →
      let octet := arrivingOctet looks
      let sp := s.span n
      (∀ f, sp.rx.aligner = .hunt f → f ≤ position → sp.win.held = false →
        (octet = 0xB2 → ∃ t, exec (.huntCandidateFound n position looks) s = .next t ∧ s.keepsBut n t ∧ t.channel = s.channel ∧
          (t.span n).rx.aligner = .verify position 0 0 ∧ (t.span n).counts = sp.counts ∧ (t.span n).store = sp.store ∧
          (t.span n).win = sp.win ∧ (t.span n).record = sp.record ∧ (t.span n).tx = sp.tx) ∧
        (octet ≠ 0xB2 → exec (.huntCandidateFound n position looks) s = .next s)) ∧
      (∀ c m f, sp.rx.aligner = .verify c m f → m ≤ 2 → f ≤ 1 → position = c + 336 * (m + 1) →
        ∃ t, exec (.verifyCheck n position looks) s = .next t ∧ s.keepsBut n t ∧ t.channel = s.channel ∧
          (t.span n).win = sp.win ∧ (t.span n).record = sp.record ∧ (t.span n).tx = sp.tx ∧ (t.span n).sf = sp.sf ∧
          (octet ≠ 0xB2 → f = 1 →
            (t.span n).rx.aligner = .hunt (position + 8) ∧ (t.span n).counts = sp.counts ∧ (t.span n).store = sp.store) ∧
          (octet = 0xB2 ∨ f = 0 → m < 2 →
            (t.span n).rx.aligner = .verify c (m + 1) (if octet = 0xB2 then f else f + 1) ∧ (t.span n).counts = sp.counts ∧
            (t.span n).store = sp.store) ∧
          (octet = 0xB2 ∨ f = 0 → m = 2 →
            (t.span n).rx.aligner = .locked position ∧ (t.span n).rx.frameBit = 0 ∧
            (t.span n).counts = (if octet = 0xB2 ∧ f = 0 then sp.counts
              else { sp.counts with marginalLocks := raise sp.counts.marginalLocks }) ∧
            (sp.store.state = .detached → (t.span n).store = { sp.store with state := .centring, writePos := 0, fill := 0 })))) ∧
  (∀ (s : State) (n : Fin 16) (readSoFar at' misses : Nat) (looks : Vector Looks 8), s.officeRuns = true →
      let octet := arrivingOctet looks
      ((s.span n).rx.aligner = .locked at' ∧ misses = 0) ∨ ((s.span n).rx.aligner = .flywheel at' misses ∧ 1 ≤ misses ∧ misses ≤ 3) →
      ∃ t, exec (.expectedAlignmentOctet ⟨n, readSoFar⟩ (at' + 336) looks) s = .next t ∧ s.keepsBut n t ∧ t.channel = s.channel ∧
        (t.span n).win = (s.span n).win ∧ (t.span n).record = (s.span n).record ∧ (t.span n).tx = (s.span n).tx ∧
        (octet = 0xB2 → (t.span n).rx = { (s.span n).rx with aligner := .locked (at' + 336) } ∧
          (t.span n).store = (s.span n).store ∧ (t.span n).counts = (s.span n).counts) ∧
        (octet ≠ 0xB2 → misses < 3 → (t.span n).rx = { (s.span n).rx with aligner := .flywheel (at' + 336) (misses + 1) } ∧
          (t.span n).store = (s.span n).store ∧ (t.span n).counts = (s.span n).counts) ∧
        (octet ≠ 0xB2 → misses = 3 → (t.span n).rx.aligner = .hunt (at' + 344) ∧
          (t.span n).counts = { (s.span n).counts with
            alignmentLosses := raise (s.span n).counts.alignmentLosses
            storeFaults := if (s.span n).store.dryBy readSoFar then raise (s.span n).counts.storeFaults
              else (s.span n).counts.storeFaults } ∧
          (t.span n).sf.state = .search none ∧ (s.span n).store.leaves readSoFar (t.span n).store ∧
          (t.span n).meter.baseline = none ∧
          (t.span n).meter.drift = false ∧
          ∀ u : Fin 4, s.units[u].source = 4 → s.units[u].point.span? = some n → t.units[u].newTrigger = true))

/-- ALIGNED_FRAME (R12): a whole frame handed over is written bit by bit round the ring, whatever the store's state but
DETACHED and FAULTED after an overrun (R30, R38; that a store FAULTED after an underrun is written on, its fill not passing
1344, is DEDUCED, notes/assumptions/15.md). CENTRING: the fill does not pass 1344. ATTACHED: the reads made so far come first
(the read position given with the bits is notes/assumptions/7.md), and the fill is what they leave and the frame. The overhead
octet goes to the superframe aligner, and a report with bit 6 set raises FAR-END SLIPS (R13, R15). Every bit is handed over with
the value of at least two of its three samples (R3). -/
def Obligations.AlignedFrameWritten : Prop :=
  ∀ (s : State) (n : Fin 16) (readSoFar : Nat) (looks : List Looks), s.officeRuns = true →
    (s.span n).rx.aligner.aligned = true → looks.length = 336 → (s.span n).rx.frameBit = 0 →
    let bits := looks.map fun x => x == 3 || x == 5 || x == 6 || x == 7
    let st := (s.span n).store
    let k := min readSoFar 336 - st.out.length
    st.writePos < 1344 →
    st.state = .centring ∨ (st.state = .attached ∧ st.readPos < 1344 ∧ k < st.fill ∧ st.fill - k + 336 ≤ 1343) ∨
      (st.state = .faulted ∧ st.lastFault ≠ .overrun) →
    ∃ t, exec (.alignedFrame n readSoFar looks) s = .next t ∧ s.keepsBut n t ∧ t.channel = s.channel ∧
      let st' := (t.span n).store
      st'.writePos = (st.writePos + 336) % 1344 ∧
      (∀ k : Fin 336, ringBit st'.ring ((st.writePos + k.val) % 1344) = bits.getD k.val false) ∧
      (∀ p, p < 1344 → (∀ k : Fin 336, p ≠ (st.writePos + k.val) % 1344) → ringBit st'.ring p = ringBit st.ring p) ∧
      (st.state ≠ .attached →
        st' = { st with ring := st'.ring, writePos := st'.writePos, fill := min (st.fill + 336) 1344 }) ∧
      (st.state = .attached →
        st' = { st with
          ring := st'.ring, writePos := st'.writePos, fill := st.fill - k + 336, readPos := (st.readPos + k) % 1344
          out := st.out ++ (List.range k).map fun j => ringBit st.ring ((st.readPos + j) % 1344) }) ∧
      (t.span n).rx.frameBit = 0 ∧ (t.span n).sf = (s.span n).sf.octet (octetAt bits 8) ∧
      (((∃ missed, (s.span n).sf.state = .locked 0 missed) ∧ (octetAt bits 8).getLsbD 6 = true →
        (t.span n).counts = { (s.span n).counts with farEndSlips := raise (s.span n).counts.farEndSlips }) ∧
       (¬((∃ missed, (s.span n).sf.state = .locked 0 missed) ∧ (octetAt bits 8).getLsbD 6 = true) →
        (t.span n).counts = (s.span n).counts)) ∧
      (t.span n).rx.aligner = (s.span n).rx.aligner ∧ (t.span n).record = (s.span n).record ∧
      (t.span n).win = (s.span n).win ∧ (t.span n).tx = (s.span n).tx ∧ (t.span n).meter = (s.span n).meter

/-- The superframe aligner at an overhead octet (R13, R14) with the far-end report at index 1 (R15), the streak of
BLANK, BREAK and FAR-END row by row (R5, R16), and counts that stay at 65535 (R158). -/
def Obligations.SuperframeAlignment : Prop :=
  (∀ (sf : Superframe) (o : Byte),
      (sf.state = .search none → sf.octet o = { sf with state := .search (if o = 0x2D then some 0 else none) }) ∧
      (∀ c, sf.state = .search (some c) → c < 15 → sf.octet o = { sf with state := .search (some (c + 1)) }) ∧
      (sf.state = .search (some 15) →
        sf.octet o = { sf with state := if o = 0x2D then .locked 0 false else .search none }) ∧
      (∀ missed, sf.state = .locked 15 missed → o = 0x2D → sf.octet o = { sf with state := .locked 0 false }) ∧
      (sf.state = .locked 15 false → o ≠ 0x2D → sf.octet o = { sf with state := .locked 0 true }) ∧
      (sf.state = .locked 15 true → o ≠ 0x2D →
        sf.octet o = { sf with state := .search none, reportValid := false, farEnd := ⟨false, false⟩ }) ∧
      (∀ missed, sf.state = .locked 0 missed →
        sf.octet o = { state := .locked 1 missed, report := o, reportValid := true, farEnd := sf.farEnd.step (o.getLsbD 7) }) ∧
      (∀ (i : Fin 16) missed, sf.state = .locked i missed → i ≠ 0 → i ≠ 15 →
        sf.octet o = { sf with state := .locked (i + 1) missed })) ∧
  (∀ k : Bool, (Condition.step ⟨false, k⟩ false) = ⟨false, false⟩ ∧ (Condition.step ⟨true, k⟩ true) = ⟨true, false⟩) ∧
  Condition.step ⟨false, false⟩ true = ⟨false, true⟩ ∧ Condition.step ⟨false, true⟩ true = ⟨true, false⟩ ∧
  Condition.step ⟨true, false⟩ false = ⟨true, true⟩ ∧ Condition.step ⟨true, true⟩ false = ⟨false, false⟩ ∧
  (∀ x : Word, (raise x).toNat = min 65535 (x.toNat + 1))

/-- SET SPAN (R21): the record whole, the noise limit clamped, a changed enable acting on the aligner and the windows,
an unchanged one not; BAD-PARAMETER for a span above 15 or a code not in Table 1-6, whose codes are spelled out. -/
def Obligations.SetSpanActs : Prop :=
  let transmit (m : TransmitMode) : Byte := match m with | .normal => 0 | .blank => 1 | .off => 2
  let loopback (l : Loopback) : Byte := match l with | .none => 0 | .line => 1
  (∀ (s : State) (tag : Byte) (n : Fin 16) (en : Bool) (tm : TransmitMode) (lb : Loopback) (conditioned limit : Byte),
      s.officeRuns = true →
      let sp := s.span n
      let stored := max 1 (min 16 limit.toNat)
      ∃ t, exec (.setSpan tag (BitVec.ofNat 8 n.val) (if en then 1 else 0) (transmit tm) (loopback lb) conditioned limit) s = .next t ∧
        s.keepsBut n t ∧ (t.span n).record = ⟨en, tm, lb, conditioned, stored⟩ ∧ (t.span n).tx = sp.tx ∧
        (t.span n).counts = sp.counts ∧ (t.span n).rx.clockPresent = sp.rx.clockPresent ∧
        t.channel = { s.channel with reply := some ⟨0x10, tag, if stored = limit.toNat then .done else .doneClamped,
            #v[BitVec.ofNat 8 n.val, if en then 1 else 0, transmit tm, loopback lb, conditioned, BitVec.ofNat 8 stored, 0, 0, 0]⟩ } ∧
        (en = sp.record.enable → (t.span n).rx = sp.rx ∧ (t.span n).win = sp.win ∧ (t.span n).sf = sp.sf ∧
          (t.span n).store = sp.store ∧ (t.span n).meter = sp.meter) ∧
        (en = true → sp.record.enable = false → (t.span n).win = .reset ∧
          (t.span n).rx.aligner = (if sp.rx.clockPresent then .hunt 0 else .absent)) ∧
        (en = false → sp.record.enable = true → (t.span n).win = .reset ∧ (t.span n).rx.aligner = .off ∧
          (sp.rx.aligner.aligned = true →
            (t.span n).sf.state = .search none ∧ (t.span n).store.state = .detached ∧ (t.span n).meter.baseline = none))) ∧
  (∀ (s : State) (tag span en tm lb conditioned limit : Byte), s.officeRuns = true →
      15 < span.toNat ∨ 1 < en.toNat ∨ 2 < tm.toNat ∨ 1 < lb.toNat →
      exec (.setSpan tag span en tm lb conditioned limit) s = .next (s.refused 0x10 tag .badParameter))

/-- SPAN RESTART (R22, R62, R47): one span at its restart values with its record, thresholds, drift settings and transmit
mode kept. Of its latched set, what the two readings of R22 share (notes/assumptions/9.md). -/
def Obligations.SpanRestarts : Prop :=
  ∀ (s : State) (tag : Byte), s.officeRuns = true →
    (∀ span : Byte, 15 < span.toNat → exec (.spanRestart tag span) s = .next (s.refused 0x11 tag .badParameter)) ∧
    (∀ n : Fin 16, ∃ t, exec (.spanRestart tag (BitVec.ofNat 8 n.val)) s = .next t ∧ s.keepsBut n t ∧
      t.channel = { s.channel with reply := some ⟨0x11, tag, .done, #v[BitVec.ofNat 8 n.val, 0, 0, 0, 0, 0, 0, 0, 0]⟩ } ∧
      (t.span n).record = (s.span n).record ∧
      (t.span n).rx.aligner =
        (if (s.span n).record.enable then if (s.span n).rx.clockPresent then .hunt 0 else .absent else .off) ∧
      (t.span n).win = .reset ∧ (t.span n).sf = ⟨.search none, 0, false, ⟨false, false⟩⟩ ∧
      (t.span n).tx = { (s.span n).tx with currentSlip := false, previousSlip := false } ∧
      (t.span n).store.state = .detached ∧ (t.span n).store.lastFault = .none ∧
      (t.span n).store.low = (s.span n).store.low ∧ (t.span n).store.high = (s.span n).store.high ∧
      (t.span n).meter = { (s.span n).meter with
        baseline := none, net := 0, average := 0, lastD := 0, lastDValid := false, lastHit := false, drift := false } ∧
      (t.span n).counts = ⟨0, 0, 0, 0, 0, 0, 0, 0⟩ ∧
      subset (t.span n).active (t.span n).latched ∧ subset (t.span n).latched ((t.span n).active ||| (s.span n).active))

/-- READ SPAN (R23), the codes of Table 1-6 spelled out; the miss count is 0 but in FLYWHEEL (R10). -/
def Obligations.ReadSpanReply : Prop :=
  let transmit (m : TransmitMode) : Byte := match m with | .normal => 0 | .blank => 1 | .off => 2
  let loopback (l : Loopback) : Byte := match l with | .none => 0 | .line => 1
  let aligner (a : Aligner) : Byte := match a with
    | .off => 0 | .absent => 1 | .hunt _ => 2 | .verify _ _ _ => 3 | .locked _ => 4 | .flywheel _ _ => 5
  let misses (a : Aligner) : Nat := match a with
    | .flywheel _ m => m
    | .off | .absent | .hunt _ | .verify _ _ _ | .locked _ => 0
  let superframe (f : SuperframeState) : Byte := match f with | .search _ => 0 | .locked _ _ => 1
  ∀ (s : State) (tag : Byte), s.officeRuns = true →
    (∀ span : Byte, 15 < span.toNat → exec (.readSpan tag span) s = .next (s.refused 0x12 tag .badParameter)) ∧
    (∀ n : Fin 16, let sp := s.span n
      exec (.readSpan tag (BitVec.ofNat 8 n.val)) s = .next (s.replied 0x12 tag .done
        #v[aligner sp.rx.aligner, BitVec.ofNat 8 (misses sp.rx.aligner), superframe sp.sf.state,
           (if sp.rx.clockPresent then 0x80 else 0) ||| (if sp.sf.farEnd.active then 0x08 else 0) |||
             (if sp.win.noisy then 0x04 else 0) ||| (if sp.win.brk.active then 0x02 else 0) |||
             (if sp.win.blank.active then 0x01 else 0),
           sp.sf.report, if sp.sf.reportValid then 1 else 0,
           (if sp.record.enable then 0x80 else 0) ||| (transmit sp.record.transmitMode <<< 4) |||
             loopback sp.record.loopback,
           sp.record.conditioned, BitVec.ofNat 8 sp.record.noiseLimit]))

/-! ### Retiming stores and drift meters -/

/-- STORE_UNDERRUN (R37, R38): an ATTACHED store that holds no more than the read side has still to read runs empty; the
read side stops at the place after the last bit written. An overrun (R37, R39): the write that makes the fill 1344 is kept,
and the store faults; in FAULTED after it an arriving bit only moves the write position. A store that holds no more than its
read side still reads in the frame, with no STORE_UNDERRUN given, runs empty in the reads that the boundary completes
(notes/assumptions/7.md), and the boundary takes it to CENTRING (R40). -/
def Obligations.StoreFaults : Prop :=
  (∀ (s : State) (n : Fin 16), s.officeRuns = true →
      let st := (s.span n).store
      st.state = .attached → 1 ≤ st.fill → st.readPos < 1344 → st.fill + st.out.length ≤ 336 →
      ∃ t, exec (.storeUnderrun n) s = .next t ∧ s.keepsBut n t ∧ t.channel = s.channel ∧
        (t.span n).store.state = .faulted ∧ (t.span n).store.lastFault = .underrun ∧ (t.span n).store.fill = 0 ∧
        (t.span n).store.readPos = (st.readPos + st.fill) % 1344 ∧ (t.span n).store.writePos = st.writePos ∧
        (t.span n).store.ring = st.ring ∧
        (t.span n).store.out = st.out ++ (List.range st.fill).map (fun k => ringBit st.ring ((st.readPos + k) % 1344)) ∧
        (t.span n).counts = { (s.span n).counts with storeFaults := raise (s.span n).counts.storeFaults } ∧
        (t.span n).latched.getLsbD 8 = true ∧ (t.span n).meter.baseline = none ∧ (t.span n).meter.drift = false ∧
        (t.span n).record = (s.span n).record ∧ (t.span n).rx = (s.span n).rx ∧ (t.span n).tx = (s.span n).tx) ∧
  (∀ (s : State) (n : Fin 16) (x : Looks), s.officeRuns = true → (s.span n).rx.aligner.aligned = true →
      (s.span n).store.writePos < 1344 →
      let b := x == 3 || x == 5 || x == 6 || x == 7
      ((s.span n).store.state = .attached → (s.span n).store.fill = 1343 →
        ∃ t, exec (.alignedFrame n 0 [x]) s = .next t ∧ s.keepsBut n t ∧
          (t.span n).store.state = .faulted ∧ (t.span n).store.lastFault = .overrun ∧ (t.span n).store.fill = 1344 ∧
          ringBit (t.span n).store.ring (s.span n).store.writePos = b ∧
          (t.span n).store.writePos = ((s.span n).store.writePos + 1) % 1344 ∧
          (t.span n).store.readPos = (s.span n).store.readPos ∧
          (t.span n).counts.storeFaults = raise (s.span n).counts.storeFaults ∧
          (t.span n).latched.getLsbD 8 = true ∧ (t.span n).meter.baseline = none ∧ (t.span n).meter.drift = false) ∧
      ((s.span n).store.state = .faulted → (s.span n).store.lastFault = .overrun →
        ∃ t, exec (.alignedFrame n 0 [x]) s = .next t ∧
          (t.span n).store = { (s.span n).store with writePos := ((s.span n).store.writePos + 1) % 1344 } ∧
          (t.span n).counts.storeFaults = (s.span n).counts.storeFaults)) ∧
  (∀ (s : State) (egress : Vector Byte 640) (order : List Handling) (apart : Bool) (n : Fin 16), s.officeRuns = true →
      s.takesNoOrder →
      let st := (s.span n).store
      st.state = .attached → 1 ≤ st.fill → st.fill + st.out.length ≤ 336 →
      ∃ t, exec (.officeFrameBoundary egress order apart) s = .next t ∧
        (t.span n).store = { st with
          state := .centring, lastFault := .underrun, fill := 0, readPos := (st.readPos + st.fill) % 1344, out := []
          low := st.lowStored, high := st.highStored } ∧
        (t.span n).counts = { (s.span n).counts with storeFaults := raise (s.span n).counts.storeFaults } ∧
        (t.span n).latched.getLsbD 8 = true ∧ (t.span n).meter.baseline = none ∧ (t.span n).meter.drift = false ∧
        (t.span n).rx = (s.span n).rx ∧ (t.span n).sf = (s.span n).sf ∧ (t.span n).record = (s.span n).record)

/-- SET THRESHOLDS (R43): both thresholds clamped into their own ranges and stored, nothing else of the store moved. -/
def Obligations.SetThresholdsStores : Prop :=
  ∀ (s : State) (tag : Byte) (low high : Word), s.officeRuns = true →
    (∀ span : Byte, 15 < span.toNat → exec (.setThresholds tag span low high) s = .next (s.refused 0x13 tag .badParameter)) ∧
    (∀ n : Fin 16,
      let l : Word := if low.toNat < 48 then 48 else if 336 < low.toNat then 336 else low
      let h : Word := if high.toNat < 1008 then 1008 else if 1296 < high.toNat then 1296 else high
      exec (.setThresholds tag (BitVec.ofNat 8 n.val) low high) s =
        .next ((s.setSpan n { s.span n with
            store := { (s.span n).store with lowStored := l.toNat, highStored := h.toNat } }).replied 0x13 tag
          (if l = low ∧ h = high then .done else .doneClamped)
          #v[BitVec.ofNat 8 n.val, l.extractLsb' 8 8, l.extractLsb' 0 8, h.extractLsb' 8 8, h.extractLsb' 0 8, 0, 0, 0, 0]))

/-- READ STORE (R46, Table 2-3). SET DRIFT (R60): k above 7 stored as 7, the limit as sent; a limit of 0 coming into force
ends DRIFT; that a SET DRIFT given as a command follows the sample of its boundary is a DESIGN CHOICE
(notes/assumptions/10.md). READ DRIFT (R61): flags, E, the offset of E and the last D, as two's complement. -/
def Obligations.StoreAndDriftOrders : Prop :=
  (∀ (s : State) (tag : Byte), s.officeRuns = true →
      (∀ span : Byte, 15 < span.toNat → exec (.readStore tag span) s = .next (s.refused 0x14 tag .badParameter)) ∧
      (∀ n : Fin 16, let st := (s.span n).store
        st.lastFill < 65536 → st.lowStored < 65536 → st.highStored < 65536 →
        ∃ state fault : Byte,
          (st.state = .detached → state = 0) ∧ (st.state = .centring → state = 1) ∧ (st.state = .attached → state = 2) ∧
          (st.state = .faulted → state = 3) ∧ (st.lastFault = .none → fault = 0) ∧ (st.lastFault = .underrun → fault = 1) ∧
          (st.lastFault = .overrun → fault = 2) ∧
          exec (.readStore tag (BitVec.ofNat 8 n.val)) s = .next (s.replied 0x14 tag .done
            #v[state, BitVec.ofNat 8 (st.lastFill / 256), BitVec.ofNat 8 (st.lastFill % 256),
               BitVec.ofNat 8 (st.lowStored / 256), BitVec.ofNat 8 (st.lowStored % 256),
               BitVec.ofNat 8 (st.highStored / 256), BitVec.ofNat 8 (st.highStored % 256), fault, 0]))) ∧
  (∀ (s : State) (tag k : Byte) (limit : Word), s.officeRuns = true →
      (∀ span : Byte, 15 < span.toNat → exec (.setDrift tag span k limit) s = .next (s.refused 0x15 tag .badParameter)) ∧
      (∀ n : Fin 16, let k' := min k.toNat 7
        ∃ t, exec (.setDrift tag (BitVec.ofNat 8 n.val) k limit) s = .next t ∧ s.keepsBut n t ∧
          t.channel = { s.channel with reply := some ⟨0x15, tag, if k' = k.toNat then .done else .doneClamped,
            #v[BitVec.ofNat 8 n.val, BitVec.ofNat 8 k', limit.extractLsb' 8 8, limit.extractLsb' 0 8, 0, 0, 0, 0, 0]⟩ } ∧
          (t.span n).meter = { (s.span n).meter with
            k := k', kStored := k', limit := limit.toNat, limitStored := limit.toNat
            drift := (s.span n).meter.drift && limit != 0 } ∧
          (t.span n).store = (s.span n).store ∧ (t.span n).record = (s.span n).record ∧ (t.span n).rx = (s.span n).rx ∧
          (t.span n).tx = (s.span n).tx ∧ (t.span n).counts = (s.span n).counts ∧ (t.span n).sf = (s.span n).sf ∧
          (t.span n).win = (s.span n).win)) ∧
  (∀ (s : State) (tag : Byte), s.officeRuns = true →
      (∀ span : Byte, 15 < span.toNat → exec (.readDrift tag span) s = .next (s.refused 0x16 tag .badParameter)) ∧
      (∀ n : Fin 16, let m := (s.span n).meter
        let e := BitVec.ofInt 16 m.average
        let o := BitVec.ofInt 24 (driftOffset m.average)
        let d := BitVec.ofInt 16 m.lastD
        m.k ≤ 7 →
        exec (.readDrift tag (BitVec.ofNat 8 n.val)) s = .next (s.replied 0x16 tag .done
          #v[(if m.baseline.isSome then 0x80 else 0) ||| (if m.drift then 0x40 else 0) ||| (if m.lastDValid then 0x20 else 0) |||
               (if m.lastHit then 0x10 else 0) ||| BitVec.ofNat 8 m.k,
             e.extractLsb' 8 8, e.extractLsb' 0 8, o.extractLsb' 16 8, o.extractLsb' 8 8, o.extractLsb' 0 8,
             d.extractLsb' 8 8, d.extractLsb' 0 8, 0])))

/-- The boundary report of a store (R41): attached and fill as the boundary leaves the store, the slip decided there, and centred
yes at a centring and at both courses of recentring (R32, R33, R40). A sample of the meter (R51 to R54, R57): a baseline sample, a
drift sample or a phase hit; and a boundary report's slip counted into N (R49). The drift average moves between where it stood and
its target, either end included (R54, R55). At an office superframe boundary that takes no order: the reads of the frame are
complete, the slip of that boundary is counted, then the sample is taken, a phase hit raises PHASE HITS, and the stored settings
come into force (R49, R51, R53, R60); a centring or recentring there gives a fresh baseline (R50, R51), but for an overrun that
fell together with the boundary, which gives none (R59; DESIGN CHOICE, notes/assumptions/18.md); a store that is not ATTACHED after
it gives no sample, and one that recentres to CENTRING leaves no baseline (R50). -/
def Obligations.DriftSample : Prop :=
  (∀ st : Store,
      let r := st.boundary.2
      let st' := st.boundary.1
      (r.attached = true ↔ st'.state = .attached) ∧ (st'.state = .attached → r.fill = some st'.fill) ∧
      (st'.state ≠ .attached → r.fill = none) ∧
      (r.slip = .rep ↔ st.state = .attached ∧ st.fill < st.low) ∧
      (r.slip = .skip ↔ st.state = .attached ∧ st.low ≤ st.fill ∧ st.high < st.fill) ∧
      (r.centred = true ↔ (st.state = .centring ∧ 672 ≤ st.fill) ∨ st.state = .faulted)) ∧
  (∀ (m : Meter) (fill : Nat),
      (m.baseline = none → m.sample fill = ({ m with baseline := some fill, net := 0 }, false)) ∧
      (∀ prev, m.baseline = some prev →
        let d : Int := fill + 336 * m.net - prev
        ((m.sample fill).2 = true ↔ d < -127 ∨ 127 < d) ∧
        (m.sample fill).1.baseline = some fill ∧ (m.sample fill).1.net = 0 ∧ (m.sample fill).1.lastD = d ∧
        (m.sample fill).1.lastDValid = true ∧ (m.sample fill).1.lastHit = (m.sample fill).2 ∧
        (m.sample fill).1.average = (if -127 ≤ d ∧ d ≤ 127 then driftUpdate m.average d m.k else m.average) ∧
        let o := (driftOffset (m.sample fill).1.average).natAbs
        (m.limit = 0 → (m.sample fill).1.drift = false) ∧
        (m.limit ≠ 0 → m.drift = false → ((m.sample fill).1.drift = true ↔ m.limit < o)) ∧
        (m.limit ≠ 0 → m.drift = true → ((m.sample fill).1.drift = false ↔ o ≤ m.limit - m.limit / 8)) ∧
        m.countSlip .skip = { m with net := m.net + 1 } ∧ m.countSlip .rep = { m with net := m.net - 1 } ∧ m.countSlip .none = m)) ∧
  (∀ (e d : Int) (k : Nat),
      driftUpdate e d k = e + Int.fdiv (256 * d - e) (2 ^ k) ∧
      (e ≤ 256 * d → e ≤ driftUpdate e d k ∧ driftUpdate e d k ≤ 256 * d) ∧
      (256 * d ≤ e → 256 * d ≤ driftUpdate e d k ∧ driftUpdate e d k ≤ e) ∧
      (256 * d < e → driftUpdate e d k < e)) ∧
  (∀ (s : State) (egress : Vector Byte 640) (order : List Handling) (apart : Bool) (n : Fin 16), s.officeRuns = true →
      (s.frameNumber.toNat + 1) % 16 = 0 → s.takesNoOrder →
      let sp := s.span n
      let st := sp.store
      let f := st.fill - (336 - st.out.length)
      let inForce (m : Meter) : Meter :=
        { m with k := m.kStored, limit := m.limitStored, drift := m.drift && decide (m.limitStored ≠ 0) }
      ∃ t, exec (.officeFrameBoundary egress order apart) s = .next t ∧
        (st.state = .attached → 336 - st.out.length < st.fill →
          let slip : Slip := if f < st.lowStored then .rep else if st.highStored < f then .skip else .none
          let sample := (sp.meter.countSlip slip).sample (if f < st.lowStored then f + 336 else if st.highStored < f then f - 336 else f)
          (t.span n).meter = inForce sample.1 ∧
          (t.span n).counts = { sp.counts with
            repeatSlips := if slip = .rep then raise sp.counts.repeatSlips else sp.counts.repeatSlips
            skipSlips := if slip = .skip then raise sp.counts.skipSlips else sp.counts.skipSlips
            phaseHits := if sample.2 then raise sp.counts.phaseHits else sp.counts.phaseHits }) ∧
        (st.state = .centring ∨ st.state = .faulted → 672 ≤ st.fill →
          (t.span n).meter = inForce { sp.meter with
            net := 0
            baseline := if st.state = .faulted ∧ st.lastFault = .overrun ∧ 336 ≤ st.out.length then none
              else some (672 + st.writePos % 336) } ∧
          (t.span n).counts = sp.counts) ∧
        (st.state = .detached ∨ (st.state = .centring ∧ st.fill < 672) →
          (t.span n).meter = inForce sp.meter ∧ (t.span n).counts = sp.counts) ∧
        (st.state = .faulted → st.fill < 672 →
          (t.span n).meter = inForce { sp.meter with net := 0, baseline := none } ∧ (t.span n).counts = sp.counts))

/-- R56: the offset of a drift average, rounded to the nearest unit with the sign applied after, 0 at 0, and never beyond
236235 for an average in range. -/
def Obligations.DriftOffsetRule : Prop :=
  ∀ e : Int,
    driftOffset e = Int.sign e * Int.ofNat ((e.natAbs * 10000000 + 688128) / 1376256) ∧
    driftOffset 0 = 0 ∧ driftOffset (-e) = -driftOffset e ∧
    (e.natAbs ≤ 32512 → (driftOffset e).natAbs ≤ 236235) ∧ (driftOffset 32512 = 236235)

/-! ### Office timing -/

/-- REFERENCE_EVENT (R66, R71, R80, R81): the monitor's pulse; the detector's zero at the first event of the selected entry
and its phase error at a later one, inside or not while ACQUIRING; on each output, one more pulse where its record in force is
enabled, has that entry as its source and is not squelched; nothing else. That the ends of ±1.0 µs and of ±100 ppm lie inside
is a DESIGN CHOICE (notes/assumptions/12.md). A LINE event needs an aligned span (that a command without one has no effect is
a DESIGN CHOICE, notes/assumptions/1.md). The OFFICE pulses of a boundary that takes no order (R80, R81): on each output one
pulse where its record, as it comes into force there, is enabled, has source OFFICE and is not squelched, and the number formed
is a multiple of its divisor; else none. Squelch is read off the loop the boundary leaves where the outputs' handling follows
the others. -/
def Obligations.ReferenceEvents : Prop :=
  (∀ (s : State) (input : RefInput) (time : Int) (frequency : Rat), s.officeRuns = true →
    (∀ n : Fin 16, input = .span n → (s.span n).rx.aligner.aligned = false → exec (.referenceEvent input time frequency) s = .next s) ∧
    ((∀ n : Fin 16, input = .span n → (s.span n).rx.aligner.aligned = true) →
      let d := s.timing.detector
      ∃ t, exec (.referenceEvent input time frequency) s = .next t ∧
        t = { s with timing := { s.timing with
          monitorA := if input = .refA then { s.timing.monitorA with pulse := true } else s.timing.monitorA
          monitorB := if input = .refB then { s.timing.monitorB with pulse := true } else s.timing.monitorB
          detector := t.timing.detector, toa := t.timing.toa, tob := t.timing.tob } } ∧
        ((∀ e, s.timing.loop.selected = some e → ¬s.feeds input e) → t.timing.detector = d) ∧
        (∀ e, s.timing.loop.selected = some e → s.feeds input e →
          (d.zero = none → t.timing.detector = { d with zero := some time, frequency := some frequency }) ∧
          (∀ z, d.zero = some z →
            (s.timing.loop.state ≠ .acquiring →
              t.timing.detector = { d with lastError := some (time - z), frequency := some frequency }) ∧
            (s.timing.loop.state = .acquiring →
              t.timing.detector = { d with
                lastError := some (time - z), frequency := some frequency, measured := true
                inside := d.inside && decide ((time - z).natAbs ≤ 1000000 ∧ -100 ≤ frequency ∧ frequency ≤ 100) }))) ∧
        (∀ o o' : TimingOutput, (o = s.timing.toa ∧ o' = t.timing.toa) ∨ (o = s.timing.tob ∧ o' = t.timing.tob) →
          let passes := o.inForce.enable = true ∧ ∃ e, o.inForce.source = .entry e ∧ s.feeds input e ∧
            (o.inForce.squelch = true → (s.entry e).state = .qualifying ∨ (s.entry e).state = .qualified)
          (passes → o' = { o with pulses := o.pulses + 1 }) ∧ (¬passes → o' = o)))) ∧
  (∀ (s : State) (egress : Vector Byte 640) (order : List Handling) (apart : Bool), s.officeRuns = true → s.takesNoOrder →
    ∃ t, exec (.officeFrameBoundary egress order apart) s = .next t ∧
      ∀ o o' : TimingOutput, (o = s.timing.toa ∧ o' = t.timing.toa) ∨ (o = s.timing.tob ∧ o' = t.timing.tob) →
        let divisor := match o.stored.rate with
          | .r8000 => 1
          | .r4000 => 2
          | .r2000 => 4
        let fires := o.stored.enable = true ∧ o.stored.source = .office ∧ t.frameNumber.toNat % divisor = 0
        o'.stored = o.stored ∧ o'.inForce = o.stored ∧
        (¬fires → o'.pulses = 0) ∧
        (fires → o.stored.squelch = false → o'.pulses = 1) ∧
        (fires → o.stored.squelch = true → .outputs ∉ order →
          o'.pulses = if t.timing.loop.state = .free ∨ t.timing.loop.state = .holdover then 0 else 1))

/-- QUALIFICATION_COMPLETE (R68): at the superframe boundary at which the count reaches the target, the entry is QUALIFIED
and the count stands at the target; its taking as the first step of that boundary is a DESIGN CHOICE
(notes/assumptions/11.md). ACQUISITION_TIMEOUT (R70, R72, R73, R75), where a boundary has left the 256th count to it: the
selected entry is faulted with reason TIMEOUT and goes at once to QUALIFYING from 0, its alarm stays latched, the selection is
dropped, and both device counts rise. Where none is left to it, it has no effect (DESIGN CHOICE, notes/assumptions/1.md); a
boundary that comes first makes the count left to it before all else (DESIGN CHOICE, notes/assumptions/11.md). -/
def Obligations.QualificationAndTimeout : Prop :=
  (∀ (s : State) (e : Fin 4), s.officeRuns = true → s.superframeNext = true → (s.entry e).state = .qualifying →
      (s.entry e).count + 1 = (s.entry e).target.superframes →
      exec (.qualificationComplete e) s =
        .next (s.setEntry e { s.entry e with state := .qualified, count := (s.entry e).target.superframes })) ∧
  (∀ (s : State) (e : Fin 4), s.officeRuns = true → s.timing.loop.state = .acquiring → s.timing.loop.selected = some e →
      s.timing.loop.timeoutDue = true →
      ∃ t, exec .acquisitionTimeout s = .next t ∧
        t.entry e = { s.entry e with state := .qualifying, count := 0, target := (s.entry e).q, reason := .timeout } ∧
        (∀ x, x ≠ e → t.entry x = s.entry x) ∧ t.timing.loop.selected = none ∧
        t.timing.loop.state = (if s.timing.loop.holdoverValid then .holdover else .free) ∧
        t.timing.loop.lockCount = 0 ∧ t.timing.loop.acqCount = 0 ∧ t.timing.loop.timeoutDue = false ∧
        t.timing.loop.freq = s.timing.loop.freq ∧
        t.device.acquisitionTimeouts = raise s.device.acquisitionTimeouts ∧
        t.device.referenceSwitches = raise s.device.referenceSwitches ∧ t.device.checkErrors = s.device.checkErrors ∧
        t.device.latched.getLsbD e.val = true ∧
        (∀ u : Fin 4, t.units[u] = if s.units[u].source = 7 then { s.units[u] with newTrigger := true } else s.units[u]) ∧
        t.spans = s.spans ∧ t.highway = s.highway ∧ t.frameNumber = s.frameNumber ∧ t.timers = s.timers ∧ t.channel = s.channel ∧
        t.restart = s.restart) ∧
  (∀ s : State, s.timing.loop.timeoutDue = false → exec .acquisitionTimeout s = .next s) ∧
  (∀ (s : State) (egress : Vector Byte 640) (order : List Handling) (apart : Bool), ∃ t, exec .acquisitionTimeout s = .next t ∧
      exec (.officeFrameBoundary egress order apart) s = exec (.officeFrameBoundary egress order apart) t)

/-- The office timing unit at a boundary: the input monitors row by row (R66); stage 1, the qualification counts (R68);
stage 2, the automatic evaluation (R76, Table 4-6); stage 3 (R72), the lock reading, lock at the fourth inside reading in
succession, and the acquisition count, which is never above 255: where it would reach 256 the timeout occurs, unless that count
is left to its own step (notes/assumptions/11.md), and lock before timeout (R70, R72). R69: at an office superframe boundary the monitors and the three stages act
in that order, each on what the one before left, and then the oscillator (stated where no order is taken, no LINE entry is
enabled and no timer can select). The oscillator (R64, R74): 1.0 ppm in each superframe toward the target of its state, or the
whole distance where that is less; while LOCKED the holdover frequency is the mean of the last 64 (at the superframe boundary,
after stage 3: notes/assumptions/12.md). -/
def Obligations.BoundaryStages : Prop :=
  (∀ m : Monitor,
    (m.noActivity = false → m.pulse = true → m.frameEnd = { m with pulse := false }) ∧
    (m.noActivity = false → m.pulse = false → m.frameEnd = ⟨true, 0, false⟩) ∧
    (m.noActivity = true → m.pulse = true → m.streak ≤ 6 → m.frameEnd = ⟨true, m.streak + 1, false⟩) ∧
    (m.noActivity = true → m.pulse = true → m.streak = 7 → m.frameEnd = ⟨false, 0, false⟩) ∧
    (m.noActivity = true → m.pulse = false → m.frameEnd = ⟨true, 0, false⟩)) ∧
  (∀ (s : State) (e : Fin 4),
    ((s.entry e).state = .qualifying → (s.entry e).count + 1 < (s.entry e).target.superframes →
      s.qualifyAll.entry e = { s.entry e with count := (s.entry e).count + 1 }) ∧
    ((s.entry e).state = .qualifying → (s.entry e).count + 1 = (s.entry e).target.superframes →
      s.qualifyAll.entry e = { s.entry e with state := .qualified, count := (s.entry e).target.superframes }) ∧
    ((s.entry e).state ≠ .qualifying → s.qualifyAll.entry e = s.entry e)) ∧
  (∀ (s : State) (e : Fin 4), s.timing.best = some e ↔
    (s.entry e).state = .qualified ∧ ∀ x, (s.entry x).state = .qualified →
      (s.entry e).priority < (s.entry x).priority ∨ ((s.entry e).priority = (s.entry x).priority ∧ e ≤ x)) ∧
  (∀ s : State,
    (s.timing.mode = .manual ∨ (∀ e, (s.entry e).state ≠ .qualified) → s.autoSelect = s) ∧
    (∀ b, s.timing.mode = .auto → s.timing.best = some b → s.timing.loop.selected = none → s.autoSelect = s.selectEntry b) ∧
    (∀ b e, s.timing.mode = .auto → s.timing.best = some b → s.timing.loop.selected = some e →
      s.autoSelect = if s.timing.revertive = true ∧ (s.entry b).priority < (s.entry e).priority then s.selectEntry b else s)) ∧
  (∀ (s : State) (apart : Bool), s.timing.loop.state = .acquiring → s.timing.loop.fresh = false →
      s.timing.loop.acqCount ≤ 255 →
      let reading := s.timing.detector.measured && s.timing.detector.inside
      (reading = true → s.timing.loop.lockCount = 3 →
        s.lockStage apart = s.setLoop
          { s.timing.loop with state := .locked, timeoutDue := false, lockCount := 4, holdoverValid := true, history := [] }) ∧
      let goesOn (lock : Nat) : Prop :=
        let l := { s.timing.loop with lockCount := lock }
        (s.timing.loop.acqCount < 255 → s.lockStage apart = s.setLoop { l with acqCount := s.timing.loop.acqCount + 1 }) ∧
        (s.timing.loop.acqCount = 255 → apart = false → s.lockStage apart = (s.setLoop l).timeout) ∧
        (s.timing.loop.acqCount = 255 → apart = true → s.lockStage apart = s.setLoop { l with timeoutDue := true })
      (reading = true → s.timing.loop.lockCount < 3 → goesOn (s.timing.loop.lockCount + 1)) ∧ (reading = false → goesOn 0)) ∧
  (∀ (s : State) (apart : Bool), s.timing.loop.state ≠ .acquiring ∨ s.timing.loop.fresh = true → s.lockStage apart = s) ∧
  (∀ (s : State) (egress : Vector Byte 640) (order : List Handling) (apart : Bool), s.officeRuns = true →
      (s.frameNumber.toNat + 1) % 16 = 0 → s.takesNoOrder → s.timing.law → s.entriesFollow → (s.entry 2).state = .disabled →
      (s.entry 3).state = .disabled → s.timing.loop.timeoutDue = false →
      (s.timing.mode = .auto ∨ ∀ n : Fin 4, s.timers[n].armed = false) →
      let opened := { s with timing := { s.timing with loop := { s.timing.loop with fresh := false } } }
      let r := (opened.monitors.qualifyAll.autoSelect).lockStage apart
      ∃ t, exec (.officeFrameBoundary egress order apart) s = .next t ∧
        t.timing = { r.timing.steer with
          detector := { r.timing.detector with measured := false, inside := true }, toa := t.timing.toa, tob := t.timing.tob } ∧
        t.device = r.device) ∧
  (∀ t : Timing,
      let f := t.steer.loop.freq
      (∀ target : Rat,
        (t.loop.state = .free → target = 0) → (t.loop.state = .holdover → target = t.loop.holdoverFreq) →
        (∀ g, t.loop.state = .acquiring ∨ t.loop.state = .locked → t.detector.frequency = some g →
          target = max (-100) (min 100 g)) →
        (t.loop.state = .acquiring ∨ t.loop.state = .locked → t.detector.frequency ≠ none) →
        (target < t.loop.freq - 1 → f = t.loop.freq - 1) ∧ (t.loop.freq + 1 < target → f = t.loop.freq + 1) ∧
        (t.loop.freq - 1 ≤ target → target ≤ t.loop.freq + 1 → f = target)) ∧
      (t.loop.state = .locked →
        t.steer.loop.history = (f :: t.loop.history).take 64 ∧
        t.steer.loop.holdoverFreq = t.steer.loop.history.sum / t.steer.loop.history.length) ∧
      t.steer = { t with loop := { t.loop with
        freq := f, history := t.steer.loop.history, holdoverFreq := t.steer.loop.holdoverFreq } } ∧
      (t.loop.state ≠ .locked → t.steer.loop.history = t.loop.history ∧ t.steer.loop.holdoverFreq = t.loop.holdoverFreq))

/-- SET REFERENCE (R83, R68, Table 4-4): refusals in their order; the four fields written; the entry's next state, count,
target and reason for every change of enable and of span, and no other change; its alarm latched (R155); the reply with the
entry as it then stands, by the codes of Table 4-9. -/
def Obligations.SetReferenceActs : Prop :=
  let period (q : QPeriod) : Byte := match q with | .q16 => 0 | .q64 => 1 | .q256 => 2 | .q1024 => 3
  let entryState (x : EntryState) : Byte := match x with | .disabled => 0 | .qualifying => 1 | .qualified => 2 | .faulted => 3
  ∀ (s : State) (tag entry en prio q span : Byte), s.officeRuns = true →
    (3 < entry.toNat ∨ 1 < en.toNat ∨ prio = 0 ∨ 4 < prio.toNat ∨ 3 < q.toNat ∨ (2 ≤ entry.toNat ∧ 15 < span.toNat) →
      exec (.setReference tag entry en prio q span) s = .next (s.refused 0x20 tag .badParameter)) ∧
    (∀ (e : Fin 4) (n : Fin 16) (code : QPeriod) (enable : Bool),
      entry = BitVec.ofNat 8 e.val → en = (if enable then 1 else 0) → 1 ≤ prio.toNat → prio.toNat ≤ 4 → q = period code →
      n = (if 2 ≤ e.val then Fin.ofNat 16 span.toNat else (s.entry e).span) → (2 ≤ e.val → span.toNat ≤ 15) →
      (s.timing.loop.selected = some e → (enable = false ∨ n ≠ (s.entry e).span) →
        exec (.setReference tag entry en prio q span) s = .next (s.refused 0x20 tag .inUse)) ∧
      (s.timing.loop.selected ≠ some e ∨ (enable = true ∧ n = (s.entry e).span) →
        let was := s.entry e
        let x : RefEntry := { was with enable := enable, priority := prio.toNat, q := code, span := n }
        ∃ t, exec (.setReference tag entry en prio q span) s = .next t ∧
          t = { s with timing := { s.timing with entries := t.timing.entries }
                       device := { s.device with latched := s.device.latched ||| t.timing.active }, channel := t.channel } ∧
          (∀ y, y ≠ e → t.entry y = s.entry y) ∧
          (enable = false → was.enable = true → t.entry e = { x with state := .disabled, count := 0 }) ∧
          (enable = true → was.enable = false ∨ n ≠ was.span → s.faultOf e n = none →
            t.entry e = { x with state := .qualifying, count := 0, target := code }) ∧
          (∀ why, enable = true → was.enable = false → s.faultOf e n = some why →
            t.entry e = { x with state := .faulted, count := 0, target := code, reason := why }) ∧
          (∀ why, enable = true → was.enable = true → n ≠ was.span → s.faultOf e n = some why →
            t.entry e = { x with state := .faulted, count := 0, reason := why }) ∧
          (enable = was.enable → (enable = false ∨ n = was.span) → t.entry e = x) ∧
          ((t.entry e).state = .faulted → t.device.latched.getLsbD e.val = true) ∧
          t.channel = { s.channel with reply := some ⟨0x20, tag, .done,
            #v[entry, en, prio, q, if 2 ≤ e.val then span else 0xFF, entryState (t.entry e).state,
               BitVec.ofNat 8 ((t.entry e).count / 256), BitVec.ofNat 8 ((t.entry e).count % 256), 0]⟩ }))

/-- SET TIMING MODE (R78) and SELECT REFERENCE (R77, R70, R75), with the codes of Table 4-9. -/
def Obligations.ModeAndSelection : Prop :=
  let timingMode (m : TimingMode) : Byte := match m with | .auto => 0 | .manual => 1
  let loopState (l : LoopState) : Byte := match l with | .free => 0 | .acquiring => 1 | .locked => 2 | .holdover => 3
  ∀ (s : State) (tag : Byte), s.officeRuns = true →
    (∀ (m : TimingMode) (r : Bool),
      exec (.setTimingMode tag (timingMode m) (if r then 1 else 0)) s =
        .next ({ s with timing := { s.timing with mode := m, revertive := r } }.replied 0x21 tag .done
          #v[timingMode m, if r then 1 else 0, 0, 0, 0, 0, 0, 0, 0])) ∧
    (∀ m r : Byte, 1 < m.toNat ∨ 1 < r.toNat → exec (.setTimingMode tag m r) s = .next (s.refused 0x21 tag .badParameter)) ∧
    (∀ b : Byte, 3 < b.toNat → exec (.selectReference tag b) s = .next (s.refused 0x22 tag .badParameter)) ∧
    (∀ e : Fin 4,
      (s.timing.mode = .auto → exec (.selectReference tag (BitVec.ofNat 8 e.val)) s = .next (s.refused 0x22 tag .wrongMode)) ∧
      (s.timing.mode = .manual → s.timing.loop.selected = some e →
        exec (.selectReference tag (BitVec.ofNat 8 e.val)) s = .next (s.replied 0x22 tag .done
          #v[BitVec.ofNat 8 e.val, BitVec.ofNat 8 e.val, loopState s.timing.loop.state, 0, 0, 0, 0, 0, 0])) ∧
      (s.timing.mode = .manual → s.timing.loop.selected ≠ some e → (s.entry e).state ≠ .qualified →
        exec (.selectReference tag (BitVec.ofNat 8 e.val)) s = .next (s.refused 0x22 tag .notQualified)) ∧
      (s.timing.mode = .manual → s.timing.loop.selected ≠ some e → (s.entry e).state = .qualified →
        ∃ t, exec (.selectReference tag (BitVec.ofNat 8 e.val)) s = .next t ∧
          t.timing.loop.state = .acquiring ∧ t.timing.loop.selected = some e ∧ t.timing.loop.lockCount = 0 ∧
          t.timing.loop.acqCount = 0 ∧ t.timing.loop.freq = s.timing.loop.freq ∧ t.timing.detector.zero = none ∧
          t.timing.loop.holdoverValid = s.timing.loop.holdoverValid ∧
          t.timing.loop.holdoverFreq = s.timing.loop.holdoverFreq ∧ t.timing.entries = s.timing.entries ∧
          t.device = { s.device with referenceSwitches := raise s.device.referenceSwitches } ∧
          (∀ u : Fin 4, t.units[u] = if s.units[u].source = 7 then { s.units[u] with newTrigger := true } else s.units[u]) ∧
          t.channel = { s.channel with
            reply := some ⟨0x22, tag, .done, #v[BitVec.ofNat 8 e.val, BitVec.ofNat 8 e.val, 1, 0, 0, 0, 0, 0, 0]⟩ } ∧
          t.spans = s.spans ∧ t.highway = s.highway ∧ t.timers = s.timers ∧ t.frameNumber = s.frameNumber ∧
          t.restart = s.restart))

/-- READ REFERENCE and READ TIMING (R84, R85, Table 4-8), the codes of Table 4-9 spelled out; SET TIMING OUTPUT (R82): one
record stored whole, not yet in force. -/
def Obligations.TimingReadsAndOutputs : Prop :=
  let entryState (x : EntryState) : Byte := match x with | .disabled => 0 | .qualifying => 1 | .qualified => 2 | .faulted => 3
  let reason (r : FaultReason) : Byte := match r with
    | .none => 0 | .noActivity => 1 | .notAligned => 2 | .drift => 3 | .timeout => 4
  let period (q : QPeriod) : Byte := match q with | .q16 => 0 | .q64 => 1 | .q256 => 2 | .q1024 => 3
  let loopState (l : LoopState) : Byte := match l with | .free => 0 | .acquiring => 1 | .locked => 2 | .holdover => 3
  let source (o : OutputSource) : Byte := match o with | .office => 0 | .entry e => BitVec.ofNat 8 (1 + e.val)
  let rate (r : OutputRate) : Byte := match r with | .r8000 => 0 | .r4000 => 1 | .r2000 => 2
  (∀ (s : State) (tag : Byte), s.officeRuns = true →
      let record (r : OutputRecord) : Byte :=
        (if r.enable then 0x80 else 0) ||| (if r.squelch then 0x40 else 0) ||| (source r.source <<< 3) ||| rate r.rate
      (∀ b : Byte, 3 < b.toNat → exec (.readReference tag b) s = .next (s.refused 0x23 tag .badParameter)) ∧
      (∀ e : Fin 4, let x := s.entry e
        x.count < 65536 →
        exec (.readReference tag (BitVec.ofNat 8 e.val)) s = .next (s.replied 0x23 tag .done
          #v[entryState x.state, reason x.reason, if x.enable then 1 else 0, BitVec.ofNat 8 x.priority, period x.q,
             if 2 ≤ e.val then BitVec.ofNat 8 x.span.val else 0xFF, BitVec.ofNat 8 (x.count / 256), BitVec.ofNat 8 (x.count % 256),
             period x.target])) ∧
      (s.timing.loop.acqCount < 65536 →
        exec (.readTiming tag) s = .next (s.replied 0x24 tag .done
          #v[loopState s.timing.loop.state,
             match s.timing.loop.selected with
             | some e => BitVec.ofNat 8 e.val
             | none => 0xFF,
             (if s.timing.mode = .manual then 0x80 else 0) ||| (if s.timing.revertive then 0x40 else 0) |||
               (if s.timing.loop.holdoverValid then 0x20 else 0),
             BitVec.ofNat 8 s.timing.loop.lockCount, BitVec.ofNat 8 (s.timing.loop.acqCount / 256),
             BitVec.ofNat 8 (s.timing.loop.acqCount % 256), record s.timing.toa.stored, record s.timing.tob.stored, 0]))) ∧
  (∀ (s : State) (tag : Byte), s.officeRuns = true →
      (∀ o en src rate sq : Byte, 1 < o.toNat ∨ 1 < en.toNat ∨ 4 < src.toNat ∨ 2 < rate.toNat ∨ 1 < sq.toNat →
        exec (.setTimingOutput tag o en src rate sq) s = .next (s.refused 0x25 tag .badParameter)) ∧
      (∀ (en sq : Bool) (src : OutputSource) (rt : OutputRate),
        let results (o : Byte) : Vector Byte 9 :=
          #v[o, if en then 1 else 0, source src, rate rt, if sq then 1 else 0, 0, 0, 0, 0]
        exec (.setTimingOutput tag 0 (if en then 1 else 0) (source src) (rate rt) (if sq then 1 else 0)) s =
          .next ({ s with timing := { s.timing with toa := { s.timing.toa with stored := ⟨en, src, rt, sq⟩ } } }.replied
            0x25 tag .done (results 0)) ∧
        exec (.setTimingOutput tag 1 (if en then 1 else 0) (source src) (rate rt) (if sq then 1 else 0)) s =
          .next ({ s with timing := { s.timing with tob := { s.timing.tob with stored := ⟨en, src, rt, sq⟩ } } }.replied
            0x25 tag .done (results 1))))

/-! ### Highways and channel maps -/

/-- WRITE INGRESS ENTRY and WRITE EGRESS ENTRY (R98, R99, R143): the refusals in their order, and the entry written into the
standby bank alone, with the reply. READ INGRESS ENTRY and READ EGRESS ENTRY (R100): the entry of the bank named active or
standby, with the bank and the active-bank numbers; no state changes. -/
def Obligations.MapEntries : Prop :=
  (∀ (s : State) (tag : Byte), s.officeRuns = true →
      let im := s.highway.ingress
      let em := s.highway.egress
      let ib : Fin 2 := im.active + 1
      let eb : Fin 2 := em.active + 1
      (∀ lane slot kind a b : Byte,
        3 < lane.toNat ∨ 159 < slot.toNat ∨ 2 < kind.toNat ∨ (kind = 2 ∧ (15 < a.toNat ∨ 39 < b.toNat)) →
        exec (.writeIngressEntry tag lane slot kind a b) s = .next (s.refusedMap 0x30 tag .badParameter)) ∧
      (∀ (l : Fin 4) (t : Fin 160) (e : IngressEntry) (kind a b : Byte),
        (kind = 0 ∧ e = .unused) ∨ (kind = 1 ∧ e = .fixed a) ∨
          (kind = 2 ∧ ∃ (n : Fin 16) (c : Fin 40), a = BitVec.ofNat 8 n.val ∧ b = BitVec.ofNat 8 c.val ∧ e = .bearer n c) →
        let r := exec (.writeIngressEntry tag (BitVec.ofNat 8 l.val) (BitVec.ofNat 8 t.val) kind a b) s
        (l = 0 → t = 0 → r = .next (s.refusedMap 0x30 tag .badSlot)) ∧
        (¬(l = 0 ∧ t = 0) → im.request ≠ .absent → r = .next (s.refusedMap 0x30 tag .swapPending)) ∧
        (¬(l = 0 ∧ t = 0) → im.request = .absent →
          r = .next ({ s with highway := { s.highway with ingress := { im with
              banks := im.banks.set ib (im.banks[ib].set (160 * l.val + t.val) e) } } }.replied 0x30 tag .done
            #v[BitVec.ofNat 8 ib.val, BitVec.ofNat 8 l.val, BitVec.ofNat 8 t.val, kind, if kind = 0 then 0 else a,
               if kind = 2 then b else 0, 0, BitVec.ofNat 8 im.active.val, BitVec.ofNat 8 em.active.val]))) ∧
      (∀ span channel kind a b : Byte,
        15 < span.toNat ∨ 39 < channel.toNat ∨ 2 < kind.toNat ∨ (kind = 2 ∧ (3 < a.toNat ∨ 159 < b.toNat)) →
        exec (.writeEgressEntry tag span channel kind a b) s = .next (s.refusedMap 0x31 tag .badParameter)) ∧
      (∀ (n : Fin 16) (c : Fin 40) (e : EgressEntry) (kind a b : Byte),
        (kind = 0 ∧ e = .idle) ∨ (kind = 1 ∧ e = .fixed a) ∨
          (kind = 2 ∧ ∃ (l : Fin 4) (t : Fin 160), a = BitVec.ofNat 8 l.val ∧ b = BitVec.ofNat 8 t.val ∧ e = .office l t) →
        let r := exec (.writeEgressEntry tag (BitVec.ofNat 8 n.val) (BitVec.ofNat 8 c.val) kind a b) s
        (e = .office 0 0 → r = .next (s.refusedMap 0x31 tag .badSlot)) ∧
        (e ≠ .office 0 0 → em.request ≠ .absent → r = .next (s.refusedMap 0x31 tag .swapPending)) ∧
        (e ≠ .office 0 0 → em.request = .absent →
          r = .next ({ s with highway := { s.highway with egress := { em with
              banks := em.banks.set eb (em.banks[eb].set (40 * n.val + c.val) e) } } }.replied 0x31 tag .done
            #v[BitVec.ofNat 8 eb.val, BitVec.ofNat 8 n.val, BitVec.ofNat 8 c.val, kind, if kind = 0 then 0 else a,
               if kind = 2 then b else 0, 0, BitVec.ofNat 8 im.active.val, BitVec.ofNat 8 em.active.val])))) ∧
  (∀ (s : State) (tag : Byte), s.officeRuns = true →
      let im := s.highway.ingress
      let em := s.highway.egress
      (∀ lane slot sel : Byte, 3 < lane.toNat ∨ 159 < slot.toNat ∨ 1 < sel.toNat →
        exec (.readIngressEntry tag lane slot sel) s = .next (s.refusedMap 0x32 tag .badParameter)) ∧
      (∀ sel : Bool, exec (.readIngressEntry tag 0 0 (if sel then 1 else 0)) s = .next (s.refusedMap 0x32 tag .badSlot)) ∧
      (∀ (l : Fin 4) (t : Fin 160) (sel : Bool), ¬(l = 0 ∧ t = 0) →
        let bank : Fin 2 := if sel then im.active + 1 else im.active
        ∃ kind a b : Byte,
          exec (.readIngressEntry tag (BitVec.ofNat 8 l.val) (BitVec.ofNat 8 t.val) (if sel then 1 else 0)) s =
            .next (s.replied 0x32 tag .done
              #v[BitVec.ofNat 8 bank.val, BitVec.ofNat 8 im.active.val, BitVec.ofNat 8 l.val, BitVec.ofNat 8 t.val, kind, a, b,
                 BitVec.ofNat 8 im.active.val, BitVec.ofNat 8 em.active.val]) ∧
          (im.banks[bank][160 * l.val + t.val] = .unused → kind = 0 ∧ a = 0 ∧ b = 0) ∧
          (∀ v, im.banks[bank][160 * l.val + t.val] = .fixed v → kind = 1 ∧ a = v ∧ b = 0) ∧
          (∀ n c, im.banks[bank][160 * l.val + t.val] = .bearer n c →
            kind = 2 ∧ a = BitVec.ofNat 8 n.val ∧ b = BitVec.ofNat 8 c.val)) ∧
      (∀ span channel sel : Byte, 15 < span.toNat ∨ 39 < channel.toNat ∨ 1 < sel.toNat →
        exec (.readEgressEntry tag span channel sel) s = .next (s.refusedMap 0x33 tag .badParameter)) ∧
      (∀ (n : Fin 16) (c : Fin 40) (sel : Bool),
        let bank : Fin 2 := if sel then em.active + 1 else em.active
        ∃ kind a b : Byte,
          exec (.readEgressEntry tag (BitVec.ofNat 8 n.val) (BitVec.ofNat 8 c.val) (if sel then 1 else 0)) s =
            .next (s.replied 0x33 tag .done
              #v[BitVec.ofNat 8 bank.val, BitVec.ofNat 8 em.active.val, BitVec.ofNat 8 n.val, BitVec.ofNat 8 c.val, kind, a, b,
                 BitVec.ofNat 8 im.active.val, BitVec.ofNat 8 em.active.val]) ∧
          (em.banks[bank][40 * n.val + c.val] = .idle → kind = 0 ∧ a = 0 ∧ b = 0) ∧
          (∀ v, em.banks[bank][40 * n.val + c.val] = .fixed v → kind = 1 ∧ a = v ∧ b = 0) ∧
          (∀ l t, em.banks[bank][40 * n.val + c.val] = .office l t →
            kind = 2 ∧ a = BitVec.ofNat 8 l.val ∧ b = BitVec.ofNat 8 t.val)))

/-- SWAP MAPS and COPY MAPS (R101, R102): requests set or joined, the active banks copied into the standby banks, and their
refusals. Due swaps (R103, R104) at a boundary that takes no order: at an office superframe boundary a pending request is performed
once, whatever timers do there; where no armed timer with a swap of that map matches, a map with no request keeps its active bank,
and within a superframe a pending request stays pending and moves none; no entry is copied. -/
def Obligations.SwapAndCopy : Prop :=
  (∀ (s : State) (tag : Byte), s.officeRuns = true →
      let im := s.highway.ingress
      let em := s.highway.egress
      let ib : Fin 2 := im.active + 1
      let eb : Fin 2 := em.active + 1
      let ia := BitVec.ofNat 8 im.active.val
      let ea := BitVec.ofNat 8 em.active.val
      (∀ d : Byte, 2 < d.toNat → exec (.swapMaps tag d) s = .next (s.refusedMap 0x34 tag .badParameter) ∧
        exec (.copyMaps tag d) s = .next (s.refusedMap 0x35 tag .badParameter)) ∧
      (∀ d : Byte, d.toNat ≤ 2 →
        let ingress := d ≠ 1
        let egress := d ≠ 0
        (∃ t, exec (.swapMaps tag d) s = .next t ∧ t = { s with highway := t.highway, channel := t.channel } ∧
          t.highway = { s.highway with
            ingress := { im with request := if ingress ∧ im.request = .absent then .pending false else im.request }
            egress := { em with request := if egress ∧ em.request = .absent then .pending false else em.request } } ∧
          t.channel = { s.channel with reply := some ⟨0x34, tag, .accepted,
            #v[(if egress ∨ em.request ≠ .absent then 2 else 0) ||| (if ingress ∨ im.request ≠ .absent then 1 else 0),
               0, 0, 0, 0, 0, 0, ia, ea]⟩ }) ∧
        ((ingress ∧ im.request ≠ .absent) ∨ (egress ∧ em.request ≠ .absent) →
          exec (.copyMaps tag d) s = .next (s.refusedMap 0x35 tag .swapPending)) ∧
        ((ingress → im.request = .absent) → (egress → em.request = .absent) →
          exec (.copyMaps tag d) s =
            .next ({ s with highway := { s.highway with
                ingress := if ingress then { im with banks := im.banks.set ib im.banks[im.active] } else im
                egress := if egress then { em with banks := em.banks.set eb em.banks[em.active] } else em } }.replied 0x35 tag
              .done #v[0, 0, 0, 0, 0, 0, 0, ia, ea])))) ∧
  (∀ (s : State) (egress : Vector Byte 640) (order : List Handling) (apart : Bool), s.officeRuns = true → s.takesNoOrder →
      let due := (s.frameNumber.toNat + 1) % 16 = 0
      let im := s.highway.ingress
      let em := s.highway.egress
      ∃ t, exec (.officeFrameBoundary egress order apart) s = .next t ∧
        let im' := t.highway.ingress
        let em' := t.highway.egress
        let timed (action : TimerAction) := ∃ k : Fin 4, s.timers[k].armed = true ∧ s.timers[k].matchAt = t.frameNumber ∧
          (s.timers[k].action = action ∨ s.timers[k].action = .swapBoth)
        im'.banks = im.banks ∧ em'.banks = em.banks ∧
        (im.request ≠ .absent → due → im'.active = im.active + 1 ∧ im'.request = .absent) ∧
        (em.request ≠ .absent → due → em'.active = em.active + 1 ∧ em'.request = .absent) ∧
        (im.request = .absent ∨ ¬due → ¬timed .swapIngress → im'.active = im.active ∧ im'.request = im.request) ∧
        (em.request = .absent ∨ ¬due → ¬timed .swapEgress → em'.active = em.active ∧ em'.request = em.request))

/-! ### Action timers and the office frame number -/

/-- SET TIMER (R111) and LOAD MATCH (R112): the fields written and the timer disarmed; ARM TIMER and DISARM TIMER (R113). Codes
are those of Table 6-2. -/
def Obligations.TimerWrites : Prop :=
  let timerMode (m : TimerMode) : Byte := match m with | .oneShot => 0 | .periodic => 1
  let timerAction (a : TimerAction) : Byte := match a with
    | .mark => 0 | .swapIngress => 1 | .swapEgress => 2 | .swapBoth => 3 | .selectReference => 4
  (∀ (s : State) (tag : Byte), s.officeRuns = true →
      (∀ timer mode action param : Byte, ∀ period : Word,
        3 < timer.toNat ∨ 1 < mode.toNat ∨ period = 0 ∨ 4 < action.toNat ∨ (action = 4 ∧ 3 < param.toNat) →
        exec (.setTimer tag timer mode period action param) s = .next (s.refused 0x40 tag .badParameter)) ∧
      (∀ (n : Fin 4) (m : TimerMode) (period : Word) (action : TimerAction) (param : Byte), period ≠ 0 →
        (action = .selectReference → param.toNat ≤ 3) →
        let p : Fin 4 := if action = .selectReference then Fin.ofNat 4 param.toNat else 0
        let t : Timer := { s.timers[n] with mode := m, period := period, action := action, param := p, armed := false }
        exec (.setTimer tag (BitVec.ofNat 8 n.val) (timerMode m) period (timerAction action) param) s =
          .next ((s.setTimer n t).replied 0x40 tag .done
            #v[(if t.matched then 0x40 else 0) ||| (if m = .periodic then 0x20 else 0), timerMode m, period.extractLsb' 8 8,
               period.extractLsb' 0 8, timerAction action, BitVec.ofNat 8 p.val, 0, 0, 0])) ∧
      (∀ (timer : Byte) (v : FrameNumber), 3 < timer.toNat →
        exec (.loadMatch tag timer v) s = .next (s.refused 0x41 tag .badParameter)) ∧
      (∀ (n : Fin 4) (v : FrameNumber),
        let t : Timer := { s.timers[n] with matchAt := v, armed := false }
        exec (.loadMatch tag (BitVec.ofNat 8 n.val) v) s =
          .next ((s.setTimer n t).replied 0x41 tag .done
            #v[(if t.matched then 0x40 else 0) ||| (if t.mode = .periodic then 0x20 else 0), v.extractLsb' 16 8,
               v.extractLsb' 8 8, v.extractLsb' 0 8, s.frameNumber.extractLsb' 16 8, s.frameNumber.extractLsb' 8 8,
               s.frameNumber.extractLsb' 0 8, 0, 0]))) ∧
  (∀ (s : State) (tag : Byte), s.officeRuns = true →
      (∀ timer : Byte, 3 < timer.toNat → exec (.armTimer tag timer) s = .next (s.refused 0x42 tag .badParameter) ∧
        exec (.disarmTimer tag timer) s = .next (s.refused 0x43 tag .badParameter)) ∧
      (∀ n : Fin 4, let v := s.timers[n].matchAt
        let mode : Byte := if s.timers[n].mode = .periodic then 0x20 else 0
        let seen (flags : Byte) : Vector Byte 9 :=
          #v[flags, v.extractLsb' 16 8, v.extractLsb' 8 8, v.extractLsb' 0 8, s.frameNumber.extractLsb' 16 8,
             s.frameNumber.extractLsb' 8 8, s.frameNumber.extractLsb' 0 8, 0, 0]
        exec (.armTimer tag (BitVec.ofNat 8 n.val)) s =
          .next ((s.setTimer n { s.timers[n] with armed := true, matched := false }).replied 0x42 tag .done (seen (0x80 ||| mode))) ∧
        exec (.disarmTimer tag (BitVec.ofNat 8 n.val)) s =
          .next ((s.setTimer n { s.timers[n] with armed := false, matched := false }).replied 0x43 tag .done (seen mode))))

/-- READ TIMER (R114), the codes of Table 6-2 spelled out. -/
def Obligations.ReadTimerReply : Prop :=
  let timerAction (a : TimerAction) : Byte := match a with
    | .mark => 0 | .swapIngress => 1 | .swapEgress => 2 | .swapBoth => 3 | .selectReference => 4
  let lastOutcome (o : TimerOutcome) : Byte := match o with
    | .done => 0x00 | .notQualified => 0x14 | .wrongMode => 0x16 | .none => 0xFF
  ∀ (s : State) (tag : Byte), s.officeRuns = true →
    (∀ timer : Byte, 3 < timer.toNat → exec (.readTimer tag timer) s = .next (s.refused 0x44 tag .badParameter)) ∧
    (∀ n : Fin 4, let t := s.timers[n]
      exec (.readTimer tag (BitVec.ofNat 8 n.val)) s = .next (s.replied 0x44 tag .done
        #v[(if t.armed then 0x80 else 0) ||| (if t.matched then 0x40 else 0) ||| (if t.mode = .periodic then 0x20 else 0),
           t.matchAt.extractLsb' 16 8, t.matchAt.extractLsb' 8 8, t.matchAt.extractLsb' 0 8, t.period.extractLsb' 8 8,
           t.period.extractLsb' 0 8, timerAction t.action, BitVec.ofNat 8 t.param.val, lastOutcome t.lastOutcome]))

/-- SET FRAME NUMBER (R108): a multiple of 16 becomes the pending number, replacing one already held; any other value is
refused. The office frame number (R107, R109): counted at each boundary, or the pending value at its due boundary; the number
formed is a multiple of 16 exactly at office superframe boundaries. -/
def Obligations.FrameNumberForms : Prop :=
  (∀ (s : State) (tag : Byte) (v : FrameNumber), s.officeRuns = true →
      (v.toNat % 16 ≠ 0 → exec (.setFrameNumber tag v) s = .next (s.refused 0x45 tag .badParameter)) ∧
      (v.toNat % 16 = 0 → exec (.setFrameNumber tag v) s =
        .next ({ s with pendingNumber := some ⟨v, false⟩ }.replied 0x45 tag .accepted
          #v[v.extractLsb' 16 8, v.extractLsb' 8 8, v.extractLsb' 0 8, s.frameNumber.extractLsb' 16 8,
             s.frameNumber.extractLsb' 8 8, s.frameNumber.extractLsb' 0 8, 0, 0, 0]))) ∧
  (∀ (s : State) (egress : Vector Byte 640) (order : List Handling) (apart : Bool), s.officeRuns = true → s.dueLaw →
      ∃ t, exec (.officeFrameBoundary egress order apart) s = .next t ∧
        (t.frameNumber.toNat % 16 = 0 ↔ (s.frameNumber.toNat + 1) % 16 = 0) ∧
        ((s.frameNumber.toNat + 1) % 16 ≠ 0 → t.frameNumber.toNat = s.frameNumber.toNat + 1 ∧ t.pendingNumber = s.pendingNumber) ∧
        ((s.frameNumber.toNat + 1) % 16 = 0 → s.pendingNumber = none →
          t.frameNumber.toNat = (s.frameNumber.toNat + 1) % 16777216) ∧
        (∀ p, (s.frameNumber.toNat + 1) % 16 = 0 → s.pendingNumber = some p → s.channel.receive[1] = 0 →
          t.frameNumber = p.value ∧ t.pendingNumber = none))

/-- Matching (R115, R116, R118) at a boundary that takes no order, at an office superframe boundary as within one: an armed
timer whose match is the number formed there acts, and no other. A timer swap is made at once, and a map is swapped once at a
boundary whatever a pending request and timers do there (R104, R105). A SELECT-REFERENCE action in MANUAL mode (R77, R116): an
entry already selected gives DONE and one not QUALIFIED gives NOT-QUALIFIED, with nothing else done; another QUALIFIED entry
gives DONE and is selected (R70, R75). At a boundary it is so where no other timer is armed, every meter's stored settings are those
in force (R60, which every step keeps: MeterLawKept), and the boundary moves no entry to another state; where it moves one, the outcome is that of the moment of the match, which is stated of the timer's own handling. -/
def Obligations.TimerMatches : Prop :=
  (∀ (m : State) (n : Fin 4),
    let x := m.timers[n]
    let recorded (o : TimerOutcome) : Timer := { x with
      matched := true, lastOutcome := o, armed := decide (x.mode = .periodic)
      matchAt := if x.mode = .periodic then x.matchAt + x.period.setWidth 24 else x.matchAt }
    let offered (v : State) : State := if v.units[n].source = 5 then v.setUnit n { v.units[n] with newTrigger := true } else v
    x.armed = true → x.matchAt = m.frameNumber → x.action = .selectReference →
    (m.timing.mode = .auto → m.matchTimer n = offered (m.setTimer n (recorded .wrongMode))) ∧
    (m.timing.mode = .manual → m.timing.loop.selected = some x.param →
      m.matchTimer n = offered (m.setTimer n (recorded .done))) ∧
    (m.timing.mode = .manual → m.timing.loop.selected ≠ some x.param → (m.entry x.param).state ≠ .qualified →
      m.matchTimer n = offered (m.setTimer n (recorded .notQualified))) ∧
    (m.timing.mode = .manual → m.timing.loop.selected ≠ some x.param → (m.entry x.param).state = .qualified →
      m.matchTimer n = offered ((m.selectEntry x.param).setTimer n (recorded .done)))) ∧
  (∀ (s : State) (egress : Vector Byte 640) (order : List Handling) (apart : Bool) (n : Fin 4), s.officeRuns = true →
    s.dueLaw → s.takesNoOrder →
    s.timing.law → (∀ k, k ≠ n → s.timers[k].armed = false) →
    (∀ m, (s.span m).meter.kStored = (s.span m).meter.k ∧ (s.span m).meter.limitStored = (s.span m).meter.limit) →
    let x := s.timers[n]
    let e := x.param
    x.armed = true → x.action = .selectReference → s.timing.mode = .manual →
    ∃ t, exec (.officeFrameBoundary egress order apart) s = .next t ∧
      (x.matchAt = t.frameNumber → (∀ y, (t.entry y).state = (s.entry y).state) →
        (s.timing.loop.selected = some e →
          t.timers[n].lastOutcome = .done ∧ t.timing.loop.selected = some e ∧
          t.device.referenceSwitches = s.device.referenceSwitches) ∧
        (s.timing.loop.selected ≠ some e → (s.entry e).state ≠ .qualified →
          t.timers[n].lastOutcome = .notQualified ∧ t.timing.loop.selected = s.timing.loop.selected ∧
          t.device.referenceSwitches = s.device.referenceSwitches) ∧
        (s.timing.loop.selected ≠ some e → (s.entry e).state = .qualified →
          t.timers[n].lastOutcome = .done ∧ t.timing.loop.selected = some e ∧ t.timing.loop.state = .acquiring ∧
          t.device.referenceSwitches = raise s.device.referenceSwitches ∧
          t.timing.loop.lockCount = 0 ∧ t.timing.loop.acqCount = 0 ∧
          ∀ u : Fin 4, s.units[u].source = 7 → t.units[u].newTrigger = true))) ∧
  (∀ (s : State) (egress : Vector Byte 640) (order : List Handling) (apart : Bool) (n : Fin 4), s.officeRuns = true →
    s.dueLaw → s.takesNoOrder →
    let x := s.timers[n]
    ∃ t, exec (.officeFrameBoundary egress order apart) s = .next t ∧
      (x.armed = false ∨ x.matchAt ≠ t.frameNumber → t.timers[n] = x) ∧
      (x.armed = true → x.matchAt = t.frameNumber →
        t.timers[n] = { x with
          matched := true, lastOutcome := t.timers[n].lastOutcome, armed := decide (x.mode = .periodic)
          matchAt := if x.mode = .periodic then x.matchAt + x.period.setWidth 24 else x.matchAt } ∧
        (x.action ≠ .selectReference → t.timers[n].lastOutcome = .done) ∧
        (x.action = .selectReference → s.timing.mode = .auto → t.timers[n].lastOutcome = .wrongMode) ∧
        (s.units[n].source = 5 → t.units[n].newTrigger = true) ∧
        (x.action = .swapIngress ∨ x.action = .swapBoth →
          t.highway.ingress.active = s.highway.ingress.active + 1 ∧ t.highway.ingress.request = .absent) ∧
        (x.action = .swapEgress ∨ x.action = .swapBoth →
          t.highway.egress.active = s.highway.egress.active + 1 ∧ t.highway.egress.request = .absent)) ∧
      t.highway.ingress.banks = s.highway.ingress.banks ∧ t.highway.egress.banks = s.highway.egress.banks ∧
      ((s.frameNumber.toNat + 1) % 16 ≠ 0 → t.frameNumber = s.frameNumber + 1))

/-! ### Channel test units -/

/-- SET UNIT (R130, codes of Table 7-2): the refusals in their order; then the record written, new-trigger and pending cleared,
the progress of the last run kept. -/
def Obligations.SetUnitActs : Prop :=
  ∀ (s : State) (tag number mode kind a b source count repeating : Byte), s.officeRuns = true →
    (3 < number.toNat ∨ 1 < mode.toNat ∨ 3 < kind.toNat ∨ 1 < repeating.toNat ∨ 7 < source.toNat ∨ count = 0 ∨ 64 < count.toNat ∨
      (kind.toNat ≤ 1 ∧ (15 < a.toNat ∨ 39 < b.toNat)) ∨ (2 ≤ kind.toNat ∧ (3 < a.toNat ∨ 159 < b.toNat)) ∨
      (mode = 1 ∧ (kind = 0 ∨ kind = 3)) →
      exec (.setUnit tag number mode kind a b source count repeating) s = .next (s.refused 0x50 tag .badParameter)) ∧
    (∀ (u : Fin 4) (m : UnitMode) (p : Point) (src : Fin 8) (rep : Bool),
      number = BitVec.ofNat 8 u.val → mode = (if m = .insert then 1 else 0) → source = BitVec.ofNat 8 src.val → repeating = (if rep then 1 else 0) →
      (kind = 0 ∧ (∃ n c, p = .rx n c ∧ a = BitVec.ofNat 8 n.val ∧ b = BitVec.ofNat 8 c.val)) ∨
        (kind = 1 ∧ (∃ n c, p = .tx n c ∧ a = BitVec.ofNat 8 n.val ∧ b = BitVec.ofNat 8 c.val)) ∨
        (kind = 2 ∧ (∃ l t, p = .ingress l t ∧ a = BitVec.ofNat 8 l.val ∧ b = BitVec.ofNat 8 t.val)) ∨
        (kind = 3 ∧ (∃ l t, p = .egress l t ∧ a = BitVec.ofNat 8 l.val ∧ b = BitVec.ofNat 8 t.val)) →
      1 ≤ count.toNat → count.toNat ≤ 64 → (m = .insert → kind = 1 ∨ kind = 2) →
      let r := exec (.setUnit tag number mode kind a b source count repeating) s
      (2 ≤ kind.toNat ∧ a = 0 ∧ b = 0 → r = .next (s.refused 0x50 tag .badSlot)) ∧
      (¬(2 ≤ kind.toNat ∧ a = 0 ∧ b = 0) → s.units[u].state = .running → r = .next (s.refused 0x50 tag .unitRunning)) ∧
      (¬(2 ≤ kind.toNat ∧ a = 0 ∧ b = 0) → s.units[u].state ≠ .running →
        r = .next ((s.setUnit u { s.units[u] with
            mode := m, point := p, source := src, count := count.toNat, repeating := rep
            newTrigger := false, pending := false, state := .stopped }).replied 0x50 tag .done
          #v[0, mode, kind, a, b, source, count, repeating, 0])))

/-- START UNIT, STOP UNIT and TRIGGER UNIT (R131, R132, R133); READ UNIT (R134), READ BUFFER and WRITE BUFFER (R135), offsets
taken modulo 64. -/
def Obligations.UnitControlAndReads : Prop :=
  (∀ (s : State) (tag : Byte), s.officeRuns = true →
      (∀ number : Byte, 3 < number.toNat → exec (.startUnit tag number) s = .next (s.refused 0x51 tag .badParameter) ∧
        exec (.stopUnit tag number) s = .next (s.refused 0x52 tag .badParameter) ∧
        exec (.triggerUnit tag number) s = .next (s.refused 0x53 tag .badParameter)) ∧
      (∀ u : Fin 4, let x := s.units[u]
        let flags (y : TestUnit) : Byte :=
          (if y.pending then 0x80 else 0) ||| (if y.newTrigger then 0x40 else 0) ||| (if y.collided then 0x20 else 0) |||
            (if y.mode = .insert then 0x10 else 0) ||| (if y.repeating then 0x08 else 0) ||| BitVec.ofNat 8 y.source.val
        let started : TestUnit := { x with state := .running, pointer := 0, remaining := x.count, wraps := 0, collided := false }
        let stopped : TestUnit := { x with state := .stopped }
        let triggered : TestUnit := { x with newTrigger := true }
        exec (.startUnit tag (BitVec.ofNat 8 u.val)) s = .next ((s.setUnit u started).replied 0x51 tag .done
          #v[1, flags started, 0, BitVec.ofNat 8 x.count, 0, 0, 0, 0, 0]) ∧
        exec (.stopUnit tag (BitVec.ofNat 8 u.val)) s = .next ((s.setUnit u stopped).replied 0x52 tag .done
          #v[0, flags stopped, BitVec.ofNat 8 x.pointer.val, BitVec.ofNat 8 x.remaining, 0, 0, 0, 0, 0]) ∧
        exec (.triggerUnit tag (BitVec.ofNat 8 u.val)) s = .next ((s.setUnit u triggered).replied 0x53 tag .done
          #v[flags triggered, 0, 0, 0, 0, 0, 0, 0, 0]))) ∧
  (∀ (s : State) (tag : Byte), s.officeRuns = true →
      (∀ number offset : Byte, 3 < number.toNat → exec (.readUnit tag number) s = .next (s.refused 0x54 tag .badParameter)) ∧
      (∀ (number offset : Byte) (d : Vector Byte 8), 3 < number.toNat ∨ 63 < offset.toNat →
        exec (.readBuffer tag number offset) s = .next (s.refused 0x55 tag .badParameter) ∧
        exec (.writeBuffer tag number offset d) s = .next (s.refused 0x56 tag .badParameter)) ∧
      (∀ u : Fin 4, let x := s.units[u]
        ∃ state k a b : Byte,
          (x.state = .stopped → state = 0) ∧ (x.state = .running → state = 1) ∧ (x.state = .done → state = 2) ∧
          (∀ n c, x.point = .rx n c → k = 0 ∧ a = BitVec.ofNat 8 n.val ∧ b = BitVec.ofNat 8 c.val) ∧
          (∀ n c, x.point = .tx n c → k = 1 ∧ a = BitVec.ofNat 8 n.val ∧ b = BitVec.ofNat 8 c.val) ∧
          (∀ l t, x.point = .ingress l t → k = 2 ∧ a = BitVec.ofNat 8 l.val ∧ b = BitVec.ofNat 8 t.val) ∧
          (∀ l t, x.point = .egress l t → k = 3 ∧ a = BitVec.ofNat 8 l.val ∧ b = BitVec.ofNat 8 t.val) ∧
          exec (.readUnit tag (BitVec.ofNat 8 u.val)) s = .next (s.replied 0x54 tag .done
            #v[state,
               (if x.pending then 0x80 else 0) ||| (if x.newTrigger then 0x40 else 0) ||| (if x.collided then 0x20 else 0) |||
                 (if x.mode = .insert then 0x10 else 0) ||| (if x.repeating then 0x08 else 0) ||| BitVec.ofNat 8 x.source.val,
               BitVec.ofNat 8 x.pointer.val, BitVec.ofNat 8 x.remaining, BitVec.ofNat 8 x.wraps, k, a, b,
               BitVec.ofNat 8 x.count])) ∧
      (∀ (u : Fin 4) (o : Fin 64) (d : Vector Byte 8), let x := s.units[u]
        exec (.readBuffer tag (BitVec.ofNat 8 u.val) (BitVec.ofNat 8 o.val)) s = .next (s.replied 0x55 tag .done
          (Vector.ofFn fun i : Fin 9 => if i = 0 then BitVec.ofNat 8 o.val else x.buffer[(o.val + (i.val - 1)) % 64])) ∧
        ∃ buffer : Vector Byte 64,
          exec (.writeBuffer tag (BitVec.ofNat 8 u.val) (BitVec.ofNat 8 o.val) d) s =
            .next ((s.setUnit u { x with buffer := buffer }).replied 0x56 tag .done
              #v[BitVec.ofNat 8 o.val, BitVec.ofNat 8 x.pointer.val, 0, 0, 0, 0, 0, 0, 0]) ∧
          (∀ i : Fin 8, buffer[(o.val + i.val) % 64] = d[i.val]) ∧
          (∀ j : Fin 64, (∀ i : Fin 8, j.val ≠ (o.val + i.val) % 64) → buffer[j.val] = x.buffer[j.val])))

/-- Transfers (R121, R125 to R127) at the end of an office frame, at a boundary that takes no order: a RUNNING unit with pending
set moves one byte, and advances; the run ends or begins anew, and offers a chain trigger to the unit numbered one higher, which
waits in that unit's pending from the next frame on (R127). The byte is that of the point in the frame just ended. That the
transfers of a frame are worked out at the boundary that ends it is a DESIGN CHOICE (notes/assumptions/6.md). At the boundary
the triggers of sources 1 and 2 are taken for the frame that begins there (R123, R124). -/
def Obligations.UnitTransfers : Prop :=
  ∀ (s : State) (egress : Vector Byte 640) (order : List Handling) (apart : Bool) (u : Fin 4), s.officeRuns = true →
    s.takesNoOrder →
    let x := s.units[u]
    let v : Fin 4 := u - 1
    let chained := s.units[v].state = .running ∧ s.units[v].pending = true ∧ s.units[v].remaining = 1
    ∃ t, exec (.officeFrameBoundary egress order apart) s = .next t ∧
      let y := t.units[u]
      y.mode = x.mode ∧ y.point = x.point ∧ y.source = x.source ∧ y.count = x.count ∧ y.repeating = x.repeating ∧
      (x.newTrigger = true → y.pending = true) ∧
      (x.source ≠ 7 → (s.units[v].state = .running → 1 ≤ s.units[v].remaining) →
        (y.pending = true ↔ x.newTrigger = true ∨ (x.source = 6 ∧ chained) ∨ (x.pending = true ∧ x.state ≠ .running))) ∧
      (x.source = 1 → y.newTrigger = true) ∧
      (x.source = 2 → (y.newTrigger = true ↔ (s.frameNumber.toNat + 1) % 16 = 0)) ∧
      (x.source = 0 ∨ x.source = 6 → y.newTrigger = false) ∧
      (x.state ≠ .running ∨ x.pending = false →
        y.state = x.state ∧ y.pointer = x.pointer ∧ y.remaining = x.remaining ∧ y.wraps = x.wraps ∧ y.buffer = x.buffer ∧
        y.collided = x.collided ∧ (x.pending = true → y.pending = true)) ∧
      (x.state = .running → x.pending = true →
        (1 < x.remaining → y.state = .running ∧ y.pointer = x.pointer + 1 ∧ y.remaining = x.remaining - 1 ∧ y.wraps = x.wraps) ∧
        (x.remaining = 1 → x.repeating = false → y.state = .done ∧ y.pointer = x.pointer + 1 ∧ y.remaining = 0) ∧
        (x.remaining = 1 → x.repeating = true →
          y.state = .running ∧ y.pointer = 0 ∧ y.remaining = x.count ∧ y.wraps = min (x.wraps + 1) 255) ∧
        (x.mode = .capture → y.buffer[x.pointer] = s.pointByte egress x.point ∧ y.collided = x.collided ∧
          ∀ j, j ≠ x.pointer → y.buffer[j] = x.buffer[j]) ∧
        (x.mode = .insert → y.buffer = x.buffer ∧
          (y.collided = true ↔ x.collided = true ∨
            ∃ v : Fin 4, v < u ∧ s.units[v].state = .running ∧ s.units[v].pending = true ∧ s.units[v].mode = .insert ∧
              s.units[v].point = x.point)))

/-! ### Alarms and counts -/

/-- READ ALARMS (R157): the active and the latched set of a span or of the device, and no state changed. -/
def Obligations.ReadAlarmsReply : Prop :=
  ∀ (s : State) (tag : Byte), s.officeRuns = true →
    let reply (a l : Word) : Vector Byte 9 :=
      #v[a.extractLsb' 8 8, a.extractLsb' 0 8, l.extractLsb' 8 8, l.extractLsb' 0 8, 0, 0, 0, 0, 0]
    (∀ owner : Byte, 16 < owner.toNat → exec (.readAlarms tag owner) s = .next (s.refused 0x60 tag .badParameter)) ∧
    (∀ n : Fin 16, exec (.readAlarms tag (BitVec.ofNat 8 n.val)) s =
      .next (s.replied 0x60 tag .done (reply (s.span n).active (s.span n).latched))) ∧
    exec (.readAlarms tag 0x10) s = .next (s.replied 0x60 tag .done (reply s.timing.active s.device.latched))

/-- CLEAR LATCHED (R156, R166): every alarm not active leaves the latched set named, and the restart notice is cleared.
READ COUNTS (R159): the counts of the group at taking, and with clear 1 that group and no other set to 0. -/
def Obligations.ClearAndCounts : Prop :=
  (∀ (s : State) (tag : Byte), s.officeRuns = true →
      (∀ owner : Byte, 16 < owner.toNat → exec (.clearLatched tag owner) s = .next (s.refused 0x61 tag .badParameter)) ∧
      (∀ n : Fin 16, let l := (s.span n).latched &&& (s.span n).active
        exec (.clearLatched tag (BitVec.ofNat 8 n.val)) s =
          .next ({ s.setSpan n { s.span n with latched := l } with restart := { s.restart with notice := false } }.replied 0x61 tag
            .done #v[l.extractLsb' 8 8, l.extractLsb' 0 8, 0, 0, 0, 0, 0, 0, 0])) ∧
      (let l := s.device.latched &&& s.timing.active
       exec (.clearLatched tag 0x10) s =
          .next ({ s with device := { s.device with latched := l }, restart := { s.restart with notice := false } }.replied 0x61 tag
            .done #v[l.extractLsb' 8 8, l.extractLsb' 0 8, 0, 0, 0, 0, 0, 0, 0]))) ∧
  (∀ (s : State) (tag : Byte) (clear : Bool), s.officeRuns = true →
      let cl : Byte := if clear then 1 else 0
      let four (a b c d : Word) : Vector Byte 9 :=
        #v[a.extractLsb' 8 8, a.extractLsb' 0 8, b.extractLsb' 8 8, b.extractLsb' 0 8, c.extractLsb' 8 8, c.extractLsb' 0 8,
           d.extractLsb' 8 8, d.extractLsb' 0 8, 0]
      (∀ group span x : Byte, 2 < group.toNat ∨ 1 < x.toNat ∨ (group.toNat ≤ 1 ∧ 15 < span.toNat) →
        exec (.readCounts tag group span x) s = .next (s.refused 0x62 tag .badParameter)) ∧
      (∀ n : Fin 16, let c := (s.span n).counts
        exec (.readCounts tag 0 (BitVec.ofNat 8 n.val) cl) s =
          .next ((if clear then s.setSpan n { s.span n with counts := { c with
              repeatSlips := 0, skipSlips := 0, alignmentLosses := 0, marginalLocks := 0 } } else s).replied 0x62 tag .done
            (four c.repeatSlips c.skipSlips c.alignmentLosses c.marginalLocks)) ∧
        exec (.readCounts tag 1 (BitVec.ofNat 8 n.val) cl) s =
          .next ((if clear then s.setSpan n { s.span n with counts := { c with
              noisyWindows := 0, phaseHits := 0, storeFaults := 0, farEndSlips := 0 } } else s).replied 0x62 tag .done
            (four c.noisyWindows c.phaseHits c.storeFaults c.farEndSlips))) ∧
      (∀ span : Byte,
        exec (.readCounts tag 2 span cl) s =
          .next ((if clear then { s with device := ⟨s.device.latched, 0, 0, 0⟩ } else s).replied 0x62 tag .done
            (four s.device.checkErrors s.device.acquisitionTimeouts s.device.referenceSwitches 0))))

/-- Each alarm of Table 9-1 is in its active set exactly while its condition holds (R153, R154); the attention summary and ALM
(R160, R161, Table 9-3). -/
def Obligations.AlarmsAndSummary : Prop :=
  (∀ sp : Span,
    (sp.active.getLsbD 0 = true ↔ sp.record.enable = true ∧ sp.rx.aligner = .absent) ∧
    (sp.active.getLsbD 1 = true ↔ sp.win.blank.active = true) ∧ (sp.active.getLsbD 2 = true ↔ sp.win.brk.active = true) ∧
    (sp.active.getLsbD 3 = true ↔ sp.win.noisy = true) ∧
    (sp.active.getLsbD 4 = true ↔ (∃ f, sp.rx.aligner = .hunt f) ∨ ∃ c m f, sp.rx.aligner = .verify c m f) ∧
    (sp.active.getLsbD 5 = true ↔ sp.rx.aligner.aligned = true ∧ ∃ c, sp.sf.state = .search c) ∧
    (sp.active.getLsbD 6 = true ↔ sp.sf.farEnd.active = true) ∧ (sp.active.getLsbD 7 = true ↔ sp.meter.drift = true) ∧
    (∀ i, 8 ≤ i → sp.active.getLsbD i = false)) ∧
  (∀ t : Timing,
    (∀ e : Fin 4, t.active.getLsbD e.val = true ↔ t.entries[e].state = .faulted) ∧
    (t.active.getLsbD 4 = true ↔ t.loop.state = .holdover) ∧ (t.active.getLsbD 5 = true ↔ t.loop.state = .free) ∧
    (∀ i, 6 ≤ i → t.active.getLsbD i = false)) ∧
  (∀ s : State,
      (s.summary.getLsbD 7 = true ↔ s.timing.loop.state ≠ .locked) ∧
      (s.summary.getLsbD 6 = true ↔ ∃ n, (s.span n).latched ≠ 0) ∧
      (s.summary.getLsbD 5 = true ↔ s.device.latched ≠ 0) ∧
      (s.summary.getLsbD 4 = true ↔ ∃ u : Fin 4, s.units[u].state = .done) ∧
      (s.summary.getLsbD 3 = true ↔ ∃ n : Fin 4, s.timers[n].matched = true) ∧
      (s.summary.getLsbD 2 = true ↔ s.highway.ingress.request ≠ .absent ∨ s.highway.egress.request ≠ .absent) ∧
      (s.summary.getLsbD 1 = true ↔ s.restart.notice = true) ∧
      (s.summary.getLsbD 0 = true ↔ ∃ n, (s.span n).record.enable = true ∧ (s.span n).rx.aligner.aligned = false) ∧
      (s.officeRuns = true → (s.alm = true ↔ s.summary.getLsbD 6 = true ∨ s.summary.getLsbD 5 = true)))

/-! ### The office frame boundary -/

/-- The egress hold (R91): at each boundary it takes the byte received in each slot of the frame just ended but slot (0, 0),
whose byte goes to the receive cell; no other event changes it; an OFFICE entry takes its byte from it; FFh after POWER-ON and
COLD. -/
def Obligations.EgressHold : Prop :=
  (∀ (s : State) (egress : Vector Byte 640) (order : List Handling) (apart : Bool), s.officeRuns = true →
    ∃ t, exec (.officeFrameBoundary egress order apart) s = .next t ∧
      (∀ i : Fin 640, i ≠ 0 → t.highway.held[i] = egress[i]) ∧
      (s.channel.framed = true → (s.frameNumber.toNat + 1) % 16 ≠ 0 →
        ∀ f : Fin 16, t.channel.receive[f] = if f.val = s.frameNumber.toNat % 16 then egress[0] else s.channel.receive[f])) ∧
  (∀ (c : Instr) (s t : State), (∀ e o a, c ≠ .officeFrameBoundary e o a) → (∀ straps, c ≠ .restartEnd straps) →
    exec c s = .next t → t.highway.held = s.highway.held) ∧
  (∀ (s : State) (l : Fin 4) (slot : Fin 160), s.egressGives (.office l slot) = s.highway.held[160 * l.val + slot.val]) ∧
  (∀ (s t : State) (straps : BitVec 5), s.restart.inProgress.isSome = true → s.restart.supplyUp = true →
    exec (.restartEnd straps) s = .next t → ∀ i : Fin 640, i ≠ 0 → t.highway.held[i] = 0xFF)

/-- R18: the overhead octet of a transmit frame by its index, with the far-end report formed at the boundary that begins the
frame. -/
def Obligations.TransmitOverhead : Prop :=
  ∀ (s : State) (egress : Vector Byte 640) (order : List Handling) (apart : Bool) (n : Fin 16), s.officeRuns = true →
    ∃ t, exec (.officeFrameBoundary egress order apart) s = .next t ∧
      let o := (t.span n).tx.overhead
      (t.frameNumber.toNat % 16 = 0 → o = 0x2D) ∧ (2 ≤ t.frameNumber.toNat % 16 → o = 0xFF) ∧
      (t.frameNumber.toNat % 16 = 1 →
        (o.getLsbD 7 = true ↔ (t.span n).record.enable = true ∧ (t.span n).rx.aligner.aligned = false) ∧
        (o.getLsbD 6 = true ↔ (t.span n).tx.previousSlip = true) ∧ ∀ i, i ≤ 5 → o.getLsbD i = true)

/-- What comes into force at a boundary that takes no order, at an office superframe boundary as within one: transmit mode,
loopback, conditioned byte, thresholds and output records (R20, R44, R79, R97); the turn-over of the slip indications at an
office superframe boundary, with the slip of that boundary in the superframe it begins (R19); and the frame sent in the office
frame just ended (R17, R20, R96), octet 0 B2h, octet 1 the overhead octet, octets 2 to 41 the channel bytes chosen for it, each on TD most significant bit
first, with the line not driven in OFF. That
the frame is worked out at the boundary that ends it is a DESIGN CHOICE (notes/assumptions/6.md). -/
def Obligations.SettingsIntoForce : Prop :=
  ∀ (s : State) (egress : Vector Byte 640) (order : List Handling) (apart : Bool) (n : Fin 16), s.officeRuns = true →
    s.takesNoOrder →
    let st := (s.span n).store
    let f := st.fill - (336 - st.out.length)
    let slips := st.state = .attached ∧ 336 - st.out.length < st.fill ∧ (f < st.lowStored ∨ st.highStored < f)
    ∃ t, exec (.officeFrameBoundary egress order apart) s = .next t ∧
      (t.span n).tx.modeInForce = (s.span n).record.transmitMode ∧ (t.span n).tx.loopbackInForce = (s.span n).record.loopback ∧
      (t.span n).tx.conditionedInForce = (s.span n).record.conditioned ∧
      (t.span n).store.low = (s.span n).store.lowStored ∧ (t.span n).store.high = (s.span n).store.highStored ∧
      t.timing.toa.inForce = s.timing.toa.stored ∧ t.timing.tob.inForce = s.timing.tob.stored ∧
      (t.span n).record = (s.span n).record ∧
      ((s.frameNumber.toNat + 1) % 16 ≠ 0 → (t.span n).tx.previousSlip = (s.span n).tx.previousSlip) ∧
      ((s.frameNumber.toNat + 1) % 16 = 0 → (t.span n).tx.previousSlip = (s.span n).tx.currentSlip) ∧
      ((st.state = .attached → 1 ≤ st.fill) →
        ((t.span n).tx.currentSlip = true ↔
          ((s.span n).tx.currentSlip = true ∧ (s.frameNumber.toNat + 1) % 16 ≠ 0) ∨ slips)) ∧
      ((s.span n).tx.modeInForce = .off → (t.span n).tx.sent = none ∧ ∀ i, t.td n i = none) ∧
      ((s.span n).tx.modeInForce = .blank → (t.span n).tx.sent = some (Vector.replicate 42 0xFF) ∧
        ∀ i, t.td n i = some true) ∧
      ((s.span n).tx.modeInForce = .normal → ∃ frame, (t.span n).tx.sent = some frame ∧
        frame[(0 : Fin 42)] = 0xB2 ∧ frame[(1 : Fin 42)] = (s.span n).tx.overhead ∧
        (∀ c : Fin 40, frame[c.val + 2] = s.channelByte n c) ∧
        ∀ (o : Fin 42) (k : Fin 8), t.td n ⟨8 * o.val + k.val, by omega⟩ = some ((frame[o]).getMsbD k.val))

/-- At a boundary that takes no order, at an office superframe boundary as within one. The slip decision (R33 to R36): an ATTACHED
store whose reads of the frame are complete, or are completed by the boundary without running empty (notes/assumptions/7.md),
repeats below L, skips above H, and else goes on, with the count, the indication, trigger source 3 and nothing of the write side
moved. Centring and recentring (R32, R40): with 672 bits or more the read side goes to the one slot start 672 to 1007 places
behind the write position; with fewer, a CENTRING store waits and a FAULTED store goes to CENTRING; neither is a slip. -/
def Obligations.SlipAndCentring : Prop :=
  (∀ (s : State) (egress : Vector Byte 640) (order : List Handling) (apart : Bool) (n : Fin 16), s.officeRuns = true →
      s.takesNoOrder →
      let st := (s.span n).store
      let left := 336 - st.out.length
      let f := st.fill - left
      let before := (s.span n).tx.currentSlip && decide ((s.frameNumber.toNat + 1) % 16 ≠ 0)
      st.state = .attached → left < st.fill → st.readPos < 1344 → st.thresholds →
      ∃ t, exec (.officeFrameBoundary egress order apart) s = .next t ∧
        let st' := (t.span n).store
        let c := { (s.span n).counts with phaseHits := (t.span n).counts.phaseHits }
        st'.state = .attached ∧ st'.out = [] ∧ st'.ring = st.ring ∧ st'.writePos = st.writePos ∧ st'.lastFill = st'.fill ∧
        st'.lastFault = st.lastFault ∧ (t.span n).rx = (s.span n).rx ∧
        ((s.frameNumber.toNat + 1) % 16 ≠ 0 → (t.span n).counts.phaseHits = (s.span n).counts.phaseHits) ∧
        (f < st.lowStored →
          st'.fill = f + 336 ∧ st'.readPos = (st.readPos + left + 1344 - 336) % 1344 ∧ (t.span n).tx.currentSlip = true ∧
          (t.span n).counts = { c with repeatSlips := raise c.repeatSlips }) ∧
        (st.highStored < f →
          st'.fill = f - 336 ∧ st'.readPos = (st.readPos + left + 336) % 1344 ∧ (t.span n).tx.currentSlip = true ∧
          (t.span n).counts = { c with skipSlips := raise c.skipSlips }) ∧
        (st.lowStored ≤ f → f ≤ st.highStored →
          st'.fill = f ∧ st'.readPos = (st.readPos + left) % 1344 ∧ (t.span n).tx.currentSlip = before ∧ (t.span n).counts = c) ∧
        (f < st.lowStored ∨ st.highStored < f →
          ∀ u : Fin 4, s.units[u].source = 3 → s.units[u].point.span? = some n → t.units[u].newTrigger = true)) ∧
  (∀ (s : State) (egress : Vector Byte 640) (order : List Handling) (apart : Bool) (n : Fin 16), s.officeRuns = true →
      s.takesNoOrder →
      let st := (s.span n).store
      st.state = .centring ∨ st.state = .faulted → st.writePos < 1344 →
      ∃ t, exec (.officeFrameBoundary egress order apart) s = .next t ∧
        let st' := (t.span n).store
        st'.ring = st.ring ∧ st'.writePos = st.writePos ∧ st'.out = [] ∧ (t.span n).counts = (s.span n).counts ∧
        (t.span n).tx.currentSlip = ((s.span n).tx.currentSlip && decide ((s.frameNumber.toNat + 1) % 16 ≠ 0)) ∧
        (672 ≤ st.fill →
          st'.state = .attached ∧ 672 ≤ st'.fill ∧ st'.fill ≤ 1007 ∧ st'.readPos % 336 = 0 ∧ st'.readPos < 1344 ∧
          (st'.readPos + st'.fill) % 1344 = st.writePos ∧ st'.lastFill = st'.fill ∧
          ((s.frameNumber.toNat + 1) % 16 ≠ 0 → (t.span n).meter.baseline = none)) ∧
        (st.fill < 672 → st'.state = .centring ∧ st'.fill = st.fill ∧ st'.lastFill = st.lastFill))

/-- The retimed hold (R27, R90): a channel octet read whole is delivered, by an ATTACHED store whose reads the boundary completes
(notes/assumptions/7.md) every one, by a store that has left ATTACHED within the frame those it had read whole; for every other
channel the conditioned byte in force. The byte of a highway slot and of a transmit channel (R89, R95, R96): the
lowest-numbered inserting unit's byte first, then the loopback, then the bank in force. -/
def Obligations.BytesChosen : Prop :=
  (∀ (s : State) (egress : Vector Byte 640) (order : List Handling) (apart : Bool) (n : Fin 16) (c : Fin 40), s.officeRuns = true →
      ∃ t, exec (.officeFrameBoundary egress order apart) s = .next t ∧
        let st := (s.span n).store
        let read := if st.state = .attached then min st.fill (336 - st.out.length) else 0
        let out := st.out ++ (List.range read).map fun j => ringBit st.ring ((st.readPos + j) % 1344)
        (st.state = .attached → 1 ≤ st.fill ∧ st.readPos < 1344) →
        (8 * c.val + 24 ≤ out.length →
          ∀ k : Fin 8, (t.highway.retimed[n][c]).getMsbD k.val = out.getD (8 * (c.val + 2) + k.val) false) ∧
        (out.length < 8 * c.val + 24 → t.highway.retimed[n][c] = (s.span n).tx.conditionedInForce)) ∧
  (∀ (s : State),
      (∀ (l : Fin 4) (t : Fin 160), ¬(l = 0 ∧ t = 0) →
        (∀ u : Fin 4, s.inserts (.ingress l t) u = true → (∀ v, v < u → s.inserts (.ingress l t) v = false) →
          s.ingressByte l t = s.units[u].buffer[s.units[u].pointer]) ∧
        ((∀ u, s.inserts (.ingress l t) u = false) →
          let e := s.highway.ingress.banks[s.highway.ingress.active][160 * l.val + t.val]
          (e = .unused → s.ingressByte l t = 0xFF) ∧ (∀ v, e = .fixed v → s.ingressByte l t = v) ∧
          (∀ n c, e = .bearer n c → s.ingressByte l t = s.highway.retimed[n][c]))) ∧
      (∀ (n : Fin 16) (c : Fin 40),
        (∀ u : Fin 4, s.inserts (.tx n c) u = true → (∀ v, v < u → s.inserts (.tx n c) v = false) →
          s.channelByte n c = s.units[u].buffer[s.units[u].pointer]) ∧
        ((∀ u, s.inserts (.tx n c) u = false) →
          ((s.span n).tx.loopbackInForce = .line → s.channelByte n c = s.highway.retimed[n][c]) ∧
          ((s.span n).tx.loopbackInForce = .none →
            let e := s.highway.egress.banks[s.highway.egress.active][40 * n.val + c.val]
            (e = .idle → s.channelByte n c = 0xFF) ∧ (∀ v, e = .fixed v → s.channelByte n c = v) ∧
            (∀ l t, e = .office l t → s.channelByte n c = s.highway.held[160 * l.val + t.val])))))

/-- The lanes of the highways (R87): slot s of a lane is its bits 8 × s to 8 × s + 7, most significant bit first, on IHD in the
ingress frame just ended and on EHD in the bytes a boundary takes. The ingress frame (R89, R95): every slot carries the byte
chosen for it, slot (0, 0) byte f of the send cell at frame index f, FFh before the first office superframe boundary; the send
cell is kept from one office superframe boundary to the next (R137, R150, R151). HFP is one period of HCK wide, two at an office
superframe boundary (R88). While a restart holds the part HCK, HFP and the ingress lanes are held high and no TD is driven
(R163). That HFP is high while asserted, and that a 1 bit on IHD is the high level of R163, are DESIGN CHOICES, unsafe
(notes/assumptions/19.md). That a frame is worked out at the boundary that ends it is a DESIGN CHOICE (notes/assumptions/6.md). -/
def Obligations.HighwayFrame : Prop :=
  (∀ (s : State) (egress : Vector Byte 640) (order : List Handling) (apart : Bool), s.officeRuns = true →
      ∃ t, exec (.officeFrameBoundary egress order apart) s = .next t ∧
        (∀ (l : Fin 4) (slot : Fin 160), t.highway.sent[160 * l.val + slot.val] = s.ingressByte l slot ∧
          ∀ k : Fin 8, t.ihd l ⟨8 * slot.val + k.val, by omega⟩ = (s.ingressByte l slot).getMsbD k.val) ∧
        (∀ cell, s.channel.send = some cell → t.highway.sent[0] = cell[s.frameNumber.toNat % 16]) ∧
        (s.channel.send = none → t.highway.sent[0] = 0xFF) ∧
        ((s.frameNumber.toNat + 1) % 16 ≠ 0 → t.channel.send = s.channel.send ∧ t.channel.framed = s.channel.framed) ∧
        (∀ p : Fin 1280, t.hfp p = true ↔
          p.val = 0 ∨ (p.val = 1 ∧ t.channel.framed = true ∧ t.frameNumber.toNat % 16 = 0))) ∧
  (∀ (s : State) (lanes : Vector (BitVec 1280) 4) (order : List Handling) (apart : Bool), s.officeRuns = true →
      ∃ t, exec (.officeFrameBoundary (sampledEgress lanes) order apart) s = .next t ∧
        ∀ (l : Fin 4) (slot : Fin 160) (k : Fin 8), ¬(l = 0 ∧ slot = 0) →
          (t.highway.held[160 * l.val + slot.val]).getMsbD k.val = (lanes[l]).getMsbD (8 * slot.val + k.val)) ∧
  (∀ s t : State, (∃ low, exec (.powerOn low) s = .next t) ∨ exec .coldRestartBegin s = .next t →
      t.hck = some true ∧ (∀ p, t.hfp p = true) ∧ (∀ l i, t.ihd l i = true) ∧ ∀ n i, t.td n i = none)
end

