-- ==== Sys2Proof/Laws/Cells.lean ====
section
/-! SUPPORT. Laws of cells: what the check word does, and the cell of an order. -/

namespace Sys2Proof

/-- A sealed cell meets the check (R138). -/
theorem meetsCheck_sealCell (cell : Cell) : meetsCheck (sealCell cell) = true := by
  have h : ∀ w : Word, (w.extractLsb' 8 8 ++ w.extractLsb' 0 8 : Word) = w := fun w => by
    ext i hi
    rw [BitVec.getElem_append]
    by_cases h8 : i < 8
    · simp [h8, BitVec.getLsbD_eq_getElem hi]
    · have h9 : 8 + (i - 8) = i := by omega
      simp [h8, h9, BitVec.getElem_extractLsb', BitVec.getLsbD_eq_getElem hi]
  have hw : ∀ i : Fin 8, i ≠ 7 → cellWord (sealCell cell) i = cellWord cell i := fun i hi => by
    have : i.val < 7 := by omega
    have a : (14 : Nat) ≠ 2 * i.val := by omega
    have b : (15 : Nat) ≠ 2 * i.val := by omega
    have c : (14 : Nat) ≠ 2 * i.val + 1 := by omega
    have d : (15 : Nat) ≠ 2 * i.val + 1 := by omega
    simp only [cellWord, sealCell, Vector.getElem_set, a, b, c, d, if_false]
  have h7 : cellWord (sealCell cell) 7 = 0 - cellHead cell := by
    simp only [cellWord, sealCell]
    simp
    simpa using h (-cellHead cell)
  have hh : cellHead (sealCell cell) = cellHead cell := by
    simp only [cellHead, hw 0 (by decide), hw 1 (by decide), hw 2 (by decide), hw 3 (by decide), hw 4 (by decide),
      hw 5 (by decide), hw 6 (by decide)]
  simp [meetsCheck, cellSum, hh, h7]

/-- The first byte of a sealed cell is that of the cell. -/
theorem sealCell_first (cell : Cell) : (sealCell cell)[0] = cell[0] := by
  simp [sealCell]

/-- An order cell meets the check and is addressed to its station. -/
theorem cellOf_law (station code tag : Byte) (p : List Byte) :
    meetsCheck (cellOf station code tag p) = true ∧ (cellOf station code tag p)[0] = station :=
  ⟨meetsCheck_sealCell _, sealCell_first _⟩

end Sys2Proof
end

