-- ==== Sys2Proof/Laws/State.lean ====
section
/-! SUPPORT. One lemma for each field of State under each update: what an update leaves alone, and what it puts where. -/

namespace Sys2Proof.Machine

/-! ### setSpan -/

@[simp] theorem setSpan_pending (s : State) (n : Fin 16) (sp : Span) : (s.setSpan n sp).pending = s.pending := rfl
@[simp] theorem setSpan_restart (s : State) (n : Fin 16) (sp : Span) : (s.setSpan n sp).restart = s.restart := rfl
@[simp] theorem setSpan_timing (s : State) (n : Fin 16) (sp : Span) : (s.setSpan n sp).timing = s.timing := rfl
@[simp] theorem setSpan_highway (s : State) (n : Fin 16) (sp : Span) : (s.setSpan n sp).highway = s.highway := rfl
@[simp] theorem setSpan_frameNumber (s : State) (n : Fin 16) (sp : Span) :
    (s.setSpan n sp).frameNumber = s.frameNumber := rfl
@[simp] theorem setSpan_pendingNumber (s : State) (n : Fin 16) (sp : Span) :
    (s.setSpan n sp).pendingNumber = s.pendingNumber := rfl
@[simp] theorem setSpan_timers (s : State) (n : Fin 16) (sp : Span) : (s.setSpan n sp).timers = s.timers := rfl
@[simp] theorem setSpan_units (s : State) (n : Fin 16) (sp : Span) : (s.setSpan n sp).units = s.units := rfl
@[simp] theorem setSpan_channel (s : State) (n : Fin 16) (sp : Span) : (s.setSpan n sp).channel = s.channel := rfl
@[simp] theorem setSpan_device (s : State) (n : Fin 16) (sp : Span) : (s.setSpan n sp).device = s.device := rfl

/-! ### modSpan -/

@[simp] theorem modSpan_pending (s : State) (n : Fin 16) (f : Span → Span) : (s.modSpan n f).pending = s.pending := rfl
@[simp] theorem modSpan_restart (s : State) (n : Fin 16) (f : Span → Span) : (s.modSpan n f).restart = s.restart := rfl
@[simp] theorem modSpan_timing (s : State) (n : Fin 16) (f : Span → Span) : (s.modSpan n f).timing = s.timing := rfl
@[simp] theorem modSpan_highway (s : State) (n : Fin 16) (f : Span → Span) : (s.modSpan n f).highway = s.highway := rfl
@[simp] theorem modSpan_frameNumber (s : State) (n : Fin 16) (f : Span → Span) :
    (s.modSpan n f).frameNumber = s.frameNumber := rfl
@[simp] theorem modSpan_pendingNumber (s : State) (n : Fin 16) (f : Span → Span) :
    (s.modSpan n f).pendingNumber = s.pendingNumber := rfl
@[simp] theorem modSpan_timers (s : State) (n : Fin 16) (f : Span → Span) : (s.modSpan n f).timers = s.timers := rfl
@[simp] theorem modSpan_units (s : State) (n : Fin 16) (f : Span → Span) : (s.modSpan n f).units = s.units := rfl
@[simp] theorem modSpan_channel (s : State) (n : Fin 16) (f : Span → Span) : (s.modSpan n f).channel = s.channel := rfl
@[simp] theorem modSpan_device (s : State) (n : Fin 16) (f : Span → Span) : (s.modSpan n f).device = s.device := rfl

/-! ### setEntry -/

@[simp] theorem setEntry_pending (s : State) (e : Fin 4) (x : RefEntry) : (s.setEntry e x).pending = s.pending := rfl
@[simp] theorem setEntry_restart (s : State) (e : Fin 4) (x : RefEntry) : (s.setEntry e x).restart = s.restart := rfl
@[simp] theorem setEntry_spans (s : State) (e : Fin 4) (x : RefEntry) : (s.setEntry e x).spans = s.spans := rfl
@[simp] theorem setEntry_highway (s : State) (e : Fin 4) (x : RefEntry) : (s.setEntry e x).highway = s.highway := rfl
@[simp] theorem setEntry_frameNumber (s : State) (e : Fin 4) (x : RefEntry) :
    (s.setEntry e x).frameNumber = s.frameNumber := rfl
@[simp] theorem setEntry_pendingNumber (s : State) (e : Fin 4) (x : RefEntry) :
    (s.setEntry e x).pendingNumber = s.pendingNumber := rfl
@[simp] theorem setEntry_timers (s : State) (e : Fin 4) (x : RefEntry) : (s.setEntry e x).timers = s.timers := rfl
@[simp] theorem setEntry_units (s : State) (e : Fin 4) (x : RefEntry) : (s.setEntry e x).units = s.units := rfl
@[simp] theorem setEntry_channel (s : State) (e : Fin 4) (x : RefEntry) : (s.setEntry e x).channel = s.channel := rfl
@[simp] theorem setEntry_device (s : State) (e : Fin 4) (x : RefEntry) : (s.setEntry e x).device = s.device := rfl

/-! ### setLoop -/

@[simp] theorem setLoop_pending (s : State) (l : Loop) : (s.setLoop l).pending = s.pending := rfl
@[simp] theorem setLoop_restart (s : State) (l : Loop) : (s.setLoop l).restart = s.restart := rfl
@[simp] theorem setLoop_spans (s : State) (l : Loop) : (s.setLoop l).spans = s.spans := rfl
@[simp] theorem setLoop_highway (s : State) (l : Loop) : (s.setLoop l).highway = s.highway := rfl
@[simp] theorem setLoop_frameNumber (s : State) (l : Loop) : (s.setLoop l).frameNumber = s.frameNumber := rfl
@[simp] theorem setLoop_pendingNumber (s : State) (l : Loop) : (s.setLoop l).pendingNumber = s.pendingNumber := rfl
@[simp] theorem setLoop_timers (s : State) (l : Loop) : (s.setLoop l).timers = s.timers := rfl
@[simp] theorem setLoop_units (s : State) (l : Loop) : (s.setLoop l).units = s.units := rfl
@[simp] theorem setLoop_channel (s : State) (l : Loop) : (s.setLoop l).channel = s.channel := rfl
@[simp] theorem setLoop_device (s : State) (l : Loop) : (s.setLoop l).device = s.device := rfl

/-! ### setTimer -/

@[simp] theorem setTimer_pending (s : State) (n : Fin 4) (t : Timer) : (s.setTimer n t).pending = s.pending := rfl
@[simp] theorem setTimer_restart (s : State) (n : Fin 4) (t : Timer) : (s.setTimer n t).restart = s.restart := rfl
@[simp] theorem setTimer_spans (s : State) (n : Fin 4) (t : Timer) : (s.setTimer n t).spans = s.spans := rfl
@[simp] theorem setTimer_timing (s : State) (n : Fin 4) (t : Timer) : (s.setTimer n t).timing = s.timing := rfl
@[simp] theorem setTimer_highway (s : State) (n : Fin 4) (t : Timer) : (s.setTimer n t).highway = s.highway := rfl
@[simp] theorem setTimer_frameNumber (s : State) (n : Fin 4) (t : Timer) :
    (s.setTimer n t).frameNumber = s.frameNumber := rfl
@[simp] theorem setTimer_pendingNumber (s : State) (n : Fin 4) (t : Timer) :
    (s.setTimer n t).pendingNumber = s.pendingNumber := rfl
@[simp] theorem setTimer_units (s : State) (n : Fin 4) (t : Timer) : (s.setTimer n t).units = s.units := rfl
@[simp] theorem setTimer_channel (s : State) (n : Fin 4) (t : Timer) : (s.setTimer n t).channel = s.channel := rfl
@[simp] theorem setTimer_device (s : State) (n : Fin 4) (t : Timer) : (s.setTimer n t).device = s.device := rfl

/-! ### setUnit -/

@[simp] theorem setUnit_pending (s : State) (u : Fin 4) (x : TestUnit) : (s.setUnit u x).pending = s.pending := rfl
@[simp] theorem setUnit_restart (s : State) (u : Fin 4) (x : TestUnit) : (s.setUnit u x).restart = s.restart := rfl
@[simp] theorem setUnit_spans (s : State) (u : Fin 4) (x : TestUnit) : (s.setUnit u x).spans = s.spans := rfl
@[simp] theorem setUnit_timing (s : State) (u : Fin 4) (x : TestUnit) : (s.setUnit u x).timing = s.timing := rfl
@[simp] theorem setUnit_highway (s : State) (u : Fin 4) (x : TestUnit) : (s.setUnit u x).highway = s.highway := rfl
@[simp] theorem setUnit_frameNumber (s : State) (u : Fin 4) (x : TestUnit) :
    (s.setUnit u x).frameNumber = s.frameNumber := rfl
@[simp] theorem setUnit_pendingNumber (s : State) (u : Fin 4) (x : TestUnit) :
    (s.setUnit u x).pendingNumber = s.pendingNumber := rfl
@[simp] theorem setUnit_timers (s : State) (u : Fin 4) (x : TestUnit) : (s.setUnit u x).timers = s.timers := rfl
@[simp] theorem setUnit_channel (s : State) (u : Fin 4) (x : TestUnit) : (s.setUnit u x).channel = s.channel := rfl
@[simp] theorem setUnit_device (s : State) (u : Fin 4) (x : TestUnit) : (s.setUnit u x).device = s.device := rfl

/-! ### latchDevice -/

@[simp] theorem latchDevice_pending (s : State) : (s.latchDevice).pending = s.pending := rfl
@[simp] theorem latchDevice_restart (s : State) : (s.latchDevice).restart = s.restart := rfl
@[simp] theorem latchDevice_spans (s : State) : (s.latchDevice).spans = s.spans := rfl
@[simp] theorem latchDevice_timing (s : State) : (s.latchDevice).timing = s.timing := rfl
@[simp] theorem latchDevice_highway (s : State) : (s.latchDevice).highway = s.highway := rfl
@[simp] theorem latchDevice_frameNumber (s : State) : (s.latchDevice).frameNumber = s.frameNumber := rfl
@[simp] theorem latchDevice_pendingNumber (s : State) : (s.latchDevice).pendingNumber = s.pendingNumber := rfl
@[simp] theorem latchDevice_timers (s : State) : (s.latchDevice).timers = s.timers := rfl
@[simp] theorem latchDevice_units (s : State) : (s.latchDevice).units = s.units := rfl
@[simp] theorem latchDevice_channel (s : State) : (s.latchDevice).channel = s.channel := rfl

/-! ### offerTrigger -/

@[simp] theorem offerTrigger_pending (s : State) (src : Fin 8) : (s.offerTrigger src).pending = s.pending := rfl
@[simp] theorem offerTrigger_restart (s : State) (src : Fin 8) : (s.offerTrigger src).restart = s.restart := rfl
@[simp] theorem offerTrigger_spans (s : State) (src : Fin 8) : (s.offerTrigger src).spans = s.spans := rfl
@[simp] theorem offerTrigger_timing (s : State) (src : Fin 8) : (s.offerTrigger src).timing = s.timing := rfl
@[simp] theorem offerTrigger_highway (s : State) (src : Fin 8) : (s.offerTrigger src).highway = s.highway := rfl
@[simp] theorem offerTrigger_frameNumber (s : State) (src : Fin 8) :
    (s.offerTrigger src).frameNumber = s.frameNumber := rfl
@[simp] theorem offerTrigger_pendingNumber (s : State) (src : Fin 8) :
    (s.offerTrigger src).pendingNumber = s.pendingNumber := rfl
@[simp] theorem offerTrigger_timers (s : State) (src : Fin 8) : (s.offerTrigger src).timers = s.timers := rfl
@[simp] theorem offerTrigger_channel (s : State) (src : Fin 8) : (s.offerTrigger src).channel = s.channel := rfl
@[simp] theorem offerTrigger_device (s : State) (src : Fin 8) : (s.offerTrigger src).device = s.device := rfl

/-! ### offerSpanTrigger -/

@[simp] theorem offerSpanTrigger_pending (s : State) (src : Fin 8) (n : Fin 16) :
    (s.offerSpanTrigger src n).pending = s.pending := rfl
@[simp] theorem offerSpanTrigger_restart (s : State) (src : Fin 8) (n : Fin 16) :
    (s.offerSpanTrigger src n).restart = s.restart := rfl
@[simp] theorem offerSpanTrigger_spans (s : State) (src : Fin 8) (n : Fin 16) :
    (s.offerSpanTrigger src n).spans = s.spans := rfl
@[simp] theorem offerSpanTrigger_timing (s : State) (src : Fin 8) (n : Fin 16) :
    (s.offerSpanTrigger src n).timing = s.timing := rfl
@[simp] theorem offerSpanTrigger_highway (s : State) (src : Fin 8) (n : Fin 16) :
    (s.offerSpanTrigger src n).highway = s.highway := rfl
@[simp] theorem offerSpanTrigger_frameNumber (s : State) (src : Fin 8) (n : Fin 16) :
    (s.offerSpanTrigger src n).frameNumber = s.frameNumber := rfl
@[simp] theorem offerSpanTrigger_pendingNumber (s : State) (src : Fin 8) (n : Fin 16) :
    (s.offerSpanTrigger src n).pendingNumber = s.pendingNumber := rfl
@[simp] theorem offerSpanTrigger_timers (s : State) (src : Fin 8) (n : Fin 16) :
    (s.offerSpanTrigger src n).timers = s.timers := rfl
@[simp] theorem offerSpanTrigger_channel (s : State) (src : Fin 8) (n : Fin 16) :
    (s.offerSpanTrigger src n).channel = s.channel := rfl
@[simp] theorem offerSpanTrigger_device (s : State) (src : Fin 8) (n : Fin 16) :
    (s.offerSpanTrigger src n).device = s.device := rfl

/-! ### answer -/

@[simp] theorem answer_pending (s : State) (code tag : Byte) (o : OrderOutcome) (r : List Byte) :
    (s.answer code tag o r).pending = s.pending := rfl
@[simp] theorem answer_restart (s : State) (code tag : Byte) (o : OrderOutcome) (r : List Byte) :
    (s.answer code tag o r).restart = s.restart := rfl
@[simp] theorem answer_spans (s : State) (code tag : Byte) (o : OrderOutcome) (r : List Byte) :
    (s.answer code tag o r).spans = s.spans := rfl
@[simp] theorem answer_timing (s : State) (code tag : Byte) (o : OrderOutcome) (r : List Byte) :
    (s.answer code tag o r).timing = s.timing := rfl
@[simp] theorem answer_highway (s : State) (code tag : Byte) (o : OrderOutcome) (r : List Byte) :
    (s.answer code tag o r).highway = s.highway := rfl
@[simp] theorem answer_frameNumber (s : State) (code tag : Byte) (o : OrderOutcome) (r : List Byte) :
    (s.answer code tag o r).frameNumber = s.frameNumber := rfl
@[simp] theorem answer_pendingNumber (s : State) (code tag : Byte) (o : OrderOutcome) (r : List Byte) :
    (s.answer code tag o r).pendingNumber = s.pendingNumber := rfl
@[simp] theorem answer_timers (s : State) (code tag : Byte) (o : OrderOutcome) (r : List Byte) :
    (s.answer code tag o r).timers = s.timers := rfl
@[simp] theorem answer_units (s : State) (code tag : Byte) (o : OrderOutcome) (r : List Byte) :
    (s.answer code tag o r).units = s.units := rfl
@[simp] theorem answer_device (s : State) (code tag : Byte) (o : OrderOutcome) (r : List Byte) :
    (s.answer code tag o r).device = s.device := rfl

/-! ### refuse -/

@[simp] theorem refuse_pending (s : State) (code tag : Byte) (o : OrderOutcome) :
    (s.refuse code tag o).pending = s.pending := rfl
@[simp] theorem refuse_restart (s : State) (code tag : Byte) (o : OrderOutcome) :
    (s.refuse code tag o).restart = s.restart := rfl
@[simp] theorem refuse_spans (s : State) (code tag : Byte) (o : OrderOutcome) :
    (s.refuse code tag o).spans = s.spans := rfl
@[simp] theorem refuse_timing (s : State) (code tag : Byte) (o : OrderOutcome) :
    (s.refuse code tag o).timing = s.timing := rfl
@[simp] theorem refuse_highway (s : State) (code tag : Byte) (o : OrderOutcome) :
    (s.refuse code tag o).highway = s.highway := rfl
@[simp] theorem refuse_frameNumber (s : State) (code tag : Byte) (o : OrderOutcome) :
    (s.refuse code tag o).frameNumber = s.frameNumber := rfl
@[simp] theorem refuse_pendingNumber (s : State) (code tag : Byte) (o : OrderOutcome) :
    (s.refuse code tag o).pendingNumber = s.pendingNumber := rfl
@[simp] theorem refuse_timers (s : State) (code tag : Byte) (o : OrderOutcome) :
    (s.refuse code tag o).timers = s.timers := rfl
@[simp] theorem refuse_units (s : State) (code tag : Byte) (o : OrderOutcome) :
    (s.refuse code tag o).units = s.units := rfl
@[simp] theorem refuse_device (s : State) (code tag : Byte) (o : OrderOutcome) :
    (s.refuse code tag o).device = s.device := rfl

/-! ### answerMap -/

@[simp] theorem answerMap_pending (s : State) (code tag : Byte) (o : OrderOutcome) (r : List Byte) :
    (s.answerMap code tag o r).pending = s.pending := rfl
@[simp] theorem answerMap_restart (s : State) (code tag : Byte) (o : OrderOutcome) (r : List Byte) :
    (s.answerMap code tag o r).restart = s.restart := rfl
@[simp] theorem answerMap_spans (s : State) (code tag : Byte) (o : OrderOutcome) (r : List Byte) :
    (s.answerMap code tag o r).spans = s.spans := rfl
@[simp] theorem answerMap_timing (s : State) (code tag : Byte) (o : OrderOutcome) (r : List Byte) :
    (s.answerMap code tag o r).timing = s.timing := rfl
@[simp] theorem answerMap_highway (s : State) (code tag : Byte) (o : OrderOutcome) (r : List Byte) :
    (s.answerMap code tag o r).highway = s.highway := rfl
@[simp] theorem answerMap_frameNumber (s : State) (code tag : Byte) (o : OrderOutcome) (r : List Byte) :
    (s.answerMap code tag o r).frameNumber = s.frameNumber := rfl
@[simp] theorem answerMap_pendingNumber (s : State) (code tag : Byte) (o : OrderOutcome) (r : List Byte) :
    (s.answerMap code tag o r).pendingNumber = s.pendingNumber := rfl
@[simp] theorem answerMap_timers (s : State) (code tag : Byte) (o : OrderOutcome) (r : List Byte) :
    (s.answerMap code tag o r).timers = s.timers := rfl
@[simp] theorem answerMap_units (s : State) (code tag : Byte) (o : OrderOutcome) (r : List Byte) :
    (s.answerMap code tag o r).units = s.units := rfl
@[simp] theorem answerMap_device (s : State) (code tag : Byte) (o : OrderOutcome) (r : List Byte) :
    (s.answerMap code tag o r).device = s.device := rfl

/-! ### checkError -/

@[simp] theorem checkError_pending (s : State) : (s.checkError).pending = s.pending := rfl
@[simp] theorem checkError_restart (s : State) : (s.checkError).restart = s.restart := rfl
@[simp] theorem checkError_spans (s : State) : (s.checkError).spans = s.spans := rfl
@[simp] theorem checkError_timing (s : State) : (s.checkError).timing = s.timing := rfl
@[simp] theorem checkError_highway (s : State) : (s.checkError).highway = s.highway := rfl
@[simp] theorem checkError_frameNumber (s : State) : (s.checkError).frameNumber = s.frameNumber := rfl
@[simp] theorem checkError_pendingNumber (s : State) : (s.checkError).pendingNumber = s.pendingNumber := rfl
@[simp] theorem checkError_timers (s : State) : (s.checkError).timers = s.timers := rfl
@[simp] theorem checkError_units (s : State) : (s.checkError).units = s.units := rfl
@[simp] theorem checkError_channel (s : State) : (s.checkError).channel = s.channel := rfl

/-! ### clearCell -/

@[simp] theorem clearCell_pending (s : State) : (s.clearCell).pending = s.pending := rfl
@[simp] theorem clearCell_restart (s : State) : (s.clearCell).restart = s.restart := rfl
@[simp] theorem clearCell_spans (s : State) : (s.clearCell).spans = s.spans := rfl
@[simp] theorem clearCell_timing (s : State) : (s.clearCell).timing = s.timing := rfl
@[simp] theorem clearCell_highway (s : State) : (s.clearCell).highway = s.highway := rfl
@[simp] theorem clearCell_frameNumber (s : State) : (s.clearCell).frameNumber = s.frameNumber := rfl
@[simp] theorem clearCell_pendingNumber (s : State) : (s.clearCell).pendingNumber = s.pendingNumber := rfl
@[simp] theorem clearCell_timers (s : State) : (s.clearCell).timers = s.timers := rfl
@[simp] theorem clearCell_units (s : State) : (s.clearCell).units = s.units := rfl
@[simp] theorem clearCell_device (s : State) : (s.clearCell).device = s.device := rfl

/-! ### formNumber -/

@[simp] theorem formNumber_pending (s : State) :
    (s.formNumber).pending = s.pending := by unfold State.formNumber; split <;> rfl
@[simp] theorem formNumber_restart (s : State) :
    (s.formNumber).restart = s.restart := by unfold State.formNumber; split <;> rfl
@[simp] theorem formNumber_spans (s : State) :
    (s.formNumber).spans = s.spans := by unfold State.formNumber; split <;> rfl
@[simp] theorem formNumber_timing (s : State) :
    (s.formNumber).timing = s.timing := by unfold State.formNumber; split <;> rfl
@[simp] theorem formNumber_highway (s : State) :
    (s.formNumber).highway = s.highway := by unfold State.formNumber; split <;> rfl
@[simp] theorem formNumber_timers (s : State) :
    (s.formNumber).timers = s.timers := by unfold State.formNumber; split <;> rfl
@[simp] theorem formNumber_units (s : State) :
    (s.formNumber).units = s.units := by unfold State.formNumber; split <;> rfl
@[simp] theorem formNumber_channel (s : State) :
    (s.formNumber).channel = s.channel := by unfold State.formNumber; split <;> rfl
@[simp] theorem formNumber_device (s : State) :
    (s.formNumber).device = s.device := by unfold State.formNumber; split <;> rfl

/-! ### officePulses -/

@[simp] theorem officePulses_pending (s : State) (n : FrameNumber) : (s.officePulses n).pending = s.pending := rfl
@[simp] theorem officePulses_restart (s : State) (n : FrameNumber) : (s.officePulses n).restart = s.restart := rfl
@[simp] theorem officePulses_spans (s : State) (n : FrameNumber) : (s.officePulses n).spans = s.spans := rfl
@[simp] theorem officePulses_highway (s : State) (n : FrameNumber) : (s.officePulses n).highway = s.highway := rfl
@[simp] theorem officePulses_frameNumber (s : State) (n : FrameNumber) :
    (s.officePulses n).frameNumber = s.frameNumber := rfl
@[simp] theorem officePulses_pendingNumber (s : State) (n : FrameNumber) :
    (s.officePulses n).pendingNumber = s.pendingNumber := rfl
@[simp] theorem officePulses_timers (s : State) (n : FrameNumber) : (s.officePulses n).timers = s.timers := rfl
@[simp] theorem officePulses_units (s : State) (n : FrameNumber) : (s.officePulses n).units = s.units := rfl
@[simp] theorem officePulses_channel (s : State) (n : FrameNumber) : (s.officePulses n).channel = s.channel := rfl
@[simp] theorem officePulses_device (s : State) (n : FrameNumber) : (s.officePulses n).device = s.device := rfl

/-! ### qualifyAll -/

@[simp] theorem qualifyAll_pending (s : State) : (s.qualifyAll).pending = s.pending := rfl
@[simp] theorem qualifyAll_restart (s : State) : (s.qualifyAll).restart = s.restart := rfl
@[simp] theorem qualifyAll_spans (s : State) : (s.qualifyAll).spans = s.spans := rfl
@[simp] theorem qualifyAll_highway (s : State) : (s.qualifyAll).highway = s.highway := rfl
@[simp] theorem qualifyAll_frameNumber (s : State) : (s.qualifyAll).frameNumber = s.frameNumber := rfl
@[simp] theorem qualifyAll_pendingNumber (s : State) : (s.qualifyAll).pendingNumber = s.pendingNumber := rfl
@[simp] theorem qualifyAll_timers (s : State) : (s.qualifyAll).timers = s.timers := rfl
@[simp] theorem qualifyAll_units (s : State) : (s.qualifyAll).units = s.units := rfl
@[simp] theorem qualifyAll_channel (s : State) : (s.qualifyAll).channel = s.channel := rfl
@[simp] theorem qualifyAll_device (s : State) : (s.qualifyAll).device = s.device := rfl

/-! ### timerSwap -/

@[simp] theorem timerSwap_pending (s : State) (i e : Bool) : (s.timerSwap i e).pending = s.pending := rfl
@[simp] theorem timerSwap_restart (s : State) (i e : Bool) : (s.timerSwap i e).restart = s.restart := rfl
@[simp] theorem timerSwap_spans (s : State) (i e : Bool) : (s.timerSwap i e).spans = s.spans := rfl
@[simp] theorem timerSwap_timing (s : State) (i e : Bool) : (s.timerSwap i e).timing = s.timing := rfl
@[simp] theorem timerSwap_frameNumber (s : State) (i e : Bool) : (s.timerSwap i e).frameNumber = s.frameNumber := rfl
@[simp] theorem timerSwap_pendingNumber (s : State) (i e : Bool) :
    (s.timerSwap i e).pendingNumber = s.pendingNumber := rfl
@[simp] theorem timerSwap_timers (s : State) (i e : Bool) : (s.timerSwap i e).timers = s.timers := rfl
@[simp] theorem timerSwap_units (s : State) (i e : Bool) : (s.timerSwap i e).units = s.units := rfl
@[simp] theorem timerSwap_channel (s : State) (i e : Bool) : (s.timerSwap i e).channel = s.channel := rfl
@[simp] theorem timerSwap_device (s : State) (i e : Bool) : (s.timerSwap i e).device = s.device := rfl

/-! ### performSwaps -/

@[simp] theorem performSwaps_pending (s : State) : (s.performSwaps).pending = s.pending := rfl
@[simp] theorem performSwaps_restart (s : State) : (s.performSwaps).restart = s.restart := rfl
@[simp] theorem performSwaps_spans (s : State) : (s.performSwaps).spans = s.spans := rfl
@[simp] theorem performSwaps_timing (s : State) : (s.performSwaps).timing = s.timing := rfl
@[simp] theorem performSwaps_frameNumber (s : State) : (s.performSwaps).frameNumber = s.frameNumber := rfl
@[simp] theorem performSwaps_pendingNumber (s : State) : (s.performSwaps).pendingNumber = s.pendingNumber := rfl
@[simp] theorem performSwaps_timers (s : State) : (s.performSwaps).timers = s.timers := rfl
@[simp] theorem performSwaps_units (s : State) : (s.performSwaps).units = s.units := rfl
@[simp] theorem performSwaps_channel (s : State) : (s.performSwaps).channel = s.channel := rfl
@[simp] theorem performSwaps_device (s : State) : (s.performSwaps).device = s.device := rfl

/-! ### abandon -/

@[simp] theorem abandon_pending (s : State) : (s.abandon).pending = s.pending := rfl
@[simp] theorem abandon_restart (s : State) : (s.abandon).restart = s.restart := rfl
@[simp] theorem abandon_spans (s : State) : (s.abandon).spans = s.spans := rfl
@[simp] theorem abandon_frameNumber (s : State) : (s.abandon).frameNumber = s.frameNumber := rfl
@[simp] theorem abandon_timers (s : State) : (s.abandon).timers = s.timers := rfl
@[simp] theorem abandon_units (s : State) : (s.abandon).units = s.units := rfl
@[simp] theorem abandon_device (s : State) : (s.abandon).device = s.device := rfl
@[simp] theorem abandon_channel (s : State) : (s.abandon).channel = .reset := rfl
@[simp] theorem abandon_pendingNumber (s : State) : (s.abandon).pendingNumber = none := rfl
@[simp] theorem abandon_sent (s : State) : (s.abandon).highway.sent = Vector.replicate 640 0xFF := rfl

/-! ### beginFrame -/

@[simp] theorem beginFrame_out (st : Store) : st.beginFrame.out = [] := rfl
@[simp] theorem beginFrame_ring (st : Store) : st.beginFrame.ring = st.ring := rfl
@[simp] theorem beginFrame_writePos (st : Store) : st.beginFrame.writePos = st.writePos := rfl
@[simp] theorem beginFrame_readPos (st : Store) : st.beginFrame.readPos = st.readPos := rfl
@[simp] theorem beginFrame_fill (st : Store) : st.beginFrame.fill = st.fill := rfl
@[simp] theorem beginFrame_state (st : Store) : st.beginFrame.state = st.state := rfl
@[simp] theorem beginFrame_low (st : Store) : st.beginFrame.low = st.low := rfl
@[simp] theorem beginFrame_high (st : Store) : st.beginFrame.high = st.high := rfl
@[simp] theorem beginFrame_lowStored (st : Store) : st.beginFrame.lowStored = st.lowStored := rfl
@[simp] theorem beginFrame_highStored (st : Store) : st.beginFrame.highStored = st.highStored := rfl
@[simp] theorem beginFrame_lastFill (st : Store) : st.beginFrame.lastFill = st.lastFill := rfl
@[simp] theorem beginFrame_lastFault (st : Store) : st.beginFrame.lastFault = st.lastFault := rfl

/-! ### What the updates put in place -/

@[simp] theorem setSpan_span (s : State) (n : Fin 16) (sp : Span) : (s.setSpan n sp).span n = sp := by
  simp [State.setSpan, State.span]

theorem setSpan_span_ne (s : State) (n m : Fin 16) (sp : Span) (h : m ≠ n) : (s.setSpan n sp).span m = s.span m := by
  have h' : n.val ≠ m.val := fun e => h (Fin.ext e.symm)
  simp [State.setSpan, State.span, h']

@[simp] theorem modSpan_span (s : State) (n : Fin 16) (f : Span → Span) : (s.modSpan n f).span n = f (s.span n) :=
  setSpan_span s n _

theorem modSpan_span_ne (s : State) (n m : Fin 16) (f : Span → Span) (h : m ≠ n) : (s.modSpan n f).span m = s.span m :=
  setSpan_span_ne s n m _ h

@[simp] theorem setEntry_entry (s : State) (e : Fin 4) (x : RefEntry) : (s.setEntry e x).entry e = x := by
  simp [State.setEntry, State.entry]

theorem setEntry_entry_ne (s : State) (e y : Fin 4) (x : RefEntry) (h : y ≠ e) : (s.setEntry e x).entry y = s.entry y := by
  have h' : e.val ≠ y.val := fun k => h (Fin.ext k.symm)
  simp [State.setEntry, State.entry, h']

@[simp] theorem setEntry_loop (s : State) (e : Fin 4) (x : RefEntry) :
    (s.setEntry e x).timing.loop = s.timing.loop := rfl
@[simp] theorem setEntry_detector (s : State) (e : Fin 4) (x : RefEntry) :
    (s.setEntry e x).timing.detector = s.timing.detector := rfl
@[simp] theorem setEntry_monitorA (s : State) (e : Fin 4) (x : RefEntry) :
    (s.setEntry e x).timing.monitorA = s.timing.monitorA := rfl
@[simp] theorem setEntry_monitorB (s : State) (e : Fin 4) (x : RefEntry) :
    (s.setEntry e x).timing.monitorB = s.timing.monitorB := rfl
@[simp] theorem setEntry_mode (s : State) (e : Fin 4) (x : RefEntry) :
    (s.setEntry e x).timing.mode = s.timing.mode := rfl
@[simp] theorem setEntry_span (s : State) (e : Fin 4) (x : RefEntry) (n : Fin 16) :
    (s.setEntry e x).span n = s.span n := rfl
@[simp] theorem setLoop_entries (s : State) (l : Loop) : (s.setLoop l).timing.entries = s.timing.entries := rfl
@[simp] theorem setLoop_loop (s : State) (l : Loop) : (s.setLoop l).timing.loop = l := rfl
@[simp] theorem setLoop_entry (s : State) (l : Loop) (e : Fin 4) : (s.setLoop l).entry e = s.entry e := rfl
@[simp] theorem setSpan_entry (s : State) (n : Fin 16) (sp : Span) (e : Fin 4) :
    (s.setSpan n sp).entry e = s.entry e := rfl
@[simp] theorem latchDevice_span (s : State) (n : Fin 16) : s.latchDevice.span n = s.span n := rfl
@[simp] theorem latchDevice_entry (s : State) (e : Fin 4) : s.latchDevice.entry e = s.entry e := rfl
@[simp] theorem offerTrigger_span (s : State) (src : Fin 8) (n : Fin 16) : (s.offerTrigger src).span n = s.span n := rfl
@[simp] theorem offerTrigger_entry (s : State) (src : Fin 8) (e : Fin 4) :
    (s.offerTrigger src).entry e = s.entry e := rfl
@[simp] theorem answer_span (s : State) (code tag : Byte) (o : OrderOutcome) (r : List Byte) (n : Fin 16) :
    (s.answer code tag o r).span n = s.span n := rfl
@[simp] theorem answer_reply (s : State) (code tag : Byte) (o : OrderOutcome) (r : List Byte) :
    (s.answer code tag o r).channel.reply = some ⟨code, tag, o, results9 r⟩ := rfl

@[simp] theorem setTimer_timer (s : State) (n : Fin 4) (t : Timer) : (s.setTimer n t).timers[n] = t := by
  simp [State.setTimer]

@[simp] theorem setUnit_unit (s : State) (u : Fin 4) (x : TestUnit) : (s.setUnit u x).units[u] = x := by
  simp [State.setUnit]

end Sys2Proof.Machine
end

