-- ==== Sys2Proof/Laws/Ops.lean ====
section
/-! SUPPORT. One lemma for each shared operation of Machine/Ops.lean and of the ring, saying what it can do. -/

namespace Sys2Proof.Machine

/-! ### The outcome of a command -/

/-- A command under `whenRunning` always completes: with its own effect while office timing runs, with none while a
restart holds the part. -/
theorem whenRunning_eq_next (s t u : State) :
    whenRunning s t = .next u ↔ (s.officeRuns = true ∧ u = t) ∨ (s.officeRuns = false ∧ u = s) := by
  unfold whenRunning
  cases s.officeRuns <;> simp [eq_comm]

@[simp] theorem whenRunning_of_runs (s t : State) (h : s.officeRuns = true) : whenRunning s t = .next t := by
  simp [whenRunning, h]

@[simp] theorem whenRunning_of_held (s t : State) (h : s.officeRuns = false) : whenRunning s t = .next s := by
  simp [whenRunning, h]

/-! ### Sets of alarms -/

theorem subset_refl (a : Word) : subset a a := BitVec.and_self

theorem subset_trans {a b c : Word} (h : subset a b) (k : subset b c) : subset a c := by
  unfold subset at *
  rw [← h, BitVec.and_assoc, k]

theorem subset_or_left (a b : Word) : subset a (a ||| b) := by
  unfold subset
  ext i h
  simp
  tauto

theorem subset_or_right (a b : Word) : subset b (a ||| b) := by
  unfold subset
  ext i h
  simp
  tauto

/-! ### What the following of the reference entries leaves alone -/

/-- Office timing alone has acted, through the entries and the selection: nothing else is changed but the triggers of
the test units, REFERENCE SWITCHES and the device latched set, of which nothing is lost. -/
def State.timingActs (s t : State) : Prop :=
  t.pending = s.pending ∧ t.restart = s.restart ∧ t.spans = s.spans ∧ t.highway = s.highway ∧
  t.frameNumber = s.frameNumber ∧ t.pendingNumber = s.pendingNumber ∧ t.timers = s.timers ∧ t.channel = s.channel ∧
  t.timing.monitorA = s.timing.monitorA ∧ t.timing.monitorB = s.timing.monitorB ∧ t.timing.mode = s.timing.mode ∧
  t.timing.revertive = s.timing.revertive ∧ t.timing.toa = s.timing.toa ∧ t.timing.tob = s.timing.tob ∧
  t.timing.loop.freq = s.timing.loop.freq ∧ t.timing.loop.holdoverFreq = s.timing.loop.holdoverFreq ∧
  t.timing.loop.holdoverValid = s.timing.loop.holdoverValid ∧ t.timing.loop.history = s.timing.loop.history ∧
  (∀ e, (s.entry e).sameSettings (t.entry e)) ∧
  (∀ u : Fin 4, t.units[u] = s.units[u] ∨ t.units[u] = { s.units[u] with newTrigger := true }) ∧
  t.device.checkErrors = s.device.checkErrors ∧ t.device.acquisitionTimeouts = s.device.acquisitionTimeouts ∧
  subset s.device.latched t.device.latched

theorem timingActs_refl (s : State) : s.timingActs s :=
  ⟨rfl, rfl, rfl, rfl, rfl, rfl, rfl, rfl, rfl, rfl, rfl, rfl, rfl, rfl, rfl, rfl, rfl, rfl, fun _ => ⟨rfl, rfl, rfl, rfl⟩,
    fun _ => .inl rfl, rfl, rfl, subset_refl _⟩

theorem timingActs_trans {s t u : State} (h : s.timingActs t) (k : t.timingActs u) : s.timingActs u := by
  obtain ⟨h1, h2, h3, h4, h5, h6, h7, h8, h9, h10, h11, h12, h13, h14, h15, h16, h17, h18, h19, h20, h21, h22, h23⟩ := h
  obtain ⟨k1, k2, k3, k4, k5, k6, k7, k8, k9, k10, k11, k12, k13, k14, k15, k16, k17, k18, k19, k20, k21, k22, k23⟩ := k
  refine ⟨k1.trans h1, k2.trans h2, k3.trans h3, k4.trans h4, k5.trans h5, k6.trans h6, k7.trans h7, k8.trans h8,
    k9.trans h9, k10.trans h10, k11.trans h11, k12.trans h12, k13.trans h13, k14.trans h14, k15.trans h15, k16.trans h16,
    k17.trans h17, k18.trans h18, fun e => ?_, fun i => ?_, k21.trans h21, k22.trans h22, subset_trans h23 k23⟩
  · obtain ⟨a, b, c, d⟩ := h19 e
    obtain ⟨a', b', c', d'⟩ := k19 e
    exact ⟨a'.trans a, b'.trans b, c'.trans c, d'.trans d⟩
  · rcases h20 i with h | h <;> rcases k20 i with k | k <;> simp [h, k]

/-- A unit after a trigger is offered: unchanged, or with its new-trigger flag set. -/
theorem offerTrigger_unit (s : State) (src : Fin 8) (u : Fin 4) :
    (s.offerTrigger src).units[u] = if s.units[u].source = src then s.units[u].trigger else s.units[u] := by
  simp [State.offerTrigger]

theorem offerTrigger_acts (s : State) (src : Fin 8) : s.timingActs (s.offerTrigger src) := by
  refine ⟨rfl, rfl, rfl, rfl, rfl, rfl, rfl, rfl, rfl, rfl, rfl, rfl, rfl, rfl, rfl, rfl, rfl, rfl,
    fun _ => ⟨rfl, rfl, rfl, rfl⟩, fun u => ?_, rfl, rfl, subset_refl _⟩
  rw [offerTrigger_unit]
  split
  · exact .inr rfl
  · exact .inl rfl

theorem referenceSwitch_acts (s : State) : s.timingActs s.referenceSwitch :=
  timingActs_trans (t := { s with device := { s.device with referenceSwitches := raise s.device.referenceSwitches } })
    ⟨rfl, rfl, rfl, rfl, rfl, rfl, rfl, rfl, rfl, rfl, rfl, rfl, rfl, rfl, rfl, rfl, rfl, rfl, fun _ => ⟨rfl, rfl, rfl, rfl⟩,
      fun _ => .inl rfl, rfl, rfl, subset_refl _⟩
    (offerTrigger_acts _ 7)

theorem latchDevice_acts (s : State) : s.timingActs s.latchDevice :=
  ⟨rfl, rfl, rfl, rfl, rfl, rfl, rfl, rfl, rfl, rfl, rfl, rfl, rfl, rfl, rfl, rfl, rfl, rfl, fun _ => ⟨rfl, rfl, rfl, rfl⟩,
    fun _ => .inl rfl, rfl, rfl, subset_or_left _ _⟩

/-- A selection (R70): the entry is selected, the loop in ACQUIRING, and what `timingActs` says. -/
theorem selectEntry_spec (s : State) (e : Fin 4) :
    s.timingActs (s.selectEntry e) ∧ (s.selectEntry e).timing.loop.selected = some e ∧
      (s.selectEntry e).timing.loop.state = .acquiring ∧ (s.selectEntry e).timing.entries = s.timing.entries := by
  refine ⟨timingActs_trans ?_ (referenceSwitch_acts _), rfl, rfl, rfl⟩
  exact ⟨rfl, rfl, rfl, rfl, rfl, rfl, rfl, rfl, rfl, rfl, rfl, rfl, rfl, rfl, rfl, rfl, rfl, rfl,
    fun _ => ⟨rfl, rfl, rfl, rfl⟩, fun _ => .inl rfl, rfl, rfl, subset_refl _⟩

/-- The selection dropped (R73): none selected, HOLDOVER or FREE by holdover-valid. -/
theorem dropSelection_spec (s : State) :
    s.timingActs s.dropSelection ∧ s.dropSelection.timing.loop.selected = none ∧
      s.dropSelection.timing.loop.state = (if s.timing.loop.holdoverValid then .holdover else .free) ∧
      s.dropSelection.timing.entries = s.timing.entries := by
  refine ⟨timingActs_trans (timingActs_trans ?_ (referenceSwitch_acts _)) (latchDevice_acts _), rfl, rfl, rfl⟩
  exact ⟨rfl, rfl, rfl, rfl, rfl, rfl, rfl, rfl, rfl, rfl, rfl, rfl, rfl, rfl, rfl, rfl, rfl, rfl,
    fun _ => ⟨rfl, rfl, rfl, rfl⟩, fun _ => .inl rfl, rfl, rfl, subset_refl _⟩

/-- An entry rewritten with its settings kept. -/
theorem setEntry_acts (s : State) (e : Fin 4) (x : RefEntry) (h : (s.entry e).sameSettings x) :
    s.timingActs (s.setEntry e x) := by
  refine ⟨rfl, rfl, rfl, rfl, rfl, rfl, rfl, rfl, rfl, rfl, rfl, rfl, rfl, rfl, rfl, rfl, rfl, rfl, fun y => ?_,
    fun _ => .inl rfl, rfl, rfl, subset_refl _⟩
  by_cases hy : y = e
  · subst hy; simpa using h
  · rw [setEntry_entry_ne s e y x hy]; exact ⟨rfl, rfl, rfl, rfl⟩

theorem dropIfSelected_acts (s : State) (e : Fin 4) : s.timingActs (s.dropIfSelected e) := by
  unfold State.dropIfSelected
  split
  · exact (dropSelection_spec s).1
  · exact timingActs_refl s

theorem faultEntry_acts (s : State) (e : Fin 4) (why : FaultReason) : s.timingActs (s.faultEntry e why) :=
  timingActs_trans
    (timingActs_trans (setEntry_acts s e { s.entry e with state := .faulted, count := 0, reason := why } ⟨rfl, rfl, rfl, rfl⟩)
      (latchDevice_acts _))
    (dropIfSelected_acts _ e)

theorem followEntry_acts (s : State) (e : Fin 4) : s.timingActs (s.followEntry e) := by
  unfold State.followEntry
  split
  · exact timingActs_refl s
  · exact setEntry_acts s e _ ⟨rfl, rfl, rfl, rfl⟩
  · exact setEntry_acts s e _ ⟨rfl, rfl, rfl, rfl⟩
  · exact faultEntry_acts s e _
  · exact faultEntry_acts s e _
  · exact timingActs_refl s
  · exact timingActs_refl s

/-- What the following of every entry leaves alone (R66, R67). -/
theorem followEntries_acts (s : State) : s.timingActs s.followEntries :=
  timingActs_trans (timingActs_trans (timingActs_trans (followEntry_acts s 0) (followEntry_acts _ 1)) (followEntry_acts _ 2))
    (followEntry_acts _ 3)

/-- A published change: the span's alarms are latched, and the entries follow. -/
theorem publish_spec (s : State) (n : Fin 16) :
    (s.modSpan n Span.latch).timingActs (s.publish n) ∧ (s.publish n).span n = (s.span n).latch ∧
      ∀ m, m ≠ n → (s.publish n).span m = s.span m := by
  have h : (s.modSpan n Span.latch).timingActs (s.publish n) := followEntries_acts _
  have hs : ∀ m, (s.publish n).span m = (s.modSpan n Span.latch).span m := fun m => by
    unfold State.span; rw [h.2.2.1]
  exact ⟨h, by rw [hs]; simp, fun m hm => by rw [hs, modSpan_span_ne s n m _ hm]⟩

/-- The reads of one span made up to a moment, and published (R31). -/
theorem readSide_spec (s : State) (n : Fin 16) (readSoFar : Nat) :
    ((s.modSpan n fun sp => sp.readTo readSoFar).modSpan n Span.latch).timingActs (s.readSide n readSoFar) ∧
      (s.readSide n readSoFar).span n = ((s.span n).readTo readSoFar).latch ∧
      ∀ m, m ≠ n → (s.readSide n readSoFar).span m = s.span m := by
  obtain ⟨h, hn, hm⟩ := publish_spec (s.modSpan n fun sp => sp.readTo readSoFar) n
  exact ⟨h, by simpa [State.readSide] using hn, fun m k => (hm m k).trans (modSpan_span_ne s n m _ k)⟩

/-! ### Triggers of one span or of one unit -/

theorem offerSpanTrigger_unit (s : State) (src : Fin 8) (n : Fin 16) (u : Fin 4) :
    (s.offerSpanTrigger src n).units[u] =
      if s.units[u].source = src ∧ s.units[u].point.span? = some n then s.units[u].trigger else s.units[u] := by
  simp [State.offerSpanTrigger]

theorem offerUnitTrigger_eq (s : State) (src : Fin 8) (u : Fin 4) :
    s.offerUnitTrigger src u = if s.units[u].source = src then s.setUnit u s.units[u].trigger else s := rfl

/-! ### The ring (R25) -/

theorem setRingBit_same (ring : BitVec 1344) (p : Nat) (b : Bool) (h : p < 1344) :
    ringBit (setRingBit ring p b) p = b := by
  have h1 : 1343 - p < 1344 := by omega
  cases b <;> simp [ringBit, setRingBit, BitVec.getMsbD, h, h1]

theorem setRingBit_other (ring : BitVec 1344) (p q : Nat) (b : Bool) (hp : p < 1344) (hq : q < 1344) (h : q ≠ p) :
    ringBit (setRingBit ring p b) q = ringBit ring q := by
  have h1 : 1343 - q < 1344 := by omega
  have h2 : (1343 - q < 1343 - p) ∨ (1343 - q - (1343 - p) ≠ 0) := by omega
  rcases h2 with h2 | h2 <;>
  cases b <;> simp [ringBit, setRingBit, BitVec.getMsbD, hq, h1, h2]

end Sys2Proof.Machine
end

