-- ==== Sys2Proof/Laws/PerInstr.lean ====
section
/-! SUPPORT. Statements about every command, one lemma for each. -/

namespace Sys2Proof.Laws.ChannelCell

/-- The cell of an order meets the check and is addressed to the station it is sent to (R137, R138); an event has no
cell. -/
def Statement (i : Instr) : Prop :=
  ∀ (station : Byte) (cell : Cell), orderCell station i = some cell → meetsCheck cell = true ∧ cell[0] = station

/-- A command whose cell is that of a code, a tag and parameters. -/
theorem of_cellOf {i : Instr} {code tag : Byte} {p : List Byte} (h : ∀ s, orderCell s i = some (cellOf s code tag p)) :
    Statement i := by
  intro s cell hc
  rw [h s] at hc
  cases hc
  exact cellOf_law s code tag p

/-- A command that has no cell. -/
theorem of_none {i : Instr} (h : ∀ s, orderCell s i = none) : Statement i := by
  intro s cell hc
  rw [h s] at hc
  cases hc

theorem powerOn : ∀ resetLow, Statement (.powerOn resetLow) := fun _ => of_none fun _ => rfl
theorem coldRestartBegin : Statement (.coldRestartBegin) := of_none fun _ => rfl
theorem supplyFall : Statement (.supplyFall) := of_none fun _ => rfl
theorem restartEnd : ∀ straps, Statement (.restartEnd straps) := fun _ => of_none fun _ => rfl
theorem clockPresentRise : ∀ span, Statement (.clockPresentRise span) := fun _ => of_none fun _ => rfl
theorem clockPresentFall : ∀ moment, Statement (.clockPresentFall moment) :=
  fun _ => of_none fun _ => rfl
theorem lineWindowEnd : ∀ moment samples, Statement (.lineWindowEnd moment samples) :=
  fun _ _ => of_none fun _ => rfl
theorem noisePeriodEnd : ∀ span, Statement (.noisePeriodEnd span) := fun _ => of_none fun _ => rfl
theorem huntCandidateFound : ∀ span position looks, Statement (.huntCandidateFound span position looks) :=
  fun _ _ _ => of_none fun _ => rfl
theorem verifyCheck : ∀ span position looks, Statement (.verifyCheck span position looks) :=
  fun _ _ _ => of_none fun _ => rfl
theorem expectedAlignmentOctet : ∀ moment position looks, Statement (.expectedAlignmentOctet moment position looks) :=
  fun _ _ _ => of_none fun _ => rfl
theorem alignedFrame : ∀ span readSoFar looks, Statement (.alignedFrame span readSoFar looks) :=
  fun _ _ _ => of_none fun _ => rfl
theorem storeUnderrun : ∀ span, Statement (.storeUnderrun span) := fun _ => of_none fun _ => rfl
theorem referenceEvent : ∀ input time frequency, Statement (.referenceEvent input time frequency) :=
  fun _ _ _ => of_none fun _ => rfl
theorem officeFrameBoundary : ∀ egress order timeoutApart, Statement (.officeFrameBoundary egress order timeoutApart) :=
  fun _ _ _ => of_none fun _ => rfl
theorem qualificationComplete : ∀ entry, Statement (.qualificationComplete entry) := fun _ => of_none fun _ => rfl
theorem acquisitionTimeout : Statement (.acquisitionTimeout) := of_none fun _ => rfl
theorem unknownOrder : ∀ tag code, Statement (.unknownOrder tag code) := fun _ _ => of_cellOf fun _ => rfl
theorem identify : ∀ tag, Statement (.identify tag) := fun _ => of_cellOf fun _ => rfl
theorem warmRestart : ∀ tag, Statement (.warmRestart tag) := fun _ => of_cellOf fun _ => rfl
theorem setSpan : ∀ tag span enable transmitMode loopback conditioned noiseLimit,
    Statement (.setSpan tag span enable transmitMode loopback conditioned noiseLimit) :=
  fun _ _ _ _ _ _ _ => of_cellOf fun _ => rfl
theorem spanRestart : ∀ tag span, Statement (.spanRestart tag span) := fun _ _ => of_cellOf fun _ => rfl
theorem readSpan : ∀ tag span, Statement (.readSpan tag span) := fun _ _ => of_cellOf fun _ => rfl
theorem setThresholds : ∀ tag span low high, Statement (.setThresholds tag span low high) :=
  fun _ _ _ _ => of_cellOf fun _ => rfl
theorem readStore : ∀ tag span, Statement (.readStore tag span) := fun _ _ => of_cellOf fun _ => rfl
theorem setDrift : ∀ tag span k limit, Statement (.setDrift tag span k limit) := fun _ _ _ _ => of_cellOf fun _ => rfl
theorem readDrift : ∀ tag span, Statement (.readDrift tag span) := fun _ _ => of_cellOf fun _ => rfl
theorem setReference : ∀ tag entry enable priority q span, Statement (.setReference tag entry enable priority q span) :=
  fun _ _ _ _ _ _ => of_cellOf fun _ => rfl
theorem setTimingMode : ∀ tag mode revertive, Statement (.setTimingMode tag mode revertive) :=
  fun _ _ _ => of_cellOf fun _ => rfl
theorem selectReference : ∀ tag entry, Statement (.selectReference tag entry) := fun _ _ => of_cellOf fun _ => rfl
theorem readReference : ∀ tag entry, Statement (.readReference tag entry) := fun _ _ => of_cellOf fun _ => rfl
theorem readTiming : ∀ tag, Statement (.readTiming tag) := fun _ => of_cellOf fun _ => rfl
theorem setTimingOutput : ∀ tag output enable source rate squelch,
    Statement (.setTimingOutput tag output enable source rate squelch) := fun _ _ _ _ _ _ => of_cellOf fun _ => rfl
theorem writeIngressEntry : ∀ tag lane slot kind arg1 arg2, Statement (.writeIngressEntry tag lane slot kind arg1 arg2) :=
  fun _ _ _ _ _ _ => of_cellOf fun _ => rfl
theorem writeEgressEntry : ∀ tag span channel kind arg1 arg2, Statement (.writeEgressEntry tag span channel kind arg1 arg2) :=
  fun _ _ _ _ _ _ => of_cellOf fun _ => rfl
theorem readIngressEntry : ∀ tag lane slot bank, Statement (.readIngressEntry tag lane slot bank) :=
  fun _ _ _ _ => of_cellOf fun _ => rfl
theorem readEgressEntry : ∀ tag span channel bank, Statement (.readEgressEntry tag span channel bank) :=
  fun _ _ _ _ => of_cellOf fun _ => rfl
theorem swapMaps : ∀ tag direction, Statement (.swapMaps tag direction) := fun _ _ => of_cellOf fun _ => rfl
theorem copyMaps : ∀ tag direction, Statement (.copyMaps tag direction) := fun _ _ => of_cellOf fun _ => rfl
theorem setTimer : ∀ tag timer mode period action param, Statement (.setTimer tag timer mode period action param) :=
  fun _ _ _ _ _ _ => of_cellOf fun _ => rfl
theorem loadMatch : ∀ tag timer value, Statement (.loadMatch tag timer value) := fun _ _ _ => of_cellOf fun _ => rfl
theorem armTimer : ∀ tag timer, Statement (.armTimer tag timer) := fun _ _ => of_cellOf fun _ => rfl
theorem disarmTimer : ∀ tag timer, Statement (.disarmTimer tag timer) := fun _ _ => of_cellOf fun _ => rfl
theorem readTimer : ∀ tag timer, Statement (.readTimer tag timer) := fun _ _ => of_cellOf fun _ => rfl
theorem setFrameNumber : ∀ tag value, Statement (.setFrameNumber tag value) := fun _ _ => of_cellOf fun _ => rfl
theorem setUnit : ∀ tag number mode kind arg1 arg2 source count repeating,
    Statement (.setUnit tag number mode kind arg1 arg2 source count repeating) :=
  fun _ _ _ _ _ _ _ _ _ => of_cellOf fun _ => rfl
theorem startUnit : ∀ tag number, Statement (.startUnit tag number) := fun _ _ => of_cellOf fun _ => rfl
theorem stopUnit : ∀ tag number, Statement (.stopUnit tag number) := fun _ _ => of_cellOf fun _ => rfl
theorem triggerUnit : ∀ tag number, Statement (.triggerUnit tag number) := fun _ _ => of_cellOf fun _ => rfl
theorem readUnit : ∀ tag number, Statement (.readUnit tag number) := fun _ _ => of_cellOf fun _ => rfl
theorem readBuffer : ∀ tag number offset, Statement (.readBuffer tag number offset) := fun _ _ _ => of_cellOf fun _ => rfl
theorem writeBuffer : ∀ tag number offset data, Statement (.writeBuffer tag number offset data) :=
  fun _ _ _ _ => of_cellOf fun _ => rfl
theorem readAlarms : ∀ tag owner, Statement (.readAlarms tag owner) := fun _ _ => of_cellOf fun _ => rfl
theorem clearLatched : ∀ tag owner, Statement (.clearLatched tag owner) := fun _ _ => of_cellOf fun _ => rfl
theorem readCounts : ∀ tag group span clear, Statement (.readCounts tag group span clear) :=
  fun _ _ _ _ => of_cellOf fun _ => rfl

end Sys2Proof.Laws.ChannelCell
end

