-- ==== Sys2Proof/Laws/Span.lean ====
section
/-! SUPPORT. What the sampler's values, the octets formed from them and the bits of a transmit frame are, bit by bit. -/

namespace Sys2Proof.Machine

@[simp] theorem sampledBits_length (looks : List Looks) : (sampledBits looks).length = looks.length := by
  simp [sampledBits]

@[simp] theorem sampledBits_getElem (looks : List Looks) (i : Nat) (h : i < (sampledBits looks).length) :
    (sampledBits looks)[i] = majority (looks[i]'(by simpa using h)) := by
  simp [sampledBits]

/-- The value of a bit is 1 where at least two of its samples are (R3). -/
theorem majority_eq_true (x : Looks) : majority x = true ↔ x = 3 ∨ x = 5 ∨ x = 6 ∨ x = 7 := by
  revert x; decide

theorem octetAt_eight : ∀ (a b c d e f g h : Bool) (k : Fin 8),
    (octetAt [a, b, c, d, e, f, g, h] 0).getMsbD k.val = [a, b, c, d, e, f, g, h][k] := by
  decide +kernel

/-- An octet formed from bits: the first is the most significant (R1). -/
theorem octetAt_getMsbD (bits : List Bool) (i : Nat) (k : Fin 8) :
    (octetAt bits i).getMsbD k.val = bits.getD (i + k.val) false := by
  have h := octetAt_eight (bits.getD i false) (bits.getD (i + 1) false) (bits.getD (i + 2) false) (bits.getD (i + 3) false)
    (bits.getD (i + 4) false) (bits.getD (i + 5) false) (bits.getD (i + 6) false) (bits.getD (i + 7) false) k
  refine Eq.trans (congrArg (fun x : Byte => x.getMsbD k.val) rfl) (h.trans ?_)
  fin_cases k <;> rfl

/-- The octet of eight sampled bits is made of their majority values in order of arrival (R3, R8). -/
theorem arrivingOctet_getMsbD (looks : Vector Looks 8) (k : Fin 8) :
    (arrivingOctet looks).getMsbD k.val = majority looks[k] := by
  rw [arrivingOctet, octetAt_getMsbD, Nat.zero_add, List.getD_eq_getElem (hn := by simp)]
  simp

/-- Bit k of octet o of a span frame (R1, R17). -/
theorem lineBit_octet (frame : Vector Byte 42) (o : Fin 42) (k : Fin 8) :
    lineBit frame ⟨8 * o.val + k.val, by omega⟩ = (frame[o.val]).getMsbD k.val := by
  have h1 : (8 * o.val + k.val) / 8 = o.val := by omega
  have h2 : (8 * o.val + k.val) % 8 = k.val := by omega
  simp only [lineBit, h1, h2]

end Sys2Proof.Machine
end

