-- ==== Sys2Proof/Laws/Store.lean ====
section
/-! SUPPORT. What a run of reads, an office frame boundary, and one arriving bit can do to a retiming store. -/

namespace Sys2Proof.Machine

/-- One read of an ATTACHED store that holds more than one bit (R31). -/
theorem readBit_attached (st : Store) (h : 1 < st.fill) :
    st.readBit =
      { st with out := st.out ++ [ringBit st.ring st.readPos], readPos := ringAfter st.readPos 1, fill := st.fill - 1 } := by
  simp [Store.readBit, Nat.not_le.mpr h]

/-- Reads of an ATTACHED store that holds more bits than are read: the bits come in order from the read position round
the ring, and nothing else changes (R31). -/
theorem readBits_attached (n : Nat) (sp : Span) (hs : sp.store.state = .attached) (hf : n < sp.store.fill)
    (hp : sp.store.readPos < 1344) :
    sp.readBits n =
      { sp with store :=
          { sp.store with
            out := sp.store.out ++ (List.range n).map fun k => ringBit sp.store.ring ((sp.store.readPos + k) % 1344)
            readPos := (sp.store.readPos + n) % 1344, fill := sp.store.fill - n } } := by
  induction n generalizing sp with
  | zero => simp [Span.readBits, Nat.mod_eq_of_lt hp]
  | succ n ih =>
    have h1 : sp.withStore sp.store.readBit =
        { sp with store :=
            { sp.store with
              out := sp.store.out ++ [ringBit sp.store.ring sp.store.readPos]
              readPos := ringAfter sp.store.readPos 1, fill := sp.store.fill - 1 } } := by
      rw [readBit_attached _ (by omega)]
      simp [Span.withStore, hs]
    rw [Span.readBits, if_pos hs, h1]
    rw [ih { sp with store :=
            { sp.store with
              out := sp.store.out ++ [ringBit sp.store.ring sp.store.readPos]
              readPos := ringAfter sp.store.readPos 1, fill := sp.store.fill - 1 } } hs
      (Nat.lt_sub_of_add_lt hf) (Nat.mod_lt _ (by decide))]
    have h2 : ∀ k, (ringAfter sp.store.readPos 1 + k) % 1344 = (sp.store.readPos + (k + 1)) % 1344 := fun k => by
      simp only [ringAfter]; omega
    simp only [h2, List.range_succ_eq_map, List.map_cons, List.map_map, List.append_assoc, List.singleton_append,
      Nat.add_zero, Nat.mod_eq_of_lt hp]
    have h3 : sp.store.fill - 1 - n = sp.store.fill - (n + 1) := by omega
    rw [h3]
    rfl

/-- An office frame boundary, by the state of the store (R32, R33, R40, R41). -/
theorem boundary_cases (st : Store) :
    (st.state = .detached ∧ st.boundary = (st.beginFrame, ⟨none, .none, false⟩)) ∨
    (st.state = .centring ∧ st.fill < 672 ∧ st.boundary = (st.beginFrame, ⟨none, .none, false⟩)) ∨
    (st.state = .faulted ∧ st.fill < 672 ∧
      st.boundary = ({ st.beginFrame with state := .centring }, ⟨none, .none, true⟩)) ∨
    (st.state = .centring ∧ 672 ≤ st.fill ∧
      st.boundary = (st.beginFrame.place, ⟨some st.centreDistance, .none, true⟩)) ∨
    (st.state = .faulted ∧ 672 ≤ st.fill ∧
      st.boundary =
        (st.beginFrame.place, ⟨some st.centreDistance, .none, true⟩)) ∨
    (st.state = .attached ∧
      st.boundary = (st.beginFrame.slip st.decision, ⟨some (st.beginFrame.slip st.decision).fill, st.decision, false⟩)) := by
  unfold Store.boundary
  split
  case h_1 h => exact .inl ⟨h, rfl⟩
  case h_2 h =>
    split
    case isTrue k => exact .inr (.inl ⟨h, k, rfl⟩)
    case isFalse k => exact .inr (.inr (.inr (.inl ⟨h, Nat.not_lt.mp k, rfl⟩)))
  case h_3 h => exact .inr (.inr (.inr (.inr (.inr ⟨h, rfl⟩))))
  case h_4 h =>
    split
    case isTrue k => exact .inr (.inr (.inl ⟨h, k, rfl⟩))
    case isFalse k => exact .inr (.inr (.inr (.inr (.inl ⟨h, Nat.not_lt.mp k, rfl⟩))))

/-- The four fields of every boundary report: attached and fill say how the store stands after the boundary, slip is the
decision of an ATTACHED store, and centred is yes exactly where the boundary centred or recentred it (R41). -/
theorem boundary_report (st : Store) :
    (st.boundary.2.attached = true ↔ st.boundary.1.state = .attached) ∧
    (st.boundary.1.state = .attached → st.boundary.2.fill = some st.boundary.1.fill) ∧
    st.boundary.2.slip = (if st.state = .attached then st.decision else .none) ∧
    (st.boundary.2.centred = true ↔ (st.state = .centring ∧ 672 ≤ st.fill) ∨ st.state = .faulted) := by
  obtain ⟨h, e⟩ | ⟨h, k, e⟩ | ⟨h, k, e⟩ | ⟨h, k, e⟩ | ⟨h, k, e⟩ | ⟨h, e⟩ := boundary_cases st <;>
    rw [e] <;> simp [h, Report.attached, Store.beginFrame, Store.place, Store.centreDistance]
  · omega
  · omega
  · cases st.decision <;> simp [Store.slip]

/-- What the meter makes of a boundary report (R49 to R51). -/
theorem report_cases (m : Meter) (examined : Bool) (r : Report) :
    m.report examined r =
      let m1 := (if r.centred then m.clearBaseline else m).countSlip r.slip
      if examined = true ∧ r.attached = true then m1.sample (r.fill.getD 0) else (m1, false) := by
  obtain ⟨f, sl, c⟩ := r
  cases examined <;> cases f <;> simp [Meter.report, Report.attached]

/-- One arriving bit, by the state of the store (R30, R37, R39). -/
theorem writeBit_cases (st : Store) (b : Bool) :
    (st.state = .detached ∧ st.writeBit b = st) ∨
    (st.state = .centring ∧ st.writeBit b = { st.put b with fill := min (st.fill + 1) 1344 }) ∨
    (st.state = .attached ∧ st.fill + 1 = 1344 ∧
      st.writeBit b = { st.put b with fill := 1344, state := .faulted, lastFault := .overrun }) ∨
    (st.state = .attached ∧ st.fill + 1 ≠ 1344 ∧ st.writeBit b = { st.put b with fill := st.fill + 1 }) ∨
    (st.state = .faulted ∧ st.lastFault = .overrun ∧ st.writeBit b = { st with writePos := ringAfter st.writePos 1 }) ∨
    (st.state = .faulted ∧ st.lastFault ≠ .overrun ∧ st.writeBit b = { st.put b with fill := min (st.fill + 1) 1344 }) := by
  unfold Store.writeBit
  split
  case h_1 h => exact .inl ⟨h, rfl⟩
  case h_2 h => exact .inr (.inl ⟨h, rfl⟩)
  case h_3 h =>
    split
    case isTrue k => exact .inr (.inr (.inl ⟨h, k, rfl⟩))
    case isFalse k => exact .inr (.inr (.inr (.inl ⟨h, k, rfl⟩)))
  case h_4 h =>
    split
    case isTrue k => exact .inr (.inr (.inr (.inr (.inl ⟨h, k, rfl⟩))))
    case isFalse k => exact .inr (.inr (.inr (.inr (.inr ⟨h, k, rfl⟩))))

end Sys2Proof.Machine
end

