-- ==== Sys2Proof/Tests/Slice0.lean ====
section
/-! SUPPORT. Tests: the checks of WellFormed, worked examples of the manual, one step of the commands on small states,
and for every statement with hypotheses a state and operands that meet them. -/

open Sys2Proof Sys2Proof.Machine

namespace Sys2Proof.Tests

set_option Elab.async false

/-! ### Helpers -/

/-- The state after one command. -/
def after (c : Instr) (s : State) : State :=
  match exec c s with
  | .next t => t
  | .fault _ => s
  | .refused _ => s

/-- The state after reset with span 0 as given. -/
def on0 (sp : Span) : State := State.reset.setSpan 0 sp

/-- A span that is enabled, with clock-present, its aligner as given. -/
def live (a : Aligner) : Span :=
  { Span.reset with record := { SpanRecord.reset with enable := true }, rx := { Receiver.reset with clockPresent := true, aligner := a } }

/-- An aligned span whose store is ATTACHED with this fill, `read` bits into the frame of the present office frame. -/
def attached (fill read : Nat) : Span :=
  { live (.locked 0) with
    store := { Store.reset with state := .attached, fill := fill, readPos := read % 336, writePos := (read % 336 + fill) % 1344
                                out := List.replicate read false, lastFill := fill }
    latched := 0x0020 }

/-- The state after reset with the frame number as given. -/
def atNumber (n : Nat) (s : State) : State := { s with frameNumber := BitVec.ofNat 24 n }

/-- Office timing with entry 0 QUALIFIED. -/
def qualified0 : RefEntry := { RefEntry.resetTable[(0 : Fin 4)] with state := .qualified, count := 64 }

/-- The state after reset with entry 0 QUALIFIED and the loop as given. -/
def looped (l : Loop) : State := (State.reset.setEntry 0 qualified0).setLoop l

/-- A loop ACQUIRING entry 0. -/
def acquiring (lock acq : Nat) : Loop :=
  { Loop.reset with state := .acquiring, selected := some 0, lockCount := lock, acqCount := acq }

/-- A unit that is RUNNING with pending set, at the last byte of a run of 4. -/
def running : TestUnit :=
  { TestUnit.reset with state := .running, count := 4, remaining := 1, pointer := 3, pending := true, newTrigger := true }

/-- A receive cell: station, code, tag and one parameter, sealed. -/
def cell1 (station code tag p : Byte) : Cell := cellOf station code tag [p]

/-- The state after reset with this receive cell complete, cells being framed. -/
def holding (cell : Cell) : State :=
  { State.reset with channel := { OrderChannel.reset with receive := cell, framed := true, send := some (cell1 0 0 0 0) } }

/-- The state after reset with a restart of this kind holding the part. -/
def heldBy (k : RestartKind) (low up : Bool) : State :=
  { State.reset with restart := { Restart.reset with inProgress := some k, resetLow := low, supplyUp := up } }

/-- Eight bits sampled without noise, all three samples of each agreeing. -/
def clean (o : Byte) : Vector Looks 8 := Vector.ofFn fun k => if o.getMsbD k.val then 7 else 0

/-- Eight bits with one sample of each against the other two. -/
def noisy (o : Byte) : Vector Looks 8 := Vector.ofFn fun k => if o.getMsbD k.val then 5 else 2

/-! ### WellFormed refuses each ill-formed term -/

theorem test_wellFormed_refuses_empty_frame : (Instr.alignedFrame 0 0 []).wellFormed = false := by decide

theorem test_wellFormed_refuses_long_frame : (Instr.alignedFrame 0 0 (List.replicate 337 7)).wellFormed = false := by
  decide +kernel

theorem test_wellFormed_refuses_read_side_beyond_frame : (Instr.alignedFrame 0 337 [7]).wellFormed = false := by decide

theorem test_wellFormed_refuses_read_side_beyond_frame_at_span_events :
    (Instr.clockPresentFall ⟨0, 337⟩).wellFormed = false ∧
      (Instr.lineWindowEnd ⟨0, 337⟩ (Vector.replicate 336 0)).wellFormed = false ∧
      (Instr.expectedAlignmentOctet ⟨0, 337⟩ 336 (clean 0xB2)).wellFormed = false := by decide +kernel

theorem test_wellFormed_refuses_handling_named_twice :
    (Instr.officeFrameBoundary (Vector.replicate 640 0) [.otu, .number, .otu] false).wellFormed = false := by decide +kernel

theorem test_wellFormed_refuses_unknown_order_with_assigned_code : (Instr.unknownOrder 0 0x13).wellFormed = false := by decide

theorem test_wellFormed_refuses_unknown_order_with_code_zero : (Instr.unknownOrder 0 0).wellFormed = false := by decide

theorem test_wellFormed_accepts :
    (Instr.alignedFrame 0 336 [7]).wellFormed = true ∧ (Instr.unknownOrder 0 0x03).wellFormed = true ∧
      (Instr.clockPresentFall ⟨0, 336⟩).wellFormed = true ∧ (Instr.expectedAlignmentOctet ⟨0, 336⟩ 336 (clean 0xB2)).wellFormed = true ∧
      (Instr.setSpan 1 255 9 9 9 9 9).wellFormed = true := by decide

/-! ### Worked examples of the manual -/

/-- 8.9: the threshold order for station 4, span 9, L 400 and H 900; its check word is 9CD0h. -/
def workedOrder : Cell := #v[0x04, 0x13, 0x5A, 0x09, 0x01, 0x90, 0x03, 0x84, 0, 0, 0, 0, 0, 0, 0x9C, 0xD0]

/-- 8.9: its reply, with an attention summary of 00h; its check word is 58E8h. -/
def workedReply : Cell := #v[0x04, 0x13, 0x5A, 0x01, 0x09, 0x01, 0x50, 0x03, 0xF0, 0, 0, 0, 0, 0, 0x58, 0xE8]

theorem test_worked_order_cell : orderCell 4 (.setThresholds 0x5A 9 400 900) = some workedOrder := by decide +kernel

theorem test_worked_order_decodes : decodeOrder workedOrder = .setThresholds 0x5A 9 400 900 := by decide +kernel

theorem test_worked_cells_meet_check : meetsCheck workedOrder = true ∧ meetsCheck workedReply = true := by decide +kernel

theorem test_flipped_bit_fails_check : meetsCheck (workedOrder.set 5 0x91) = false := by decide +kernel

/-- 2.8 and 8.9: L 336 and H 1008 stored, DONE-CLAMPED. -/
theorem test_worked_threshold_order :
    let t := after (.setThresholds 0x5A 9 400 900) State.reset
    (t.span 9).store.lowStored = 336 ∧ (t.span 9).store.highStored = 1008 ∧ (t.span 9).store.low = 168 ∧
      t.channel.reply = some ⟨0x13, 0x5A, .doneClamped, #v[0x09, 0x01, 0x50, 0x03, 0xF0, 0, 0, 0, 0]⟩ := by decide +kernel

/-- Table 3-2. -/
theorem test_drift_updates :
    driftUpdate 0 1 2 = 64 ∧ driftUpdate 64 0 2 = 48 ∧ driftUpdate 75 0 2 = 56 ∧ driftUpdate 0 (-1) 2 = -64 ∧
      driftUpdate (-64) 0 2 = -48 ∧ driftUpdate 241 1 4 = 241 ∧ driftUpdate 53 0 4 = 49 := by decide

/-- Table 3-3. -/
theorem test_drift_offsets :
    driftOffset 1 = 7 ∧ driftOffset 48 = 349 ∧ driftOffset 64 = 465 ∧ driftOffset 75 = 545 ∧ driftOffset 100 = 727 ∧
      driftOffset (-75) = -545 ∧ driftOffset 256 = 1860 ∧ driftOffset 32512 = 236235 := by decide +kernel

/-- 3.7: a limit of 500 makes DRIFT active at 501 or more and clears it at 438 or less. -/
theorem test_drift_limits :
    driftEvaluate false 500 500 = false ∧ driftEvaluate false 500 (-501) = true ∧ driftEvaluate true 500 439 = true ∧
      driftEvaluate true 500 438 = false := by decide

/-- R18: an enabled span in HUNT whose store slipped sends FFh; a disabled span with no slip 3Fh. -/
theorem test_far_end_reports :
    ({ live (.hunt 0) with tx := { Transmitter.reset with previousSlip := true } }).farEndReport = 0xFF ∧
      Span.reset.farEndReport = 0x3F := by decide +kernel

/-- R118: a PERIODIC timer with match 16,777,000 and period 1000 acts next at 784. -/
theorem test_periodic_match_wraps :
    ({ Timer.reset with matchAt := 16777000, mode := .periodic, period := 1000, armed := true }.afterMatch .done).matchAt = 784 := by
  decide

/-- R35: with H at 1008 and F_pre 1009 the store skips and F_post is 673. -/
theorem test_skip_example :
    let st := { (attached 1009 336).store with high := 1008 }
    st.decision = .skip ∧ st.boundary.1.fill = 673 ∧ st.boundary.1.readPos = 336 ∧ st.boundary.1.writePos = st.writePos := by
  decide +kernel

/-- R33: a fill equal to a threshold does not slip. -/
theorem test_no_slip_at_threshold :
    ({ Store.reset with state := .attached, fill := 168 } : Store).decision = .none ∧
      ({ Store.reset with state := .attached, fill := 1176 } : Store).decision = .none ∧
      ({ Store.reset with state := .attached, fill := 167 } : Store).decision = .rep := by decide

/-- R38: F_post 200 and no bit arriving: bits 0 to 199 are read, the 200th read is an underrun. -/
theorem test_underrun_example :
    let t := after (.storeUnderrun 0) (on0 (attached 200 0))
    (t.span 0).store.out.length = 200 ∧ (t.span 0).store.state = .faulted ∧ (t.span 0).store.fill = 0 ∧
      (t.span 0).counts.storeFaults = 1 := by decide +kernel

/-- R153: a span in HUNT with BLANK active has the span active set 0012h. -/
theorem test_active_set_example :
    ({ live (.hunt 0) with win := { LineWindows.reset with blank := ⟨true, false⟩ } }).active = 0x0012 := by decide +kernel

/-- R161: after POWER-ON the attention summary is A2h and ALM is asserted. -/
theorem test_summary_after_reset : State.reset.summary = 0xA2 ∧ State.reset.alm = true := by decide +kernel

/-! ### One step of the commands -/

theorem test_identify :
    (after (.identify 7) State.reset).channel.reply = some ⟨0x01, 7, .done, #v[0x3C, 0x40, 0x16, 0x01, 0, 1, 0, 0, 0]⟩ := by
  decide +kernel

theorem test_warm_restart_count : (after (.warmRestart 7) State.reset).restart.count = 1 := by decide +kernel

theorem test_cold_count_stays_at_255 :
    (after (.restartEnd 3) { heldBy .cold true true with restart := { (heldBy .cold true true).restart with count := 0xFF } }).restart.count
      = 0xFF := by decide +kernel

theorem test_restart_end_reads_straps : (after (.restartEnd 19) (heldBy .powerOn true true)).restart.station = 19 := by
  decide +kernel

theorem test_order_in_restart_is_not_taken : after (.identify 7) (heldBy .cold true true) = heldBy .cold true true := rfl

theorem test_cold_during_power_on_stays_power_on :
    (after .coldRestartBegin (heldBy .powerOn false true)).restart.inProgress = some .powerOn := by decide +kernel

theorem test_supply_fall_makes_power_on :
    (after .supplyFall (heldBy .cold true true)).restart.inProgress = some .powerOn := by decide +kernel

theorem test_clock_rise_starts_hunt :
    ((after (.clockPresentRise 0) (on0 { live .absent with rx := { Receiver.reset with aligner := .absent } })).span 0).rx.aligner
      = .hunt 0 := by decide +kernel

theorem test_clock_fall_latches_absent :
    ((after (.clockPresentFall ⟨0, 0⟩) (on0 (live (.hunt 5)))).span 0).latched = 0x0001 := by decide +kernel

theorem test_majority : majority 0b011 = true ∧ majority 0b100 = false ∧ noisyBit 0b100 = true ∧ noisyBit 0b111 = false := by
  decide

/-- R3: a candidate is found in the majority values, though every bit of it is noisy. -/
theorem test_noisy_candidate_is_found :
    arrivingOctet (noisy 0xB2) = 0xB2 ∧
      ((after (.huntCandidateFound 0 5 (noisy 0xB2)) (on0 (live (.hunt 5)))).span 0).rx.aligner = .verify 5 0 0 := by
  decide +kernel

/-- R1: the alignment octet is the bits 1, 0, 1, 1, 0, 0, 1, 0 in order of transmission, and octet 1 follows it. -/
theorem test_transmit_bits :
    let sp := { Span.reset with tx := { Transmitter.reset with modeInForce := .normal, overhead := 0x80 } }
    let t := after (.officeFrameBoundary (Vector.replicate 640 0) [] false) (on0 sp)
    (List.finRange 10).map (fun i : Fin 10 => t.td 0 ⟨i.val, by omega⟩) =
        [true, false, true, true, false, false, true, false, true, false].map some ∧
      t.td 1 0 = none ∧ (after .coldRestartBegin t).td 0 0 = none := by decide +kernel

theorem test_second_blank_window :
    ((after (.lineWindowEnd ⟨0, 0⟩ (Vector.replicate 336 7)) (on0 { live (.hunt 5) with
      win := { LineWindows.reset with windows := 1, periodWindows := 1, blank := ⟨false, true⟩ } })).span 0).win.blank.active
      = true := by decide +kernel

theorem test_noise_limit_is_reached :
    ((after (.noisePeriodEnd 0) (on0 { live (.hunt 5) with
      win := { LineWindows.reset with windows := 16, periodWindows := 16, tally := 8 } })).span 0).win.noisy = true := by
  decide +kernel

theorem test_third_verify_locks :
    ((after (.verifyCheck 0 1108 (clean 0xB2)) (on0 (live (.verify 100 2 1)))).span 0).counts.marginalLocks = 1 ∧
      ((after (.verifyCheck 0 1108 (clean 0xB2)) (on0 (live (.verify 100 2 1)))).span 0).store.state = .centring := by decide +kernel

theorem test_candidate_in_blank_is_not_taken :
    let s := on0 { live (.hunt 5) with win := { LineWindows.reset with blank := ⟨true, false⟩ } }
    ((after (.huntCandidateFound 0 5 (clean 0xB2)) s).span 0).rx.aligner = .hunt 5 := by decide +kernel

theorem test_fourth_miss_loses_alignment :
    ((after (.expectedAlignmentOctet ⟨0, 0⟩ 436 (clean 0xB3)) (on0 (live (.flywheel 100 3)))).span 0).rx.aligner = .hunt 444 := by decide +kernel

/-- R27: clock fails when 32 bits of the frame have been read; channels 0 and 1 are delivered as read, channel 2 as the
conditioned byte. -/
theorem test_reads_before_a_detach_are_delivered :
    let t := after (.clockPresentFall ⟨0, 32⟩) (on0 (attached 800 0))
    (t.span 0).store.state = .detached ∧ (t.span 0).store.out.length = 32 ∧ (t.span 0).delivered 0 = 0x00 ∧
      (t.span 0).delivered 1 = 0x00 ∧ (t.span 0).delivered 2 = 0xFF := by decide +kernel

/-- A store FAULTED by an overrun when its read side had read this many bits of the frame. -/
def overrun (read : Nat) : Store :=
  { (attached 1343 read).store with state := .faulted, lastFault := .overrun, fill := 1344 }

/-- R59 for the meter, R40 and R41 for the store (notes/assumptions/18.md): an overrun that falls together with an office
superframe boundary gives a recentring, reported attached yes, but no sample; one bit earlier in the frame it gives one. -/
theorem test_overrun_at_the_boundary_gives_no_sample :
    (overrun 336).boundary.1.state = .attached ∧ (overrun 336).boundary.2 = ⟨some 1007, .none, true⟩ ∧
      ({ attached 1 0 with store := overrun 336 }.boundary true).1.meter.baseline = none ∧
      ({ attached 1 0 with store := overrun 335 }.boundary true).1.meter.baseline.isSome = true := by decide +kernel

/-- R41: a recentring that goes to CENTRING is reported attached no, centred yes. -/
theorem test_recentring_to_centring_is_reported :
    let b := { Store.reset with state := .faulted, lastFault := .underrun, fill := 671 }.boundary
    b.1.state = .centring ∧ b.2 = ⟨none, .none, true⟩ := by decide +kernel

theorem test_overrun_keeps_the_bit :
    let t := after (.alignedFrame 0 0 [6]) (on0 (attached 1343 0))
    (t.span 0).store.state = .faulted ∧ (t.span 0).store.fill = 1344 ∧ ringBit (t.span 0).store.ring 1343 = true ∧
      (t.span 0).latched.getLsbD 8 = true := by decide +kernel

theorem test_centring_distance :
    ({ Store.reset with writePos := 671 } : Store).centreDistance = 1007 ∧
      ({ Store.reset with writePos := 672 } : Store).centreDistance = 672 ∧
      ({ Store.reset with writePos := 0 } : Store).place.readPos = 672 := by decide +kernel

theorem test_set_span_clamps_noise_limit :
    let t := after (.setSpan 1 2 1 0 0 0x55 200) State.reset
    (t.span 2).record = ⟨true, .normal, .none, 0x55, 16⟩ ∧ (t.span 2).rx.aligner = .absent ∧
      t.channel.reply = some ⟨0x10, 1, .doneClamped, #v[2, 1, 0, 0, 0x55, 16, 0, 0, 0]⟩ := by decide +kernel

theorem test_set_drift_clamps_k :
    let t := after (.setDrift 1 2 9 0x1234) State.reset
    (t.span 2).meter.k = 7 ∧ t.channel.reply = some ⟨0x15, 1, .doneClamped, #v[2, 7, 0x12, 0x34, 0, 0, 0, 0, 0]⟩ := by decide +kernel

theorem test_phase_hit_leaves_average :
    let m : Meter := { Meter.reset with baseline := some 600, average := 77 }
    (m.sample 728).2 = true ∧ (m.sample 728).1.average = 77 ∧ (m.sample 727).2 = false ∧ (m.sample 727).1.lastD = 127 := by
  decide +kernel

theorem test_slip_counted_in_sample :
    let m : Meter := { Meter.reset with baseline := some 100 }
    ((m.countSlip .rep).sample 436).1.lastD = 0 ∧ ((m.countSlip .skip).sample 100).1.lastD = 336 := by decide +kernel

theorem test_monitor_streak :
    (Monitor.frameEnd ⟨true, 7, true⟩) = ⟨false, 0, false⟩ ∧ (Monitor.frameEnd ⟨true, 6, true⟩) = ⟨true, 7, false⟩ ∧
      (Monitor.frameEnd ⟨false, 3, false⟩) = ⟨true, 0, false⟩ := by decide

/-- R71: a reference 150 ppm off reads outside though its phase error is 0; at 100 ppm it reads inside. -/
theorem test_reference_beyond_pull_range_reads_outside :
    let d : Detector := { Detector.reset with zero := some 5 }
    (d.measure true 5 150).reading = false ∧ (d.measure true 5 100).reading = true ∧
      (d.measure true 1000006 0).reading = false ∧ (d.measure false 5 150).reading = false := by decide +kernel

theorem test_lock_at_fourth_reading :
    let s := looped (acquiring 3 255)
    let s := { s with timing := { s.timing with detector := { Detector.reset with measured := true } } }
    (s.lockStage false).timing.loop.state = .locked ∧ (s.lockStage false).timing.loop.acqCount = 255 := by decide +kernel

theorem test_timeout_requalifies :
    let t := (looped (acquiring 0 255)).lockStage false
    (t.entry 0).state = .qualifying ∧ (t.entry 0).reason = .timeout ∧ t.timing.loop.state = .free ∧
      t.device.acquisitionTimeouts = 1 ∧ t.device.referenceSwitches = 1 ∧ t.device.latched = 0x0021 := by decide +kernel

/-- R70: the count held is never 256; left to its own step, the timeout occurs there whole. -/
theorem test_timeout_as_a_step :
    let s := (looped (acquiring 0 255)).lockStage true
    let t := after .acquisitionTimeout s
    s.timing.loop.acqCount = 255 ∧ s.timing.loop.timeoutDue = true ∧ t.timing.loop.selected = none ∧
      (t.entry 0).reason = .timeout ∧ t.timing.loop.state = .free ∧
      t.device.acquisitionTimeouts = 1 := by decide +kernel

theorem test_automatic_selection_prefers_priority :
    let t := (State.reset.setEntry 0 qualified0).setEntry 1 { qualified0 with priority := 1 }
    t.timing.best = some 0 ∧ (t.setEntry 0 { qualified0 with priority := 2 }).timing.best = some 1 := by decide +kernel

theorem test_slew : slew 0 5 = 1 ∧ slew 0 (-5) = -1 ∧ slew 4 (9 / 2) = 9 / 2 := by decide +kernel

theorem test_set_reference_in_use :
    ((after (.setReference 1 0 0 1 1 0) (looped (acquiring 0 0))).channel.reply.map Reply.outcome) = some .inUse := by decide +kernel

theorem test_select_reference_in_auto :
    ((after (.selectReference 1 0) (State.reset.setEntry 0 qualified0)).channel.reply.map Reply.outcome) = some .wrongMode := by
  decide +kernel

theorem test_read_timing_after_reset :
    (after (.readTiming 1) State.reset).channel.reply = some ⟨0x24, 1, .done, #v[0, 0xFF, 0, 0, 0, 0, 0x40, 0x40, 0]⟩ := by
  decide +kernel

/-- R87: the first bit of slot 1 of lane 3 is bit 8 of the lane, and it is the most significant of its byte. -/
theorem test_lane_bits :
    let bytes : Vector Byte 640 := (Vector.replicate 640 0).set 481 0x80
    laneBit bytes 3 8 = true ∧ laneBit bytes 3 9 = false ∧ laneBit bytes 3 7 = false ∧
      (sampledEgress #v[0, 0, 0, (1 : BitVec 1280) <<< 1271])[481] = 0x80 := by decide +kernel

/-- R163: HCK, HFP and IHD0 to IHD3 are held high while RESET_N is low. -/
theorem test_pins_held_high :
    let t := after .coldRestartBegin State.reset
    t.hck = some true ∧ t.hfp 0 = true ∧ t.hfp 1279 = true ∧ t.ihd 3 1279 = true ∧ State.reset.hck = none ∧
      State.reset.hfp 0 = true ∧ State.reset.hfp 1 = false := by decide +kernel

theorem test_write_management_slot :
    ((after (.writeIngressEntry 1 0 0 0 0 0) State.reset).channel.reply.map Reply.outcome) = some .badSlot := by decide +kernel

theorem test_write_egress_lands_in_standby :
    let t := after (.writeEgressEntry 1 2 3 2 1 9) State.reset
    t.highway.egress.banks[(1 : Fin 2)][(83 : Fin 640)] = .office 1 9 ∧
      t.highway.egress.banks[(0 : Fin 2)][(83 : Fin 640)] = .idle := by decide +kernel

theorem test_copy_while_swap_pending :
    let s := after (.swapMaps 1 0) State.reset
    s.highway.ingress.request = .pending false ∧
      ((after (.copyMaps 2 2) s).channel.reply.map Reply.outcome) = some .swapPending := by decide +kernel

theorem test_set_timer_disarms :
    let s := State.reset.setTimer 2 { Timer.reset with armed := true, matched := true }
    ((after (.setTimer 1 2 1 0x0102 4 3) s).timers[(2 : Fin 4)]) =
      ⟨0, .periodic, 0x0102, .selectReference, 3, false, true, .none⟩ := by decide +kernel

theorem test_set_frame_number_refused : (after (.setFrameNumber 1 17) State.reset).pendingNumber = none := by decide +kernel

theorem test_start_unit : ((after (.startUnit 1 2) State.reset).units[(2 : Fin 4)]).remaining = 1 := by decide +kernel

theorem test_set_unit_insert_at_rx :
    ((after (.setUnit 1 0 1 0 0 0 0 1 0) State.reset).channel.reply.map Reply.outcome) = some .badParameter := by decide +kernel

theorem test_write_buffer_wraps :
    let t := after (.writeBuffer 1 0 60 #v[1, 2, 3, 4, 5, 6, 7, 8]) State.reset
    (t.units[(0 : Fin 4)]).buffer[63] = 4 ∧ (t.units[(0 : Fin 4)]).buffer[0] = 5 ∧ (t.units[(0 : Fin 4)]).buffer[4] = 0 := by
  decide +kernel

theorem test_run_ends :
    let x := running.advance
    x.state = .done ∧ x.remaining = 0 ∧ x.pointer = 4 ∧
      ({ running with repeating := true }.advance).wraps = 1 := by decide +kernel

theorem test_clear_latched_clears_notice :
    let t := after (.clearLatched 1 3) State.reset
    t.restart.notice = false ∧ t.device.latched = 0x0020 := by decide +kernel

theorem test_read_counts_clears_one_group :
    let s := on0 { Span.reset with counts := { SpanCounts.reset with skipSlips := 0x0102, phaseHits := 5 } }
    let t := after (.readCounts 1 0 0 1) s
    (t.span 0).counts.skipSlips = 0 ∧ (t.span 0).counts.phaseHits = 5 ∧
      t.channel.reply = some ⟨0x62, 1, .done, #v[0, 0, 1, 2, 0, 0, 0, 0, 0]⟩ := by decide +kernel

theorem test_unknown_order :
    (after (.unknownOrder 9 0x63) State.reset).channel.reply = some ⟨0x63, 9, .unknownOrder, Vector.replicate 9 0⟩ := by decide +kernel

/-- Table 1-6, 4-8, 4-9, 6-2, 7-2 and 8-3: codes. -/
theorem test_codes :
    (TransmitMode.normal.code, TransmitMode.blank.code, TransmitMode.off.code) = (0, 1, 2) ∧
    (Loopback.none.code, Loopback.line.code) = (0, 1) ∧
    (Aligner.off.code, Aligner.absent.code, (Aligner.hunt 0).code, (Aligner.verify 0 0 0).code, (Aligner.locked 0).code,
      (Aligner.flywheel 0 1).code) = (0, 1, 2, 3, 4, 5) ∧
    (EntryState.disabled.code, EntryState.qualifying.code, EntryState.qualified.code, EntryState.faulted.code) = (0, 1, 2, 3) ∧
    (LoopState.free.code, LoopState.acquiring.code, LoopState.locked.code, LoopState.holdover.code) = (0, 1, 2, 3) ∧
    (TimerOutcome.done.code, TimerOutcome.notQualified.code, TimerOutcome.wrongMode.code, TimerOutcome.none.code) =
      (0x00, 0x14, 0x16, 0xFF) ∧
    (OrderOutcome.doneClamped.code, OrderOutcome.accepted.code, OrderOutcome.unknownOrder.code, OrderOutcome.inUse.code,
      OrderOutcome.unitRunning.code) = (0x01, 0x02, 0x10, 0x15, 0x17) := by decide

/-! ### Witnesses: for every statement with hypotheses, a state and operands that meet them

Each theorem is named after its statement and goes through the statement's clauses in order. -/

/-- A state in which much is going on: span 0 aligned with an ATTACHED store, the loop LOCKED to entry 0, a frame number
and a swap pending, a timer armed, a unit RUNNING, a reply and a send cell. -/
def busy (c : Instr) : State :=
  { State.reset with
    pending := [c]
    spans := State.reset.spans.set 0 (attached 800 0)
    timing := { Timing.reset with
      entries := RefEntry.resetTable.set 0 qualified0
      loop := { Loop.reset with state := .locked, selected := some 0, lockCount := 4, holdoverValid := true, freq := 1, history := [1] } }
    highway := { Highway.reset with
      ingress := { Highway.reset.ingress with request := .pending false } }
    frameNumber := 15
    pendingNumber := some ⟨32, false⟩
    timers := (Vector.replicate 4 Timer.reset).set 1 { Timer.reset with armed := true, matchAt := 16 }
    units := (Vector.replicate 4 TestUnit.reset).set 2 running
    channel := { OrderChannel.reset with framed := true, send := some (cell1 4 0 0 0), reply := some ⟨1, 2, .done, noResults⟩ } }

/-- The command the invariants' witnesses take. -/
def busyStep : Instr := .expectedAlignmentOctet ⟨0, 0⟩ 336 (noisy 0xB2)

theorem busy_completes : ∃ t, step (busy busyStep) = .next t := ⟨_, rfl⟩

/-- What holds of span 0 of `busy` and of a span after reset holds of every span of `busy`. -/
theorem busy_spans {P : Span → Prop} (c : Instr) (h0 : P (attached 800 0)) (hr : P Span.reset) : ∀ n, P ((busy c).span n) := by
  intro n
  by_cases h : n = 0
  · subst h; exact h0
  · have h' : (0 : Nat) ≠ n.val := fun e => h (Fin.ext e.symm)
    have : (busy c).span n = Span.reset := by
      simp [busy, State.span, State.reset, h']
    rw [this]; exact hr

theorem witness_EveryCommandCompletes : State.reset.officeRuns = true := rfl

theorem witness_StepTakesTheFront : State.reset.pending = [] := rfl

theorem witness_LineLawKept : (∀ n, ((busy busyStep).span n).lineLaw) ∧ ∃ t, step (busy busyStep) = .next t := by
  refine ⟨busy_spans busyStep ?_ ?_, busy_completes⟩ <;>
    simp [Span.lineLaw, Aligner.counted, LineWindows.exclusive, LineWindows.held, Aligner.aligned, attached, live, Span.reset,
      SpanRecord.reset, Receiver.reset, LineWindows.reset, Superframe.reset, Condition.reset, SuperframeState.isLocked]

theorem witness_AlignerFollowsKept :
    ((busy busyStep).officeRuns = true → ∀ n, ((busy busyStep).span n).follows) ∧
      ∃ t, step (busy busyStep) = .next t ∧ t.officeRuns = true := by
  refine ⟨fun _ => busy_spans busyStep ?_ ?_, ⟨_, rfl, rfl⟩⟩ <;>
    simp [Span.follows, attached, live, Span.reset, SpanRecord.reset, Receiver.reset]

theorem witness_StoreLawKept :
    (∀ n, ((busy busyStep).span n).store.law ∧ ((busy busyStep).span n).storeFollows) ∧ ∃ t, step (busy busyStep) = .next t := by
  refine ⟨busy_spans (P := fun sp => sp.store.law ∧ sp.storeFollows) busyStep ?_ ?_, busy_completes⟩ <;>
    simp [Store.law, Store.thresholds, Span.storeFollows, Aligner.aligned, attached, live, Span.reset, Store.reset, Receiver.reset]

theorem witness_MeterLawKept : (∀ n, ((busy busyStep).span n).meterLaw) ∧ ∃ t, step (busy busyStep) = .next t := by
  refine ⟨busy_spans busyStep ?_ ?_, busy_completes⟩ <;>
    simp [Span.meterLaw, attached, live, Span.reset, Meter.reset, Store.reset]

theorem witness_TimingLawKept :
    ((busy busyStep).timing.law ∧ (busy busyStep).entriesFollow) ∧ ∃ t, step (busy busyStep) = .next t := by
  refine ⟨⟨?_, ?_⟩, busy_completes⟩
  · refine ⟨?_, ?_⟩
    · intro e; fin_cases e <;> simp [busy, RefEntry.law, RefEntry.resetTable, qualified0, QPeriod.superframes]
    · simp [busy, inPull, Config.pullRange, Loop.reset, qualified0, RefEntry.resetTable]
      norm_num
  · intro e
    fin_cases e <;>
      simp [busy, State.entry, RefEntry.resetTable, qualified0, State.entryFault, State.faultOf, isLine, Timing.reset, Monitor.reset]

theorem witness_RecordLawsKept :
    (busy busyStep).highway.law ∧ (busy busyStep).dueLaw ∧ (∀ n : Fin 4, (busy busyStep).timers[n].law) ∧
      (∀ u : Fin 4, (busy busyStep).units[u].law) ∧ ∃ t, step (busy busyStep) = .next t := by
  refine ⟨?_, ?_, ?_, ?_, busy_completes⟩
  · simp [busy, Highway.law, Highway.reset, ChannelMap.reset]
  · simp [busy, State.dueLaw, Highway.reset, ChannelMap.reset]
  · intro n; fin_cases n <;> simp [busy, Timer.law, Timer.reset]
  · intro u
    fin_cases u <;> simp [busy, TestUnit.law, TestUnit.reset, running, UnitMode.allows, Point.management]

theorem witness_SendCellLawKept : (busy busyStep).channel.law ∧ ∃ t, step (busy busyStep) = .next t := by
  refine ⟨⟨by simp [busy], fun cell h => ?_⟩, busy_completes⟩
  simp only [busy, Option.some.injEq] at h
  subst h
  decide +kernel

theorem witness_LatchLawKept : (busy busyStep).latchLaw ∧ ∃ t, step (busy busyStep) = .next t := by
  refine ⟨⟨busy_spans (P := fun sp => subset sp.active sp.latched) busyStep ?_ ?_, ?_⟩, busy_completes⟩ <;>
    · unfold subset; decide +kernel

theorem witness_CheckWord : (cell1 4 0 7 9)[1] = 0 ∧ meetsCheck ((cell1 4 0 7 9).set 5 1) = false := by decide +kernel

theorem witness_OrderCellRoundTrip :
    (Instr.writeBuffer 1 2 63 #v[1, 2, 3, 4, 5, 6, 7, 255]).wellFormed = true ∧
      (orderCell 31 (Instr.writeBuffer 1 2 63 #v[1, 2, 3, 4, 5, 6, 7, 255])).isSome = true ∧
      (Instr.unknownOrder 1 0xFF).wellFormed = true ∧ (orderCell 0 (Instr.unknownOrder 1 0xFF)).isSome = true := by
  decide +kernel

theorem witness_DirectOrderIsTaking :
    (Instr.setDrift 1 15 7 0).wellFormed = true ∧ (orderCell 4 (Instr.setDrift 1 15 7 0)).isSome = true ∧
      State.reset.officeRuns = true := by decide +kernel

/-- An empty cell; a cell that fails the check; a cell for another station; a cell for this station and one for all. -/
theorem witness_CellExamination :
    (holding (cell1 0 0 0 0)).channel.framed = true ∧ (holding (cell1 0 0 0 0)).channel.receive[1] = 0 ∧
    (let c := (cell1 0 0x12 1 2).set 5 1; (holding c).channel.receive[1] ≠ 0 ∧ meetsCheck (holding c).channel.receive = false) ∧
    (let c := cell1 30 0x12 1 2
     (holding c).channel.receive[1] ≠ 0 ∧ meetsCheck (holding c).channel.receive = true ∧
       (holding c).channel.receive[0].toNat ≠ (holding c).restart.station.toNat ∧ (holding c).channel.receive[0] ≠ 31) ∧
    (let c := cell1 0 0x12 1 2
     (holding c).channel.receive[1] ≠ 0 ∧ meetsCheck (holding c).channel.receive = true ∧
       (holding c).channel.receive[0].toNat = (holding c).restart.station.toNat) ∧
    (holding (cell1 31 0x12 1 2)).channel.receive[0] = 31 := by decide +kernel

/-- The same cells before an office superframe boundary, byte 15 coming with its egress frame. -/
def cellBefore (cell : Cell) : State := atNumber 15 (holding (cell.set 15 0))

theorem witness_CellExamination_at_boundary (cell : Cell) :
    (cellBefore cell).officeRuns = true ∧ ((cellBefore cell).frameNumber.toNat + 1) % 16 = 0 ∧ (cellBefore cell).channel.framed = true ∧
    (cellBefore cell).channel.receive.set 15 ((Vector.replicate 640 (0 : Byte)).set 0 cell[15])[0] = cell ∧ (cellBefore cell).dueLaw ∧
    (∀ u : Fin 4, (cellBefore cell).units[u].point.management = false) ∧ Handling.orderChannel ∉ ([.units] : List Handling) ∧
    (State.reset.frameNumber.toNat + 1) % 16 ≠ 0 ∧ (atNumber 15 State.reset).channel.framed = false := by
  refine ⟨rfl, by simp [cellBefore, atNumber], rfl, ?_, ?_, ?_, by decide, by decide, rfl⟩
  · simp [cellBefore, atNumber, holding]
  · simp [State.dueLaw, cellBefore, atNumber, holding, State.reset, Highway.reset, ChannelMap.reset]
  · intro u; simp [cellBefore, atNumber, holding, State.reset, TestUnit.reset, Point.management]

theorem witness_SuperframeBoundarySends :
    (busy busyStep).officeRuns = true ∧ (busy busyStep).superframeNext = true ∧ (busy busyStep).channel.reply.isSome = true ∧
      (busy busyStep).takesNoOrder ∧ Handling.orderChannel ∉ ([.outputs, .number] : List Handling) ∧
      (atNumber 31 State.reset).superframeNext = true ∧ (atNumber 31 State.reset).channel.reply = none ∧
      (atNumber 31 State.reset).takesNoOrder := by
  unfold State.takesNoOrder; decide +kernel

theorem witness_UnknownOrderAnswered :
    (0xFF : Byte) ≠ 0 ∧ (0xFF : Byte) ∉ assignedCodes ∧ (cell1 0 0xFF 9 0)[1] = 0xFF ∧ (cell1 0 0xFF 9 0)[2] = 9 ∧
      State.reset.officeRuns = true := by decide +kernel

theorem witness_RestartBegins :
    (heldBy .cold true true).restart.inProgress.isSome = true ∧ (heldBy .cold true true).restart.resetLow = true ∧
      State.reset.restart.inProgress = none ∧ (heldBy .powerOn false true).restart.resetLow = false ∧
      (heldBy .powerOn false true).restart.inProgress = some .powerOn ∧ actsInRestart (.identify 1) = false := by decide +kernel

theorem witness_RestartEnds :
    ((heldBy .cold true true).restart.inProgress = some .cold ∧ (heldBy .cold true true).restart.supplyUp = true) ∧
    ((heldBy .powerOn true false).restart.inProgress = some .powerOn ∧ (heldBy .powerOn true false).restart.supplyUp = false) ∧
    State.reset.restart.inProgress = none := by decide +kernel

theorem witness_RestartRecord :
    (heldBy .powerOn true true).restart.supplyUp = true ∧ (heldBy .powerOn true true).restart.inProgress = some .powerOn ∧
    (heldBy .cold true true).restart.inProgress = some .cold ∧ (∃ t, exec (.restartEnd 31) (heldBy .cold true true) = .next t) ∧
    State.reset.officeRuns = true ∧ (∃ t, exec (.spanRestart 1 15) State.reset = .next t) :=
  ⟨rfl, rfl, rfl, ⟨_, rfl⟩, rfl, ⟨_, rfl⟩⟩

theorem witness_WarmRestart : State.reset.officeRuns = true := rfl

theorem witness_IdentifyReply :
    State.reset.officeRuns = true ∧ State.reset.restart.cause = .powerOn ∧
      (after (.restartEnd 31) (heldBy .cold true true)).restart.cause = .cold ∧
      (after (.warmRestart 1) State.reset).restart.cause = .warm := by decide +kernel

theorem witness_ClockPresentEvents :
    (on0 (live (.hunt 0))).officeRuns = true ∧
    (let sp := ({ live .absent with rx := { Receiver.reset with aligner := .absent } }); sp.record.enable = true ∧ sp.rx.clockPresent = false) ∧
    ((Span.reset).record.enable = false ∧ (live (.hunt 0)).rx.clockPresent = true) ∧
    ((live (.hunt 0)).record.enable = true ∧ (live (.hunt 0)).rx.aligner.aligned = false) ∧
    ((attached 1 0).record.enable = true ∧ (attached 1 0).rx.clockPresent = true ∧ (attached 1 0).rx.aligner.aligned = true) ∧
    ((attached 336 0).store.dryBy 336 = true ∧ (attached 337 0).store.dryBy 336 = false ∧ (attached 337 0).store.readPos < 1344) := by
  decide +kernel

/-- A window of ones at a span whose BLANK streak stands at 1, in each of the aligner's states. -/
def blanking (a : Aligner) : Span :=
  { live a with win := { LineWindows.reset with windows := 15, periodWindows := 15, blank := ⟨false, true⟩ } }

theorem witness_LineWindowEnds :
    (on0 (blanking (.locked 5))).officeRuns = true ∧ ((on0 (blanking (.locked 5))).span 0).sampling = true ∧
    ((on0 (blanking (.locked 5))).span 0).win.periodWindows < 16 ∧ ((on0 (blanking (.locked 5))).span 0).rx.aligner.aligned = true ∧
    (blanking (.locked 5)).win.arises ((after (.lineWindowEnd ⟨0, 0⟩ (Vector.replicate 336 7)) (on0 (blanking (.locked 5)))).span 0).win = true ∧
    (blanking (.verify 7 2 1)).win.arises
      ((after (.lineWindowEnd ⟨0, 0⟩ (Vector.replicate 336 7)) (on0 (blanking (.verify 7 2 1)))).span 0).win = true ∧
    (blanking (.locked 5)).win.arises
      ((after (.lineWindowEnd ⟨0, 0⟩ (Vector.ofFn fun i => if i.val < 3 then 0 else 7)) (on0 (blanking (.locked 5)))).span 0).win = false ∧
    (on0 { blanking (.hunt 9) with win := { LineWindows.reset with periodWindows := 16 } }).officeRuns = true ∧
    ({ blanking (.hunt 9) with win := { LineWindows.reset with periodWindows := 16 } }).sampling = true ∧
    Span.reset.sampling = false := by decide +kernel

theorem witness_AlignerEvents :
    (on0 (live (.hunt 100))).officeRuns = true ∧ (100 ≤ (100 : Nat)) ∧ (live (.hunt 100)).win.held = false ∧
    (live (.verify 100 0 0)).rx.aligner = .verify 100 0 0 ∧ 436 = 100 + 336 * (0 + 1) ∧
    (live (.verify 100 1 1)).rx.aligner = .verify 100 1 1 ∧ (live (.verify 100 2 1)).rx.aligner = .verify 100 2 1 ∧
    (live (.verify 100 2 1)).store.state = .detached ∧
    (live (.locked 100)).rx.aligner = .locked 100 ∧ (live (.flywheel 100 1)).rx.aligner = .flywheel 100 1 ∧
    (live (.flywheel 100 3)).rx.aligner = .flywheel 100 3 := by decide +kernel

/-- A CENTRING store with this fill and this write position. -/
def centring (fill writePos : Nat) : Span :=
  { live (.locked 0) with store := { Store.reset with state := .centring, fill := fill, writePos := writePos } }

theorem witness_AlignedFrameWritten :
    (on0 (centring 1344 1343)).officeRuns = true ∧ (centring 1344 1343).rx.aligner.aligned = true ∧
    (centring 1344 1343).store.state = .centring ∧ (List.replicate 336 (7 : Looks)).length = 336 ∧ (centring 1344 1343).rx.frameBit = 0 ∧
    (centring 1344 1343).store.writePos < 1344 ∧ (centring 0 0).store.writePos < 1344 ∧
    (let st := (attached 1343 0).store
     st.state = .attached ∧ st.readPos < 1344 ∧ min 336 336 - st.out.length < st.fill ∧
       st.fill - (min 336 336 - st.out.length) + 336 ≤ 1343 ∧ st.writePos < 1344) ∧
    (let st := { (centring 1344 1343).store with state := .faulted, lastFault := .underrun }
     st.state = .faulted ∧ st.lastFault ≠ .overrun) ∧
    (octetAt (List.replicate 336 true) 8).getLsbD 6 = true ∧ (octetAt (List.replicate 336 false) 8).getLsbD 6 = false := by
  decide +kernel

theorem witness_SuperframeAlignment :
    (SuperframeState.search (some 14) = .search (some 14) ∧ 14 < 15) ∧ (SuperframeState.locked 15 true ≠ .locked 0 true) ∧
      (1 : Fin 16) ≠ 0 ∧ (14 : Fin 16) ≠ 15 ∧ (0x2C : Byte) ≠ 0x2D := by decide

theorem witness_SetSpanActs :
    State.reset.officeRuns = true ∧ (on0 (attached 1 0)).officeRuns = true ∧ (attached 1 0).record.enable = true ∧
    (attached 1 0).rx.aligner.aligned = true ∧ Span.reset.record.enable = false ∧ 15 < (16 : Byte).toNat ∧ 1 < (2 : Byte).toNat ∧
    2 < (3 : Byte).toNat := by decide +kernel

theorem witness_SpanRestarts : (on0 (attached 1 0)).officeRuns = true ∧ 15 < (16 : Byte).toNat := by decide +kernel

theorem witness_ReadSpanReply : (on0 (live (.flywheel 9 3))).officeRuns = true ∧ 15 < (16 : Byte).toNat := by decide +kernel

theorem witness_StoreFaults :
    (on0 (attached 336 0)).officeRuns = true ∧ (attached 336 0).store.state = .attached ∧ 1 ≤ (attached 336 0).store.fill ∧
    (attached 336 0).store.fill + (attached 336 0).store.out.length ≤ 336 ∧ (attached 336 0).store.readPos < 1344 ∧
    (attached 1 335).store.readPos < 1344 ∧
    (attached 1 335).store.fill + (attached 1 335).store.out.length ≤ 336 ∧
    (attached 1343 0).rx.aligner.aligned = true ∧ (attached 1343 0).store.writePos < 1344 ∧ (attached 1343 0).store.fill = 1343 ∧
    (let st := { (attached 1343 0).store with state := .faulted, lastFault := .overrun }
     st.state = .faulted ∧ st.lastFault = .overrun) ∧
    (on0 (attached 336 0)).takesNoOrder ∧ (atNumber 15 (on0 (attached 336 0))).takesNoOrder := by
  unfold State.takesNoOrder; decide +kernel

theorem witness_SetThresholdsStores : State.reset.officeRuns = true ∧ 15 < (16 : Byte).toNat := by decide +kernel

theorem witness_StoreAndDriftOrders :
    State.reset.officeRuns = true ∧ 15 < (16 : Byte).toNat ∧ (attached 1343 0).store.lastFill < 65536 ∧
    (attached 1343 0).store.lowStored < 65536 ∧ (attached 1343 0).store.highStored < 65536 ∧ Meter.reset.k ≤ 7 := by decide +kernel

theorem witness_DriftSample :
    Meter.reset.baseline = none ∧ ({ Meter.reset with baseline := some 672, limit := 1 } : Meter).baseline = some 672 ∧
    ({ Meter.reset with baseline := some 672, limit := 1 } : Meter).limit ≠ 0 ∧ Meter.reset.limit = 0 ∧
    ((-255 : Int) ≤ 256 * 0) ∧ ((256 : Int) * 0 ≤ 1) ∧
    (let s := atNumber 15 (on0 (attached 504 0))
     s.officeRuns = true ∧ (s.frameNumber.toNat + 1) % 16 = 0 ∧ s.takesNoOrder ∧ (s.span 0).store.state = .attached ∧
       336 - (s.span 0).store.out.length < (s.span 0).store.fill) ∧
    ((centring 672 1343).store.state = .centring ∧ 672 ≤ (centring 672 1343).store.fill ∧
      (centring 671 1343).store.fill < 672 ∧ { (centring 671 1343).store with state := .faulted }.fill < 672 ∧
      (overrun 336).state = .faulted ∧ 672 ≤ (overrun 336).fill ∧
      Span.reset.store.state = .detached) := by
  unfold State.takesNoOrder; decide +kernel

theorem witness_DriftOffsetRule : (-32512 : Int).natAbs ≤ 32512 := by decide

theorem witness_ReferenceEvents :
    State.reset.officeRuns = true ∧ (State.reset.span 3).rx.aligner.aligned = false ∧
    ((on0 (attached 1 0)).span 0).rx.aligner.aligned = true ∧ (on0 (attached 1 0)).feeds (.span 0) 2 ∧
    (looped (acquiring 0 0)).timing.loop.selected = some 0 ∧ (looped (acquiring 0 0)).feeds .refA 0 ∧
    ¬(looped (acquiring 0 0)).feeds .refB 0 ∧ (looped (acquiring 0 0)).timing.detector.zero = none ∧
    (looped (acquiring 0 0)).timing.loop.state = .acquiring ∧
    (let s := { looped (acquiring 0 0) with timing := { (looped (acquiring 0 0)).timing with detector := { Detector.reset with zero := some 5 } } }
     s.timing.detector.zero = some 5) ∧
    (let r : OutputRecord := { OutputRecord.reset with enable := true, source := .entry 0 }
     r.source = .entry 0 ∧ r.squelch = true ∧ (State.reset.entry 0).state = .qualifying) ∧
    (let r : OutputRecord := { OutputRecord.reset with enable := true, squelch := false, rate := .r2000 }
     r.enable = true ∧ r.source = .office ∧ ((after (.officeFrameBoundary (Vector.replicate 640 0) [] false)
       (atNumber 3 { State.reset with timing := { Timing.reset with tob := { TimingOutput.reset with stored := r } } })).timing.tob.pulses = 1)) ∧
    State.reset.takesNoOrder ∧ Handling.outputs ∉ ([] : List Handling) := by
  unfold State.takesNoOrder State.feeds; decide +kernel

theorem witness_QualificationAndTimeout :
    (let s := (atNumber 15 State.reset).setEntry 0 { qualified0 with state := .qualifying, count := 63 }
     s.officeRuns = true ∧ s.superframeNext = true ∧ (s.entry 0).state = .qualifying ∧
       (s.entry 0).count + 1 = (s.entry 0).target.superframes) ∧
    (let s := looped { acquiring 3 255 with timeoutDue := true }
     s.officeRuns = true ∧ s.timing.loop.state = .acquiring ∧ s.timing.loop.selected = some 0 ∧ s.timing.loop.timeoutDue = true) ∧
    State.reset.timing.loop.timeoutDue = false := by
  decide +kernel

theorem witness_BoundaryStages :
    (let x := { qualified0 with state := .qualifying, count := 62 }
     x.state = .qualifying ∧ x.count + 1 < x.target.superframes) ∧
    (let s := looped { acquiring 3 255 with fresh := false }
     s.timing.loop.state = .acquiring ∧ s.timing.loop.fresh = false ∧ s.timing.loop.acqCount = 255) ∧
    (State.reset.setEntry 0 qualified0).timing.best = some 0 ∧ (State.reset.setEntry 0 qualified0).timing.mode = .auto ∧
    (State.reset.setEntry 0 qualified0).timing.loop.selected = none ∧ (looped (acquiring 0 0)).timing.best = some 0 ∧
    (∀ e, (State.reset.entry e).state ≠ .qualified) ∧
    ((busy busyStep).officeRuns = true ∧ ((busy busyStep).frameNumber.toNat + 1) % 16 = 0 ∧ (busy busyStep).takesNoOrder ∧
      (busy busyStep).timing.law ∧ (busy busyStep).entriesFollow ∧ ((busy busyStep).entry 2).state = .disabled ∧
      ((busy busyStep).entry 3).state = .disabled ∧ (busy busyStep).timing.loop.timeoutDue = false ∧
      (busy busyStep).timing.mode = .auto) ∧
    (Timing.reset.loop.state = .free ∧ (acquiring 0 0).state = .acquiring ∧
      ({ Detector.reset with frequency := some 150 } : Detector).frequency = some 150) := by
  refine ⟨by decide +kernel, by decide +kernel, by decide +kernel, rfl, rfl, by decide +kernel, by decide +kernel,
    ⟨rfl, rfl, .inr (.inr rfl), witness_TimingLawKept.1.1, witness_TimingLawKept.1.2, rfl, rfl, rfl, rfl⟩, rfl, rfl, rfl⟩

theorem witness_SetReferenceActs :
    State.reset.officeRuns = true ∧ 3 < (4 : Byte).toNat ∧ 4 < (5 : Byte).toNat ∧
    (looped (acquiring 0 0)).timing.loop.selected = some 0 ∧ (State.reset.entry 2).enable = false ∧
    State.reset.faultOf 2 0 = some .notAligned ∧ (on0 (attached 1 0)).faultOf 2 0 = none ∧ (State.reset.entry 0).enable = true ∧
    QPeriod.q1024.code = 3 ∧ Fin.ofNat 16 (15 : Byte).toNat = (15 : Fin 16) ∧
    (let s := (on0 (attached 1 0)).setEntry 2 { RefEntry.resetTable[(2 : Fin 4)] with enable := true, state := .faulted, span := 5 }
     (s.entry 2).enable = true ∧ (0 : Fin 16) ≠ (s.entry 2).span ∧ s.faultOf 2 0 = none ∧ s.faultOf 2 15 = some .notAligned ∧
       s.timing.loop.selected ≠ some 2) := by decide +kernel

theorem witness_ModeAndSelection :
    State.reset.officeRuns = true ∧ State.reset.timing.mode = .auto ∧ 3 < (4 : Byte).toNat ∧ 1 < (2 : Byte).toNat ∧
    (let s := after (.setTimingMode 1 1 0) (looped (acquiring 0 0))
     s.officeRuns = true ∧ s.timing.mode = .manual ∧ s.timing.loop.selected = some 0 ∧ s.timing.loop.selected ≠ some 3 ∧
       (s.entry 3).state ≠ .qualified) ∧
    (let s := after (.setTimingMode 1 1 0) (State.reset.setEntry 0 qualified0)
     s.timing.loop.selected ≠ some 0 ∧ (s.entry 0).state = .qualified) := by decide +kernel

theorem witness_TimingReadsAndOutputs :
    State.reset.officeRuns = true ∧ 3 < (4 : Byte).toNat ∧ qualified0.count < 65536 ∧ (acquiring 3 255).acqCount < 65536 ∧
    1 < (2 : Byte).toNat ∧ 4 < (5 : Byte).toNat ∧ 2 < (3 : Byte).toNat := by decide +kernel

theorem witness_MapEntries :
    State.reset.officeRuns = true ∧ 3 < (4 : Byte).toNat ∧ 159 < (160 : Byte).toNat ∧ 39 < (40 : Byte).toNat ∧
    State.reset.highway.ingress.request = .absent ∧ (busy busyStep).highway.ingress.request ≠ .absent ∧
    ((159 : Byte) = BitVec.ofNat 8 (159 : Fin 160).val) ∧ (EgressEntry.office 0 1 ≠ .office 0 0) := by decide +kernel

theorem witness_SwapAndCopy :
    (busy busyStep).officeRuns = true ∧ (busy busyStep).highway.ingress.request ≠ .absent ∧
    State.reset.highway.ingress.request = .absent ∧ 2 < (3 : Byte).toNat ∧ (2 : Byte).toNat ≤ 2 ∧
    ((busy busyStep).frameNumber.toNat + 1) % 16 = 0 ∧ (busy busyStep).channel.receive[1] = 0 := by decide +kernel

/-- A boundary within a superframe that takes no order, with a request pending and no timer swap: the timer that matches
there is a MARK. -/
def askedWithin : State :=
  after (.swapMaps 1 0) { atNumber 0 State.reset with
    timers := (Vector.replicate 4 Timer.reset).set 1 { Timer.reset with armed := true, matchAt := 1 } }

theorem witness_SwapAndCopy_within :
    askedWithin.officeRuns = true ∧ askedWithin.takesNoOrder ∧ (askedWithin.frameNumber.toNat + 1) % 16 ≠ 0 ∧
    askedWithin.highway.ingress.request ≠ .absent ∧ askedWithin.highway.egress.request = .absent ∧
    (∀ k : Fin 4, askedWithin.timers[k].action ≠ .swapIngress ∧ askedWithin.timers[k].action ≠ .swapEgress ∧
      askedWithin.timers[k].action ≠ .swapBoth) :=
  ⟨rfl, .inl (by decide +kernel), by decide +kernel, by decide +kernel, by decide +kernel, by decide +kernel⟩

theorem test_swap_waits_for_the_superframe :
    let t := after (.officeFrameBoundary (Vector.replicate 640 0) [] false) askedWithin
    t.highway.ingress.request = .pending false ∧ t.highway.ingress.active = 0 ∧ t.highway.egress.active = 0 := by
  decide +kernel

theorem witness_TimerWrites :
    State.reset.officeRuns = true ∧ 3 < (4 : Byte).toNat ∧ (0xFFFF : Word) ≠ 0 ∧ (3 : Byte).toNat ≤ 3 := by decide +kernel

theorem witness_ReadTimerReply : State.reset.officeRuns = true ∧ 3 < (4 : Byte).toNat := by decide +kernel

theorem witness_FrameNumberForms :
    State.reset.officeRuns = true ∧ (15 : FrameNumber).toNat % 16 ≠ 0 ∧ (16777200 : FrameNumber).toNat % 16 = 0 ∧
    (busy busyStep).dueLaw ∧ ((busy busyStep).frameNumber.toNat + 1) % 16 = 0 ∧ (busy busyStep).pendingNumber = some ⟨32, false⟩ ∧
    (busy busyStep).channel.receive[1] = 0 ∧ ((atNumber 16777215 State.reset).frameNumber.toNat + 1) % 16 = 0 ∧
    (atNumber 16777215 State.reset).pendingNumber = none ∧ (State.reset.frameNumber.toNat + 1) % 16 ≠ 0 := by
  refine ⟨rfl, by decide, by decide, witness_RecordLawsKept.2.1, rfl, rfl, rfl, by decide +kernel, rfl, by decide +kernel⟩

/-- A state before a boundary within a superframe whose timer 1 is armed and matches there. -/
def matching (x : Timer) : State := { atNumber 0 State.reset with timers := (Vector.replicate 4 Timer.reset).set 1 x }

theorem witness_TimerMatches :
    (matching { Timer.reset with armed := true, matchAt := 1, action := .swapBoth, mode := .periodic }).officeRuns = true ∧
    (matching { Timer.reset with armed := true, matchAt := 1 }).dueLaw ∧
    (matching { Timer.reset with armed := true, matchAt := 1 }).takesNoOrder ∧
    ((matching { Timer.reset with armed := true, matchAt := 1 }).frameNumber.toNat + 1) % 16 ≠ 0 ∧
    ((matching { Timer.reset with armed := true, matchAt := 1 }).timers[(1 : Fin 4)]).matchAt =
      (after (.officeFrameBoundary (Vector.replicate 640 0) [] false)
        (matching { Timer.reset with armed := true, matchAt := 1 })).frameNumber ∧
    (matching { Timer.reset with armed := true, matchAt := 1, action := .selectReference, param := 3 }).timing.mode = .auto ∧
    (busy busyStep).takesNoOrder ∧ ((busy busyStep).frameNumber.toNat + 1) % 16 = 0 := by
  refine ⟨rfl, ?_, .inl (by decide +kernel), by decide +kernel, by decide +kernel, rfl, .inr (.inr rfl), rfl⟩
  simp [State.dueLaw, matching, atNumber, State.reset, Highway.reset, ChannelMap.reset]

/-- A state in MANUAL mode before a boundary within a superframe, pulses seen at REFA and REFB, entry 0 QUALIFIED, whose
timer 1 is armed and matches there with a selection request for entry `e`. -/
def requesting (e : Fin 4) (l : Loop) : State :=
  let s := matching { Timer.reset with armed := true, matchAt := 1, action := .selectReference, param := e }
  { s with timing := { Timing.reset with
      entries := RefEntry.resetTable.set 0 qualified0, mode := .manual, loop := l
      monitorA := ⟨false, 0, true⟩, monitorB := ⟨false, 0, true⟩ } }

/-- The boundary at which the request matches. -/
def requested (e : Fin 4) (l : Loop) : State :=
  after (.officeFrameBoundary (Vector.replicate 640 0) [] false) (requesting e l)

/-- A selection request for the QUALIFIED entry, for one that is not, and for the entry selected. -/
theorem witness_TimerMatches_selection :
    (requesting 0 Loop.reset).timing.loop.selected ≠ some 0 ∧ ((requesting 0 Loop.reset).entry 0).state = .qualified ∧
    ((requesting 1 Loop.reset).entry 1).state ≠ .qualified ∧ (requesting 1 Loop.reset).timing.loop.selected ≠ some 1 ∧
    (requesting 0 (acquiring 2 255)).timing.loop.selected = some 0 ∧
    (∀ k : Fin 4, k ≠ 1 → (requesting 0 Loop.reset).timers[k].armed = false) ∧
    (requesting 0 Loop.reset).timers[(1 : Fin 4)].armed = true ∧ (requesting 0 Loop.reset).timing.mode = .manual := by
  decide +kernel

theorem witness_TimerMatches_at_boundary : (requested 0 Loop.reset).frameNumber = 1 := by decide +kernel

theorem witness_TimerMatches_selects :
    (requested 0 Loop.reset).timing.entries.map RefEntry.state = (requesting 0 Loop.reset).timing.entries.map RefEntry.state := by
  decide +kernel

theorem witness_TimerMatches_not_qualified :
    (requested 1 Loop.reset).timing.entries.map RefEntry.state = (requesting 1 Loop.reset).timing.entries.map RefEntry.state := by
  decide +kernel

theorem witness_TimerMatches_selected :
    (requested 0 (acquiring 2 255)).timing.entries.map RefEntry.state =
      (requesting 0 (acquiring 2 255)).timing.entries.map RefEntry.state := by
  decide +kernel

theorem witness_TimerMatches_settings (e : Fin 4) (l : Loop) (m : Fin 16) :
    ((requesting e l).span m).meter.kStored = ((requesting e l).span m).meter.k ∧
    ((requesting e l).span m).meter.limitStored = ((requesting e l).span m).meter.limit := by
  simp [requesting, matching, atNumber, State.span, State.reset, Span.reset, Meter.reset]

theorem witness_TimerMatches_laws : (requesting 0 (acquiring 2 255)).timing.law ∧ (requesting 0 (acquiring 2 255)).dueLaw ∧
    (requesting 1 Loop.reset).timing.law ∧ (requesting 1 Loop.reset).dueLaw := by
  have hd : ∀ e l, (requesting e l).dueLaw := fun e l => by
    simp [State.dueLaw, requesting, matching, atNumber, State.reset, Highway.reset, ChannelMap.reset]
  refine ⟨⟨?_, ?_⟩, hd _ _, ⟨?_, ?_⟩, hd _ _⟩
  · intro e; fin_cases e <;> simp [requesting, RefEntry.law, RefEntry.resetTable, qualified0, QPeriod.superframes]
  · simp [requesting, acquiring, inPull, Config.pullRange, Loop.reset, qualified0, RefEntry.resetTable]
  · intro e; fin_cases e <;> simp [requesting, RefEntry.law, RefEntry.resetTable, qualified0, QPeriod.superframes]
  · simp [requesting, inPull, Config.pullRange, Loop.reset]

theorem witness_SetUnitActs :
    State.reset.officeRuns = true ∧ 63 < (64 : Byte).toNat ∧ (64 : Byte).toNat ≤ 64 ∧ 64 < (65 : Byte).toNat ∧
    ((busy busyStep).units[(2 : Fin 4)]).state = .running ∧ ((busy busyStep).units[(1 : Fin 4)]).state ≠ .running ∧
    2 ≤ (3 : Byte).toNat ∧ 7 < (8 : Byte).toNat := by decide +kernel

theorem witness_UnitControlAndReads :
    State.reset.officeRuns = true ∧ 3 < (4 : Byte).toNat ∧ 63 < (64 : Byte).toNat ∧ running.state = .running ∧
    TestUnit.reset.point = .rx 0 0 := by decide +kernel

theorem witness_UnitTransfers :
    (let s := { atNumber 0 State.reset with units := (Vector.replicate 4 running).set 0 { running with remaining := 2, pointer := 2 } }
     s.officeRuns = true ∧ s.takesNoOrder ∧ (s.units[(0 : Fin 4)]).state = .running ∧
       (s.units[(0 : Fin 4)]).pending = true ∧ 1 < (s.units[(0 : Fin 4)]).remaining ∧ (s.units[(1 : Fin 4)]).remaining = 1 ∧
       (s.units[(1 : Fin 4)]).repeating = false ∧ (s.units[(1 : Fin 4)]).mode = .capture ∧ (s.units[(2 : Fin 4)]).source ≠ 7) ∧
    (busy busyStep).takesNoOrder ∧ ((busy busyStep).units[(3 : Fin 4) - 1]).remaining = 1 ∧
    TestUnit.reset.state ≠ .running ∧ ({ running with repeating := true, mode := .insert, point := .tx 0 0 }).mode = .insert := by
  unfold State.takesNoOrder; decide +kernel

theorem witness_ReadAlarmsReply : State.reset.officeRuns = true ∧ 16 < (17 : Byte).toNat := by decide +kernel

theorem witness_ClearAndCounts :
    State.reset.officeRuns = true ∧ 16 < (17 : Byte).toNat ∧ 2 < (3 : Byte).toNat ∧ (1 : Byte).toNat ≤ 1 := by decide +kernel

theorem witness_AlarmsAndSummary : State.reset.officeRuns = true := rfl

theorem witness_EgressHold :
    (holding (cell1 0 0 0 0)).officeRuns = true ∧ (holding (cell1 0 0 0 0)).channel.framed = true ∧
    ((holding (cell1 0 0 0 0)).frameNumber.toNat + 1) % 16 ≠ 0 ∧ (heldBy .cold true true).restart.inProgress.isSome = true ∧
    (heldBy .cold true true).restart.supplyUp = true ∧ (∃ t, exec (.restartEnd 0) (heldBy .cold true true) = .next t) ∧
    (∃ t, exec (.identify 0) State.reset = .next t) :=
  ⟨rfl, rfl, by decide +kernel, rfl, rfl, ⟨_, rfl⟩, ⟨_, rfl⟩⟩

theorem witness_TransmitOverhead : (on0 (live (.hunt 0))).officeRuns = true := rfl

theorem witness_SettingsIntoForce :
    State.reset.officeRuns = true ∧ (State.reset.frameNumber.toNat + 1) % 16 ≠ 0 ∧ State.reset.takesNoOrder ∧
    (atNumber 31 State.reset).takesNoOrder ∧ ((atNumber 31 State.reset).frameNumber.toNat + 1) % 16 = 0 ∧
    (State.reset.span 0).tx.modeInForce = .off ∧
    ({ Transmitter.reset with modeInForce := .normal } : Transmitter).modeInForce = .normal ∧
    (attached 503 0).store.state = .attached ∧ 1 ≤ (attached 503 0).store.fill ∧
    (attached 503 0).store.fill - (336 - (attached 503 0).store.out.length) < (attached 503 0).store.lowStored := by
  unfold State.takesNoOrder; decide +kernel

theorem witness_SlipAndCentring :
    (let s := on0 (attached 503 0)
     s.officeRuns = true ∧ s.takesNoOrder ∧ (s.span 0).store.state = .attached ∧ (s.span 0).store.readPos < 1344 ∧
       336 - (s.span 0).store.out.length < (s.span 0).store.fill ∧
       (s.span 0).store.fill - (336 - (s.span 0).store.out.length) < (s.span 0).store.lowStored) ∧
    (atNumber 15 (on0 (attached 503 0))).takesNoOrder ∧
    (attached 503 0).store.thresholds ∧ (attached 1177 336).store.highStored < (attached 1177 336).store.fill ∧
    (attached 168 336).store.lowStored ≤ (attached 168 336).store.fill ∧
    (let s := on0 (centring 672 1343); (s.span 0).store.state = .centring ∧ (s.span 0).store.writePos < 1344 ∧ 672 ≤ (s.span 0).store.fill) ∧
    (centring 671 671).store.fill < 672 := by
  unfold State.takesNoOrder Store.thresholds; decide +kernel

theorem witness_BytesChosen :
    State.reset.officeRuns = true ∧ (attached 500 336).store.out.length = 336 ∧ Span.reset.store.state ≠ .attached ∧
    Span.reset.store.out = [] ∧
    (1 ≤ (attached 32 0).store.fill ∧ (attached 32 0).store.readPos < 1344 ∧
      min (attached 32 0).store.fill (336 - (attached 32 0).store.out.length) = 8 * (1 : Fin 40).val + 24) ∧
    (let s := { State.reset with units := (Vector.replicate 4 TestUnit.reset).set 1 { running with mode := .insert, point := .ingress 3 159 } }
     s.inserts (.ingress 3 159) 1 = true ∧ s.inserts (.ingress 3 159) 0 = false) ∧
    (∀ u, State.reset.inserts (.tx 15 39) u = false) ∧ (State.reset.span 0).tx.loopbackInForce = .none := by decide +kernel

theorem witness_HighwayFrame :
    (busy busyStep).officeRuns = true ∧ (busy busyStep).channel.send = some (cell1 4 0 0 0) ∧ State.reset.channel.send = none ∧
    (State.reset.frameNumber.toNat + 1) % 16 ≠ 0 ∧ (∃ t, exec .coldRestartBegin State.reset = .next t) ∧
    (∃ t, exec (.powerOn true) State.reset = .next t) :=
  ⟨rfl, rfl, rfl, by decide +kernel, ⟨_, rfl⟩, ⟨_, rfl⟩⟩

end Sys2Proof.Tests
end

