-- ==== Sys2Proof/Proofs/SpanRules.lean ====
section
/-! What an event at one span leaves alone, and one rule for each operation on a span, field by field. -/

namespace Sys2Proof.Machine

/-! ### Events at one span -/

/-- An event at span `n` that leaves it as `sp`: everything else as `keepsBut` says, and the order channel alone. -/
def State.becomes (s : State) (n : Fin 16) (sp : Span) (t : State) : Prop :=
  t.span n = sp ∧ s.keepsBut n t ∧ t.channel = s.channel

theorem keepsBut_refl (s : State) (n : Fin 16) : s.keepsBut n s :=
  ⟨fun _ _ => rfl, rfl, rfl, rfl, rfl, rfl, rfl, fun _ => .inl rfl, fun _ => ⟨rfl, rfl, rfl, rfl⟩, rfl, rfl, rfl, rfl, rfl,
    rfl, rfl, rfl, rfl, rfl, rfl, subset_refl _⟩

theorem keepsBut_trans {s t u : State} {n : Fin 16} (h : s.keepsBut n t) (k : t.keepsBut n u) : s.keepsBut n u := by
  obtain ⟨h1, h2, h3, h4, h5, h6, h7, h8, h9, h10, h11, h12, h13, h14, h15, h16, h17, h18, h19, h20, h21⟩ := h
  obtain ⟨k1, k2, k3, k4, k5, k6, k7, k8, k9, k10, k11, k12, k13, k14, k15, k16, k17, k18, k19, k20, k21⟩ := k
  refine ⟨fun m hm => (k1 m hm).trans (h1 m hm), k2.trans h2, k3.trans h3, k4.trans h4, k5.trans h5, k6.trans h6,
    k7.trans h7, fun i => ?_, fun e => ?_, k10.trans h10, k11.trans h11, k12.trans h12, k13.trans h13, k14.trans h14,
    k15.trans h15, k16.trans h16, k17.trans h17, k18.trans h18, k19.trans h19, k20.trans h20, subset_trans h21 k21⟩
  · rcases h8 i with h | h <;> rcases k8 i with k | k <;> simp [h, k]
  · obtain ⟨a, b, c, d⟩ := h9 e
    obtain ⟨a', b', c', d'⟩ := k9 e
    exact ⟨a'.trans a, b'.trans b, c'.trans c, d'.trans d⟩

/-- Where office timing alone has acted, no span is changed. -/
theorem timingActs_span {s t : State} (h : s.timingActs t) (n : Fin 16) : t.span n = s.span n := by
  obtain ⟨-, -, hs, -⟩ := h
  simp only [State.span, hs]

/-- Office timing acting alone is within what an event at any span leaves alone. -/
theorem keepsBut_of_timingActs {s t : State} (n : Fin 16) (h : s.timingActs t) : s.keepsBut n t := by
  have hs := timingActs_span h
  obtain ⟨h1, h2, -, h4, h5, h6, h7, -, h9, h10, h11, h12, h13, h14, h15, h16, h17, -, h19, h20, h21, h22, h23⟩ := h
  exact ⟨fun m _ => hs m, h1, h2, h4, h5, h6, h7, h20, h19, h9, h10, h11, h12, h13, h14, h15, h16, h17, h21, h22, h23⟩

theorem becomes_refl (s : State) (n : Fin 16) : s.becomes n (s.span n) s := ⟨rfl, keepsBut_refl s n, rfl⟩

theorem becomes_trans {s t u : State} {n : Fin 16} {a b : Span} (h : s.becomes n a t) (k : t.becomes n b u) :
    s.becomes n b u :=
  ⟨k.1, keepsBut_trans h.2.1 k.2.1, k.2.2.trans h.2.2⟩

theorem modSpan_becomes (s : State) (n : Fin 16) (f : Span → Span) : s.becomes n (f (s.span n)) (s.modSpan n f) :=
  ⟨modSpan_span s n f, ⟨fun m hm => modSpan_span_ne s n m f hm, rfl, rfl, rfl, rfl, rfl, rfl, fun _ => .inl rfl,
    fun _ => ⟨rfl, rfl, rfl, rfl⟩, rfl, rfl, rfl, rfl, rfl, rfl, rfl, rfl, rfl, rfl, rfl, subset_refl _⟩, rfl⟩

theorem publish_becomes (s : State) (n : Fin 16) : s.becomes n (s.span n).latch (s.publish n) := by
  obtain ⟨h, hn, -⟩ := publish_spec s n
  have hc : (s.publish n).channel = s.channel := h.2.2.2.2.2.2.2.1
  exact ⟨hn, keepsBut_trans (modSpan_becomes s n Span.latch).2.1 (keepsBut_of_timingActs n h), hc⟩

theorem offerSpanTrigger_becomes (s : State) (src : Fin 8) (n : Fin 16) :
    s.becomes n (s.span n) (s.offerSpanTrigger src n) := by
  refine ⟨rfl, ⟨fun _ _ => rfl, rfl, rfl, rfl, rfl, rfl, rfl, fun u => ?_, fun _ => ⟨rfl, rfl, rfl, rfl⟩, rfl, rfl, rfl, rfl,
    rfl, rfl, rfl, rfl, rfl, rfl, rfl, subset_refl _⟩, rfl⟩
  rw [offerSpanTrigger_unit]
  split
  · exact .inr rfl
  · exact .inl rfl

namespace State.becomes

variable {s t : State} {n : Fin 16} {sp : Span}

theorem modSpan (h : s.becomes n sp t) (f : Span → Span) : s.becomes n (f sp) (t.modSpan n f) := by
  have k := modSpan_becomes t n f
  rw [h.1] at k
  exact becomes_trans h k

theorem publish (h : s.becomes n sp t) : s.becomes n sp.latch (t.publish n) := by
  have k := publish_becomes t n
  rw [h.1] at k
  exact becomes_trans h k

theorem offer (h : s.becomes n sp t) (src : Fin 8) : s.becomes n sp (t.offerSpanTrigger src n) := by
  have k := offerSpanTrigger_becomes t src n
  rw [h.1] at k
  exact becomes_trans h k

theorem readSide (h : s.becomes n sp t) (r : Nat) : s.becomes n (sp.readTo r).latch (t.readSide n r) :=
  (h.modSpan fun sp => sp.readTo r).publish

end State.becomes

/-! ### Reads and writes of the store, which leave the line side and the transmitter alone -/

@[simp] theorem withStore_record (sp : Span) (st : Store) : (sp.withStore st).record = sp.record := by
  unfold Span.withStore; split <;> rfl
@[simp] theorem withStore_rx (sp : Span) (st : Store) : (sp.withStore st).rx = sp.rx := by
  unfold Span.withStore; split <;> rfl
@[simp] theorem withStore_win (sp : Span) (st : Store) : (sp.withStore st).win = sp.win := by
  unfold Span.withStore; split <;> rfl
@[simp] theorem withStore_sf (sp : Span) (st : Store) : (sp.withStore st).sf = sp.sf := by
  unfold Span.withStore; split <;> rfl
@[simp] theorem withStore_tx (sp : Span) (st : Store) : (sp.withStore st).tx = sp.tx := by
  unfold Span.withStore; split <;> rfl
@[simp] theorem withStore_store (sp : Span) (st : Store) : (sp.withStore st).store = st := by
  unfold Span.withStore; split <;> rfl

/-- A store that stays out of FAULTED, or was not ATTACHED, brings no fault. -/
theorem withStore_of_no_fault (sp : Span) (st : Store) (h : sp.store.state ≠ .attached ∨ st.state ≠ .faulted) :
    sp.withStore st = { sp with store := st } := by
  unfold Span.withStore
  exact if_neg fun k => h.elim (fun a => a k.1) (fun a => a k.2)

/-- A run of reads keeps a projection of the span that giving it another store keeps. -/
theorem readBits_keeps {α : Sort _} (p : Span → α) (h : ∀ sp st, p (sp.withStore st) = p sp) (k : Nat) (sp : Span) :
    p (sp.readBits k) = p sp := by
  induction k generalizing sp with
  | zero => rfl
  | succ k ih =>
    unfold Span.readBits
    split
    · rw [ih, h]
    · rfl

@[simp] theorem readTo_record (sp : Span) (r : Nat) : (sp.readTo r).record = sp.record :=
  readBits_keeps Span.record withStore_record _ sp
@[simp] theorem readTo_rx (sp : Span) (r : Nat) : (sp.readTo r).rx = sp.rx := readBits_keeps Span.rx withStore_rx _ sp
@[simp] theorem readTo_win (sp : Span) (r : Nat) : (sp.readTo r).win = sp.win := readBits_keeps Span.win withStore_win _ sp
@[simp] theorem readTo_sf (sp : Span) (r : Nat) : (sp.readTo r).sf = sp.sf := readBits_keeps Span.sf withStore_sf _ sp
@[simp] theorem readTo_tx (sp : Span) (r : Nat) : (sp.readTo r).tx = sp.tx := readBits_keeps Span.tx withStore_tx _ sp

theorem readBits_rx (sp : Span) (k : Nat) : (sp.readBits k).rx = sp.rx := readBits_keeps Span.rx withStore_rx k sp

/-! ### Latching -/

@[simp] theorem latch_record (sp : Span) : sp.latch.record = sp.record := rfl
@[simp] theorem latch_rx (sp : Span) : sp.latch.rx = sp.rx := rfl
@[simp] theorem latch_win (sp : Span) : sp.latch.win = sp.win := rfl
@[simp] theorem latch_sf (sp : Span) : sp.latch.sf = sp.sf := rfl
@[simp] theorem latch_tx (sp : Span) : sp.latch.tx = sp.tx := rfl
@[simp] theorem latch_store (sp : Span) : sp.latch.store = sp.store := rfl
@[simp] theorem latch_meter (sp : Span) : sp.latch.meter = sp.meter := rfl
@[simp] theorem latch_counts (sp : Span) : sp.latch.counts = sp.counts := rfl
@[simp] theorem latch_latched (sp : Span) : sp.latch.latched = sp.latched ||| sp.active := rfl
@[simp] theorem latch_active (sp : Span) : sp.latch.active = sp.active := rfl

/-! ### Moves of the aligner (R7 to R12) -/

@[simp] theorem toAligner_record (sp : Span) (a : Aligner) : (sp.toAligner a).record = sp.record := by
  unfold Span.toAligner; split_ifs <;> rfl
@[simp] theorem toAligner_aligner (sp : Span) (a : Aligner) : (sp.toAligner a).rx.aligner = a := by
  unfold Span.toAligner; split_ifs <;> rfl
@[simp] theorem toAligner_clockPresent (sp : Span) (a : Aligner) :
    (sp.toAligner a).rx.clockPresent = sp.rx.clockPresent := by
  unfold Span.toAligner; split_ifs <;> rfl
@[simp] theorem toAligner_win (sp : Span) (a : Aligner) : (sp.toAligner a).win = sp.win := by
  unfold Span.toAligner; split_ifs <;> rfl
@[simp] theorem toAligner_tx (sp : Span) (a : Aligner) : (sp.toAligner a).tx = sp.tx := by
  unfold Span.toAligner; split_ifs <;> rfl
@[simp] theorem toAligner_counts (sp : Span) (a : Aligner) : (sp.toAligner a).counts = sp.counts := by
  unfold Span.toAligner; split_ifs <;> rfl
@[simp] theorem toAligner_latched (sp : Span) (a : Aligner) : (sp.toAligner a).latched = sp.latched := by
  unfold Span.toAligner; split_ifs <;> rfl

/-- A move within alignment changes the aligner alone (R10, R12). -/
theorem toAligner_of_aligned (sp : Span) (a : Aligner) (h : a.aligned = true) :
    sp.toAligner a = { sp with rx := { sp.rx with aligner := a } } := by
  simp [Span.toAligner, h]

/-- A move out of alignment: no aligned frame stays in progress, and the superframe aligner, the store and the meter
follow (R12, R14, R28, R50). -/
theorem toAligner_leaving (sp : Span) (a : Aligner) (h : a.aligned = false) (k : sp.rx.aligner.aligned = true) :
    sp.toAligner a =
      { sp with
        rx := { sp.rx with aligner := a, frameBit := 0, overhead := 0 }
        sf := sp.sf.toSearch, store := sp.store.detach, meter := sp.meter.storeLeft } := by
  simp [Span.toAligner, h, k, Span.leaveAlignment]

/-- A move where there is no alignment changes the receiver alone. -/
theorem toAligner_unaligned (sp : Span) (a : Aligner) (h : a.aligned = false) (k : sp.rx.aligner.aligned = false) :
    sp.toAligner a = { sp with rx := { sp.rx with aligner := a, frameBit := 0, overhead := 0 } } := by
  simp [Span.toAligner, h, k]

/-- The superframe aligner under a move of the frame aligner (R14). -/
theorem toAligner_sf (sp : Span) (a : Aligner) :
    (sp.toAligner a).sf = if a.aligned = false ∧ sp.rx.aligner.aligned = true then sp.sf.toSearch else sp.sf := by
  cases ha : a.aligned
  · cases hs : sp.rx.aligner.aligned
    · simp [toAligner_unaligned sp a ha hs]
    · simp [toAligner_leaving sp a ha hs]
  · simp [toAligner_of_aligned sp a ha]

/-! ### One bit of the aligned stream (R12) -/

/-- The overhead octet in progress with one more bit. -/
def nextOverhead (o : Byte) (b : Bool) : Byte := (o <<< 1) ||| (if b then 1 else 0)

theorem receiveBit_rx (sp : Span) (b : Bool) :
    (sp.receiveBit b).rx =
      { sp.rx with
        frameBit := (sp.rx.frameBit + 1) % 336
        overhead := if 8 ≤ sp.rx.frameBit ∧ sp.rx.frameBit < 16 then nextOverhead sp.rx.overhead b else sp.rx.overhead } := by
  by_cases h : sp.rx.frameBit = 15 <;> simp [Span.receiveBit, Span.overheadOctet, nextOverhead, h]

@[simp] theorem receiveBit_aligner (sp : Span) (b : Bool) : (sp.receiveBit b).rx.aligner = sp.rx.aligner := by
  rw [receiveBit_rx]
@[simp] theorem receiveBit_record (sp : Span) (b : Bool) : (sp.receiveBit b).record = sp.record := by
  by_cases h : sp.rx.frameBit = 15 <;> simp [Span.receiveBit, Span.overheadOctet, h]
@[simp] theorem receiveBit_win (sp : Span) (b : Bool) : (sp.receiveBit b).win = sp.win := by
  by_cases h : sp.rx.frameBit = 15 <;> simp [Span.receiveBit, Span.overheadOctet, h]
@[simp] theorem receiveBit_tx (sp : Span) (b : Bool) : (sp.receiveBit b).tx = sp.tx := by
  by_cases h : sp.rx.frameBit = 15 <;> simp [Span.receiveBit, Span.overheadOctet, h]
@[simp] theorem receiveBit_store (sp : Span) (b : Bool) : (sp.receiveBit b).store = sp.store.writeBit b := by
  by_cases h : sp.rx.frameBit = 15 <;> simp [Span.receiveBit, Span.overheadOctet, h]

/-- The sixteenth bit completes the overhead octet, which goes to the superframe aligner (R13). -/
theorem receiveBit_sf (sp : Span) (b : Bool) :
    (sp.receiveBit b).sf =
      if sp.rx.frameBit = 15 then sp.sf.octet (nextOverhead sp.rx.overhead b) else sp.sf := by
  by_cases h : sp.rx.frameBit = 15 <;> simp [Span.receiveBit, Span.overheadOctet, nextOverhead, h]

/-! ### The store and the meter at a boundary leave the line side alone (R33, R51) -/

@[simp] theorem boundary_record (sp : Span) (superframe : Bool) : (sp.boundary superframe).1.record = sp.record := by
  unfold Span.boundary Span.hitCounted Span.slipped
  dsimp only
  split <;> split <;> rfl
@[simp] theorem boundary_rx (sp : Span) (superframe : Bool) : (sp.boundary superframe).1.rx = sp.rx := by
  unfold Span.boundary Span.hitCounted Span.slipped
  dsimp only
  split <;> split <;> rfl
@[simp] theorem boundary_win (sp : Span) (superframe : Bool) : (sp.boundary superframe).1.win = sp.win := by
  unfold Span.boundary Span.hitCounted Span.slipped
  dsimp only
  split <;> split <;> rfl
@[simp] theorem boundary_sf (sp : Span) (superframe : Bool) : (sp.boundary superframe).1.sf = sp.sf := by
  unfold Span.boundary Span.hitCounted Span.slipped
  dsimp only
  split <;> split <;> rfl

/-! ### Leaving alignment (R11, R27) -/

/-- The span after an alignment-lost event, if it was aligned, and a move to `a` (R11, R27). -/
def Span.leaveAt (sp : Span) (readSoFar : Nat) (a : Aligner) : Span :=
  if sp.rx.aligner.aligned then
    Span.toAligner
      { (sp.readTo readSoFar).latch with
        counts := { (sp.readTo readSoFar).counts with alignmentLosses := raise (sp.readTo readSoFar).counts.alignmentLosses } }
      a
  else sp.toAligner a

theorem leaveAt_of_aligned (sp : Span) (r : Nat) (a : Aligner) (h : sp.rx.aligner.aligned = true) :
    sp.leaveAt r a =
      Span.toAligner
        { (sp.readTo r).latch with
          counts := { (sp.readTo r).counts with alignmentLosses := raise (sp.readTo r).counts.alignmentLosses } } a :=
  if_pos h

theorem leaveAt_of_unaligned (sp : Span) (r : Nat) (a : Aligner) (h : sp.rx.aligner.aligned = false) :
    sp.leaveAt r a = sp.toAligner a := by
  simp [Span.leaveAt, h]

@[simp] theorem leaveAt_record (sp : Span) (r : Nat) (a : Aligner) : (sp.leaveAt r a).record = sp.record := by
  unfold Span.leaveAt; split <;> simp
@[simp] theorem leaveAt_aligner (sp : Span) (r : Nat) (a : Aligner) : (sp.leaveAt r a).rx.aligner = a := by
  unfold Span.leaveAt; split <;> simp
@[simp] theorem leaveAt_clockPresent (sp : Span) (r : Nat) (a : Aligner) :
    (sp.leaveAt r a).rx.clockPresent = sp.rx.clockPresent := by
  unfold Span.leaveAt; split <;> simp
@[simp] theorem leaveAt_win (sp : Span) (r : Nat) (a : Aligner) : (sp.leaveAt r a).win = sp.win := by
  unfold Span.leaveAt; split <;> simp
@[simp] theorem leaveAt_tx (sp : Span) (r : Nat) (a : Aligner) : (sp.leaveAt r a).tx = sp.tx := by
  unfold Span.leaveAt; split <;> simp

theorem leaveAt_sf (sp : Span) (r : Nat) (a : Aligner) :
    (sp.leaveAt r a).sf = if a.aligned = false ∧ sp.rx.aligner.aligned = true then sp.sf.toSearch else sp.sf := by
  unfold Span.leaveAt; split <;> simp [toAligner_sf]

/-- `State.loseAlignment` does to its span what `leaveAt` says, published. -/
theorem loseAlignment_becomes {s t : State} {n : Fin 16} {sp : Span} (h : s.becomes n sp t) (r : Nat) (a : Aligner) :
    s.becomes n (sp.leaveAt r a).latch (t.loseAlignment n r a) := by
  unfold State.loseAlignment
  rw [h.1]
  split
  case isTrue k =>
    rw [leaveAt_of_aligned sp r a k]
    exact (((h.readSide r).modSpan _).offer 4).publish
  case isFalse k =>
    rw [leaveAt_of_unaligned sp r a (by simpa using k)]
    exact (h.modSpan _).publish

end Sys2Proof.Machine
end

