-- ==== Sys2Proof/Proofs/SpanEvents.lean ====
section
/-! What each event of span timing does to its span, case by case. -/

namespace Sys2Proof.Machine

/-! ### Clock-present (R7) -/

@[simp] theorem setClock_record (sp : Span) (l : Bool) : (sp.setClock l).record = sp.record := rfl
@[simp] theorem setClock_aligner (sp : Span) (l : Bool) : (sp.setClock l).rx.aligner = sp.rx.aligner := rfl
@[simp] theorem setClock_clockPresent (sp : Span) (l : Bool) : (sp.setClock l).rx.clockPresent = l := rfl
@[simp] theorem clearWindows_record (sp : Span) : sp.clearWindows.record = sp.record := rfl
@[simp] theorem clearWindows_rx (sp : Span) : sp.clearWindows.rx = sp.rx := rfl
@[simp] theorem clearWindows_win (sp : Span) : sp.clearWindows.win = .reset := rfl
@[simp] theorem clearWindows_sf (sp : Span) : sp.clearWindows.sf = sp.sf := rfl

/-- A rise with the span enabled and its clock-present low. -/
theorem clockRise_rises (s : State) (n : Fin 16) (he : (s.span n).record.enable = true)
    (hc : (s.span n).rx.clockPresent = false) :
    s.becomes n (((s.span n).setClock true).clearWindows.toAligner (.hunt 0)).latch (s.clockRise n) := by
  rw [State.clockRise, if_pos ⟨he, hc⟩]
  exact (((becomes_refl s n).modSpan _).modSpan _).publish

/-- Any other rise sets the level alone. -/
theorem clockRise_level (s : State) (n : Fin 16)
    (h : (s.span n).record.enable = false ∨ (s.span n).rx.clockPresent = true) :
    s.clockRise n = s.modSpan n fun sp => sp.setClock true := by
  rw [State.clockRise, if_neg]
  rcases h with h | h <;> simp [h]

/-- A fall with the span enabled and its clock-present high. -/
theorem clockFall_falls (s : State) (n : Fin 16) (r : Nat) (he : (s.span n).record.enable = true)
    (hc : (s.span n).rx.clockPresent = true) :
    s.becomes n (((s.span n).setClock false).clearWindows.leaveAt r .absent).latch (s.clockFall n r) := by
  rw [State.clockFall, if_pos ⟨he, hc⟩]
  exact loseAlignment_becomes (((becomes_refl s n).modSpan _).modSpan Span.clearWindows) r .absent

/-- Any other fall clears the level alone. -/
theorem clockFall_level (s : State) (n : Fin 16) (r : Nat)
    (h : (s.span n).record.enable = false ∨ (s.span n).rx.clockPresent = false) :
    s.clockFall n r = s.modSpan n fun sp => sp.setClock false := by
  rw [State.clockFall, if_neg]
  rcases h with h | h <;> simp [h]

/-! ### Line windows (R4 to R6, R8, R11) -/

/-- A span at the end of a window with `ones` bits of value 1: the window is counted, and the aligner acts on a
condition that has arisen or gone (R5, R8, R11). -/
def Span.windowEnded (sp : Span) (readSoFar ones : Nat) (noisy : Bool) : Span :=
  let after := sp.windowCounted (336 - ones) ones noisy
  let here := 336 * (sp.win.windows + 1)
  match sp.rx.aligner with
  | .hunt _ => if sp.win.held && !after.win.held then after.toAligner (.hunt here) else after
  | .verify _ _ _ | .locked _ | .flywheel _ _ =>
    if sp.win.arises after.win then after.leaveAt readSoFar (.hunt here) else after
  | .off | .absent => after

@[simp] theorem windowCounted_record (sp : Span) (z o : Nat) (b : Bool) : (sp.windowCounted z o b).record = sp.record := rfl
@[simp] theorem windowCounted_rx (sp : Span) (z o : Nat) (b : Bool) : (sp.windowCounted z o b).rx = sp.rx := rfl
@[simp] theorem windowCounted_sf (sp : Span) (z o : Nat) (b : Bool) : (sp.windowCounted z o b).sf = sp.sf := rfl
@[simp] theorem windowCounted_tx (sp : Span) (z o : Nat) (b : Bool) : (sp.windowCounted z o b).tx = sp.tx := rfl
@[simp] theorem windowCounted_store (sp : Span) (z o : Nat) (b : Bool) : (sp.windowCounted z o b).store = sp.store := rfl
@[simp] theorem windowCounted_meter (sp : Span) (z o : Nat) (b : Bool) : (sp.windowCounted z o b).meter = sp.meter := rfl

/-- In HUNT, a search begins where the hold of BLANK or BREAK has just gone (R8). -/
theorem windowEnded_hunt (sp : Span) (r ones : Nat) (noisy : Bool) {f : Nat} (h : sp.rx.aligner = .hunt f) :
    sp.windowEnded r ones noisy =
      if sp.win.held && !(sp.windowCounted (336 - ones) ones noisy).win.held then
        (sp.windowCounted (336 - ones) ones noisy).toAligner (.hunt (336 * (sp.win.windows + 1)))
      else sp.windowCounted (336 - ones) ones noisy := by
  simp only [Span.windowEnded, h]

/-- In VERIFY, LOCKED and FLYWHEEL, a condition that arises leads to HUNT (R8, R11). -/
theorem windowEnded_arises (sp : Span) (r ones : Nat) (noisy : Bool)
    (h : sp.rx.aligner.aligned = true ∨ ∃ c m f, sp.rx.aligner = .verify c m f)
    (k : sp.win.arises (sp.windowCounted (336 - ones) ones noisy).win = true) :
    sp.windowEnded r ones noisy =
      (sp.windowCounted (336 - ones) ones noisy).leaveAt r (.hunt (336 * (sp.win.windows + 1))) := by
  unfold Span.windowEnded
  split
  case h_1 e => simp [e, Aligner.aligned] at h
  case h_5 e => simp [e, Aligner.aligned] at h
  case h_6 e => simp [e, Aligner.aligned] at h
  all_goals exact if_pos k

/-- Outside HUNT, a window in which no condition arises is counted and no more. -/
theorem windowEnded_quiet (sp : Span) (r ones : Nat) (noisy : Bool) (h : ∀ f, sp.rx.aligner ≠ .hunt f)
    (k : sp.win.arises (sp.windowCounted (336 - ones) ones noisy).win = false) :
    sp.windowEnded r ones noisy = sp.windowCounted (336 - ones) ones noisy := by
  unfold Span.windowEnded
  split
  case h_1 e => exact absurd e (h _)
  case h_5 => rfl
  case h_6 => rfl
  all_goals exact if_neg (by simp [k])

/-- In OFF and ABSENT a window is counted and no more. -/
theorem windowEnded_stopped (sp : Span) (r ones : Nat) (noisy : Bool)
    (h : sp.rx.aligner = .off ∨ sp.rx.aligner = .absent) :
    sp.windowEnded r ones noisy = sp.windowCounted (336 - ones) ones noisy := by
  rcases h with h | h <;> simp only [Span.windowEnded, h]

/-- `State.windowActs` does to its span what `windowEnded` says, published. -/
theorem windowActs_becomes (s : State) (n : Fin 16) (r ones : Nat) (noisy : Bool) :
    s.becomes n ((s.span n).windowEnded r ones noisy).latch
      ((s.modSpan n fun sp => sp.windowCounted (336 - ones) ones noisy).windowActs n r (s.span n).win) := by
  have h := (becomes_refl s n).modSpan fun sp => sp.windowCounted (336 - ones) ones noisy
  have hw : Config.frameBits * ((s.span n).windowCounted (336 - ones) ones noisy).win.windows =
      336 * ((s.span n).win.windows + 1) := rfl
  have lost := loseAlignment_becomes h r (.hunt (336 * ((s.span n).win.windows + 1)))
  have sought := (h.modSpan fun sp => sp.toAligner (.hunt (336 * ((s.span n).win.windows + 1)))).publish
  have counted := h.publish
  unfold State.windowActs Span.windowEnded
  simp only [modSpan_span, windowCounted_rx, hw]
  cases (s.span n).rx.aligner with
  | hunt f => dsimp only; split; exacts [sought, counted]
  | verify c m f => dsimp only; split; exacts [lost, counted]
  | locked p => dsimp only; split; exacts [lost, counted]
  | flywheel p m => dsimp only; split; exacts [lost, counted]
  | off => exact counted
  | absent => exact counted

/-- The number of 1 bits in a window, by majority (R3). -/
def onesOf (samples : Vector Looks 336) : Nat := (sampledBits samples.toList).countP id

theorem windowEnd_stopped (s : State) (n : Fin 16) (r : Nat) (samples : Vector Looks 336)
    (h : (s.span n).sampling = false) : s.windowEnd n r samples = s := by
  simp [State.windowEnd, h]

/-- A window's end with no noise evaluation due. -/
theorem windowEnd_becomes (s : State) (n : Fin 16) (r : Nat) (samples : Vector Looks 336)
    (h : (s.span n).sampling = true) (hd : (s.span n).noiseDue = false) :
    s.becomes n ((s.span n).windowEnded r (onesOf samples) (samples.toList.any noisyBit)).latch (s.windowEnd n r samples) := by
  rw [State.windowEnd, if_pos h]
  simp only [hd]
  exact windowActs_becomes s n r _ _

theorem noiseEnd_other (s : State) (n : Fin 16) (h : (s.span n).sampling = false ∨ (s.span n).noiseDue = false) :
    s.noiseEnd n = s := by
  rcases h with h | h <;> simp [State.noiseEnd, h]

/-- The evaluation of a complete noise period (R6). -/
theorem noiseEnd_becomes (s : State) (n : Fin 16) (h : (s.span n).sampling = true) (hd : (s.span n).noiseDue = true) :
    s.becomes n (s.span n).noiseEvaluate.latch (s.noiseEnd n) := by
  simp only [State.noiseEnd, h, hd, Bool.and_self, if_true]
  exact ((becomes_refl s n).modSpan _).publish

/-- An overdue evaluation is made before the next window (notes/assumptions/8.md). -/
theorem windowEnd_of_due (s : State) (n : Fin 16) (r : Nat) (samples : Vector Looks 336)
    (h : (s.span n).sampling = true) (hd : (s.span n).noiseDue = true) :
    s.windowEnd n r samples = (s.noiseEnd n).windowEnd n r samples := by
  have hs : ((s.noiseEnd n).span n) = (s.span n).noiseEvaluate.latch := (noiseEnd_becomes s n h hd).1
  have hs1 : ((s.noiseEnd n).span n).sampling = true := by rw [hs]; exact h
  have hd1 : ((s.noiseEnd n).span n).noiseDue = false := by rw [hs]; rfl
  have he : s.noiseEnd n = (s.modSpan n Span.noiseEvaluate).publish n := by simp [State.noiseEnd, h, hd]
  simp only [State.windowEnd, h, hs1, hd, hd1, ← he, if_true, Bool.false_eq_true, if_false]

/-! ### The frame aligner (R8 to R10) -/

/-- A candidate in HUNT (R8). -/
theorem huntFound_becomes (s : State) (n : Fin 16) (p : Nat) (o : Byte) {f : Nat} (h : (s.span n).rx.aligner = .hunt f)
    (hp : f ≤ p) (ho : o = 0xB2) (hw : (s.span n).win.held = false) :
    s.becomes n ((s.span n).toAligner (.verify p 0 0)).latch (s.huntFound n p o) := by
  simp only [State.huntFound, h]
  rw [if_pos ⟨hp, ho, hw⟩]
  exact ((becomes_refl s n).modSpan _).publish

/-- HUNT_CANDIDATE_FOUND finds a candidate, or nothing changes. -/
theorem huntFound_cases (s : State) (n : Fin 16) (p : Nat) (o : Byte) :
    s.huntFound n p o = s ∨
      ∃ f, (s.span n).rx.aligner = .hunt f ∧ f ≤ p ∧ o = 0xB2 ∧ (s.span n).win.held = false := by
  unfold State.huntFound
  split
  case h_1 f h =>
    split
    case isTrue k => exact .inr ⟨f, h, k⟩
    case isFalse => exact .inl rfl
  case h_2 => exact .inl rfl

/-- VERIFY_CHECK at the position of the next check; elsewhere, and outside VERIFY, nothing changes (R9). -/
theorem verifyCheck_cases (s : State) (n : Fin 16) (p : Nat) (o : Byte) :
    s.verifyCheck n p o = s ∨
      ∃ c m f, (s.span n).rx.aligner = .verify c m f ∧ s.verifyCheck n p o = s.verifyResult n p c m f (o == 0xB2) := by
  unfold State.verifyCheck
  split
  case h_1 c m f h =>
    split
    · exact .inr ⟨c, m, f, h, rfl⟩
    · exact .inl rfl
  case h_2 => exact .inl rfl

theorem verifyCheck_result (s : State) (n : Fin 16) (o : Byte) {c m f : Nat} (h : (s.span n).rx.aligner = .verify c m f) :
    s.verifyCheck n (c + 336 * (m + 1)) o = s.verifyResult n (c + 336 * (m + 1)) c m f (o == 0xB2) := by
  simp only [State.verifyCheck, h]
  exact if_pos rfl

/-- The failed checks of a VERIFY after one more check (R9). -/
def failedAfter (failed : Nat) (ok : Bool) : Nat := if ok then failed else failed + 1

/-- A second failure returns to HUNT (R9). -/
theorem verifyResult_fails (s : State) (n : Fin 16) (p c m f : Nat) (hf : f ≠ 0) :
    s.becomes n ((s.span n).toAligner (.hunt (p + 8))).latch (s.verifyResult n p c m f false) := by
  rw [State.verifyResult, if_pos ⟨rfl, hf⟩]
  exact ((becomes_refl s n).modSpan _).publish

/-- A check that is neither the third nor a second failure (R9). -/
theorem verifyResult_goes_on (s : State) (n : Fin 16) (p c m f : Nat) (ok : Bool) (h : ok = true ∨ f = 0) (hm : m ≠ 2) :
    s.becomes n ((s.span n).toAligner (.verify c (m + 1) (failedAfter f ok))).latch (s.verifyResult n p c m f ok) := by
  have h' : ¬(ok = false ∧ f ≠ 0) := by rcases h with h | h <;> simp [h]
  rw [State.verifyResult, if_neg h']
  simp only [show ¬ m + 1 = 3 by omega, if_false]
  exact ((becomes_refl s n).modSpan fun sp => sp.toAligner (.verify c (m + 1) (failedAfter f ok))).publish

/-- The third check, with at most one failure, leads to LOCKED: a MARGINAL LOCK with one (R9). -/
theorem verifyResult_locks (s : State) (n : Fin 16) (p c f : Nat) (ok : Bool) (h : ok = true ∨ f = 0) :
    s.becomes n
      (Span.latch { (s.span n).becomeAligned p with
        counts := if failedAfter f ok = 1 then { (s.span n).counts with marginalLocks := raise (s.span n).counts.marginalLocks }
          else (s.span n).counts })
      (s.verifyResult n p c 2 f ok) := by
  have h' : ¬(ok = false ∧ f ≠ 0) := by rcases h with h | h <;> simp [h]
  rw [State.verifyResult, if_neg h']
  exact ((becomes_refl s n).modSpan fun sp => { sp.becomeAligned p with
    counts := if failedAfter f ok = 1 then { sp.counts with marginalLocks := raise sp.counts.marginalLocks }
      else sp.counts }).publish

theorem keepAligned_becomes (s : State) (n : Fin 16) (a : Aligner) :
    s.becomes n ((s.span n).toAligner a).latch (s.keepAligned n a) := ((becomes_refl s n).modSpan _).publish

/-- EXPECTED_ALIGNMENT_OCTET moves within alignment, or leaves it at a fourth miss, or changes nothing (R10, R11). -/
theorem expectedOctet_cases (s : State) (n : Fin 16) (r p : Nat) (o : Byte) :
    s.expectedOctet n r p o = s ∨
      (s.span n).rx.aligner.aligned = true ∧
        ((∃ a, a.aligned = true ∧ a.counted ∧ s.expectedOctet n r p o = s.keepAligned n a) ∨
          s.expectedOctet n r p o = s.loseAlignment n r (.hunt (p + 8))) := by
  unfold State.expectedOctet
  cases ha : (s.span n).rx.aligner with
  | locked q =>
    dsimp only
    split
    · refine .inr ⟨rfl, .inl ⟨_, ?_, ?_, rfl⟩⟩
      · split <;> rfl
      · split
        · trivial
        · exact ⟨by decide, by decide⟩
    · exact .inl rfl
  | flywheel q m =>
    dsimp only
    split
    · refine .inr ⟨rfl, ?_⟩
      split
      · exact .inl ⟨.locked p, rfl, trivial, rfl⟩
      · split
        case isTrue k => exact .inl ⟨.flywheel p (m + 1), rfl, ⟨by omega, by omega⟩, rfl⟩
        case isFalse => exact .inr rfl
    · exact .inl rfl
  | _ => exact .inl rfl

/-! ### Aligned frames and underruns (R12, R31, R38) -/

/-- ALIGNED_FRAME of an aligned span: the reads made so far, then the bits in order of arrival. -/
theorem alignedFrame_becomes (s : State) (n : Fin 16) (r : Nat) (bits : List Bool)
    (h : (s.span n).rx.aligner.aligned = true) :
    s.becomes n (((s.span n).readTo r).receiveBits bits).latch (s.alignedFrame n r bits) := by
  rw [State.alignedFrame, if_pos h]
  exact ((becomes_refl s n).modSpan _).publish

theorem alignedFrame_unaligned (s : State) (n : Fin 16) (r : Nat) (bits : List Bool)
    (h : (s.span n).rx.aligner.aligned = false) : s.alignedFrame n r bits = s := by
  simp [State.alignedFrame, h]

theorem underrun_becomes (s : State) (n : Fin 16) (h : (s.span n).store.runsDry = true) :
    s.becomes n ((s.span n).readBits (s.span n).store.fill).latch (s.underrun n) := by
  rw [State.underrun, if_pos h]
  exact ((becomes_refl s n).modSpan _).publish

theorem underrun_other (s : State) (n : Fin 16) (h : (s.span n).store.runsDry = false) : s.underrun n = s := by
  simp [State.underrun, h]

end Sys2Proof.Machine
end

