-- ==== Sys2Proof/Proofs/SpanMoves.lean ====
section
/-! What a step can do to one span: the moves, one for each operation, and that every step makes nothing but moves. -/

namespace Sys2Proof.Machine

/-- One move of a span, with the condition under which the part makes it. -/
inductive SpanMove : Span → Span → Prop where
  /-- alarms latched (R155) -/
  | latch (sp : Span) : SpanMove sp sp.latch
  /-- the level of clock-present of a disabled span, or the level it has (R7) -/
  | level {sp : Span} (l : Bool) (h : sp.record.enable = false ∨ sp.rx.clockPresent = l) : SpanMove sp (sp.setClock l)
  /-- CLOCK_PRESENT_RISE (R7) -/
  | clockRise {sp : Span} (he : sp.record.enable = true) (hc : sp.rx.clockPresent = false) :
      SpanMove sp ((sp.setClock true).clearWindows.toAligner (.hunt 0))
  /-- CLOCK_PRESENT_FALL (R7, R11) -/
  | clockFall {sp : Span} (r : Nat) (he : sp.record.enable = true) (hc : sp.rx.clockPresent = true) :
      SpanMove sp ((sp.setClock false).clearWindows.leaveAt r .absent)
  /-- LINE_WINDOW_END (R4, R5, R8, R11) -/
  | window {sp : Span} (r ones : Nat) (noisy : Bool) (hs : sp.sampling = true) (hd : sp.noiseDue = false) :
      SpanMove sp (sp.windowEnded r ones noisy)
  /-- NOISE_PERIOD_END (R6) -/
  | noise (sp : Span) : SpanMove sp sp.noiseEvaluate
  /-- HUNT_CANDIDATE_FOUND (R8) -/
  | candidate {sp : Span} {f : Nat} (p : Nat) (h : sp.rx.aligner = .hunt f) (hw : sp.win.held = false) :
      SpanMove sp (sp.toAligner (.verify p 0 0))
  /-- a second failed check (R9) -/
  | fails {sp : Span} {c m f : Nat} (p : Nat) (h : sp.rx.aligner = .verify c m f) : SpanMove sp (sp.toAligner (.hunt p))
  /-- a check that leaves VERIFY going on (R9) -/
  | goesOn {sp : Span} {c m f : Nat} (ok : Bool) (h : sp.rx.aligner = .verify c m f) (hf : ok = true ∨ f = 0) (hm : m ≠ 2) :
      SpanMove sp (sp.toAligner (.verify c (m + 1) (failedAfter f ok)))
  /-- the third check (R9, R29) -/
  | locks {sp : Span} {c m f : Nat} (p : Nat) (counts : SpanCounts) (h : sp.rx.aligner = .verify c m f) :
      SpanMove sp { sp.becomeAligned p with counts := counts }
  /-- EXPECTED_ALIGNMENT_OCTET within alignment (R10) -/
  | expected {sp : Span} (a : Aligner) (h : sp.rx.aligner.aligned = true) (ha : a.aligned = true) (hc : a.counted) :
      SpanMove sp (sp.toAligner a)
  /-- the fourth successive miss (R10, R11) -/
  | missed {sp : Span} (r p : Nat) (h : sp.rx.aligner.aligned = true) : SpanMove sp (sp.leaveAt r (.hunt p))
  /-- reads of the store (R31) -/
  | reads (sp : Span) (k : Nat) : SpanMove sp (sp.readBits k)
  /-- one bit of the aligned stream (R12, R30) -/
  | bit {sp : Span} (b : Bool) (h : sp.rx.aligner.aligned = true) : SpanMove sp (sp.receiveBit b)
  /-- SET SPAN (R21) -/
  | setRecord (sp : Span) (r : SpanRecord) (h : 1 ≤ r.noiseLimit ∧ r.noiseLimit ≤ 16) :
      SpanMove sp (Span.enableActs { sp with record := r } sp.record.enable)
  /-- SPAN RESTART (R22) -/
  | restart (sp : Span) : SpanMove sp sp.restart
  /-- SET THRESHOLDS (R43) -/
  | thresholds (sp : Span) (l h : Nat) (hl : 48 ≤ l ∧ l ≤ 336) (hh : 1008 ≤ h ∧ h ≤ 1296) :
      SpanMove sp { sp with store := { sp.store with lowStored := l, highStored := h } }
  /-- SET DRIFT stores (R60) -/
  | driftStored (sp : Span) (k limit : Nat) (hk : k ≤ 7) :
      SpanMove sp { sp with meter := { sp.meter with kStored := k, limitStored := limit } }
  /-- stored drift settings come into force (R60) -/
  | driftCommitted (sp : Span) : SpanMove sp sp.commitDrift
  /-- the boundary opens (R44, R20, R19) -/
  | opens (sp : Span) (superframe : Bool) : SpanMove sp (sp.openBoundary superframe)
  /-- the store and the meter at a boundary (R32, R33, R51) -/
  | boundary (sp : Span) (superframe : Bool) : SpanMove sp (sp.boundary superframe).1
  /-- the transmitter's frame and its overhead octet (R17, R18) -/
  | transmits (sp : Span) (sent : Option (Vector Byte 42)) (overhead : Byte) :
      SpanMove sp { sp with tx := { sp.tx with sent := sent, overhead := overhead } }
  /-- counts cleared or read (R159, R162) -/
  | counts (sp : Span) (c : SpanCounts) : SpanMove sp { sp with counts := c }
  /-- alarms not active leave the latched set (R156, R162) -/
  | relatch (sp : Span) (l : Word) (h : l = sp.latched &&& sp.active ∨ l = sp.active) : SpanMove sp { sp with latched := l }

/-- A span by moves alone. -/
abbrev SpanMoves : Span → Span → Prop := Relation.ReflTransGen SpanMove

/-- What every move keeps, a run of moves keeps. -/
theorem SpanMoves.keeps {P : Span → Prop} (h : ∀ a b, SpanMove a b → P a → P b) {a b : Span} (m : SpanMoves a b) :
    P a → P b := by
  intro ha
  induction m with
  | refl => exact ha
  | tail _ m ih => exact h _ _ m ih

/-- Every span by moves alone. -/
def State.spanMoves (s t : State) : Prop := ∀ n, SpanMoves (s.span n) (t.span n)

theorem spanMoves_refl (s : State) : s.spanMoves s := fun _ => .refl

theorem spanMoves_trans {s t u : State} (h : s.spanMoves t) (k : t.spanMoves u) : s.spanMoves u :=
  fun n => (h n).trans (k n)

theorem spanMoves_of_spans {s t : State} (h : t.spans = s.spans) : s.spanMoves t := fun n => by
  simp only [State.span, h]
  exact .refl

theorem spanMoves_of_timingActs {s t : State} (h : s.timingActs t) : s.spanMoves t :=
  fun n => by rw [timingActs_span h n]

/-- An event at one span, by its moves. -/
theorem State.becomes.spanMoves {s t : State} {n : Fin 16} {sp : Span} (h : s.becomes n sp t)
    (m : SpanMoves (s.span n) sp) : s.spanMoves t := fun i => by
  by_cases hi : i = n
  · rw [hi, h.1]; exact m
  · rw [h.2.1.1 i hi]

/-- One move, published. -/
theorem SpanMove.published {a b : Span} (m : SpanMove a b) : SpanMoves a b.latch :=
  (Relation.ReflTransGen.single m).tail (.latch b)

theorem receiveBits_moves (bits : List Bool) (sp : Span) (h : sp.rx.aligner.aligned = true) :
    SpanMoves sp (sp.receiveBits bits) := by
  induction bits generalizing sp with
  | nil => exact .refl
  | cons b bits ih => exact .head (.bit b h) (ih (sp.receiveBit b) (by simpa using h))

/-! ### Events of span timing -/

theorem clockRise_moves (s : State) (n : Fin 16) : s.spanMoves (s.clockRise n) := by
  by_cases h : (s.span n).record.enable = true ∧ (s.span n).rx.clockPresent = false
  · exact (clockRise_rises s n h.1 h.2).spanMoves (SpanMove.clockRise h.1 h.2).published
  · have h' : (s.span n).record.enable = false ∨ (s.span n).rx.clockPresent = true := by
      simpa only [not_and_or, Bool.not_eq_true, Bool.not_eq_false] using h
    rw [clockRise_level s n h']
    exact (modSpan_becomes s n _).spanMoves (.single (.level true h'))

theorem clockFall_moves (s : State) (n : Fin 16) (r : Nat) : s.spanMoves (s.clockFall n r) := by
  by_cases h : (s.span n).record.enable = true ∧ (s.span n).rx.clockPresent = true
  · exact (clockFall_falls s n r h.1 h.2).spanMoves (SpanMove.clockFall r h.1 h.2).published
  · have h' : (s.span n).record.enable = false ∨ (s.span n).rx.clockPresent = false := by
      simpa only [not_and_or, Bool.not_eq_true, Bool.not_eq_false] using h
    rw [clockFall_level s n r h']
    exact (modSpan_becomes s n _).spanMoves (.single (.level false h'))

theorem noiseEnd_moves (s : State) (n : Fin 16) : s.spanMoves (s.noiseEnd n) := by
  by_cases h : (s.span n).sampling = true ∧ (s.span n).noiseDue = true
  · exact (noiseEnd_becomes s n h.1 h.2).spanMoves (SpanMove.noise _).published
  · rw [noiseEnd_other s n (by simpa only [not_and_or, Bool.not_eq_true, Bool.not_eq_false] using h)]
    exact spanMoves_refl s

theorem windowEnd_moves (s : State) (n : Fin 16) (r : Nat) (samples : Vector Looks 336) :
    s.spanMoves (s.windowEnd n r samples) := by
  cases h : (s.span n).sampling with
  | false => rw [windowEnd_stopped s n r samples h]; exact spanMoves_refl s
  | true =>
    have counted : ∀ t : State, (t.span n).sampling = true → (t.span n).noiseDue = false →
        t.spanMoves (t.windowEnd n r samples) := fun t ht hd =>
      (windowEnd_becomes t n r samples ht hd).spanMoves (SpanMove.window r _ _ ht hd).published
    cases hd : (s.span n).noiseDue with
    | false => exact counted s h hd
    | true =>
      have hs := (noiseEnd_becomes s n h hd).1
      rw [windowEnd_of_due s n r samples h hd]
      exact spanMoves_trans (noiseEnd_moves s n) (counted _ (by rw [hs]; exact h) (by rw [hs]; rfl))

theorem huntFound_moves (s : State) (n : Fin 16) (p : Nat) (o : Byte) : s.spanMoves (s.huntFound n p o) := by
  obtain h | ⟨f, h, hp, ho, hw⟩ := huntFound_cases s n p o
  · rw [h]; exact spanMoves_refl s
  · exact (huntFound_becomes s n p o h hp ho hw).spanMoves (SpanMove.candidate p h hw).published

theorem verifyCheck_moves (s : State) (n : Fin 16) (p : Nat) (o : Byte) : s.spanMoves (s.verifyCheck n p o) := by
  obtain h | ⟨c, m, f, h, e⟩ := verifyCheck_cases s n p o
  · rw [h]; exact spanMoves_refl s
  · rw [e]
    by_cases hf : (o == 0xB2) = true ∨ f = 0
    · by_cases hm : m = 2
      · subst hm
        exact (verifyResult_locks s n p c f _ hf).spanMoves (SpanMove.locks p _ h).published
      · exact (verifyResult_goes_on s n p c m f _ hf hm).spanMoves (SpanMove.goesOn _ h hf hm).published
    · simp only [not_or, Bool.not_eq_true] at hf
      rw [hf.1]
      exact (verifyResult_fails s n p c m f hf.2).spanMoves (SpanMove.fails _ h).published

theorem expectedOctet_moves (s : State) (n : Fin 16) (r p : Nat) (o : Byte) : s.spanMoves (s.expectedOctet n r p o) := by
  obtain h | ⟨ha, ⟨a, hk, hc, e⟩ | e⟩ := expectedOctet_cases s n r p o
  · rw [h]; exact spanMoves_refl s
  · rw [e]; exact (keepAligned_becomes s n a).spanMoves (SpanMove.expected a ha hk hc).published
  · rw [e]; exact (loseAlignment_becomes (becomes_refl s n) r _).spanMoves (SpanMove.missed r _ ha).published

theorem alignedFrame_moves (s : State) (n : Fin 16) (r : Nat) (bits : List Bool) :
    s.spanMoves (s.alignedFrame n r bits) := by
  cases h : (s.span n).rx.aligner.aligned with
  | false => rw [alignedFrame_unaligned s n r bits h]; exact spanMoves_refl s
  | true =>
    refine (alignedFrame_becomes s n r bits h).spanMoves ?_
    exact .tail (.trans (.single (.reads _ _)) (receiveBits_moves bits _ (by rw [readBits_rx]; exact h))) (.latch _)

theorem underrun_moves (s : State) (n : Fin 16) : s.spanMoves (s.underrun n) := by
  cases h : (s.span n).store.runsDry with
  | false => rw [underrun_other s n h]; exact spanMoves_refl s
  | true => exact (underrun_becomes s n h).spanMoves (SpanMove.reads _ _).published

end Sys2Proof.Machine
end

