-- ==== Sys2Proof/Proofs/StepMoves.lean ====
section
/-! Every command makes nothing but moves of the spans, but for the levels and the end of a restart. -/

namespace Sys2Proof.Machine

/-! ### Orders that touch no span -/

theorem takeUnknownOrder_spans (tag code : Byte) (s : State) : (takeUnknownOrder tag code s).spans = s.spans := rfl
theorem takeIdentify_spans (tag : Byte) (s : State) : (takeIdentify tag s).spans = s.spans := rfl
theorem takeReadTiming_spans (tag : Byte) (s : State) : (takeReadTiming tag s).spans = s.spans := rfl

theorem takeReadSpan_spans (tag n : Byte) (s : State) : (takeReadSpan tag n s).spans = s.spans := by
  unfold takeReadSpan; split <;> rfl
theorem takeReadStore_spans (tag n : Byte) (s : State) : (takeReadStore tag n s).spans = s.spans := by
  unfold takeReadStore; split <;> rfl
theorem takeReadDrift_spans (tag n : Byte) (s : State) : (takeReadDrift tag n s).spans = s.spans := by
  unfold takeReadDrift; split <;> rfl
theorem takeReadAlarms_spans (tag o : Byte) (s : State) : (takeReadAlarms tag o s).spans = s.spans := by
  unfold takeReadAlarms; split <;> rfl

theorem takeSetReference_spans (tag a b c d e : Byte) (s : State) : (takeSetReference tag a b c d e s).spans = s.spans := by
  unfold takeSetReference
  split
  · split
    · rfl
    · split <;> rfl
  · rfl

theorem takeSetTimingMode_spans (tag a b : Byte) (s : State) : (takeSetTimingMode tag a b s).spans = s.spans := by
  unfold takeSetTimingMode; split <;> rfl

/-- A selection request acts on office timing alone (R77). -/
theorem selectionRequest_acts (s : State) (e : Fin 4) : s.timingActs (s.selectionRequest e).1 := by
  unfold State.selectionRequest
  split_ifs
  · exact timingActs_refl s
  · exact timingActs_refl s
  · exact (selectEntry_spec s e).1
  · exact timingActs_refl s

theorem takeSelectReference_spans (tag a : Byte) (s : State) : (takeSelectReference tag a s).spans = s.spans := by
  unfold takeSelectReference
  split
  · rfl
  next e _ =>
    have h : (s.selectionRequest e).1.spans = s.spans := (selectionRequest_acts s e).2.2.1
    split
    case h_1 k => rw [k] at h; exact h
    case h_2 k => rw [k] at h; exact h

theorem takeReadReference_spans (tag a : Byte) (s : State) : (takeReadReference tag a s).spans = s.spans := by
  unfold takeReadReference; split <;> rfl
theorem takeSetTimingOutput_spans (tag a b c d e : Byte) (s : State) :
    (takeSetTimingOutput tag a b c d e s).spans = s.spans := by
  unfold takeSetTimingOutput; split <;> rfl

theorem takeWriteIngressEntry_spans (tag a b c d e : Byte) (s : State) :
    (takeWriteIngressEntry tag a b c d e s).spans = s.spans := by
  unfold takeWriteIngressEntry
  split
  · split_ifs <;> rfl
  · rfl
theorem takeWriteEgressEntry_spans (tag a b c d e : Byte) (s : State) :
    (takeWriteEgressEntry tag a b c d e s).spans = s.spans := by
  unfold takeWriteEgressEntry
  split
  · split_ifs <;> rfl
  · rfl
theorem takeReadIngressEntry_spans (tag a b c : Byte) (s : State) :
    (takeReadIngressEntry tag a b c s).spans = s.spans := by
  unfold takeReadIngressEntry
  split
  · split_ifs <;> rfl
  · rfl
theorem takeReadEgressEntry_spans (tag a b c : Byte) (s : State) : (takeReadEgressEntry tag a b c s).spans = s.spans := by
  unfold takeReadEgressEntry; split <;> rfl
theorem takeSwapMaps_spans (tag a : Byte) (s : State) : (takeSwapMaps tag a s).spans = s.spans := by
  unfold takeSwapMaps; split <;> rfl
theorem takeCopyMaps_spans (tag a : Byte) (s : State) : (takeCopyMaps tag a s).spans = s.spans := by
  unfold takeCopyMaps
  split
  · rfl
  · split_ifs <;> rfl

theorem takeSetTimer_spans (tag a b : Byte) (p : Word) (c d : Byte) (s : State) :
    (takeSetTimer tag a b p c d s).spans = s.spans := by
  unfold takeSetTimer
  split
  · split_ifs <;> rfl
  · rfl
theorem takeLoadMatch_spans (tag a : Byte) (v : FrameNumber) (s : State) : (takeLoadMatch tag a v s).spans = s.spans := by
  unfold takeLoadMatch; split <;> rfl
theorem takeArming_spans (code : Byte) (armed : Bool) (tag a : Byte) (s : State) :
    (takeArming code armed tag a s).spans = s.spans := by
  unfold takeArming; split <;> rfl
theorem takeReadTimer_spans (tag a : Byte) (s : State) : (takeReadTimer tag a s).spans = s.spans := by
  unfold takeReadTimer; split <;> rfl
theorem takeSetFrameNumber_spans (tag : Byte) (v : FrameNumber) (s : State) :
    (takeSetFrameNumber tag v s).spans = s.spans := by
  unfold takeSetFrameNumber; split_ifs <;> rfl

theorem takeSetUnit_spans (tag a b c d e f g h : Byte) (s : State) : (takeSetUnit tag a b c d e f g h s).spans = s.spans := by
  unfold takeSetUnit
  split
  · split_ifs <;> rfl
  · rfl
theorem takeStartUnit_spans (tag a : Byte) (s : State) : (takeStartUnit tag a s).spans = s.spans := by
  unfold takeStartUnit; split <;> rfl
theorem takeStopUnit_spans (tag a : Byte) (s : State) : (takeStopUnit tag a s).spans = s.spans := by
  unfold takeStopUnit; split <;> rfl
theorem takeTriggerUnit_spans (tag a : Byte) (s : State) : (takeTriggerUnit tag a s).spans = s.spans := by
  unfold takeTriggerUnit; split <;> rfl
theorem takeReadUnit_spans (tag a : Byte) (s : State) : (takeReadUnit tag a s).spans = s.spans := by
  unfold takeReadUnit; split <;> rfl
theorem takeReadBuffer_spans (tag a b : Byte) (s : State) : (takeReadBuffer tag a b s).spans = s.spans := by
  unfold takeReadBuffer; split <;> rfl
theorem takeWriteBuffer_spans (tag a b : Byte) (d : Vector Byte 8) (s : State) :
    (takeWriteBuffer tag a b d s).spans = s.spans := by
  unfold takeWriteBuffer; split <;> rfl

/-! ### Orders that act on spans -/

/-- An order that changes one span and answers. -/
theorem spanMoves_answer {s t : State} (h : s.spanMoves t) (code tag : Byte) (o : OrderOutcome) (r : List Byte) :
    s.spanMoves (t.answer code tag o r) := h

theorem clamp_mem (lo hi x : Nat) (h : lo ≤ hi) : lo ≤ clamp lo hi x ∧ clamp lo hi x ≤ hi := by
  unfold clamp
  omega

theorem takeSetSpan_moves (tag a b c d e f : Byte) (s : State) : s.spanMoves (takeSetSpan tag a b c d e f s) := by
  unfold takeSetSpan
  split
  · exact spanMoves_answer (((becomes_refl s _).modSpan _).publish.spanMoves
      (SpanMove.setRecord _ _ (clamp_mem 1 16 _ (by decide))).published) _ _ _ _
  · exact spanMoves_of_spans rfl

theorem takeSpanRestart_moves (tag a : Byte) (s : State) : s.spanMoves (takeSpanRestart tag a s) := by
  unfold takeSpanRestart
  split
  · exact spanMoves_of_spans rfl
  · exact spanMoves_answer (((becomes_refl s _).modSpan _).publish.spanMoves (SpanMove.restart _).published) _ _ _ _

theorem takeSetThresholds_moves (tag a : Byte) (l h : Word) (s : State) : s.spanMoves (takeSetThresholds tag a l h s) := by
  unfold takeSetThresholds
  split
  · exact spanMoves_of_spans rfl
  · exact spanMoves_answer ((modSpan_becomes s _ _).spanMoves
      (.single (.thresholds _ _ _ (clamp_mem 48 336 _ (by decide)) (clamp_mem 1008 1296 _ (by decide))))) _ _ _ _

theorem takeSetDrift_moves (sampled : Bool) (tag a k : Byte) (l : Word) (s : State) :
    s.spanMoves (takeSetDrift sampled tag a k l s) := by
  unfold takeSetDrift
  split
  · exact spanMoves_of_spans rfl
  next n _ =>
    refine spanMoves_answer ?_ _ _ _ _
    have stored := modSpan_becomes s n fun sp =>
      { sp with meter := { sp.meter with kStored := min k.toNat 7, limitStored := l.toNat } }
    have move : SpanMove (s.span n) { s.span n with meter :=
        { (s.span n).meter with kStored := min k.toNat 7, limitStored := l.toNat } } := .driftStored _ _ _ (by omega)
    dsimp only
    split
    · exact (stored.modSpan _).publish.spanMoves (.head move (SpanMove.driftCommitted _).published)
    · exact stored.spanMoves (.single move)

theorem warmRestart_moves (s : State) : s.spanMoves s.warm := fun n => by
  have h : s.warm.span n = (s.span n).warm := by simp [State.warm, State.span]
  rw [h]
  exact .tail (.single (.counts _ .reset)) (.relatch _ _ (.inr rfl))

theorem takeClearLatched_moves (tag a : Byte) (s : State) : s.spanMoves (takeClearLatched tag a s) := by
  unfold takeClearLatched
  split
  · exact spanMoves_of_spans rfl
  next n _ =>
    exact (modSpan_becomes s n fun sp => { sp with latched := (s.span n).latched &&& (s.span n).active }).spanMoves
      (.single (.relatch _ _ (.inl rfl)))
  · exact spanMoves_of_spans rfl

theorem takeReadCounts_moves (tag a b c : Byte) (s : State) : s.spanMoves (takeReadCounts tag a b c s) := by
  have cleared (n : Fin 16) (clear : Bool) (f : SpanCounts → SpanCounts) :
      s.spanMoves (if clear = true then s.modSpan n fun sp => { sp with counts := f sp.counts } else s) := by
    split
    · exact (modSpan_becomes s n _).spanMoves (.single (.counts _ _))
    · exact spanMoves_refl s
  unfold takeReadCounts
  split
  · exact spanMoves_of_spans rfl
  next cl _ =>
    split
    · exact spanMoves_of_spans (by cases cl <;> rfl)
    · split
      · exact spanMoves_of_spans rfl
      next n _ =>
        dsimp only
        split_ifs
        · exact spanMoves_answer (cleared n true SpanCounts.clear0) _ _ _ _
        · exact spanMoves_of_spans rfl
        · exact spanMoves_answer (cleared n true SpanCounts.clear1) _ _ _ _
        · exact spanMoves_of_spans rfl
        · exact spanMoves_of_spans rfl

/-- Every order, taken by its owner's rule, makes nothing but moves of the spans. -/
theorem takeOrder_moves (sampled : Fin 16 → Bool) (s : State) (i : Instr) : s.spanMoves (s.takeOrder sampled i) := by
  cases i with
  | unknownOrder => exact spanMoves_of_spans rfl
  | identify => exact spanMoves_of_spans rfl
  | warmRestart => exact warmRestart_moves s
  | setSpan => exact takeSetSpan_moves _ _ _ _ _ _ _ s
  | spanRestart => exact takeSpanRestart_moves _ _ s
  | readSpan => exact spanMoves_of_spans (takeReadSpan_spans _ _ s)
  | setThresholds => exact takeSetThresholds_moves _ _ _ _ s
  | readStore => exact spanMoves_of_spans (takeReadStore_spans _ _ s)
  | setDrift => exact takeSetDrift_moves _ _ _ _ _ s
  | readDrift => exact spanMoves_of_spans (takeReadDrift_spans _ _ s)
  | setReference => exact spanMoves_of_spans (takeSetReference_spans _ _ _ _ _ _ s)
  | setTimingMode => exact spanMoves_of_spans (takeSetTimingMode_spans _ _ _ s)
  | selectReference => exact spanMoves_of_spans (takeSelectReference_spans _ _ s)
  | readReference => exact spanMoves_of_spans (takeReadReference_spans _ _ s)
  | readTiming => exact spanMoves_of_spans rfl
  | setTimingOutput => exact spanMoves_of_spans (takeSetTimingOutput_spans _ _ _ _ _ _ s)
  | writeIngressEntry => exact spanMoves_of_spans (takeWriteIngressEntry_spans _ _ _ _ _ _ s)
  | writeEgressEntry => exact spanMoves_of_spans (takeWriteEgressEntry_spans _ _ _ _ _ _ s)
  | readIngressEntry => exact spanMoves_of_spans (takeReadIngressEntry_spans _ _ _ _ s)
  | readEgressEntry => exact spanMoves_of_spans (takeReadEgressEntry_spans _ _ _ _ s)
  | swapMaps => exact spanMoves_of_spans (takeSwapMaps_spans _ _ s)
  | copyMaps => exact spanMoves_of_spans (takeCopyMaps_spans _ _ s)
  | setTimer => exact spanMoves_of_spans (takeSetTimer_spans _ _ _ _ _ _ s)
  | loadMatch => exact spanMoves_of_spans (takeLoadMatch_spans _ _ _ s)
  | armTimer => exact spanMoves_of_spans (takeArming_spans _ _ _ _ s)
  | disarmTimer => exact spanMoves_of_spans (takeArming_spans _ _ _ _ s)
  | readTimer => exact spanMoves_of_spans (takeReadTimer_spans _ _ s)
  | setFrameNumber => exact spanMoves_of_spans (takeSetFrameNumber_spans _ _ s)
  | setUnit => exact spanMoves_of_spans (takeSetUnit_spans _ _ _ _ _ _ _ _ _ s)
  | startUnit => exact spanMoves_of_spans (takeStartUnit_spans _ _ s)
  | stopUnit => exact spanMoves_of_spans (takeStopUnit_spans _ _ s)
  | triggerUnit => exact spanMoves_of_spans (takeTriggerUnit_spans _ _ s)
  | readUnit => exact spanMoves_of_spans (takeReadUnit_spans _ _ s)
  | readBuffer => exact spanMoves_of_spans (takeReadBuffer_spans _ _ _ s)
  | writeBuffer => exact spanMoves_of_spans (takeWriteBuffer_spans _ _ _ _ s)
  | readAlarms => exact spanMoves_of_spans (takeReadAlarms_spans _ _ s)
  | clearLatched => exact takeClearLatched_moves _ _ s
  | readCounts => exact takeReadCounts_moves _ _ _ _ s
  | _ => exact spanMoves_refl s

/-! ### The office frame boundary -/

theorem timeout_spans (s : State) : s.timeout.spans = s.spans := by
  unfold State.timeout
  split
  · rfl
  · exact (dropSelection_spec _).1.2.2.1

theorem acquisitionTimeout_spans (s : State) : s.acquisitionTimeout.spans = s.spans := by
  unfold State.acquisitionTimeout
  split
  · exact timeout_spans s
  · rfl

theorem lockStage_spans (s : State) (apart : Bool) : (s.lockStage apart).spans = s.spans := by
  unfold State.lockStage
  dsimp only
  generalize (if s.timing.detector.reading = true then s.timing.loop.lockCount + 1 else 0) = count
  split
  · split
    · rfl
    · split
      · rfl
      · split
        · rfl
        · exact timeout_spans _
  · rfl

theorem autoSelect_spans (s : State) : s.autoSelect.spans = s.spans := by
  unfold State.autoSelect
  split
  · rfl
  · rfl
  · split
    · exact (selectEntry_spec s _).1.2.2.1
    · split
      · exact (selectEntry_spec s _).1.2.2.1
      · rfl

theorem monitors_spans (s : State) : s.monitors.spans = s.spans := (followEntries_acts _).2.2.1

theorem otuBoundary_spans (s : State) (superframe apart : Bool) : (s.otuBoundary superframe apart).spans = s.spans := by
  have stages (t : State) : (t.otuSuperframe apart).spans = t.spans :=
    (lockStage_spans t.qualifyAll.autoSelect apart).trans (autoSelect_spans t.qualifyAll)
  unfold State.otuBoundary
  split
  · exact (stages s.monitors).trans (monitors_spans s)
  · exact monitors_spans s

theorem offerUnitTrigger_spans (s : State) (src : Fin 8) (u : Fin 4) : (s.offerUnitTrigger src u).spans = s.spans := by
  rw [offerUnitTrigger_eq]
  split <;> rfl

theorem performAction_spans (s : State) (t : Timer) : (s.performAction t).1.spans = s.spans := by
  unfold State.performAction
  split
  · rfl
  · rfl
  · rfl
  · rfl
  · exact (selectionRequest_acts s _).2.2.1

theorem matchTimer_spans (s : State) (n : Fin 4) : (s.matchTimer n).spans = s.spans := by
  unfold State.matchTimer
  dsimp only
  split
  · exact (offerUnitTrigger_spans _ _ _).trans (performAction_spans s _)
  · rfl

/-- The span of a store's handling at a boundary: the store and the meter, and at an office superframe boundary the stored
drift settings (R33, R51, R60). -/
def Span.storeHandled (sp : Span) (superframe : Bool) : Span :=
  if superframe then (sp.boundary superframe).1.latch.commitDrift.latch else (sp.boundary superframe).1.latch

theorem storeBoundary_becomes (s : State) (superframe : Bool) (n : Fin 16) :
    s.becomes n ((s.span n).storeHandled superframe) (s.storeBoundary superframe n) := by
  have h := modSpan_becomes s n fun sp => (sp.boundary superframe).1
  unfold State.storeBoundary Span.storeHandled
  have published : s.becomes n ((s.span n).boundary superframe).1.latch
      ((if ((s.span n).boundary superframe).2 = .none then s.setSpan n ((s.span n).boundary superframe).1
        else (s.setSpan n ((s.span n).boundary superframe).1).offerSpanTrigger 3 n).publish n) := by
    split
    · exact h.publish
    · exact (h.offer 3).publish
  cases superframe with
  | false => exact published
  | true => exact (published.modSpan Span.commitDrift).publish

theorem storeHandled_moves (sp : Span) (superframe : Bool) : SpanMoves sp (sp.storeHandled superframe) := by
  unfold Span.storeHandled
  have handled := (SpanMove.boundary sp superframe).published
  split
  · exact handled.trans (SpanMove.driftCommitted _).published
  · exact handled

theorem judgeCell_moves (s : State) (sampled : Fin 16 → Bool) (cell : Cell) : s.spanMoves (s.judgeCell sampled cell) := by
  unfold State.judgeCell
  split_ifs
  · exact spanMoves_refl s
  · exact spanMoves_of_spans rfl
  · exact takeOrder_moves sampled s _
  · exact spanMoves_refl s

theorem orderBoundary_moves (s : State) (sampled : Fin 16 → Bool) : s.spanMoves (s.orderBoundary sampled) := by
  unfold State.orderBoundary State.examine
  split
  · exact judgeCell_moves s.formSend sampled _
  · exact spanMoves_of_spans rfl

/-- A handling of a boundary, and its spans. -/
theorem handle_moves (s : State) (superframe apart : Bool) (done : List Handling) (h : Handling) :
    s.spanMoves (s.handle superframe apart done h) := by
  cases h with
  | number => exact spanMoves_of_spans (formNumber_spans s)
  | timer n => exact spanMoves_of_spans (matchTimer_spans s n)
  | store n => exact (storeBoundary_becomes s superframe n).spanMoves (storeHandled_moves _ _)
  | otu => exact spanMoves_of_spans (otuBoundary_spans s superframe apart)
  | outputs => exact spanMoves_of_spans rfl
  | swaps => exact spanMoves_of_spans (by cases superframe <;> rfl)
  | units => exact spanMoves_of_spans (by cases superframe <;> rfl)
  | orderChannel =>
    cases superframe with
    | false => exact spanMoves_refl s
    | true => exact orderBoundary_moves s _

theorem handleAll_moves (superframe apart : Bool) (todo done : List Handling) (s : State) :
    s.spanMoves (s.handleAll superframe apart done todo) := by
  induction todo generalizing done s with
  | nil => exact spanMoves_refl s
  | cons h rest ih => exact spanMoves_trans (handle_moves s superframe apart done h) (ih _ _)

theorem finishReads_moves (s : State) : s.spanMoves s.finishReads := by
  unfold State.finishReads
  induction allSpans generalizing s with
  | nil => exact spanMoves_refl s
  | cons n rest ih =>
    exact spanMoves_trans (((becomes_refl s n).readSide 336).spanMoves (SpanMove.reads _ _).published) (ih _)

theorem gather_span (s : State) (b : Byte) (n : Fin 16) : (s.gather b).span n = s.span n := by
  unfold State.gather; split <;> rfl

theorem takeHolds_span (s : State) (received : Vector Byte 640) (n : Fin 16) :
    (s.takeHolds received).span n = { s.span n with tx := { (s.span n).tx with sent := s.sentFrame n } } := by
  unfold State.takeHolds
  simp only [State.span, Fin.getElem_fin, Vector.getElem_ofFn]

/-- The office frame in progress ends: for a span, its reads are completed and its frame has been sent (R17, R31). -/
theorem endFrame_span (s : State) (received : Vector Byte 640) (n : Fin 16) :
    (s.endFrame received).span n =
      { s.finishReads.span n with
        tx := { (s.finishReads.span n).tx with sent := (s.finishReads.gather received[0]).sentFrame n } } := by
  have h := takeHolds_span (s.finishReads.gather received[0]) received n
  have e : (s.endFrame received).spans = ((s.finishReads.gather received[0]).takeHolds received).spans := by
    unfold State.endFrame
    dsimp only
  simp only [gather_span] at h
  rw [← h, State.span, State.span, e]

theorem endFrame_moves (s : State) (received : Vector Byte 640) : s.spanMoves (s.endFrame received) := fun n => by
  rw [endFrame_span]
  exact (finishReads_moves s n).tail (.transmits _ _ _)

theorem openBoundary_span (s : State) (superframe : Bool) (n : Fin 16) :
    (s.openBoundary superframe).span n = (s.span n).openBoundary superframe := by
  simp [State.openBoundary, State.span]

theorem closeBoundary_span (s : State) (superframe status : Bool) (n : Fin 16) :
    (s.closeBoundary superframe status).span n =
      { s.span n with tx := { (s.span n).tx with overhead := (s.span n).overheadAt (frameIndex s.frameNumber) } } := by
  simp [State.closeBoundary, State.span]

theorem boundary_moves (s : State) (received : Vector Byte 640) (order : List Handling) (apart : Bool) :
    s.spanMoves (s.boundary received order apart) := by
  unfold State.boundary
  refine spanMoves_trans (spanMoves_of_spans (acquisitionTimeout_spans s)) (spanMoves_trans (endFrame_moves _ received) ?_)
  refine spanMoves_trans (t := (s.acquisitionTimeout.endFrame received).openBoundary s.superframeNext) (fun n => ?_) ?_
  · rw [openBoundary_span]
    exact .single (.opens _ _)
  · intro n
    dsimp only
    rw [closeBoundary_span]
    exact (handleAll_moves s.superframeNext apart (schedule order) [] _ n).tail (.transmits _ _ _)

/-! ### One command -/

/-- What a command under `whenRunning` keeps, whichever way it goes. -/
theorem spanMoves_of_whenRunning {s t u : State} (h : whenRunning s t = .next u) (k : s.spanMoves t) : s.spanMoves u := by
  rcases (whenRunning_eq_next s t u).mp h with ⟨-, rfl⟩ | ⟨-, rfl⟩
  · exact k
  · exact spanMoves_refl _

/-- An order given as a command. -/
theorem spanMoves_of_order {c : Instr} {s t : State} (hc : exec c s = whenRunning s (s.takeOrder (fun _ => true) c))
    (h : exec c s = .next t) : s.spanMoves t :=
  spanMoves_of_whenRunning (hc.symm.trans h) (takeOrder_moves (fun _ => true) s c)

/-- While office timing runs, a command makes nothing but moves of the spans. -/
theorem exec_moves (c : Instr) (s t : State) (hr : s.officeRuns = true) (h : exec c s = .next t) : s.spanMoves t := by
  cases c with
  | powerOn => cases h; exact spanMoves_of_spans rfl
  | coldRestartBegin =>
    simp only [exec, execColdRestartBegin] at h
    split at h <;> (cases h; exact spanMoves_of_spans rfl)
  | supplyFall =>
    simp only [exec, execSupplyFall] at h
    split at h
    · cases h; exact spanMoves_refl s
    · split at h <;> (cases h; exact spanMoves_of_spans rfl)
  | restartEnd =>
    simp only [State.officeRuns, Option.isNone_iff_eq_none] at hr
    simp only [exec, execRestartEnd, hr] at h
    cases h
    exact spanMoves_refl s
  | clockPresentRise n =>
    simp only [exec, execClockPresentRise, hr, if_true] at h
    cases h
    exact clockRise_moves s n
  | clockPresentFall m =>
    simp only [exec, execClockPresentFall, hr, if_true] at h
    cases h
    exact clockFall_moves s _ _
  | lineWindowEnd => exact spanMoves_of_whenRunning h (windowEnd_moves s _ _ _)
  | noisePeriodEnd => exact spanMoves_of_whenRunning h (noiseEnd_moves s _)
  | huntCandidateFound => exact spanMoves_of_whenRunning h (huntFound_moves s _ _ _)
  | verifyCheck => exact spanMoves_of_whenRunning h (verifyCheck_moves s _ _ _)
  | expectedAlignmentOctet => exact spanMoves_of_whenRunning h (expectedOctet_moves s _ _ _ _)
  | alignedFrame => exact spanMoves_of_whenRunning h (alignedFrame_moves s _ _ _)
  | storeUnderrun => exact spanMoves_of_whenRunning h (underrun_moves s _)
  | referenceEvent => exact spanMoves_of_whenRunning h (spanMoves_of_spans (by split <;> rfl))
  | officeFrameBoundary => exact spanMoves_of_whenRunning h (boundary_moves s _ _ _)
  | qualificationComplete =>
    exact spanMoves_of_whenRunning h (spanMoves_of_spans (by unfold State.qualificationComplete; dsimp only; split <;> rfl))
  | acquisitionTimeout => exact spanMoves_of_whenRunning h (spanMoves_of_spans (acquisitionTimeout_spans s))
  | unknownOrder => exact spanMoves_of_whenRunning h (spanMoves_of_spans (by split <;> rfl))
  | setDrift => exact spanMoves_of_whenRunning h (takeSetDrift_moves true _ _ _ _ s)
  | _ => exact spanMoves_of_order rfl h

/-- While a restart holds the part, a command leaves the spans but for the levels of clock-present and the restart goes on,
or the restart ends. -/
theorem exec_held (c : Instr) (s t : State) (hr : s.officeRuns = false) (h : exec c s = .next t) :
    (t.officeRuns = false ∧ ∀ n, t.span n = s.span n ∨ ∃ l, t.span n = (s.span n).setClock l) ∨
      ∃ k straps, t = s.restarted k straps := by
  have stays : t = s → (t.officeRuns = false ∧ ∀ n, t.span n = s.span n ∨ ∃ l, t.span n = (s.span n).setClock l) ∨
      ∃ k straps, t = s.restarted k straps := fun e => .inl ⟨e ▸ hr, fun n => .inl (by rw [e])⟩
  have level (n : Fin 16) (l : Bool) (e : t = s.modSpan n fun sp => sp.setClock l) :
      (t.officeRuns = false ∧ ∀ n, t.span n = s.span n ∨ ∃ l, t.span n = (s.span n).setClock l) ∨
        ∃ k straps, t = s.restarted k straps := by
    subst e
    refine .inl ⟨hr, fun m => ?_⟩
    by_cases hm : m = n
    · subst hm; exact .inr ⟨l, modSpan_span s m _⟩
    · exact .inl (modSpan_span_ne s n m _ hm)
  have held (k : RestartKind) (low up : Bool) (e : t = s.hold k low up) :
      (t.officeRuns = false ∧ ∀ n, t.span n = s.span n ∨ ∃ l, t.span n = (s.span n).setClock l) ∨
        ∃ k straps, t = s.restarted k straps := by
    subst e
    exact .inl ⟨rfl, fun n => .inl rfl⟩
  have idle {u : State} (h : whenRunning s u = .next t) : t = s := by
    rw [whenRunning_of_held s u hr] at h; cases h; rfl
  cases c with
  | powerOn => cases h; exact held _ _ _ rfl
  | coldRestartBegin =>
    simp only [exec, execColdRestartBegin] at h
    split at h <;> (cases h; exact held _ _ _ rfl)
  | supplyFall =>
    simp only [exec, execSupplyFall] at h
    split at h
    · cases h; exact stays rfl
    · split at h
      · cases h; exact held _ _ _ rfl
      · cases h; exact stays rfl
  | restartEnd straps =>
    simp only [exec, execRestartEnd] at h
    split at h
    · cases h; exact stays rfl
    next k _ =>
      split at h
      · cases h; exact .inr ⟨k, straps, rfl⟩
      · cases h; exact stays rfl
  | clockPresentRise n =>
    simp only [exec, execClockPresentRise, hr, Bool.false_eq_true, if_false] at h
    cases h
    exact level n true rfl
  | clockPresentFall m =>
    simp only [exec, execClockPresentFall, hr, Bool.false_eq_true, if_false] at h
    cases h
    exact level m.span false rfl
  | _ => exact stays (idle h)

end Sys2Proof.Machine
end

