-- ==== Sys2Proof/Proofs/LineLaw.lean ====
section
/-! Every move keeps the span law (O5), and the aligner's following of enable and clock-present (O6). -/

namespace Sys2Proof.Machine

/-! ### The parts of the span law -/

/-- The line windows' part of the span law (R4, R5). -/
def LineWindows.law (w : LineWindows) : Prop := w.exclusive ∧ w.tally ≤ w.periodWindows ∧ w.periodWindows ≤ 16

/-- The superframe aligner's part of the span law (R13 to R16). -/
def Superframe.law (sf : Superframe) : Prop :=
  (∀ c, sf.state = .search (some c) → c ≤ 15) ∧ (sf.state.isLocked = false → sf.reportValid = false ∧ sf.farEnd = .reset)

/-- The search is held while BLANK or BREAK is active: aligner `a` may stand beside windows `w` (R8, R11). -/
def LineWindows.allows (w : LineWindows) (a : Aligner) : Prop :=
  w.held = true → a.aligned = false ∧ ∀ c m f, a ≠ .verify c m f

theorem lineLaw_iff (sp : Span) :
    sp.lineLaw ↔
      sp.rx.aligner.counted ∧ sp.win.law ∧ sp.win.allows sp.rx.aligner ∧
      (1 ≤ sp.record.noiseLimit ∧ sp.record.noiseLimit ≤ 16) ∧ sp.sf.law ∧
      (sp.rx.aligner.aligned = false → sp.sf.state = .search none) := by
  unfold Span.lineLaw LineWindows.law LineWindows.allows Superframe.law
  tauto

/-- The span law sees the record, the aligner, the windows and the superframe aligner alone. -/
theorem lineLaw_congr {sp sp' : Span} (h : sp.lineLaw) (hr : sp'.record = sp.record) (ha : sp'.rx.aligner = sp.rx.aligner)
    (hw : sp'.win = sp.win) (hs : sp'.sf = sp.sf) : sp'.lineLaw := by
  rw [lineLaw_iff] at h ⊢
  rwa [hr, ha, hw, hs]

theorem allows_hunt (w : LineWindows) (p : Nat) : w.allows (.hunt p) := fun _ => ⟨rfl, fun _ _ _ => nofun⟩
theorem allows_off (w : LineWindows) : w.allows .off := fun _ => ⟨rfl, fun _ _ _ => nofun⟩
theorem allows_absent (w : LineWindows) : w.allows .absent := fun _ => ⟨rfl, fun _ _ _ => nofun⟩

/-- Windows under which an aligned span or a VERIFY stands are not held. -/
theorem held_of_allows {w : LineWindows} {a : Aligner} (h : w.allows a)
    (ha : a.aligned = true ∨ ∃ c m f, a = .verify c m f) : w.held = false := by
  by_contra k
  obtain ⟨h1, h2⟩ := h (by simpa using k)
  rcases ha with ha | ⟨c, m, f, ha⟩
  · simp [ha] at h1
  · exact h2 c m f ha

theorem allows_of_not_held {w : LineWindows} {a : Aligner} (h : w.held = false) : w.allows a := fun k => by simp [h] at k

theorem windows_law_reset : LineWindows.reset.law := by
  refine ⟨⟨?_, ?_, ?_⟩, ?_, ?_⟩ <;> decide

theorem superframe_law_reset : Superframe.reset.law := ⟨fun _ => nofun, fun _ => ⟨rfl, rfl⟩⟩

/-! ### The superframe aligner -/

theorem toSearch_state (sf : Superframe) : sf.toSearch.state = .search none := rfl

theorem toSearch_law {sf : Superframe} (h : sf.law) : sf.toSearch.law := by
  refine ⟨fun _ => nofun, fun _ => ⟨?_, rfl⟩⟩
  cases k : sf.state.isLocked with
  | true => simp [Superframe.toSearch, k]
  | false => simpa [Superframe.toSearch, k] using (h.2 k).1

/-- A state of SF-LOCKED is within the superframe part of the law. -/
theorem superframe_law_of_locked {sf : Superframe} {i : Fin 16} {m : Bool} (h : sf.state = .locked i m) : sf.law :=
  ⟨fun c k => by simp [h] at k, fun k => by simp [h, SuperframeState.isLocked] at k⟩

/-- An overhead octet keeps the superframe part of the law (R13 to R16). -/
theorem octet_law {sf : Superframe} (o : Byte) (h : sf.law) : (sf.octet o).law := by
  obtain ⟨hc, hv⟩ := h
  unfold Superframe.octet
  cases hs : sf.state with
  | search c =>
    have valid := hv (by simp [hs, SuperframeState.isLocked])
    have searching (c' : Option Nat) (hc' : ∀ c, c' = some c → c ≤ 15) : ({ sf with state := .search c' }).law :=
      ⟨fun c k => hc' c (by simpa using k), fun _ => valid⟩
    cases c with
    | none =>
      dsimp only
      split
      · exact searching (some 0) (by simp)
      · exact ⟨hc, hv⟩
    | some c =>
      have hle := hc c hs
      dsimp only
      split
      · split
        · exact superframe_law_of_locked rfl
        · exact searching none nofun
      · exact searching (some (c + 1)) fun d hd => by cases hd; omega
  | locked i m =>
    dsimp only
    split
    · split
      · exact superframe_law_of_locked rfl
      · split
        · exact toSearch_law ⟨hc, hv⟩
        · exact superframe_law_of_locked rfl
    · split <;> exact superframe_law_of_locked rfl

/-! ### Moves of the frame aligner -/

/-- A move of the aligner to a state with its counts in range and allowed by the windows. -/
theorem lineLaw_toAligner {sp : Span} {a : Aligner} (hw : sp.win.law)
    (hn : 1 ≤ sp.record.noiseLimit ∧ sp.record.noiseLimit ≤ 16) (hs : sp.sf.law)
    (hu : sp.rx.aligner.aligned = false → sp.sf.state = .search none) (hc : a.counted) (ha : sp.win.allows a) :
    (sp.toAligner a).lineLaw := by
  rw [lineLaw_iff, toAligner_aligner, toAligner_win, toAligner_record, toAligner_sf]
  refine ⟨hc, hw, ha, hn, ?_, fun k => ?_⟩
  · split
    · exact toSearch_law hs
    · exact hs
  · split
    · rfl
    · exact hu (by simp_all)

theorem lineLaw_leaveAt {sp : Span} {a : Aligner} (r : Nat) (hw : sp.win.law)
    (hn : 1 ≤ sp.record.noiseLimit ∧ sp.record.noiseLimit ≤ 16) (hs : sp.sf.law)
    (hu : sp.rx.aligner.aligned = false → sp.sf.state = .search none) (hc : a.counted) (ha : sp.win.allows a) :
    (sp.leaveAt r a).lineLaw :=
  lineLaw_congr (lineLaw_toAligner hw hn hs hu hc ha) (by simp) (by simp) (by simp) (by rw [leaveAt_sf, toAligner_sf])

/-! ### Line windows -/

/-- One window keeps BLANK and BREAK exclusive, for no window qualifies for both (R5). -/
theorem exclusive_step : ∀ (a as b bs p q : Bool), ¬(p = true ∧ q = true) →
    (¬(a = true ∧ b = true) ∧ (a = true → bs = true → as = true) ∧ (b = true → as = true → bs = true)) →
    let blank := Condition.step ⟨a, as⟩ p
    let brk := Condition.step ⟨b, bs⟩ q
    ¬(blank.active = true ∧ brk.active = true) ∧ (blank.active = true → brk.streak = true → blank.streak = true) ∧
      (brk.active = true → blank.streak = true → brk.streak = true) := by
  decide

theorem windowCounted_law {sp : Span} (ones : Nat) (noisy : Bool) (h : sp.win.law) (hd : sp.noiseDue = false) :
    (sp.windowCounted (336 - ones) ones noisy).win.law := by
  obtain ⟨he, ht, hp⟩ := h
  have hne : sp.win.periodWindows ≠ 16 := of_decide_eq_false hd
  refine ⟨exclusive_step _ _ _ _ _ _ ?_ he, ?_, ?_⟩
  · simp only [decide_eq_true_eq]
    omega
  · simp only [Span.windowCounted]
    split <;> omega
  · simp only [Span.windowCounted]
    omega

/-- A condition that is active and has not arisen was active before. -/
theorem held_of_not_arises {w w' : LineWindows} (h : w.arises w' = false) (k : w'.held = true) : w.held = true := by
  unfold LineWindows.arises at h
  unfold LineWindows.held at k ⊢
  revert h k
  cases w.blank.active <;> cases w.brk.active <;> cases w'.blank.active <;> cases w'.brk.active <;> decide

theorem lineLaw_windowEnded {sp : Span} (r ones : Nat) (noisy : Bool) (h : sp.lineLaw) (hd : sp.noiseDue = false) :
    (sp.windowEnded r ones noisy).lineLaw := by
  obtain ⟨hc, hw, ha, hn, hs, hu⟩ := (lineLaw_iff sp).mp h
  have hw' := windowCounted_law ones noisy hw hd
  have counted (k : (sp.windowCounted (336 - ones) ones noisy).win.allows sp.rx.aligner) :
      (sp.windowCounted (336 - ones) ones noisy).lineLaw := (lineLaw_iff _).mpr ⟨hc, hw', k, hn, hs, hu⟩
  cases hal : sp.rx.aligner with
  | hunt f =>
    rw [windowEnded_hunt sp r ones noisy hal]
    split
    · exact lineLaw_toAligner hw' hn hs hu trivial (allows_hunt _ _)
    · exact counted (hal ▸ allows_hunt _ _)
  | off =>
    rw [windowEnded_stopped sp r ones noisy (.inl hal)]
    exact counted (hal ▸ allows_off _)
  | absent =>
    rw [windowEnded_stopped sp r ones noisy (.inr hal)]
    exact counted (hal ▸ allows_absent _)
  | _ =>
    have moving : sp.rx.aligner.aligned = true ∨ ∃ c m f, sp.rx.aligner = .verify c m f := by simp [hal, Aligner.aligned]
    cases k : sp.win.arises (sp.windowCounted (336 - ones) ones noisy).win with
    | true =>
      rw [windowEnded_arises sp r ones noisy moving k]
      exact lineLaw_leaveAt r hw' hn hs hu trivial (allows_hunt _ _)
    | false =>
      rw [windowEnded_quiet sp r ones noisy (by simp [hal]) k]
      exact counted fun held => ha (held_of_not_arises k held)

/-! ### Every move -/

theorem lineLaw_enableActs {sp : Span} {r : SpanRecord} (h : sp.lineLaw) (hr : 1 ≤ r.noiseLimit ∧ r.noiseLimit ≤ 16) :
    (Span.enableActs { sp with record := r } sp.record.enable).lineLaw := by
  obtain ⟨hc, hw, ha, -, hs, hu⟩ := (lineLaw_iff sp).mp h
  have moved (a : Aligner) (hca : a.counted) :
      (Span.toAligner (Span.clearWindows { sp with record := r }) a).lineLaw :=
    lineLaw_toAligner windows_law_reset hr hs hu hca (allows_of_not_held rfl)
  unfold Span.enableActs
  split
  · exact (lineLaw_iff _).mpr ⟨hc, hw, ha, hr, hs, hu⟩
  · split
    · exact moved _ (by split <;> trivial)
    · exact moved _ trivial

theorem restartAligner_counted (sp : Span) : sp.restartAligner.counted := by
  unfold Span.restartAligner
  split_ifs <;> trivial

@[simp] theorem restart_record (sp : Span) : sp.restart.record = sp.record := toAligner_record sp _
@[simp] theorem restart_aligner (sp : Span) : sp.restart.rx.aligner = sp.restartAligner := toAligner_aligner sp _
@[simp] theorem restart_clockPresent (sp : Span) : sp.restart.rx.clockPresent = sp.rx.clockPresent :=
  toAligner_clockPresent sp _
@[simp] theorem restart_win (sp : Span) : sp.restart.win = .reset := rfl
@[simp] theorem restart_sf (sp : Span) : sp.restart.sf = .reset := rfl

/-- Every move keeps the span law. -/
theorem spanMove_lineLaw (a b : Span) (m : SpanMove a b) (h : a.lineLaw) : b.lineLaw := by
  obtain ⟨hc, hw, ha, hn, hs, hu⟩ := (lineLaw_iff a).mp h
  have same {b : Span} (hr : b.record = a.record) (hx : b.rx.aligner = a.rx.aligner) (hw : b.win = a.win) (hs : b.sf = a.sf) :
      b.lineLaw := lineLaw_congr h hr hx hw hs
  have moves {a' : Aligner} (hc' : a'.counted) (ha' : a.win.allows a') : (a.toAligner a').lineLaw :=
    lineLaw_toAligner hw hn hs hu hc' ha'
  cases m with
  | latch => exact same rfl rfl rfl rfl
  | level => exact same rfl rfl rfl rfl
  | clockRise => exact lineLaw_toAligner windows_law_reset hn hs hu trivial (allows_hunt _ _)
  | clockFall => exact lineLaw_leaveAt _ windows_law_reset hn hs hu trivial (allows_absent _)
  | window _ _ _ _ hd => exact lineLaw_windowEnded _ _ _ h hd
  | noise => exact (lineLaw_iff _).mpr ⟨hc, ⟨hw.1, Nat.le_refl 0, Nat.zero_le _⟩, ha, hn, hs, hu⟩
  | candidate _ _ hh => exact moves ⟨by decide, by decide, by decide⟩ (allows_of_not_held hh)
  | fails => exact moves trivial (allows_hunt _ _)
  | goesOn ok hv hf hm =>
    have hheld := held_of_allows ha (.inr ⟨_, _, _, hv⟩)
    rw [hv] at hc
    refine moves ?_ (allows_of_not_held hheld)
    obtain ⟨h1, h2, h3⟩ := hc
    unfold failedAfter
    rcases hf with rfl | rfl
    · exact ⟨by omega, by simpa using h2, by simp; omega⟩
    · exact ⟨by omega, by split <;> omega, by split <;> omega⟩
  | locks _ _ hv =>
    exact (lineLaw_iff _).mpr
      ⟨trivial, hw, allows_of_not_held (held_of_allows ha (.inr ⟨_, _, _, hv⟩)), hn, hs, fun k => by cases k⟩
  | expected a' hal _ hc' => exact moves hc' (allows_of_not_held (held_of_allows ha (.inl hal)))
  | missed => exact lineLaw_leaveAt _ hw hn hs hu trivial (allows_hunt _ _)
  | reads k =>
    exact same (readBits_keeps Span.record withStore_record k a) (by rw [readBits_rx])
      (readBits_keeps Span.win withStore_win k a) (readBits_keeps Span.sf withStore_sf k a)
  | bit b hal =>
    rw [lineLaw_iff, receiveBit_aligner, receiveBit_win, receiveBit_record, receiveBit_sf]
    refine ⟨hc, hw, ha, hn, ?_, fun k => by simp [hal] at k⟩
    split
    · exact octet_law _ hs
    · exact hs
  | setRecord r hr => exact lineLaw_enableActs h hr
  | restart =>
    rw [lineLaw_iff]
    simp only [restart_aligner, restart_win, restart_record, restart_sf]
    exact ⟨restartAligner_counted a, windows_law_reset, allows_of_not_held rfl, hn, superframe_law_reset, fun _ => rfl⟩
  | thresholds => exact same rfl rfl rfl rfl
  | driftStored => exact same rfl rfl rfl rfl
  | driftCommitted => exact same rfl rfl rfl rfl
  | opens => exact same rfl rfl rfl rfl
  | boundary => exact same (by simp) (by simp) (by simp) (by simp)
  | transmits => exact same rfl rfl rfl rfl
  | counts => exact same rfl rfl rfl rfl
  | relatch => exact same rfl rfl rfl rfl

/-- A span after POWER-ON or COLD, whatever the level of its clock-present. -/
theorem lineLaw_reset (level : Bool) :
    ({ Span.reset with rx := { Receiver.reset with clockPresent := level } }).lineLaw := by
  rw [lineLaw_iff]
  exact ⟨trivial, windows_law_reset, allows_of_not_held rfl,
    show 1 ≤ SpanRecord.reset.noiseLimit ∧ SpanRecord.reset.noiseLimit ≤ 16 by decide, superframe_law_reset, fun _ => rfl⟩

theorem restarted_span (s : State) (k : RestartKind) (straps : BitVec 5) (n : Fin 16) :
    (s.restarted k straps).span n =
      { Span.reset with rx := { Receiver.reset with clockPresent := (s.span n).rx.clockPresent } } := by
  simp [State.restarted, State.span]

/-- A step is idle, or takes the command at the front. -/
theorem step_cases {s t : State} (h : step s = .next t) :
    t = s ∨ ∃ c rest, s.pending = c :: rest ∧ exec c { s with pending := rest } = .next t := by
  unfold step at h
  split at h
  · cases h; exact .inl rfl
  next c rest e => exact .inr ⟨c, rest, e, h⟩

/-- Settles O5: what every move of a span keeps, every step keeps. -/
theorem lineLawKept : Obligations.LineLawKept := by
  intro s t h hstep n
  obtain rfl | ⟨c, rest, -, he⟩ := step_cases hstep
  · exact h n
  · cases hr : State.officeRuns { s with pending := rest } with
    | true => exact SpanMoves.keeps spanMove_lineLaw (exec_moves c _ t hr he n) (h n)
    | false =>
      obtain ⟨-, hs⟩ | ⟨k, straps, rfl⟩ := exec_held c _ t hr he
      · obtain e | ⟨l, e⟩ := hs n
        · rw [e]; exact h n
        · rw [e]; exact lineLaw_congr (h n) rfl rfl rfl rfl
      · rw [restarted_span]
        exact lineLaw_reset _

/-! ### The aligner follows enable and clock-present (R7) -/

/-- The aligner runs: it is neither OFF nor ABSENT. -/
def Aligner.running (a : Aligner) : Prop := a ≠ .off ∧ a ≠ .absent

/-- A running aligner follows exactly while the sampler runs. -/
theorem follows_of_running {sp : Span} (h : sp.rx.aligner.running) (he : sp.record.enable = true)
    (hc : sp.rx.clockPresent = true) : sp.follows := by
  simp [Span.follows, h.1, h.2, he, hc]

theorem sampling_of_running {sp : Span} (h : sp.follows) (hr : sp.rx.aligner.running) :
    sp.record.enable = true ∧ sp.rx.clockPresent = true := by
  obtain ⟨h1, h2⟩ := h
  have he : sp.record.enable = true := by
    by_contra k
    exact hr.1 (h1.mpr (by simpa using k))
  exact ⟨he, by_contra fun k => hr.2 (h2.mpr ⟨he, by simpa using k⟩)⟩

/-- The span between two running states of its aligner, enable and clock-present unchanged. -/
theorem follows_running {sp sp' : Span} (h : sp.follows) (hr : sp.rx.aligner.running) (hr' : sp'.rx.aligner.running)
    (he : sp'.record.enable = sp.record.enable) (hc : sp'.rx.clockPresent = sp.rx.clockPresent) : sp'.follows := by
  obtain ⟨e, c⟩ := sampling_of_running h hr
  exact follows_of_running hr' (he.trans e) (hc.trans c)

/-- Following sees enable, the aligner and clock-present alone. -/
theorem follows_congr {sp sp' : Span} (h : sp.follows) (he : sp'.record.enable = sp.record.enable)
    (ha : sp'.rx.aligner = sp.rx.aligner) (hc : sp'.rx.clockPresent = sp.rx.clockPresent) : sp'.follows := by
  unfold Span.follows at h ⊢
  rwa [he, ha, hc]

theorem running_of_aligned {a : Aligner} (h : a.aligned = true) : a.running := by
  cases a <;> simp_all [Aligner.aligned, Aligner.running]

theorem running_hunt (p : Nat) : (Aligner.hunt p).running := ⟨nofun, nofun⟩
theorem running_verify (c m f : Nat) : (Aligner.verify c m f).running := ⟨nofun, nofun⟩

/-- A span whose aligner is put where enable and clock-present say, in HUNT where it runs (R7, R21, R22). -/
theorem follows_of_restartAligner {sp : Span} (h : sp.rx.aligner = sp.restartAligner) : sp.follows := by
  unfold Span.restartAligner at h
  unfold Span.follows
  rw [h]
  cases sp.record.enable <;> cases sp.rx.clockPresent <;> decide

theorem windowEnded_follows {sp : Span} (r ones : Nat) (noisy : Bool) (h : sp.follows) :
    (sp.windowEnded r ones noisy).follows := by
  have counted : (sp.windowCounted (336 - ones) ones noisy).follows := follows_congr h rfl rfl rfl
  cases hal : sp.rx.aligner with
  | hunt f =>
    rw [windowEnded_hunt sp r ones noisy hal]
    split
    · exact follows_running h (hal ▸ running_hunt f) (by rw [toAligner_aligner]; exact running_hunt _) (by simp) (by simp)
    · exact counted
  | off => rwa [windowEnded_stopped sp r ones noisy (.inl hal)]
  | absent => rwa [windowEnded_stopped sp r ones noisy (.inr hal)]
  | _ =>
    have moving : sp.rx.aligner.aligned = true ∨ ∃ c m f, sp.rx.aligner = .verify c m f := by simp [hal, Aligner.aligned]
    have running : sp.rx.aligner.running := by rw [hal]; exact ⟨nofun, nofun⟩
    cases k : sp.win.arises (sp.windowCounted (336 - ones) ones noisy).win with
    | true =>
      rw [windowEnded_arises sp r ones noisy moving k]
      exact follows_running h running (by rw [leaveAt_aligner]; exact running_hunt _) (by simp) (by simp)
    | false => rwa [windowEnded_quiet sp r ones noisy (by simp [hal]) k]

theorem enableActs_follows {sp : Span} (r : SpanRecord) (h : sp.follows) :
    (Span.enableActs { sp with record := r } sp.record.enable).follows := by
  unfold Span.enableActs
  split
  next e => exact follows_congr h e.symm rfl rfl
  · split
    next e =>
      have e' : r.enable = true := e
      exact follows_of_restartAligner (by simp [Span.restartAligner, e'])
    next e =>
      have e' : r.enable = false := by simpa using e
      exact follows_of_restartAligner (by simp [Span.restartAligner, e'])

/-- Every move keeps the aligner where enable and clock-present say. -/
theorem spanMove_follows (a b : Span) (m : SpanMove a b) (h : a.follows) : b.follows := by
  have same {b : Span} (hr : b.record = a.record) (hx : b.rx = a.rx) : b.follows :=
    follows_congr h (by rw [hr]) (by rw [hx]) (by rw [hx])
  have moves (a' : Aligner) (hr : a.rx.aligner.running) (hr' : a'.running) : (a.toAligner a').follows :=
    follows_running h hr (by rwa [toAligner_aligner]) (by simp) (by simp)
  cases m with
  | latch => exact same rfl rfl
  | level l hl =>
    rcases hl with hl | hl
    · obtain ⟨h1, h2⟩ := h
      have off := h1.mpr hl
      simp [Span.follows, hl, off]
    · exact follows_congr h rfl rfl hl.symm
  | clockRise he => exact follows_of_running (by rw [toAligner_aligner]; exact running_hunt 0) (by simpa using he) (by simp)
  | clockFall r he => simp [Span.follows, he]
  | window => exact windowEnded_follows _ _ _ h
  | noise => exact same rfl rfl
  | candidate p hf => exact moves _ (hf ▸ running_hunt _) (running_verify _ _ _)
  | fails p hv => exact moves _ (hv ▸ running_verify _ _ _) (running_hunt _)
  | goesOn ok hv => exact moves _ (hv ▸ running_verify _ _ _) (running_verify _ _ _)
  | locks p counts hv => exact follows_running h (hv ▸ running_verify _ _ _) (running_of_aligned rfl) rfl rfl
  | expected a' hal hal' => exact moves _ (running_of_aligned hal) (running_of_aligned hal')
  | missed r p hal =>
    exact follows_running h (running_of_aligned hal) (by rw [leaveAt_aligner]; exact running_hunt _) (by simp) (by simp)
  | reads k => exact same (readBits_keeps Span.record withStore_record k a) (readBits_rx a k)
  | bit b => exact follows_congr h (by simp) (by simp) (by rw [receiveBit_rx])
  | setRecord r => exact enableActs_follows r h
  | restart => exact follows_of_restartAligner (by simp [Span.restartAligner])
  | thresholds => exact same rfl rfl
  | driftStored => exact same rfl rfl
  | driftCommitted => exact same rfl rfl
  | opens => exact same rfl rfl
  | boundary => exact same (by simp) (by simp)
  | transmits => exact same rfl rfl
  | counts => exact same rfl rfl
  | relatch => exact same rfl rfl

/-- Settles O6: while office timing runs a step makes moves alone, and a restart ends with every span disabled. -/
theorem alignerFollowsKept : Obligations.AlignerFollowsKept := by
  intro s t h hstep ht n
  obtain rfl | ⟨c, rest, -, he⟩ := step_cases hstep
  · exact h ht n
  · cases hr : State.officeRuns { s with pending := rest } with
    | true => exact SpanMoves.keeps spanMove_follows (exec_moves c _ t hr he n) (h hr n)
    | false =>
      obtain ⟨hheld, -⟩ | ⟨k, straps, rfl⟩ := exec_held c _ t hr he
      · simp [hheld] at ht
      · rw [restarted_span]
        exact follows_of_restartAligner rfl

end Sys2Proof.Machine
end

