-- ==== Sys2Proof/Proofs/Leaving.lean ====
section
/-! A run of reads as one change of the store, and what an alignment-lost event leaves of a span (R11, R27, R28). -/

namespace Sys2Proof.Machine

/-! ### A run of reads of one store (R31, R37, R38) -/

/-- `k` reads of a store, stopping when it is not ATTACHED. -/
def Store.reads (st : Store) : Nat → Store
  | 0 => st
  | k + 1 => if st.state = .attached then st.readBit.reads k else st

theorem reads_of_not_attached (st : Store) (k : Nat) (h : st.state ≠ .attached) : st.reads k = st := by
  cases k with
  | zero => rfl
  | succ k => exact if_neg h

theorem reads_succ (st : Store) (k : Nat) (h : st.state = .attached) : st.reads (k + 1) = st.readBit.reads k := if_pos h

/-- A read that empties the store is an underrun (R37, R38). -/
theorem readBit_runs_dry (st : Store) (h : st.fill ≤ 1) :
    st.readBit =
      { st with out := st.out ++ [ringBit st.ring st.readPos], readPos := ringAfter st.readPos 1, fill := st.fill - 1
                state := .faulted, lastFault := .underrun } := if_pos h

theorem readBit_dry_state (st : Store) (h : st.fill ≤ 1) : st.readBit.state ≠ .attached := by
  rw [readBit_runs_dry st h]
  nofun

/-- Reads move the read side alone: nothing of the ring, of the write side or of the thresholds. -/
theorem reads_keeps {α : Sort _} (p : Store → α) (h : ∀ st, p st.readBit = p st) (k : Nat) (st : Store) :
    p (st.reads k) = p st := by
  induction k generalizing st with
  | zero => rfl
  | succ k ih =>
    by_cases hs : st.state = .attached
    · rw [reads_succ st k hs, ih, h]
    · rw [reads_of_not_attached st _ hs]

@[simp] theorem reads_ring (st : Store) (k : Nat) : (st.reads k).ring = st.ring :=
  reads_keeps Store.ring (fun st => by unfold Store.readBit; dsimp only; split <;> rfl) k st
@[simp] theorem reads_writePos (st : Store) (k : Nat) : (st.reads k).writePos = st.writePos :=
  reads_keeps Store.writePos (fun st => by unfold Store.readBit; dsimp only; split <;> rfl) k st

/-- Reads that do not empty the store leave it ATTACHED. -/
theorem reads_of_enough (st : Store) (k : Nat) (hs : st.state = .attached) (h : k = 0 ∨ k < st.fill) :
    (st.reads k).state = .attached ∧ (st.reads k).lastFault = st.lastFault := by
  induction k generalizing st with
  | zero => exact ⟨hs, rfl⟩
  | succ k ih =>
    have e := readBit_attached st (by omega)
    rw [reads_succ st k hs, e]
    exact ih _ hs (.inr (show k < st.fill - 1 by omega))

/-- Reads that empty the store fault it (R37, R38). -/
theorem reads_of_dry (st : Store) (k : Nat) (hs : st.state = .attached) (h1 : 1 ≤ k) (h : st.fill ≤ k) :
    (st.reads k).state = .faulted ∧ (st.reads k).lastFault = .underrun := by
  induction k generalizing st with
  | zero => omega
  | succ k ih =>
    rw [reads_succ st k hs]
    by_cases hf : st.fill ≤ 1
    · rw [reads_of_not_attached _ k (readBit_dry_state st hf), readBit_runs_dry st hf]
      exact ⟨rfl, rfl⟩
    · rw [readBit_attached st (by omega)]
      exact ih _ hs (by omega) (show st.fill - 1 ≤ k by omega)

/-- What a run of reads delivers: the bits in order from the read position, as many as the store holds (R27, R31). -/
theorem reads_out (st : Store) (k : Nat) (hs : st.state = .attached) (h1 : 1 ≤ st.fill) (hp : st.readPos < 1344) :
    (st.reads k).out =
      st.out ++ (List.range (min k st.fill)).map fun j => ringBit st.ring ((st.readPos + j) % 1344) := by
  induction k generalizing st with
  | zero => simp [Store.reads]
  | succ k ih =>
    rw [reads_succ st k hs]
    by_cases hf : st.fill ≤ 1
    · have hf1 : st.fill = 1 := by omega
      rw [reads_of_not_attached _ k (readBit_dry_state st hf), readBit_runs_dry st hf, hf1]
      simp [Nat.mod_eq_of_lt hp]
    · rw [readBit_attached st (by omega),
        ih { st with out := st.out ++ [ringBit st.ring st.readPos], readPos := ringAfter st.readPos 1, fill := st.fill - 1 }
          hs (show 1 ≤ st.fill - 1 by omega) (Nat.mod_lt _ (by decide))]
      have hmin : min (k + 1) st.fill = min k (st.fill - 1) + 1 := by omega
      have hpos : ∀ j, (ringAfter st.readPos 1 + j) % 1344 = (st.readPos + (j + 1)) % 1344 := fun j => by
        simp only [ringAfter]; omega
      simp only [hmin, hpos, List.range_succ_eq_map, List.map_cons, List.map_map, List.append_assoc, List.singleton_append,
        Nat.add_zero, Nat.mod_eq_of_lt hp]
      rfl

/-- A run of reads is one change of the store, with at most one store fault (R38). -/
theorem readBits_eq (sp : Span) (k : Nat) : sp.readBits k = sp.withStore (sp.store.reads k) := by
  induction k generalizing sp with
  | zero => exact (withStore_of_no_fault sp sp.store (by cases sp.store.state <;> simp)).symm
  | succ k ih =>
    by_cases hs : sp.store.state = .attached
    · rw [Span.readBits, if_pos hs, ih, withStore_store, reads_succ _ _ hs]
      by_cases hf : sp.store.readBit.state = .faulted
      · rw [reads_of_not_attached _ _ (by simp [hf])]
        rw [withStore_of_no_fault (sp.withStore sp.store.readBit) _ (.inl (by simp [hf]))]
        unfold Span.withStore
        split <;> rfl
      · rw [withStore_of_no_fault sp sp.store.readBit (.inr hf)]
        have ha : sp.store.readBit.state = .attached := by
          unfold Store.readBit at hf ⊢
          dsimp only at hf ⊢
          split at hf
          · exact absurd rfl hf
          next hfill => rw [if_neg hfill]; exact hs
        simp only [Span.withStore, ha, hs]
    · rw [Span.readBits, if_neg hs, reads_of_not_attached _ _ hs]
      exact (withStore_of_no_fault sp sp.store (.inl hs)).symm

/-! ### The reads up to a moment (R27) -/

/-- The store once its read side stands `r` bits into its frame. -/
def Store.readTo (st : Store) (r : Nat) : Store := st.reads (min r 336 - st.out.length)

theorem readTo_eq (sp : Span) (r : Nat) : sp.readTo r = sp.withStore (sp.store.readTo r) := readBits_eq sp _

@[simp] theorem readTo_store (sp : Span) (r : Nat) : (sp.readTo r).store = sp.store.readTo r := by
  rw [readTo_eq, withStore_store]

theorem dryBy_iff (st : Store) (r : Nat) :
    st.dryBy r = true ↔
      st.state = .attached ∧ 1 ≤ min r 336 - st.out.length ∧ st.fill ≤ min r 336 - st.out.length := by
  simp [Store.dryBy, and_assoc]

/-- The reads run the store empty exactly where they leave an ATTACHED store FAULTED. -/
theorem readTo_faults (st : Store) (r : Nat) (hs : st.state = .attached) :
    (st.readTo r).state = .faulted ↔ st.dryBy r = true := by
  rw [dryBy_iff]
  constructor
  · intro h
    refine ⟨hs, ?_⟩
    by_contra k
    have hk := (reads_of_enough st (min r 336 - st.out.length) hs (by omega)).1
    rw [Store.readTo, hk] at h
    cases h
  · exact fun ⟨_, h1, h⟩ => (reads_of_dry st _ hs h1 h).1

theorem readTo_lastFault (st : Store) (r : Nat) :
    (st.readTo r).lastFault = if st.dryBy r then .underrun else st.lastFault := by
  by_cases hs : st.state = .attached
  · split
    next h =>
      obtain ⟨-, h1, h2⟩ := (dryBy_iff st r).mp h
      exact (reads_of_dry st _ hs h1 h2).2
    next h =>
      rw [dryBy_iff] at h
      exact (reads_of_enough st _ hs (by simp only [hs, true_and, not_and] at h; omega)).2
  · have h : st.dryBy r = false := by simp [Store.dryBy, hs]
    rw [Store.readTo, reads_of_not_attached st _ hs, h]
    rfl

/-- Reads of a store that is in service leave it in service. -/
theorem readTo_not_detached (st : Store) (r : Nat) (h : st.state ≠ .detached) : (st.readTo r).state ≠ .detached := by
  by_cases hs : st.state = .attached
  · by_cases hd : st.dryBy r = true
    · simp [(readTo_faults st r hs).mpr hd]
    · rw [dryBy_iff] at hd
      have hk := (reads_of_enough st (min r 336 - st.out.length) hs (by simp only [hs, true_and, not_and] at hd; omega)).1
      simp [Store.readTo, hk]
  · rwa [Store.readTo, reads_of_not_attached st _ hs]

/-- The faults that reads bring are counted (R37). -/
theorem readTo_counts (sp : Span) (r : Nat) :
    (sp.readTo r).counts =
      { sp.counts with
        storeFaults := if sp.store.dryBy r then raise sp.counts.storeFaults else sp.counts.storeFaults } := by
  rw [readTo_eq]
  unfold Span.withStore
  by_cases hs : sp.store.state = .attached
  · simp only [hs, true_and, readTo_faults _ r hs]
    split <;> rfl
  · have h : sp.store.dryBy r = false := by simp [Store.dryBy, hs]
    simp [hs, h]

theorem storeLeft_storeLeft (m : Meter) : m.storeLeft.storeLeft = m.storeLeft := rfl

/-- The meter of a store that leaves service after some reads (R50, R58). -/
theorem readTo_storeLeft (sp : Span) (r : Nat) : (sp.readTo r).meter.storeLeft = sp.meter.storeLeft := by
  rw [readTo_eq]
  unfold Span.withStore
  split <;> rfl

/-- Reads lose no latched alarm. -/
theorem readTo_latched (sp : Span) (r : Nat) : subset sp.latched (sp.readTo r).latched := by
  rw [readTo_eq]
  unfold Span.withStore
  split
  · exact subset_or_left _ _
  · exact subset_refl _

/-! ### A store that leaves alignment (R28) -/

theorem detach_state (st : Store) : st.detach.state = .detached := by
  unfold Store.detach
  split
  · assumption
  · rfl

theorem detach_of_in_service (st : Store) (h : st.state ≠ .detached) :
    st.detach = { st with state := .detached, fill := 0, lastFill := 0 } := by
  unfold Store.detach
  split
  · contradiction
  · rfl

theorem detach_of_detached (st : Store) (h : st.state = .detached) : st.detach = st := by
  unfold Store.detach
  rw [h]

@[simp] theorem detach_ring (st : Store) : st.detach.ring = st.ring := by unfold Store.detach; split <;> rfl
@[simp] theorem detach_writePos (st : Store) : st.detach.writePos = st.writePos := by unfold Store.detach; split <;> rfl
@[simp] theorem detach_out (st : Store) : st.detach.out = st.out := by unfold Store.detach; split <;> rfl
@[simp] theorem detach_lastFault (st : Store) : st.detach.lastFault = st.lastFault := by unfold Store.detach; split <;> rfl
@[simp] theorem detach_low (st : Store) : st.detach.low = st.low := by unfold Store.detach; split <;> rfl
@[simp] theorem detach_high (st : Store) : st.detach.high = st.high := by unfold Store.detach; split <;> rfl

/-- A store read up to a moment and then detached leaves as R27 and R28 say. -/
theorem leaves_readTo (st : Store) (r : Nat) : st.leaves r (st.readTo r).detach := by
  refine ⟨detach_state _, fun h => ?_, ?_, ?_, fun h => ?_, fun hs h1 hp => ?_, ?_⟩
  · rw [detach_of_in_service _ (readTo_not_detached st r h)]
    exact ⟨rfl, rfl⟩
  · rw [detach_ring, Store.readTo, reads_ring]
  · rw [detach_writePos, Store.readTo, reads_writePos]
  · rw [detach_out, Store.readTo, reads_of_not_attached st _ h]
  · rw [detach_out, Store.readTo, reads_out st _ hs h1 hp]
  · rw [detach_lastFault, readTo_lastFault]

/-! ### A span that leaves alignment (R11) -/

section

variable (sp : Span) (r : Nat) (a : Aligner) (h : sp.rx.aligner.aligned = true) (ha : a.aligned = false)
include h ha

theorem leaveAt_store : (sp.leaveAt r a).store = (sp.store.readTo r).detach := by
  rw [leaveAt_of_aligned sp r a h, toAligner_leaving _ a ha (by simpa using h)]
  simp

theorem leaveAt_meter : (sp.leaveAt r a).meter = sp.meter.storeLeft := by
  rw [leaveAt_of_aligned sp r a h, toAligner_leaving _ a ha (by simpa using h)]
  exact readTo_storeLeft sp r

theorem leaveAt_searches : (sp.leaveAt r a).sf.state = .search none := by
  rw [leaveAt_sf, if_pos ⟨ha, h⟩]
  rfl

omit ha in
theorem leaveAt_counts :
    (sp.leaveAt r a).counts =
      { sp.counts with
        alignmentLosses := raise sp.counts.alignmentLosses
        storeFaults := if sp.store.dryBy r then raise sp.counts.storeFaults else sp.counts.storeFaults } := by
  rw [leaveAt_of_aligned sp r a h, toAligner_counts]
  simp only [readTo_counts]

omit ha in
theorem leaveAt_latched : subset sp.latched (sp.leaveAt r a).latched := by
  rw [leaveAt_of_aligned sp r a h, toAligner_latched]
  exact subset_trans (readTo_latched sp r) (subset_or_left _ _)

end

/-- Every active alarm is latched once a change is published. -/
theorem active_latched_of_latch (sp : Span) : subset sp.latch.active sp.latch.latched := subset_or_right _ _

/-- A trigger of source 4 reaches every unit on the span that takes it (R11, R123). -/
theorem loseAlignment_triggers (s : State) (n : Fin 16) (r : Nat) (a : Aligner) (h : (s.span n).rx.aligner.aligned = true)
    (u : Fin 4) (hs : s.units[u].source = 4) (hp : s.units[u].point.span? = some n) :
    (s.loseAlignment n r a).units[u].newTrigger = true := by
  obtain ⟨-, ⟨-, -, -, -, -, -, -, hread, -⟩, -⟩ := (becomes_refl s n).readSide r
  have keeps (t : State) (ht : t.units[u].newTrigger = true) : (t.publish n).units[u].newTrigger = true := by
    obtain ⟨-, ⟨-, -, -, -, -, -, -, hk, -⟩, -⟩ := publish_becomes t n
    rcases hk u with k | k
    · rw [k]; exact ht
    · rw [k]
  have hu : (s.readSide n r).units[u].source = 4 ∧ (s.readSide n r).units[u].point.span? = some n := by
    rcases hread u with k | k <;> rw [k] <;> exact ⟨hs, hp⟩
  rw [State.loseAlignment, if_pos h]
  refine keeps _ ?_
  rw [offerSpanTrigger_unit, modSpan_units, if_pos hu]
  rfl

end Sys2Proof.Machine
end

