-- ==== Sys2Proof/Proofs/ClockAndWindows.lean ====
section
/-! CLOCK_PRESENT_RISE and FALL (O24), LINE_WINDOW_END and NOISE_PERIOD_END (O25). -/

namespace Sys2Proof.Machine

/-! ### Clock-present -/

theorem exec_clockPresentRise {s : State} (n : Fin 16) (hr : s.officeRuns = true) :
    exec (.clockPresentRise n) s = .next (s.clockRise n) := by
  simp [exec, execClockPresentRise, hr]

theorem exec_clockPresentFall {s : State} (n : Fin 16) (r : Nat) (hr : s.officeRuns = true) :
    exec (.clockPresentFall ⟨n, r⟩) s = .next (s.clockFall n r) := by
  simp [exec, execClockPresentFall, hr]

/-- Where a span is not aligned, a rise or a fall that clears its windows moves its receiver alone. -/
theorem toAligner_cleared (sp : Span) (l : Bool) (a : Aligner) (ha : a.aligned = false)
    (h : sp.rx.aligner.aligned = false) :
    (sp.setClock l).clearWindows.toAligner a =
      { sp with rx := { sp.rx with clockPresent := l, aligner := a, frameBit := 0, overhead := 0 }, win := .reset } :=
  toAligner_unaligned _ a ha h

theorem clockFall_triggers (s : State) (n : Fin 16) (r : Nat) (he : (s.span n).record.enable = true)
    (hc : (s.span n).rx.clockPresent = true) (h : (s.span n).rx.aligner.aligned = true) (u : Fin 4)
    (hs : s.units[u].source = 4) (hp : s.units[u].point.span? = some n) :
    (s.clockFall n r).units[u].newTrigger = true := by
  rw [State.clockFall, if_pos ⟨he, hc⟩]
  exact loseAlignment_triggers _ n r .absent (by simpa using h) u hs hp

/-- Settles O24, by whether the span is enabled, the level it has, and whether it is aligned. -/
theorem clockPresentEvents : Obligations.ClockPresentEvents := by
  intro s n r hr
  refine ⟨⟨_, exec_clockPresentRise n hr, ?_⟩, ⟨_, exec_clockPresentFall n r hr, ?_⟩⟩
  · by_cases h : (s.span n).record.enable = false ∨ (s.span n).rx.clockPresent = true
    · rw [clockRise_level s n h]
      obtain ⟨hn, hk, hch⟩ := modSpan_becomes s n fun sp => sp.setClock true
      rw [hn]
      exact ⟨hk, hch, rfl, rfl, rfl, rfl, fun he hc => by simp [he, hc] at h, fun _ => rfl⟩
    · have h' := h
      simp only [not_or, Bool.not_eq_true, Bool.not_eq_false] at h'
      obtain ⟨hn, hk, hch⟩ := clockRise_rises s n h'.1 h'.2
      rw [hn]
      refine ⟨hk, hch, by simp, by simp, by simp [Span.clearWindows, Span.setClock],
        by simp [Span.clearWindows, Span.setClock], fun _ _ => ⟨by simp, by simp, fun hu => ?_⟩, fun k => absurd k h⟩
      rw [latch_active, latch_latched, toAligner_cleared _ _ _ rfl hu]
      exact ⟨rfl, rfl, rfl, rfl⟩
  · by_cases h : (s.span n).record.enable = false ∨ (s.span n).rx.clockPresent = false
    · rw [clockFall_level s n r h]
      obtain ⟨hn, hk, hch⟩ := modSpan_becomes s n fun sp => sp.setClock false
      rw [hn]
      exact ⟨hk, hch, rfl, rfl, rfl, fun he hc => by simp [he, hc] at h, fun _ => rfl⟩
    · have h' := h
      simp only [not_or, Bool.not_eq_false] at h'
      obtain ⟨hn, hk, hch⟩ := clockFall_falls s n r h'.1 h'.2
      rw [hn]
      refine ⟨hk, hch, by simp, by simp, by simp [Span.clearWindows, Span.setClock],
        fun _ _ => ⟨by simp, by simp, fun hu => ?_, fun hal => ?_⟩, fun k => absurd k h⟩
      · have hu' : ((s.span n).setClock false).clearWindows.rx.aligner.aligned = false := hu
        rw [leaveAt_of_unaligned _ r .absent hu', latch_active, latch_latched, toAligner_cleared _ _ _ rfl hu]
        exact ⟨rfl, rfl, rfl, rfl, rfl⟩
      · have hal' : ((s.span n).setClock false).clearWindows.rx.aligner.aligned = true := hal
        refine ⟨leaveAt_counts _ r .absent hal', leaveAt_searches _ r .absent hal' rfl, ?_,
          leaveAt_meter _ r .absent hal' rfl, subset_trans (leaveAt_latched ((s.span n).setClock false).clearWindows r .absent hal') (subset_or_left _ _),
          active_latched_of_latch _, clockFall_triggers s n r h'.1 h'.2 hal⟩
        rw [latch_store, leaveAt_store _ r .absent hal' rfl]
        exact leaves_readTo _ r

/-! ### Line windows -/

@[simp] theorem windowEnded_record (sp : Span) (r ones : Nat) (noisy : Bool) :
    (sp.windowEnded r ones noisy).record = sp.record := by
  unfold Span.windowEnded
  dsimp only
  split <;> (try split) <;> simp

/-- The windows after a window are those of its count, whatever the aligner does. -/
theorem windowEnded_win (sp : Span) (r ones : Nat) (noisy : Bool) :
    (sp.windowEnded r ones noisy).win = (sp.windowCounted (336 - ones) ones noisy).win := by
  unfold Span.windowEnded
  dsimp only
  split <;> (try split) <;> simp

@[simp] theorem windowEnded_tx (sp : Span) (r ones : Nat) (noisy : Bool) : (sp.windowEnded r ones noisy).tx = sp.tx := by
  unfold Span.windowEnded
  dsimp only
  split <;> (try split) <;> simp

/-- The majority values of a window counted sample by sample (R3). -/
theorem onesOf_eq (samples : Vector Looks 336) :
    onesOf samples = samples.toList.countP fun x => x == 3 || x == 5 || x == 6 || x == 7 := by
  have h : ∀ x : Looks, majority x = (x == 3 || x == 5 || x == 6 || x == 7) := by decide
  rw [onesOf, sampledBits, List.countP_map]
  exact List.countP_congr fun x _ => by simp [h]

/-- The aligner does not act: no condition arises, or there is no alignment to lose and no search that begins. -/
theorem windowEnded_store_of_kept (sp : Span) (r ones : Nat) (noisy : Bool)
    (h : sp.win.arises (sp.windowCounted (336 - ones) ones noisy).win = false ∨ sp.rx.aligner.aligned = false) :
    (sp.windowEnded r ones noisy).store = sp.store ∧ (sp.windowEnded r ones noisy).meter = sp.meter := by
  have unaligned (k : sp.rx.aligner.aligned = false) (p : Nat) :
      ((sp.windowCounted (336 - ones) ones noisy).toAligner (.hunt p)).store = sp.store ∧
        ((sp.windowCounted (336 - ones) ones noisy).toAligner (.hunt p)).meter = sp.meter := by
    have k' : (sp.windowCounted (336 - ones) ones noisy).rx.aligner.aligned = false := k
    rw [toAligner_unaligned _ _ rfl k']
    exact ⟨rfl, rfl⟩
  cases hal : sp.rx.aligner with
  | hunt f =>
    rw [windowEnded_hunt sp r ones noisy hal]
    split
    · exact unaligned (by rw [hal]; rfl) _
    · exact ⟨rfl, rfl⟩
  | off => rw [windowEnded_stopped sp r ones noisy (.inl hal)]; exact ⟨rfl, rfl⟩
  | absent => rw [windowEnded_stopped sp r ones noisy (.inr hal)]; exact ⟨rfl, rfl⟩
  | _ =>
    cases k : sp.win.arises (sp.windowCounted (336 - ones) ones noisy).win with
    | false => rw [windowEnded_quiet sp r ones noisy (by simp [hal]) k]; exact ⟨rfl, rfl⟩
    | true =>
      have hu : sp.rx.aligner.aligned = false := h.resolve_left (by simp [k])
      rw [windowEnded_arises sp r ones noisy (.inr (by simp [hal, Aligner.aligned] at hu ⊢)) k,
        leaveAt_of_unaligned _ r _ (by exact hu)]
      exact unaligned hu _

/-- Of the counts a window raises NOISY WINDOWS alone, and it may lose alignment or fault the store. -/
theorem windowEnded_noisyWindows (sp : Span) (r ones : Nat) (noisy : Bool) :
    (sp.windowEnded r ones noisy).counts.noisyWindows =
      if noisy then raise sp.counts.noisyWindows else sp.counts.noisyWindows := by
  have counted : (sp.windowCounted (336 - ones) ones noisy).counts.noisyWindows =
      if noisy then raise sp.counts.noisyWindows else sp.counts.noisyWindows := by
    unfold Span.windowCounted
    cases noisy <;> rfl
  have left (p : Nat) : ((sp.windowCounted (336 - ones) ones noisy).leaveAt r (.hunt p)).counts.noisyWindows =
      (sp.windowCounted (336 - ones) ones noisy).counts.noisyWindows := by
    cases h : (sp.windowCounted (336 - ones) ones noisy).rx.aligner.aligned with
    | true => rw [leaveAt_counts _ r _ h]
    | false => rw [leaveAt_of_unaligned _ r _ h, toAligner_counts]
  rw [← counted]
  unfold Span.windowEnded
  dsimp only
  split <;> (try split) <;> simp [left]

/-- A condition that arises in alignment is an alignment-lost event (R11). -/
theorem windowActs_loses (s : State) (n : Fin 16) (r : Nat) (before : LineWindows)
    (h : (s.span n).rx.aligner.aligned = true) (k : before.arises (s.span n).win = true) :
    s.windowActs n r before = s.loseAlignment n r (.hunt (Config.frameBits * (s.span n).win.windows)) := by
  unfold State.windowActs
  dsimp only
  split
  case h_1 e => rw [e] at h; cases h
  case h_5 e => rw [e] at h; cases h
  case h_6 e => rw [e] at h; cases h
  all_goals exact if_pos k

theorem windowEnd_triggers (s : State) (n : Fin 16) (r : Nat) (samples : Vector Looks 336)
    (h : (s.span n).sampling = true) (hd : (s.span n).noiseDue = false) (hal : (s.span n).rx.aligner.aligned = true)
    (k : (s.span n).win.arises
      ((s.span n).windowCounted (336 - onesOf samples) (onesOf samples) (samples.toList.any noisyBit)).win = true)
    (u : Fin 4) (hs : s.units[u].source = 4) (hp : s.units[u].point.span? = some n) :
    (s.windowEnd n r samples).units[u].newTrigger = true := by
  have acts : s.windowEnd n r samples =
      (s.modSpan n fun sp => sp.windowCounted (336 - onesOf samples) (onesOf samples) (samples.toList.any noisyBit)).windowActs
        n r (s.span n).win := by
    rw [State.windowEnd, if_pos h]
    simp only [hd]
    rfl
  rw [acts, windowActs_loses _ n r _ (by rw [modSpan_span]; exact hal) (by rw [modSpan_span]; exact k)]
  exact loseAlignment_triggers _ n r _ (by rw [modSpan_span]; exact hal) u hs hp

/-- Settles O25, by what the aligner makes of the window, and by whether a noise period is complete. -/
theorem lineWindowEnds : Obligations.LineWindowEnds := by
  refine ⟨fun s n r samples hr hs hp => ?_, fun s n hr => ⟨fun hs hp => ?_, fun h => ?_⟩⟩
  · have hd : (s.span n).noiseDue = false := decide_eq_false (Nat.ne_of_lt hp)
    obtain ⟨hn, hk, hch⟩ := windowEnd_becomes s n r samples hs hd
    refine ⟨s.windowEnd n r samples, whenRunning_of_runs s _ hr, hk, hch, ?_⟩
    rw [← onesOf_eq]
    have hwin : ((s.windowEnd n r samples).span n).win =
        ((s.span n).windowCounted (336 - onesOf samples) (onesOf samples) (samples.toList.any noisyBit)).win := by
      rw [hn]; exact windowEnded_win _ _ _ _
    have triggers := windowEnd_triggers s n r samples hs hd
    generalize hnoisy : samples.toList.any noisyBit = noisy at hn hwin triggers
    have hnoisy' : (samples.toList.any fun x => x != 0 && x != 7) = noisy := hnoisy
    rw [hwin, hn, hnoisy']
    refine ⟨by simp, by simp, rfl, windowEnded_noisyWindows _ _ _ _, fun k hal => ?_, windowEnded_store_of_kept _ _ _ _,
      fun c m f k hv => ?_, fun f hf => ?_, fun k hh => ?_⟩
    · have hal' : ((s.span n).windowCounted (336 - onesOf samples) (onesOf samples) noisy).rx.aligner.aligned = true := hal
      rw [windowEnded_arises _ r _ noisy (.inl hal) k]
      refine ⟨leaveAt_aligner _ _ _, ?_, ?_, ?_, triggers hal k⟩
      · rw [latch_counts, leaveAt_counts _ r _ hal']
        unfold Span.windowCounted
        cases noisy <;> rfl
      · rw [latch_store, leaveAt_store _ r _ hal' rfl]
        exact leaves_readTo _ r
      · rw [latch_meter, leaveAt_meter _ r _ hal' rfl]
        rfl
    · have hu : ((s.span n).windowCounted (336 - onesOf samples) (onesOf samples) noisy).rx.aligner.aligned = false := by
        rw [windowCounted_rx, hv]; rfl
      rw [windowEnded_arises _ r _ noisy (.inr ⟨c, m, f, hv⟩) k, leaveAt_of_unaligned _ r _ hu]
      refine ⟨toAligner_aligner _ _, ?_⟩
      rw [latch_counts, toAligner_counts]
      unfold Span.windowCounted
      cases noisy <;> rfl
    · rw [windowEnded_hunt _ r _ noisy hf]
      split
      · exact toAligner_aligner _ _
      · exact hf
    · rw [windowEnded_quiet _ r _ noisy hh k]
      exact ⟨rfl, rfl⟩
  · obtain ⟨hn, hk, hch⟩ := noiseEnd_becomes s n hs (decide_eq_true hp)
    refine ⟨s.noiseEnd n, whenRunning_of_runs s _ hr, hk, hch, ?_⟩
    rw [hn]
    rfl
  · refine (whenRunning_of_runs s _ hr).trans (congrArg _ (noiseEnd_other s n (h.imp id fun k => decide_eq_false k)))

end Sys2Proof.Machine
end

