-- ==== Sys2Proof/Proofs/FrameAligner.lean ====
section
/-! HUNT_CANDIDATE_FOUND, VERIFY_CHECK and EXPECTED_ALIGNMENT_OCTET (O26). -/

namespace Sys2Proof.Machine

theorem huntFound_other_octet (s : State) (n : Fin 16) (p : Nat) (o : Byte) (h : o ≠ 0xB2) : s.huntFound n p o = s := by
  obtain e | ⟨_, _, _, ho, _⟩ := huntFound_cases s n p o
  · exact e
  · exact absurd ho h

/-! ### EXPECTED_ALIGNMENT_OCTET at its position (R10) -/

/-- A span aligned with `misses` misses, whose last expected octet was at `at'`: LOCKED with none, FLYWHEEL with 1 to 3. -/
def Span.flying (sp : Span) (at' misses : Nat) : Prop :=
  (sp.rx.aligner = .locked at' ∧ misses = 0) ∨ (sp.rx.aligner = .flywheel at' misses ∧ 1 ≤ misses ∧ misses ≤ 3)

theorem aligned_of_flying {sp : Span} {at' misses : Nat} (h : sp.flying at' misses) : sp.rx.aligner.aligned = true := by
  rcases h with ⟨h, -⟩ | ⟨h, -⟩ <;> rw [h] <;> rfl

theorem expectedOctet_match (s : State) (n : Fin 16) (r : Nat) {at' misses : Nat} (h : (s.span n).flying at' misses) :
    s.expectedOctet n r (at' + 336) 0xB2 = s.keepAligned n (.locked (at' + 336)) := by
  rcases h with ⟨h, -⟩ | ⟨h, -⟩ <;> simp only [State.expectedOctet, h] <;> exact if_pos rfl

theorem expectedOctet_miss (s : State) (n : Fin 16) (r : Nat) (o : Byte) {at' misses : Nat}
    (h : (s.span n).flying at' misses) (ho : o ≠ 0xB2) (hm : misses < 3) :
    s.expectedOctet n r (at' + 336) o = s.keepAligned n (.flywheel (at' + 336) (misses + 1)) := by
  have ho' : (o == Config.alignmentOctet) = false := beq_false_of_ne ho
  rcases h with ⟨h, rfl⟩ | ⟨h, -, -⟩ <;> simp only [State.expectedOctet, h, ho']
  · exact if_pos rfl
  · exact (if_pos rfl).trans (if_pos hm)

theorem expectedOctet_loses (s : State) (n : Fin 16) (r : Nat) (o : Byte) {at' : Nat}
    (h : (s.span n).flying at' 3) (ho : o ≠ 0xB2) :
    s.expectedOctet n r (at' + 336) o = s.loseAlignment n r (.hunt (at' + 344)) := by
  have ho' : (o == Config.alignmentOctet) = false := beq_false_of_ne ho
  rcases h with ⟨-, h⟩ | ⟨h, -, -⟩
  · cases h
  · simp only [State.expectedOctet, h, ho']
    exact if_pos rfl

/-! ### Checks of a VERIFY (R9) -/

/-- A move of a span in HUNT or VERIFY to another such state changes the receiver alone. -/
theorem toAligner_seeking (sp : Span) (a : Aligner) (h : sp.rx.aligner.aligned = false) (ha : a.aligned = false) :
    (sp.toAligner a).counts = sp.counts ∧ (sp.toAligner a).store = sp.store ∧ (sp.toAligner a).win = sp.win ∧
      (sp.toAligner a).record = sp.record ∧ (sp.toAligner a).tx = sp.tx ∧ (sp.toAligner a).sf = sp.sf := by
  rw [toAligner_unaligned sp a ha h]
  exact ⟨rfl, rfl, rfl, rfl, rfl, rfl⟩

theorem startCentring_of_detached (st : Store) (h : st.state = .detached) :
    st.startCentring = { st with state := .centring, writePos := 0, fill := 0 } := by
  unfold Store.startCentring
  rw [h]

/-- With a match or without an earlier failure the check is no second failure; and one failure in all is a marginal lock. -/
theorem failedAfter_eq_one (o : Byte) (f : Nat) (hf : f ≤ 1) (h : o = 0xB2 ∨ f = 0) :
    failedAfter f (o == 0xB2) = 1 ↔ ¬(o = 0xB2 ∧ f = 0) := by
  unfold failedAfter
  by_cases ho : o = 0xB2
  · simp only [ho, beq_self_eq_true, if_true, true_and]
    omega
  · have hf0 := h.resolve_left ho
    simp [hf0]

/-- Settles O26, by the state of the aligner and the octet that arrives. -/
theorem alignerEvents : Obligations.AlignerEvents := by
  have value : ∀ x : Looks, majority x = (x == 3 || x == 5 || x == 6 || x == 7) := by decide
  refine ⟨fun looks k => by rw [arrivingOctet_getMsbD, value], fun s n position looks hr => ⟨?_, ?_⟩, ?_⟩
  · intro f hf hp hw
    have hu : (s.span n).rx.aligner.aligned = false := by rw [hf]; rfl
    refine ⟨fun ho => ⟨_, whenRunning_of_runs s _ hr, ?_⟩, fun ho => ?_⟩
    · obtain ⟨hn, hk, hch⟩ := huntFound_becomes s n position _ hf hp ho hw
      obtain ⟨h1, h2, h3, h4, h5, -⟩ := toAligner_seeking (s.span n) (.verify position 0 0) hu rfl
      rw [hn]
      exact ⟨hk, hch, toAligner_aligner _ _, h1, h2, h3, h4, h5⟩
    · exact (whenRunning_of_runs s _ hr).trans (congrArg _ (huntFound_other_octet s n position _ ho))
  · rintro c m f hv hm hf rfl
    have hu : (s.span n).rx.aligner.aligned = false := by rw [hv]; rfl
    refine ⟨_, whenRunning_of_runs s _ hr, ?_⟩
    rw [verifyCheck_result s n _ hv]
    generalize arrivingOctet looks = o
    by_cases hfail : o ≠ 0xB2 ∧ f = 1
    · obtain ⟨ho, rfl⟩ := hfail
      rw [beq_false_of_ne ho]
      obtain ⟨hn, hk, hch⟩ := verifyResult_fails s n (c + 336 * (m + 1)) c m 1 (by decide)
      obtain ⟨h1, h2, h3, h4, h5, h6⟩ := toAligner_seeking (s.span n) (.hunt (c + 336 * (m + 1) + 8)) hu rfl
      have hno : ¬(o = 0xB2 ∨ (1 : Nat) = 0) := not_or.mpr ⟨ho, by decide⟩
      rw [hn]
      exact ⟨hk, hch, h3, h4, h5, h6, fun _ _ => ⟨toAligner_aligner _ _, h1, h2⟩, fun k => absurd k hno,
        fun k => absurd k hno⟩
    · have hok : o = 0xB2 ∨ f = 0 := by
        by_cases ho : o = 0xB2
        · exact .inl ho
        · exact .inr (by have : f ≠ 1 := fun k => hfail ⟨ho, k⟩; omega)
      have hok' : (o == 0xB2) = true ∨ f = 0 := hok.imp (fun k => by simp [k]) id
      have hno : o ≠ 0xB2 → f = 1 → False := fun ho k => hfail ⟨ho, k⟩
      by_cases hm2 : m = 2
      · subst hm2
        obtain ⟨hn, hk, hch⟩ := verifyResult_locks s n (c + 336 * (2 + 1)) c f (o == 0xB2) hok'
        rw [hn]
        refine ⟨hk, hch, rfl, rfl, rfl, rfl, fun ho k => (hno ho k).elim, fun _ k => by omega,
          fun _ _ => ⟨rfl, rfl, ?_, startCentring_of_detached _⟩⟩
        simp only [latch_counts, failedAfter_eq_one o f hf hok, ite_not]
      · obtain ⟨hn, hk, hch⟩ := verifyResult_goes_on s n (c + 336 * (m + 1)) c m f (o == 0xB2) hok' hm2
        obtain ⟨h1, h2, h3, h4, h5, h6⟩ :=
          toAligner_seeking (s.span n) (.verify c (m + 1) (failedAfter f (o == 0xB2))) hu rfl
        rw [hn]
        refine ⟨hk, hch, h3, h4, h5, h6, fun ho k => (hno ho k).elim, fun _ _ => ⟨?_, h1, h2⟩, fun _ k => absurd k hm2⟩
        rw [latch_rx, toAligner_aligner]
        simp [failedAfter]
  · intro s n r at' misses looks hr octet h
    have hal : (s.span n).rx.aligner.aligned = true := aligned_of_flying h
    refine ⟨s.expectedOctet n r (at' + 336) octet, whenRunning_of_runs s _ hr, ?_⟩
    clear_value octet
    by_cases ho : octet = 0xB2
    · rw [ho, expectedOctet_match s n r h]
      obtain ⟨hn, hk, hch⟩ := keepAligned_becomes s n (.locked (at' + 336))
      rw [hn, toAligner_of_aligned _ _ rfl]
      exact ⟨hk, hch, rfl, rfl, rfl, fun _ => ⟨rfl, rfl, rfl⟩, fun k => absurd rfl k, fun k => absurd rfl k⟩
    · by_cases hm : misses < 3
      · rw [expectedOctet_miss s n r octet h ho hm]
        obtain ⟨hn, hk, hch⟩ := keepAligned_becomes s n (.flywheel (at' + 336) (misses + 1))
        rw [hn, toAligner_of_aligned _ _ rfl]
        exact ⟨hk, hch, rfl, rfl, rfl, fun k => absurd k ho, fun _ _ => ⟨rfl, rfl, rfl⟩, fun _ k => by omega⟩
      · have hm3 : misses = 3 := by rcases h with ⟨-, k⟩ | ⟨-, -, k⟩ <;> omega
        subst hm3
        rw [expectedOctet_loses s n r octet h ho]
        obtain ⟨hn, hk, hch⟩ := loseAlignment_becomes (becomes_refl s n) r (.hunt (at' + 344))
        rw [hn]
        refine ⟨hk, hch, by simp, by simp, by simp, fun k => absurd k ho, fun _ k => absurd k (by decide),
          fun _ _ => ⟨leaveAt_aligner _ _ _, leaveAt_counts _ r _ hal, leaveAt_searches _ r _ hal rfl, ?_, ?_, ?_,
            loseAlignment_triggers s n r _ hal⟩⟩
        · rw [latch_store, leaveAt_store _ r _ hal rfl]
          exact leaves_readTo _ r
        · rw [latch_meter, leaveAt_meter _ r _ hal rfl]
          rfl
        · rw [latch_meter, leaveAt_meter _ r _ hal rfl]
          rfl

end Sys2Proof.Machine
end

