-- ==== Sys2Proof/Proofs/SpanOrders.lean ====
section
/-! SET SPAN, SPAN RESTART and READ SPAN (O29, O30, O31). -/

namespace Sys2Proof.Machine

/-! ### Reading the operands -/

theorem below_ofNat (k : Nat) (n : Fin k) (hk : k ≤ 256) : below k (BitVec.ofNat 8 n.val) = some n := by
  have hn : (BitVec.ofNat 8 n.val).toNat = n.val := by
    rw [BitVec.toNat_ofNat, Nat.mod_eq_of_lt (Nat.lt_of_lt_of_le n.isLt hk)]
  rw [below, dif_pos (by rw [hn]; exact n.isLt)]
  exact congrArg some (Fin.ext hn)

theorem below_none (k : Nat) (b : Byte) (h : k ≤ b.toNat) : below k b = none := dif_neg (Nat.not_lt.mpr h)

theorem spanOf_ofNat (n : Fin 16) : spanOf (BitVec.ofNat 8 n.val) = some n := below_ofNat 16 n (by decide)

theorem spanOf_none (b : Byte) (h : 15 < b.toNat) : spanOf b = none := below_none 16 b h

/-- A byte above `k` is none of the numbers up to `k`. -/
theorem byte_ne_of_lt {b : Byte} {k : Nat} (h : k < b.toNat) (i : Nat) (hi : i ≤ k) : b ≠ BitVec.ofNat 8 i := by
  rintro rfl
  have := Nat.mod_le i (2 ^ 8)
  rw [BitVec.toNat_ofNat] at h
  omega

theorem boolOf_bit (b : Bool) : boolOf (bit b) = some b := by cases b <;> rfl

theorem boolOf_none (b : Byte) (h : 1 < b.toNat) : boolOf b = none := by
  have h0 : b ≠ 0 := byte_ne_of_lt h 0 (by decide)
  have h1 : b ≠ 1 := byte_ne_of_lt h 1 (by decide)
  rw [boolOf, if_neg h0, if_neg h1]

theorem transmitModeOf_code (m : TransmitMode) : transmitModeOf m.code = some m := by cases m <;> rfl

theorem transmitModeOf_none (b : Byte) (h : 2 < b.toNat) : transmitModeOf b = none := by
  have h0 : b ≠ 0 := byte_ne_of_lt h 0 (by decide)
  have h1 : b ≠ 1 := byte_ne_of_lt h 1 (by decide)
  have h2 : b ≠ 2 := byte_ne_of_lt h 2 (by decide)
  rw [transmitModeOf, if_neg h0, if_neg h1, if_neg h2]

theorem loopbackOf_code (l : Loopback) : loopbackOf l.code = some l := by cases l <;> rfl

theorem loopbackOf_none (b : Byte) (h : 1 < b.toNat) : loopbackOf b = none := by
  have h0 : b ≠ 0 := byte_ne_of_lt h 0 (by decide)
  have h1 : b ≠ 1 := byte_ne_of_lt h 1 (by decide)
  rw [loopbackOf, if_neg h0, if_neg h1]

/-- A refused order leaves its reply, every result byte 00h (R143). -/
theorem refuse_eq_refused (s : State) (code tag : Byte) (o : OrderOutcome) : s.refuse code tag o = s.refused code tag o := rfl

/-- The events a reply adds to: nothing but the order channel changes. -/
theorem becomes_answer {s t : State} {n : Fin 16} {sp : Span} (h : s.becomes n sp t) (code tag : Byte) (o : OrderOutcome)
    (r : List Byte) :
    (t.answer code tag o r).span n = sp ∧ s.keepsBut n (t.answer code tag o r) ∧
      (t.answer code tag o r).channel = { s.channel with reply := some ⟨code, tag, o, results9 r⟩ } := by
  obtain ⟨hn, hk, hc⟩ := h
  refine ⟨hn, hk, ?_⟩
  rw [← hc]
  rfl

/-! ### SET SPAN (R21) -/

theorem takeSetSpan_accepted (s : State) (tag : Byte) (n : Fin 16) (r : SpanRecord) (limit : Byte)
    (hl : r.noiseLimit = clamp 1 16 limit.toNat) :
    takeSetSpan tag (BitVec.ofNat 8 n.val) (bit r.enable) r.transmitMode.code r.loopback.code r.conditioned limit s =
      ((s.modSpan n fun sp => Span.enableActs { sp with record := r } sp.record.enable).publish n).answer 0x10 tag
        (if r.noiseLimit = limit.toNat then .done else .doneClamped) (BitVec.ofNat 8 n.val :: r.bytes) := by
  obtain ⟨en, tm, lb, conditioned, stored⟩ := r
  dsimp only at hl
  subst hl
  simp only [takeSetSpan, spanOf_ofNat, boolOf_bit, transmitModeOf_code, loopbackOf_code, bne_iff_ne, ne_eq, ite_not]

theorem takeSetSpan_refused (s : State) (tag span en tm lb conditioned limit : Byte)
    (h : 15 < span.toNat ∨ 1 < en.toNat ∨ 2 < tm.toNat ∨ 1 < lb.toNat) :
    takeSetSpan tag span en tm lb conditioned limit s = s.refused 0x10 tag .badParameter := by
  unfold takeSetSpan
  split
  next h1 h2 h3 h4 =>
    rcases h with h | h | h | h
    · rw [spanOf_none _ h] at h1; cases h1
    · rw [boolOf_none _ h] at h2; cases h2
    · rw [transmitModeOf_none _ h] at h3; cases h3
    · rw [loopbackOf_none _ h] at h4; cases h4
  · rfl

/-- A rewritten record with enable as it was changes the record alone. -/
theorem enableActs_same (sp : Span) (r : SpanRecord) (h : r.enable = sp.record.enable) :
    Span.enableActs { sp with record := r } sp.record.enable = { sp with record := r } := if_pos h.symm

/-- A span enabled: the windows start afresh, and the aligner goes where clock-present says (R7). -/
theorem enableActs_on (sp : Span) (r : SpanRecord) (h : r.enable = true) (hw : sp.record.enable = false) :
    Span.enableActs { sp with record := r } sp.record.enable =
      (Span.clearWindows { sp with record := r }).toAligner (if sp.rx.clockPresent then .hunt 0 else .absent) := by
  simp [Span.enableActs, h, hw]

/-- A span disabled: the windows stop, and the aligner goes to OFF (R7). -/
theorem enableActs_off (sp : Span) (r : SpanRecord) (h : r.enable = false) (hw : sp.record.enable = true) :
    Span.enableActs { sp with record := r } sp.record.enable =
      (Span.clearWindows { sp with record := r }).toAligner .off := by
  simp [Span.enableActs, h, hw]

/-- A span disabled in alignment leaves it (R7, R14, R28, R50). -/
theorem disabled_leaves (sp : Span) (r : SpanRecord) (h : sp.rx.aligner.aligned = true) :
    let sp' := (Span.clearWindows { sp with record := r }).toAligner .off
    sp'.sf.state = .search none ∧ sp'.store.state = .detached ∧ sp'.meter.baseline = none := by
  rw [toAligner_leaving (Span.clearWindows { sp with record := r }) .off rfl h]
  exact ⟨rfl, detach_state _, rfl⟩

/-- Whatever enable does, the record is the one written, and the transmitter, the counts and clock-present stay. -/
theorem enableActs_keeps (sp : Span) (r : SpanRecord) :
    let sp' := Span.enableActs { sp with record := r } sp.record.enable
    sp'.record = r ∧ sp'.tx = sp.tx ∧ sp'.counts = sp.counts ∧ sp'.rx.clockPresent = sp.rx.clockPresent := by
  have moved (a : Aligner) :
      let sp' := (Span.clearWindows { sp with record := r }).toAligner a
      sp'.record = r ∧ sp'.tx = sp.tx ∧ sp'.counts = sp.counts ∧ sp'.rx.clockPresent = sp.rx.clockPresent :=
    ⟨toAligner_record _ a, toAligner_tx _ a, toAligner_counts _ a, toAligner_clockPresent _ a⟩
  unfold Span.enableActs
  split
  · exact ⟨rfl, rfl, rfl, rfl⟩
  · split
    · exact moved _
    · exact moved _

/-- Settles O29, by how the new enable compares with the one before. -/
theorem setSpanActs : Obligations.SetSpanActs := by
  unfold Obligations.SetSpanActs
  intro transmit loopback
  have htm : ∀ m, transmit m = m.code := fun m => by cases m <;> rfl
  have hlb : ∀ l, loopback l = l.code := fun l => by cases l <;> rfl
  refine ⟨fun s tag n en tm lb conditioned limit hr => ?_, fun s tag span en tm lb conditioned limit hr h =>
    (whenRunning_of_runs s _ hr).trans (congrArg _ (takeSetSpan_refused s tag span en tm lb conditioned limit h))⟩
  rw [htm, hlb]
  generalize hrec : (⟨en, tm, lb, conditioned, clamp 1 16 limit.toNat⟩ : SpanRecord) = r
  have acts := takeSetSpan_accepted s tag n r limit (by rw [← hrec])
  obtain ⟨hn, hk, hch⟩ := becomes_answer
    (((becomes_refl s n).modSpan fun sp => Span.enableActs { sp with record := r } sp.record.enable).publish) 0x10 tag
    (if r.noiseLimit = limit.toNat then .done else .doneClamped) (BitVec.ofNat 8 n.val :: r.bytes)
  rw [← acts] at hn hk hch
  obtain ⟨h1, h2, h3, h4⟩ := enableActs_keeps (s.span n) r
  subst hrec
  refine ⟨_, whenRunning_of_runs s _ hr, hk, ?_⟩
  rw [show (if en then 1 else 0 : Byte) = bit en from rfl, hn]
  refine ⟨h1, h2, h3, h4, hch, fun he => ?_, fun he hw => ?_, fun he hw => ?_⟩
  · rw [enableActs_same _ _ he]
    exact ⟨rfl, rfl, rfl, rfl, rfl⟩
  · rw [enableActs_on _ _ he hw]
    exact ⟨toAligner_win _ _, toAligner_aligner _ _⟩
  · rw [enableActs_off _ _ he hw]
    refine ⟨toAligner_win _ _, toAligner_aligner _ _, fun hal => ?_⟩
    exact disabled_leaves _ _ hal

/-! ### SPAN RESTART (R22) -/

theorem toAligner_low (sp : Span) (a : Aligner) : (sp.toAligner a).store.low = sp.store.low := by
  unfold Span.toAligner
  dsimp only
  split_ifs
  · rfl
  · exact detach_low _
  · rfl

theorem toAligner_high (sp : Span) (a : Aligner) : (sp.toAligner a).store.high = sp.store.high := by
  unfold Span.toAligner
  dsimp only
  split_ifs
  · rfl
  · exact detach_high _
  · rfl

/-- A meter told that the store left service is the same whether or not the aligner's move told it before. -/
theorem toAligner_storeLeft (sp : Span) (a : Aligner) : (sp.toAligner a).meter.storeLeft = sp.meter.storeLeft := by
  unfold Span.toAligner
  split_ifs <;> rfl

theorem restart_tx (sp : Span) : sp.restart.tx = { sp.tx with currentSlip := false, previousSlip := false } := by
  change { (sp.toAligner sp.restartAligner).tx with currentSlip := false, previousSlip := false } = _
  rw [toAligner_tx]

theorem restart_meter (sp : Span) :
    sp.restart.meter = { sp.meter with
      baseline := none, net := 0, average := 0, lastD := 0, lastDValid := false, lastHit := false, drift := false } := by
  change { (sp.toAligner sp.restartAligner).meter.storeLeft with
    average := 0, lastD := 0, lastDValid := false, lastHit := false } = _
  rw [toAligner_storeLeft]
  rfl

theorem restart_store (sp : Span) :
    sp.restart.store.state = .detached ∧ sp.restart.store.lastFault = .none ∧ sp.restart.store.low = sp.store.low ∧
      sp.restart.store.high = sp.store.high :=
  ⟨detach_state _, rfl, (detach_low _).trans (toAligner_low sp _), (detach_high _).trans (toAligner_high sp _)⟩

/-- Of the latched set, both readings of R22 leave at most the alarms active before or after (notes/assumptions/9.md). -/
theorem restart_latched (sp : Span) : subset sp.restart.latch.latched (sp.restart.latch.active ||| sp.active) := by
  have h : sp.restart.latched =
      sp.restart.active ||| (if Config.spanRestartKeepsEndedAlarms then sp.active else 0) := rfl
  rw [latch_latched, latch_active, h]
  generalize sp.restart.active = a
  generalize sp.active = b
  unfold subset
  cases Config.spanRestartKeepsEndedAlarms <;> ext i hi <;> simp <;> tauto

/-- Settles O30: the restart of the span, and what it publishes. -/
theorem spanRestarts : Obligations.SpanRestarts := by
  intro s tag hr
  refine ⟨fun span h => ?_, fun n => ?_⟩
  · refine (whenRunning_of_runs s _ hr).trans (congrArg _ ?_)
    rw [takeSpanRestart, spanOf_none span h]
    rfl
  · have acts : takeSpanRestart tag (BitVec.ofNat 8 n.val) s =
        ((s.modSpan n Span.restart).publish n).answer 0x11 tag .done [BitVec.ofNat 8 n.val] := by
      rw [takeSpanRestart, spanOf_ofNat]
    obtain ⟨hn, hk, hch⟩ := becomes_answer (((becomes_refl s n).modSpan Span.restart).publish) 0x11 tag .done
      [BitVec.ofNat 8 n.val]
    rw [← acts] at hn hk hch
    obtain ⟨h1, h2, h3, h4⟩ := restart_store (s.span n)
    refine ⟨_, whenRunning_of_runs s _ hr, hk, hch, ?_⟩
    rw [hn]
    exact ⟨restart_record _, restart_aligner _, rfl, rfl, restart_tx _, h1, h2, h3, h4, restart_meter _, rfl,
      active_latched_of_latch _, restart_latched _⟩

/-! ### READ SPAN (R23) -/

theorem lineConditions_eq (sp : Span) :
    sp.lineConditions =
      (if sp.rx.clockPresent then 0x80 else 0) ||| (if sp.sf.farEnd.active then 0x08 else 0) |||
        (if sp.win.noisy then 0x04 else 0) ||| (if sp.win.brk.active then 0x02 else 0) |||
        (if sp.win.blank.active then 0x01 else 0) := rfl

theorem settings_eq (r : SpanRecord) :
    r.settings = ((if r.enable then 128 else 0 : Nat) : Byte) ||| (r.transmitMode.code <<< 4) ||| r.loopback.code := by
  unfold SpanRecord.settings
  cases r.enable <;> rfl

/-- Settles O31, with each code read off its table. -/
theorem readSpanReply : Obligations.ReadSpanReply := by
  unfold Obligations.ReadSpanReply
  intro transmit loopback aligner misses superframe s tag hr
  have h1 : ∀ m, transmit m = m.code := fun m => by cases m <;> rfl
  have h2 : ∀ l, loopback l = l.code := fun l => by cases l <;> rfl
  have h3 : ∀ a, aligner a = a.code := fun a => by cases a <;> rfl
  have h4 : ∀ a, misses a = a.missCount := fun a => by cases a <;> rfl
  have h5 : ∀ f, superframe f = f.code := fun f => by cases f <;> rfl
  refine ⟨fun span h => ?_, fun n => ?_⟩
  · refine (whenRunning_of_runs s _ hr).trans (congrArg _ ?_)
    rw [takeReadSpan, spanOf_none span h]
    rfl
  · refine (whenRunning_of_runs s _ hr).trans (congrArg _ ?_)
    rw [takeReadSpan, spanOf_ofNat, h1, h2, h3, h4, h5, ← lineConditions_eq, ← settings_eq]
    rfl

end Sys2Proof.Machine
end

