-- ==== Sys2Proof/Proofs/Superframe.lean ====
section
/-! The superframe aligner, the streaks and the counts (O28), and the values and laws after reset (O3, O4). -/

namespace Sys2Proof.Machine

/-! ### The superframe aligner at an overhead octet (R13, R14, R15) -/

/-- The receive frame index comes round to 0 after 15. -/
theorem index_wraps (i : Fin 16) : i + 1 = 0 ↔ i = 15 := by revert i; decide

/-- The index after 0 is 1, and no other. -/
theorem index_one (i : Fin 16) : i + 1 = 1 ↔ i = 0 := by revert i; decide

theorem octet_search (sf : Superframe) (o : Byte) (h : sf.state = .search none) :
    sf.octet o = { sf with state := .search (if o = 0x2D then some 0 else none) } := by
  by_cases ho : o = 0x2D
  · simp [Superframe.octet, h, ho, Config.superframeMarker]
  · have hm : (o == Config.superframeMarker) = false := beq_false_of_ne ho
    simp only [Superframe.octet, h, hm, ho, if_false, Bool.false_eq_true]
    rw [← h]

theorem octet_counts (sf : Superframe) (o : Byte) {c : Nat} (h : sf.state = .search (some c)) (hc : c < 15) :
    sf.octet o = { sf with state := .search (some (c + 1)) } := by
  simp only [Superframe.octet, h, show ¬ c + 1 = 16 by omega, if_false]

theorem octet_decides (sf : Superframe) (o : Byte) (h : sf.state = .search (some 15)) :
    sf.octet o = { sf with state := if o = 0x2D then .locked 0 false else .search none } := by
  by_cases ho : o = 0x2D
  · simp [Superframe.octet, h, ho, Config.superframeMarker]
  · have hm : (o == Config.superframeMarker) = false := beq_false_of_ne ho
    simp only [Superframe.octet, h, hm, ho, if_false, if_true, Bool.false_eq_true, Nat.reduceAdd]

theorem octet_marker (sf : Superframe) {missed : Bool} (h : sf.state = .locked 15 missed) :
    sf.octet 0x2D = { sf with state := .locked 0 false } := by
  simp only [Superframe.octet, h]
  rfl

theorem octet_first_miss (sf : Superframe) (o : Byte) (h : sf.state = .locked 15 false) (ho : o ≠ 0x2D) :
    sf.octet o = { sf with state := .locked 0 true } := by
  have hm : (o == Config.superframeMarker) = false := beq_false_of_ne ho
  simp only [Superframe.octet, h, hm]
  rfl

theorem octet_second_miss (sf : Superframe) (o : Byte) (h : sf.state = .locked 15 true) (ho : o ≠ 0x2D) :
    sf.octet o = { sf with state := .search none, reportValid := false, farEnd := ⟨false, false⟩ } := by
  have hm : (o == Config.superframeMarker) = false := beq_false_of_ne ho
  have hl : sf.state.isLocked = true := by rw [h]; rfl
  have e : sf.octet o = sf.toSearch := by
    simp only [Superframe.octet, h, hm]
    rfl
  rw [e, Superframe.toSearch, hl]
  rfl

theorem octet_report (sf : Superframe) (o : Byte) {missed : Bool} (h : sf.state = .locked 0 missed) :
    sf.octet o = { state := .locked 1 missed, report := o, reportValid := true, farEnd := sf.farEnd.step (o.getLsbD 7) } := by
  simp only [Superframe.octet, h]
  rfl

theorem octet_passes (sf : Superframe) (o : Byte) {i : Fin 16} {missed : Bool} (h : sf.state = .locked i missed)
    (h0 : i ≠ 0) (h15 : i ≠ 15) : sf.octet o = { sf with state := .locked (i + 1) missed } := by
  have n0 : ¬ i + 1 = 0 := fun k => h15 ((index_wraps i).mp k)
  have n1 : ¬ i + 1 = 1 := fun k => h0 ((index_one i).mp k)
  simp only [Superframe.octet, h, n0, n1, if_false]

/-- A count rises to 65535 and stays there (R158). -/
theorem raise_toNat (x : Word) : (raise x).toNat = min 65535 (x.toNat + 1) := by
  have hx := x.isLt
  unfold raise
  split
  next h => rw [h]; rfl
  next h =>
    have hne : x.toNat ≠ 65535 := fun k => h (BitVec.eq_of_toNat_eq k)
    rw [BitVec.toNat_add]
    have : (1 : Word).toNat = 1 := rfl
    omega

/-- Settles O28, by the state of the superframe aligner. -/
theorem superframeAlignment : Obligations.SuperframeAlignment := by
  refine ⟨fun sf o => ⟨octet_search sf o, fun c => octet_counts sf o, octet_decides sf o, ?_, octet_first_miss sf o,
    octet_second_miss sf o, fun missed => octet_report sf o, fun i missed => octet_passes sf o⟩, by decide, rfl, rfl, rfl, rfl,
    raise_toNat⟩
  rintro missed h rfl
  exact octet_marker sf h

/-! ### After reset -/

@[simp] theorem reset_span (n : Fin 16) : State.reset.span n = .reset := by simp [State.reset, State.span]

@[simp] theorem reset_timer (n : Fin 4) : State.reset.timers[n] = .reset := by simp [State.reset]

@[simp] theorem reset_unit (u : Fin 4) : State.reset.units[u] = .reset := by simp [State.reset]

/-- Every entry of a map after reset (R106). -/
theorem reset_bank {entry : Type} (e : entry) (b : Fin 2) (i : Fin 640) : (ChannelMap.reset e).banks[b][i] = e := by
  simp [ChannelMap.reset]

/-- Settles O3: each value as its block's record after reset has it. -/
theorem resetValues : Obligations.ResetValues := by
  refine ⟨fun n => ?_, rfl, rfl, rfl, rfl, rfl, rfl, rfl, rfl, rfl, rfl, rfl, rfl, rfl, rfl, rfl, rfl, rfl, rfl, ?_, rfl, rfl,
    ?_, ?_, rfl, rfl, reset_timer, reset_unit, rfl, rfl, rfl, rfl, rfl, rfl, rfl, rfl⟩
  · rw [reset_span]
    exact ⟨rfl, rfl, rfl, rfl, rfl, rfl, rfl, rfl, rfl, rfl, rfl, rfl, rfl, rfl, rfl, rfl, rfl, rfl, rfl, rfl, rfl⟩
  · exact fun b i => ⟨reset_bank IngressEntry.unused b i, reset_bank EgressEntry.idle b i⟩
  · intro i
    simp [State.reset, Highway.reset]
  · intro n c
    simp [State.reset, Highway.reset]

theorem reset_store_law : Store.reset.law :=
  ⟨by unfold Store.thresholds; decide, by decide, by decide, by decide, by decide, nofun, fun _ => ⟨rfl, rfl⟩, nofun⟩

theorem reset_meterLaw : Span.reset.meterLaw :=
  ⟨by decide, by decide, rfl, rfl, by decide, fun _ => ⟨rfl, rfl⟩⟩

theorem reset_entry_law (e : Fin 4) : State.reset.timing.entries[e].law := by
  unfold RefEntry.law
  revert e
  decide

/-- FREE with nothing selected, nothing counted and both frequencies 0 (R70, R86). -/
theorem reset_timing_law : State.reset.timing.law := by
  have pull : inPull 0 := ⟨by decide, by decide⟩
  refine ⟨reset_entry_law, ?_, nofun, nofun, nofun, by decide, nofun, fun _ => ⟨rfl, rfl⟩, fun _ => rfl, ?_, pull, pull,
    by decide, nofun⟩
  · exact ⟨nofun, fun h => h.elim nofun nofun⟩
  · exact fun h => h.elim nofun nofun

/-- REF-A and REF-B start without a fault condition, and the LINE entries are DISABLED (Table 4-3). -/
theorem reset_entriesFollow : State.reset.entriesFollow := by
  intro e
  fin_cases e
  · exact ⟨fun _ => rfl, nofun⟩
  · exact ⟨fun _ => rfl, nofun⟩
  · exact ⟨fun h => h.elim nofun nofun, nofun⟩
  · exact ⟨fun h => h.elim nofun nofun, nofun⟩

theorem reset_highway_law : State.reset.highway.law :=
  ⟨fun b => reset_bank IngressEntry.unused b 0, fun b i => by
    have h : State.reset.highway.egress.banks[b][i] = .idle := reset_bank EgressEntry.idle b i
    rw [h]
    nofun⟩

theorem reset_timer_law : Timer.reset.law := ⟨by decide, fun _ => rfl⟩

theorem reset_unit_law : TestUnit.reset.law := ⟨by decide, by decide, rfl, rfl, by decide, nofun⟩

theorem reset_latchLaw : State.reset.latchLaw := by
  refine ⟨fun n => ?_, ?_⟩
  · rw [reset_span]
    unfold subset
    decide
  · unfold subset
    decide

/-- Settles O4: the law of each block at its record after reset. -/
theorem lawsHoldAtReset : Obligations.LawsHoldAtReset := by
  refine ⟨fun n => ?_, reset_timing_law, reset_entriesFollow, reset_highway_law, ⟨nofun, nofun, nofun⟩,
    fun n => by rw [reset_timer]; exact reset_timer_law, fun u => by rw [reset_unit]; exact reset_unit_law,
    ⟨⟨nofun, nofun⟩, nofun⟩, reset_latchLaw⟩
  rw [reset_span]
  exact ⟨lineLaw_reset false, follows_of_restartAligner rfl, reset_store_law, ⟨fun _ => rfl, fun _ => rfl⟩, reset_meterLaw⟩

/-! ### The overhead octet of a transmit frame (R18) -/

/-- The far-end report bit by bit. -/
theorem farEndReport_bits : ∀ unaligned slip : Bool,
    let report : Byte := flag 7 unaligned ||| flag 6 slip ||| 0x3F
    report.getLsbD 7 = unaligned ∧ report.getLsbD 6 = slip ∧ ∀ i, i ≤ 5 → report.getLsbD i = true := by
  decide

/-- A boundary ends by beginning the next office frame. -/
theorem boundary_closes (s : State) (egress : Vector Byte 640) (order : List Handling) (apart : Bool) :
    ∃ (m : State) (superframe status : Bool), s.boundary egress order apart = m.closeBoundary superframe status := ⟨_, _, _, rfl⟩

/-- Settles O56: a boundary ends by forming the overhead octet of the frame it begins. -/
theorem transmitOverhead : Obligations.TransmitOverhead := by
  intro s egress order apart n hr
  obtain ⟨m, superframe, status, e⟩ := boundary_closes s egress order apart
  refine ⟨_, whenRunning_of_runs s _ hr, ?_⟩
  rw [e, closeBoundary_span]
  change let o := (m.span n).overheadAt (m.frameNumber.toNat % 16)
    (m.frameNumber.toNat % 16 = 0 → o = 0x2D) ∧ (2 ≤ m.frameNumber.toNat % 16 → o = 0xFF) ∧
      (m.frameNumber.toNat % 16 = 1 →
        (o.getLsbD 7 = true ↔ (m.span n).record.enable = true ∧ (m.span n).rx.aligner.aligned = false) ∧
        (o.getLsbD 6 = true ↔ (m.span n).tx.previousSlip = true) ∧ ∀ i, i ≤ 5 → o.getLsbD i = true)
  generalize m.frameNumber.toNat % 16 = index
  refine ⟨fun h => if_pos h, fun h => ?_, ?_⟩
  · have h0 : index ≠ 0 := by omega
    have h1 : index ≠ 1 := by omega
    simp only [Span.overheadAt, h0, h1, if_false]
  · rintro rfl
    obtain ⟨h7, h6, h5⟩ := farEndReport_bits (m.span n).unaligned (m.span n).tx.previousSlip
    change ((m.span n).farEndReport.getLsbD 7 = true ↔ _) ∧ ((m.span n).farEndReport.getLsbD 6 = true ↔ _) ∧
      ∀ i, i ≤ 5 → (m.span n).farEndReport.getLsbD i = true
    rw [show (m.span n).farEndReport.getLsbD 7 = _ from h7, show (m.span n).farEndReport.getLsbD 6 = _ from h6]
    exact ⟨by simp [Span.unaligned], Iff.rfl, h5⟩

end Sys2Proof.Machine
end

