-- ==== Sys2Proof/Proofs/AlignedFrame.lean ====
section
/-! ALIGNED_FRAME: what the bits of a whole frame leave in the ring, and where its overhead octet goes (O27). -/

namespace Sys2Proof.Machine

/-! ### Bits written round the ring (R30) -/

/-- The ring with bits written from place `p` on. -/
def ringWith (ring : BitVec 1344) (p : Nat) : List Bool → BitVec 1344
  | [] => ring
  | b :: bits => ringWith (setRingBit ring p b) (ringAfter p 1) bits

theorem ringAfter_lt (p n : Nat) : ringAfter p n < 1344 := Nat.mod_lt _ (by decide)

theorem ringAfter_one_add (p k : Nat) : (ringAfter p 1 + k) % 1344 = (p + (k + 1)) % 1344 := by
  unfold ringAfter
  omega

/-- A place that no bit is written to keeps its bit. -/
theorem ringWith_other (bits : List Bool) (ring : BitVec 1344) (p q : Nat) (hp : p < 1344) (hq : q < 1344)
    (h : ∀ k, k < bits.length → q ≠ (p + k) % 1344) : ringBit (ringWith ring p bits) q = ringBit ring q := by
  induction bits generalizing ring p with
  | nil => rfl
  | cons b bits ih =>
    have h0 : q ≠ p := by simpa [Nat.mod_eq_of_lt hp] using h 0 (by simp)
    rw [ringWith, ih _ _ (ringAfter_lt p 1), setRingBit_other ring p q b hp hq h0]
    intro k hk
    rw [ringAfter_one_add]
    exact h (k + 1) (by simpa using hk)

/-- Bits that do not come round to the first of them stand in their places in order of arrival. -/
theorem ringWith_written (bits : List Bool) (ring : BitVec 1344) (p k : Nat) (hp : p < 1344) (hl : bits.length ≤ 1344)
    (hk : k < bits.length) : ringBit (ringWith ring p bits) ((p + k) % 1344) = bits.getD k false := by
  induction bits generalizing ring p k with
  | nil => cases hk
  | cons b bits ih =>
    rw [List.length_cons] at hl hk
    cases k with
    | zero =>
      rw [ringWith, Nat.add_zero, Nat.mod_eq_of_lt hp, ringWith_other _ _ _ _ (ringAfter_lt p 1) hp]
      · exact setRingBit_same ring p b hp
      · intro j hj
        unfold ringAfter
        omega
    | succ k =>
      rw [ringWith, ← ringAfter_one_add, ih _ _ _ (ringAfter_lt p 1) (by omega) (by omega)]
      rfl

/-! ### A store that takes bits without a fault (R30, R37; notes/assumptions/15.md) -/

/-- The store is written `k` bits on without a fault: CENTRING, FAULTED but not after an overrun, or ATTACHED with room. -/
def Store.takes (st : Store) (k : Nat) : Prop :=
  st.state = .centring ∨ (st.state = .attached ∧ st.fill + k ≤ 1343) ∨ (st.state = .faulted ∧ st.lastFault ≠ .overrun)

/-- The fill `k` bits on. -/
def Store.fillAfter (st : Store) : Nat → Nat
  | 0 => st.fill
  | k + 1 => if st.state = .attached then st.fill + (k + 1) else min (st.fill + (k + 1)) 1344

theorem writeBit_of_takes {st : Store} {k : Nat} (b : Bool) (h : st.takes (k + 1)) :
    st.writeBit b = { st.put b with fill := st.fillAfter 1 } := by
  rcases writeBit_cases st b with ⟨hs, e⟩ | ⟨hs, e⟩ | ⟨hs, hf, e⟩ | ⟨hs, hf, e⟩ | ⟨hs, hf, e⟩ | ⟨hs, hf, e⟩
  · simp [Store.takes, hs] at h
  · simp [e, Store.fillAfter, hs]
  · simp only [Store.takes, hs, true_and, reduceCtorEq, false_and, or_false, false_or] at h
    omega
  · simp [e, Store.fillAfter, hs]
  · simp [Store.takes, hs, hf] at h
  · simp [e, Store.fillAfter, hs]

theorem takes_writeBit {st : Store} {k : Nat} (b : Bool) (h : st.takes (k + 1)) : (st.writeBit b).takes k := by
  rw [writeBit_of_takes b h]
  rcases h with h | ⟨h, hf⟩ | h
  · exact .inl h
  · refine .inr (.inl ⟨h, ?_⟩)
    simp only [Store.fillAfter, h, if_true]
    omega
  · exact .inr (.inr h)

/-- Bits taken one after another, in one. -/
theorem writeBits_of_takes (bits : List Bool) (st : Store) (h : st.takes bits.length) (hp : st.writePos < 1344) :
    bits.foldl Store.writeBit st =
      { st with
        ring := ringWith st.ring st.writePos bits, writePos := (st.writePos + bits.length) % 1344
        fill := st.fillAfter bits.length } := by
  induction bits generalizing st with
  | nil => simp [ringWith, Store.fillAfter, Nat.mod_eq_of_lt hp]
  | cons b bits ih =>
    have e := writeBit_of_takes b h
    have ht := takes_writeBit b h
    have hfill : ({ st.put b with fill := st.fillAfter 1 } : Store).fillAfter bits.length = st.fillAfter (bits.length + 1) := by
      cases bits.length with
      | zero => rfl
      | succ k =>
        simp only [Store.fillAfter, Store.put]
        split <;> omega
    rw [e] at ht
    rw [List.foldl_cons, e, ih _ ht (ringAfter_lt _ _), hfill, List.length_cons]
    simp only [Store.put, ringWith, ringAfter_one_add]

theorem receiveBits_store (bits : List Bool) (sp : Span) : (sp.receiveBits bits).store = bits.foldl Store.writeBit sp.store := by
  induction bits generalizing sp with
  | nil => rfl
  | cons b bits ih => exact (ih (sp.receiveBit b)).trans (by rw [receiveBit_store]; rfl)

/-! ### The overhead octet (R12, R13) -/

/-- Earlier bits of the octet in progress only move up. -/
theorem nextOverhead_or (x y : Byte) (b : Bool) : nextOverhead (x ||| y) b = nextOverhead x b ||| (y <<< 1) := by
  unfold nextOverhead
  rw [BitVec.shiftLeft_or_distrib, BitVec.or_assoc, BitVec.or_comm (y <<< 1), ← BitVec.or_assoc]

theorem foldl_nextOverhead (bits : List Bool) (x y : Byte) :
    bits.foldl nextOverhead (x ||| y) = bits.foldl nextOverhead x ||| (y <<< bits.length) := by
  induction bits generalizing x y with
  | nil => simp
  | cons b bits ih =>
    rw [List.foldl_cons, nextOverhead_or, ih, List.foldl_cons, List.length_cons, ← BitVec.shiftLeft_add, Nat.add_comm 1]

/-- Bits 8 to 15 of a frame are its overhead octet, whatever stood there before. -/
theorem overhead_of_frame (bits : List Bool) (x : Byte) (h : 16 ≤ bits.length) :
    ((bits.take 16).drop 8).foldl nextOverhead x = octetAt bits 8 := by
  have hl : ((bits.take 16).drop 8).length = 8 := by simp; omega
  have hlist : (bits.take 16).drop 8 = (List.range 8).map fun k => bits.getD (8 + k) false := by
    refine List.ext_getElem (by rw [hl]; rfl) fun i h1 h2 => ?_
    rw [hl] at h1
    rw [List.getElem_drop, List.getElem_take, List.getElem_map, List.getElem_range, List.getD_eq_getElem (hn := by omega)]
  have hx : x = 0 ||| x := by simp
  rw [hx, foldl_nextOverhead, hl, hlist, List.foldl_map]
  have h8 : x <<< 8 = 0#8 := BitVec.shiftLeft_eq_zero (by decide)
  rw [h8, BitVec.or_zero]
  rfl

/-- A received report with bit 6 set (R15). -/
theorem slipReport_iff (sf : Superframe) (o : Byte) :
    sf.slipReport o = true ↔ (∃ missed, sf.state = .locked 0 missed) ∧ o.getLsbD 6 = true := by
  unfold Superframe.slipReport
  cases h : sf.state with
  | search c => simp
  | locked i m => simp

/-! ### A frame in progress (R12) -/

/-- A bit taken without a fault leaves the meter alone, and raises no count but FAR-END SLIPS at the sixteenth. -/
theorem receiveBit_of_takes (sp : Span) (b : Bool) {k : Nat} (h : sp.store.takes (k + 1)) :
    (sp.receiveBit b).meter = sp.meter ∧
      (sp.receiveBit b).counts =
        if sp.rx.frameBit = 15 ∧ sp.sf.slipReport (nextOverhead sp.rx.overhead b) = true then
          { sp.counts with farEndSlips := raise sp.counts.farEndSlips }
        else sp.counts := by
  have hstate : (sp.store.writeBit b).state = sp.store.state := by rw [writeBit_of_takes b h]; rfl
  have hno : sp.withStore (sp.store.writeBit b) = { sp with store := sp.store.writeBit b } :=
    withStore_of_no_fault sp _ (by
      rw [hstate]
      cases sp.store.state <;> simp)
  unfold Span.receiveBit
  rw [hno]
  by_cases h15 : sp.rx.frameBit = 15
  · rw [if_pos h15]
    simp only [h15, true_and]
    exact ⟨rfl, rfl⟩
  · rw [if_neg h15]
    exact ⟨rfl, (if_neg fun k => h15 k.1).symm⟩

/-- How a span stands when `j` bits of the frame `bits` have been handed over, from `sp` at the start of the frame. -/
structure FrameProgress (sp : Span) (bits : List Bool) (j : Nat) (sp' : Span) : Prop where
  frameBit : sp'.rx.frameBit = j % 336
  overhead : j ≤ 15 → sp'.rx.overhead = ((bits.take j).drop 8).foldl nextOverhead sp.rx.overhead
  sf : sp'.sf = if 16 ≤ j then sp.sf.octet (octetAt bits 8) else sp.sf
  counts : sp'.counts =
    if 16 ≤ j ∧ sp.sf.slipReport (octetAt bits 8) = true then { sp.counts with farEndSlips := raise sp.counts.farEndSlips }
    else sp.counts
  meter : sp'.meter = sp.meter
  takes : sp'.store.takes (bits.length - j)

/-- One more bit of the frame. -/
theorem frameProgress_succ {sp sp' : Span} {bits : List Bool} {j : Nat} (hl : bits.length = 336) (hj : j < 336)
    (h : FrameProgress sp bits j sp') : FrameProgress sp bits (j + 1) (sp'.receiveBit (bits[j]'(by omega))) := by
  obtain ⟨hb, ho, hs, hc, hm, ht⟩ := h
  have hk : bits.length - j = (bits.length - (j + 1)) + 1 := by omega
  rw [hk] at ht
  rw [Nat.mod_eq_of_lt hj] at hb
  obtain ⟨hm', hc'⟩ := receiveBit_of_takes sp' (bits[j]'(by omega)) ht
  have hfold : (bits.take (j + 1)).drop 8 = (bits.take j).drop 8 ++ if 8 ≤ j then [bits[j]'(by omega)] else [] := by
    rw [List.take_succ_eq_append_getElem (by omega), List.drop_append]
    have hlen : (bits.take j).length = j := by simp; omega
    rw [hlen]
    split
    next h8 => rw [Nat.sub_eq_zero_of_le h8]; rfl
    next h8 => rw [List.drop_eq_nil_of_le (by rw [hlen]; omega), List.drop_eq_nil_of_le (by rw [List.length_singleton]; omega)]
  have hnext : j ≤ 15 → 8 ≤ j → nextOverhead sp'.rx.overhead (bits[j]'(by omega)) =
      ((bits.take (j + 1)).drop 8).foldl nextOverhead sp.rx.overhead := fun h15 h8 => by
    rw [hfold, if_pos h8, List.foldl_append, ho h15]
    rfl
  refine ⟨?_, fun h15 => ?_, ?_, ?_, hm'.trans hm, ?_⟩
  · rw [receiveBit_rx]
    simp only [hb]
  · rw [receiveBit_rx]
    dsimp only
    rw [hb]
    by_cases h8 : 8 ≤ j
    · rw [if_pos ⟨h8, by omega⟩, hnext (by omega) h8]
    · rw [if_neg (fun k => h8 k.1), hfold, if_neg h8, List.append_nil, ho (by omega)]
  · rw [receiveBit_sf, hb]
    by_cases h15 : j = 15
    · subst h15
      rw [if_pos rfl, hnext (by omega) (by omega), overhead_of_frame bits _ (by omega), hs]
      rfl
    · rw [if_neg h15, hs]
      by_cases h16 : 16 ≤ j
      · rw [if_pos h16, if_pos (by omega)]
      · rw [if_neg h16, if_neg (by omega)]
  · rw [hc', hb]
    by_cases h15 : j = 15
    · subst h15
      rw [hnext (by omega) (by omega), overhead_of_frame bits _ (by omega), hs, hc]
      simp
    · have hiff : 16 ≤ j + 1 ↔ 16 ≤ j := by omega
      simp only [h15, false_and, if_false, hc, hiff]
  · rw [receiveBit_store]
    exact takes_writeBit _ ht

theorem frameProgress_take {sp : Span} {bits : List Bool} (hl : bits.length = 336) (hb : sp.rx.frameBit = 0)
    (ht : sp.store.takes 336) (j : Nat) (hj : j ≤ 336) : FrameProgress sp bits j (sp.receiveBits (bits.take j)) := by
  induction j with
  | zero => exact ⟨hb, fun _ => by simp [Span.receiveBits], rfl, by simp [Span.receiveBits], rfl, by rw [hl]; exact ht⟩
  | succ j ih =>
    have hlt : j < bits.length := by omega
    rw [List.take_succ_eq_append_getElem hlt, Span.receiveBits, List.foldl_append]
    exact frameProgress_succ hl (by omega) (ih (by omega))

theorem receiveBits_keeps {α : Sort _} (p : Span → α) (h : ∀ sp b, p (sp.receiveBit b) = p sp) (bits : List Bool) (sp : Span) :
    p (sp.receiveBits bits) = p sp := by
  induction bits generalizing sp with
  | nil => rfl
  | cons b bits ih => exact (ih (sp.receiveBit b)).trans (h sp b)

/-! ### The reads made so far come first (R31) -/

/-- Reads of a store that is not ATTACHED: none. -/
theorem readTo_of_not_attached (sp : Span) (r : Nat) (h : sp.store.state ≠ .attached) : sp.readTo r = sp := by
  rw [readTo_eq, Store.readTo, reads_of_not_attached _ _ h]
  exact withStore_of_no_fault sp sp.store (.inl h)

/-- Reads of an ATTACHED store that holds more: the read side moves on, and nothing else changes. -/
theorem readTo_of_attached (sp : Span) (r : Nat) (hs : sp.store.state = .attached) (hp : sp.store.readPos < 1344)
    (h : min r 336 - sp.store.out.length < sp.store.fill) :
    sp.readTo r =
      let k := min r 336 - sp.store.out.length
      { sp with store :=
          { sp.store with
            out := sp.store.out ++ (List.range k).map fun j => ringBit sp.store.ring ((sp.store.readPos + j) % 1344)
            readPos := (sp.store.readPos + k) % 1344, fill := sp.store.fill - k } } :=
  readBits_attached _ sp hs h hp

/-- A whole frame handed over to a span at the start of a frame, its store taking it without a fault. -/
theorem receiveBits_frame (sp : Span) (bits : List Bool) (hl : bits.length = 336) (hb : sp.rx.frameBit = 0)
    (hp : sp.store.writePos < 1344) (ht : sp.store.takes 336) :
    let sp' := sp.receiveBits bits
    sp'.store =
        { sp.store with
          ring := ringWith sp.store.ring sp.store.writePos bits, writePos := (sp.store.writePos + 336) % 1344
          fill := sp.store.fillAfter 336 } ∧
      sp'.rx.frameBit = 0 ∧ sp'.sf = sp.sf.octet (octetAt bits 8) ∧
      sp'.counts = (if sp.sf.slipReport (octetAt bits 8) = true then
        { sp.counts with farEndSlips := raise sp.counts.farEndSlips } else sp.counts) ∧
      sp'.rx.aligner = sp.rx.aligner ∧ sp'.record = sp.record ∧ sp'.win = sp.win ∧ sp'.tx = sp.tx ∧ sp'.meter = sp.meter := by
  have progress := frameProgress_take hl hb ht 336 (Nat.le_refl _)
  rw [List.take_of_length_le (Nat.le_of_eq hl)] at progress
  obtain ⟨hb', -, hs, hc, hm, -⟩ := progress
  refine ⟨?_, hb', by simpa using hs, by simpa using hc, receiveBits_keeps (fun sp => sp.rx.aligner) receiveBit_aligner bits sp,
    receiveBits_keeps Span.record receiveBit_record bits sp, receiveBits_keeps Span.win receiveBit_win bits sp,
    receiveBits_keeps Span.tx receiveBit_tx bits sp, hm⟩
  rw [receiveBits_store, writeBits_of_takes bits sp.store (by rw [hl]; exact ht) hp, hl]

/-- The span when its frame is handed over: its reads made, nothing else changed, its store taking the frame (R31, R37). -/
theorem readTo_before_frame (sp : Span) (r : Nat)
    (h : sp.store.state = .centring ∨
      (sp.store.state = .attached ∧ sp.store.readPos < 1344 ∧ min r 336 - sp.store.out.length < sp.store.fill ∧
        sp.store.fill - (min r 336 - sp.store.out.length) + 336 ≤ 1343) ∨
      (sp.store.state = .faulted ∧ sp.store.lastFault ≠ .overrun)) :
    (sp.readTo r).meter = sp.meter ∧ (sp.readTo r).counts = sp.counts ∧ (sp.readTo r).store.ring = sp.store.ring ∧
      (sp.readTo r).store.writePos = sp.store.writePos ∧ (sp.readTo r).store.takes 336 := by
  by_cases hs : sp.store.state = .attached
  · simp only [hs, reduceCtorEq, true_and, false_and, false_or, or_false] at h
    obtain ⟨hp, hk, hf⟩ := h
    rw [readTo_of_attached sp r hs hp hk]
    exact ⟨rfl, rfl, rfl, rfl, .inr (.inl ⟨hs, hf⟩)⟩
  · rw [readTo_of_not_attached sp r hs]
    exact ⟨rfl, rfl, rfl, rfl, h.imp id fun k => k.imp (fun a => absurd a.1 hs) id⟩

/-- Settles O27: the reads so far, then the frame, by the state of the store. -/
theorem alignedFrameWritten : Obligations.AlignedFrameWritten := by
  intro s n r looks hr hal hlen hb bits st k hp hst
  have value : ∀ x : Looks, majority x = (x == 3 || x == 5 || x == 6 || x == 7) := by decide
  have hbits : sampledBits looks = bits := List.map_congr_left fun x _ => value x
  have hl : bits.length = 336 := by rw [← hlen]; exact List.length_map _
  obtain ⟨hn, hk, hch⟩ := alignedFrame_becomes s n r bits hal
  refine ⟨s.alignedFrame n r bits, (whenRunning_of_runs s _ hr).trans (by rw [hbits]), hk, hch, ?_⟩
  obtain ⟨hm0, hc0, hring, hpos, ht⟩ := readTo_before_frame (s.span n) r hst
  obtain ⟨hs', hb', hsf', hc', ha', hrec', hwin', htx', hm'⟩ :=
    receiveBits_frame ((s.span n).readTo r) bits hl (by rw [readTo_rx]; exact hb) (by rw [hpos]; exact hp) ht
  rw [hring, hpos] at hs'
  rw [readTo_sf] at hsf' hc'
  rw [hc0] at hc'
  rw [hn]
  refine ⟨?_, fun k => ?_, fun p hp' h => ?_, fun hna => ?_, fun hat => ?_, hb', hsf', ⟨fun h => ?_, fun h => ?_⟩,
    ha'.trans (by rw [readTo_rx]), hrec'.trans (readTo_record _ _), hwin'.trans (readTo_win _ _),
    htx'.trans (readTo_tx _ _), hm'.trans hm0⟩
  · rw [latch_store, hs']
  · rw [latch_store, hs']
    exact ringWith_written bits st.ring st.writePos k.val hp (by omega) (by omega)
  · rw [latch_store, hs']
    exact ringWith_other bits st.ring st.writePos p hp hp' fun j hj => h ⟨j, by omega⟩
  · rw [latch_store, hs', readTo_of_not_attached _ r hna]
    have hfill : st.fillAfter 336 = min (st.fill + 336) 1344 := if_neg hna
    rw [hfill]
  · simp only [hat, reduceCtorEq, true_and, false_and, false_or, or_false] at hst
    obtain ⟨hrp, hlt, -⟩ := hst
    rw [latch_store, hs', readTo_of_attached _ r hat hrp hlt]
    have hfill : (Store.fillAfter { st with
        out := st.out ++ (List.range k).map fun j => ringBit st.ring ((st.readPos + j) % 1344)
        readPos := (st.readPos + k) % 1344, fill := st.fill - k } 336) = st.fill - k + 336 := if_pos hat
    exact congrArg (fun f => { st with
        ring := ringWith st.ring st.writePos bits, writePos := (st.writePos + 336) % 1344, fill := f
        readPos := (st.readPos + k) % 1344
        out := st.out ++ (List.range k).map fun j => ringBit st.ring ((st.readPos + j) % 1344) }) hfill
  · rw [latch_counts, hc', if_pos ((slipReport_iff _ _).mpr h)]
  · rw [latch_counts, hc', if_neg fun k => h ((slipReport_iff _ _).mp k)]

end Sys2Proof.Machine
end

