-- ==== Sys2Proof/Proofs/Handlings.lean ====
section
/-! The handlings of an office frame boundary that takes no order: each is taken once, and but for the stores' own they leave
the spans alone, with the outputs' records in force and the course of the restart (R63, R69, R141). -/

namespace Sys2Proof.Machine

/-! ### Each handling once -/

theorem expand_nodup (done : List Handling) (h : Handling) : (expand done h).Nodup := by
  cases h with
  | timer n => simp [expand]
  | orderChannel => dsimp only [expand]; split <;> decide
  | _ => exact List.nodup_singleton _

theorem mem_expand_self (done : List Handling) (h : Handling) : h ∈ expand done h := by
  cases h with
  | timer n => simp [expand]
  | orderChannel => dsimp only [expand]; split <;> simp
  | _ => exact List.mem_singleton.mpr rfl

theorem mem_addHandling (done : List Handling) (h x : Handling) :
    x ∈ addHandling done h ↔ x ∈ done ∨ x ∈ expand done h := by
  by_cases hx : x ∈ done <;> simp [addHandling, hx]

theorem addHandling_nodup (done : List Handling) (h : Handling) (k : done.Nodup) : (addHandling done h).Nodup := by
  refine k.append ((expand_nodup done h).filter _) fun x hx hf => ?_
  simp [hx] at hf

theorem foldl_addHandling_nodup (l done : List Handling) (k : done.Nodup) : (l.foldl addHandling done).Nodup := by
  induction l generalizing done with
  | nil => exact k
  | cons h l ih => exact ih _ (addHandling_nodup done h k)

theorem mem_foldl_addHandling (l done : List Handling) (x : Handling) (h : x ∈ done ∨ x ∈ l) :
    x ∈ l.foldl addHandling done := by
  induction l generalizing done with
  | nil => simpa using h
  | cons y l ih =>
    refine ih _ ?_
    rw [mem_addHandling]
    rcases h with h | h
    · exact .inl (.inl h)
    · rcases List.mem_cons.mp h with rfl | h
      · exact .inl (.inr (mem_expand_self done x))
      · exact .inr h

theorem schedule_nodup (order : List Handling) : (schedule order).Nodup := foldl_addHandling_nodup _ _ List.nodup_nil

theorem mem_allSpans (n : Fin 16) : n ∈ allSpans := by
  revert n
  decide

theorem allSpans_nodup : allSpans.Nodup := by decide

/-- Every store has its handling at every boundary. -/
theorem store_mem_schedule (order : List Handling) (n : Fin 16) : .store n ∈ schedule order :=
  mem_foldl_addHandling _ _ _ (.inr (by simp [defaultOrder, mem_allSpans]))

/-! ### What a handling leaves alone where no order is taken -/

/-- No order is taken at a boundary where the handlings find the channel so (R140, R151). -/
def State.examinesNothing (s : State) (superframe : Bool) : Prop :=
  superframe = false ∨ s.channel.framed = false ∨ s.channel.receive[1] = 0

/-- What every handling of a boundary that takes no order keeps: the course of a restart, the outputs' records in force, and
that no order is taken. -/
structure State.handlingKeeps (s : State) (superframe : Bool) (t : State) : Prop where
  restart : t.restart = s.restart
  toa : t.timing.toa.inForce = s.timing.toa.inForce
  tob : t.timing.tob.inForce = s.timing.tob.inForce
  orders : s.examinesNothing superframe → t.examinesNothing superframe

theorem handlingKeeps_refl (s : State) (superframe : Bool) : s.handlingKeeps superframe s := ⟨rfl, rfl, rfl, id⟩

theorem handlingKeeps_trans {s t u : State} {superframe : Bool} (h : s.handlingKeeps superframe t)
    (k : t.handlingKeeps superframe u) : s.handlingKeeps superframe u :=
  ⟨k.restart.trans h.restart, k.toa.trans h.toa, k.tob.trans h.tob, k.orders ∘ h.orders⟩

/-- Handlings that leave the restart, the outputs' records and the channel alone. -/
theorem handlingKeeps_of {s t : State} (superframe : Bool) (hr : t.restart = s.restart)
    (ha : t.timing.toa.inForce = s.timing.toa.inForce) (hb : t.timing.tob.inForce = s.timing.tob.inForce)
    (hc : t.channel = s.channel) : s.handlingKeeps superframe t :=
  ⟨hr, ha, hb, fun h => by unfold State.examinesNothing; rw [hc]; exact h⟩

/-- The same before a handling that keeps all this. -/
theorem handlingKeeps_after {s t u : State} {superframe : Bool} (k : t.handlingKeeps superframe u)
    (hr : t.restart = s.restart) (ha : t.timing.toa.inForce = s.timing.toa.inForce)
    (hb : t.timing.tob.inForce = s.timing.tob.inForce) (hc : t.channel = s.channel) : s.handlingKeeps superframe u :=
  handlingKeeps_trans (handlingKeeps_of superframe hr ha hb hc) k

theorem handlingKeeps_of_timingActs {s t : State} (superframe : Bool) (h : s.timingActs t) :
    s.handlingKeeps superframe t := by
  obtain ⟨-, hr, -, -, -, -, -, hc, -, -, -, -, ha, hb, -⟩ := h
  exact handlingKeeps_of superframe hr (by rw [ha]) (by rw [hb]) hc

theorem handlingKeeps_of_becomes {s t : State} {n : Fin 16} {sp : Span} (superframe : Bool) (h : s.becomes n sp t) :
    s.handlingKeeps superframe t := by
  obtain ⟨-, ⟨-, -, hr, -, -, -, -, -, -, -, -, -, -, ha, hb, -⟩, hc⟩ := h
  exact handlingKeeps_of superframe hr (by rw [ha]) (by rw [hb]) hc

theorem offerUnitTrigger_keeps (s : State) (superframe : Bool) (src : Fin 8) (u : Fin 4) :
    s.handlingKeeps superframe (s.offerUnitTrigger src u) := by
  rw [offerUnitTrigger_eq]
  split
  · exact handlingKeeps_of superframe rfl rfl rfl rfl
  · exact handlingKeeps_refl s superframe

theorem performAction_keeps (s : State) (superframe : Bool) (t : Timer) :
    s.handlingKeeps superframe (s.performAction t).1 := by
  unfold State.performAction
  split
  · exact handlingKeeps_refl s superframe
  · exact handlingKeeps_of superframe rfl rfl rfl rfl
  · exact handlingKeeps_of superframe rfl rfl rfl rfl
  · exact handlingKeeps_of superframe rfl rfl rfl rfl
  · exact handlingKeeps_of_timingActs superframe (selectionRequest_acts s t.param)

theorem matchTimer_keeps (s : State) (superframe : Bool) (n : Fin 4) : s.handlingKeeps superframe (s.matchTimer n) := by
  unfold State.matchTimer
  dsimp only
  split
  · refine handlingKeeps_trans (performAction_keeps s superframe s.timers[n]) ?_
    exact handlingKeeps_after (offerUnitTrigger_keeps _ superframe 5 n) rfl rfl rfl rfl
  · exact handlingKeeps_refl s superframe

theorem timeout_keeps (s : State) (superframe : Bool) : s.handlingKeeps superframe s.timeout := by
  unfold State.timeout
  split
  · exact handlingKeeps_refl s superframe
  · exact handlingKeeps_after (handlingKeeps_of_timingActs superframe (dropSelection_spec _).1) rfl rfl rfl rfl

theorem autoSelect_keeps (s : State) (superframe : Bool) : s.handlingKeeps superframe s.autoSelect := by
  unfold State.autoSelect
  split
  · exact handlingKeeps_refl s superframe
  · exact handlingKeeps_refl s superframe
  · split
    · exact handlingKeeps_of_timingActs superframe (selectEntry_spec s _).1
    · split
      · exact handlingKeeps_of_timingActs superframe (selectEntry_spec s _).1
      · exact handlingKeeps_refl s superframe

theorem lockStage_keeps (s : State) (superframe apart : Bool) : s.handlingKeeps superframe (s.lockStage apart) := by
  have loop (l : Loop) : s.handlingKeeps superframe (s.setLoop l) := handlingKeeps_of superframe rfl rfl rfl rfl
  unfold State.lockStage
  dsimp only
  generalize (if s.timing.detector.reading = true then s.timing.loop.lockCount + 1 else 0) = count
  split
  · split
    · exact loop _
    · split
      · exact loop _
      · split
        · exact loop _
        · exact handlingKeeps_trans (loop _) (timeout_keeps _ superframe)
  · exact handlingKeeps_refl s superframe

theorem monitors_keeps (s : State) (superframe : Bool) : s.handlingKeeps superframe s.monitors :=
  handlingKeeps_after (handlingKeeps_of_timingActs superframe (followEntries_acts _)) rfl rfl rfl rfl

/-- The three stages and the oscillator (R69). -/
theorem otuSuperframe_keeps (s : State) (superframe apart : Bool) :
    s.handlingKeeps superframe (s.otuSuperframe apart) := by
  have stages : s.handlingKeeps superframe ((s.qualifyAll.autoSelect).lockStage apart) :=
    handlingKeeps_trans (handlingKeeps_after (autoSelect_keeps s.qualifyAll superframe) rfl rfl rfl rfl)
      (lockStage_keeps _ superframe apart)
  refine handlingKeeps_trans stages ?_
  unfold State.otuSuperframe Timing.steer
  dsimp only
  split <;> exact handlingKeeps_of superframe rfl rfl rfl rfl

theorem otuBoundary_keeps (s : State) (superframe apart : Bool) :
    s.handlingKeeps superframe (s.otuBoundary superframe apart) := by
  unfold State.otuBoundary
  split
  · exact handlingKeeps_trans (monitors_keeps s _) (otuSuperframe_keeps _ _ apart)
  · exact monitors_keeps s _

theorem pulse_inForce (o : TimingOutput) (t : Timing) (fires : OutputRecord → Bool) :
    (o.pulse t fires).inForce = o.inForce := by
  unfold TimingOutput.pulse; split <;> rfl

/-- An order channel that finds no cell to examine, or an empty one, takes no order (R140, R145, R151). -/
theorem orderBoundary_spans (s : State) (sampled : Fin 16 → Bool)
    (h : s.channel.framed = false ∨ s.channel.receive[1] = 0) :
    (s.orderBoundary sampled).spans = s.spans ∧ s.handlingKeeps true (s.orderBoundary sampled) := by
  unfold State.orderBoundary State.examine
  split
  next hf =>
    have empty : s.formSend.channel.receive[1] = 0 :=
      h.resolve_left fun k => Bool.false_ne_true (k.symm.trans hf)
    unfold State.judgeCell
    rw [if_pos empty]
    exact ⟨rfl, rfl, rfl, rfl, fun _ => .inr (.inr (by simp [State.clearCell]))⟩
  next => exact ⟨rfl, rfl, rfl, rfl, id⟩

/-- A handling that takes no order, and is not a store's own, leaves the spans alone. -/
theorem handle_spans (s : State) (superframe apart : Bool) (done : List Handling) (h : Handling)
    (ho : s.examinesNothing superframe) (hs : ∀ n, h ≠ .store n) :
    (s.handle superframe apart done h).spans = s.spans := by
  cases h with
  | number => exact formNumber_spans s
  | timer n => exact matchTimer_spans s n
  | store n => exact absurd rfl (hs n)
  | otu => exact otuBoundary_spans s superframe apart
  | outputs => rfl
  | swaps => cases superframe <;> rfl
  | units => cases superframe <;> rfl
  | orderChannel =>
    cases superframe with
    | false => rfl
    | true => exact (orderBoundary_spans s _ (ho.resolve_left nofun)).1

/-- Span `n` after one handling: the store's own decides, and no other touches it. -/
theorem handle_span (s : State) (superframe apart : Bool) (done : List Handling) (h : Handling) (n : Fin 16)
    (ho : s.examinesNothing superframe) :
    (s.handle superframe apart done h).span n =
      if h = .store n then (s.span n).storeHandled superframe else s.span n := by
  by_cases hs : ∃ m, h = .store m
  · obtain ⟨m, rfl⟩ := hs
    obtain ⟨hm, ⟨hne, -⟩, -⟩ := storeBoundary_becomes s superframe m
    by_cases hmn : m = n
    · subst hmn
      rw [if_pos rfl]
      exact hm
    · rw [if_neg (by simpa using hmn)]
      exact hne n (Ne.symm hmn)
  · have hs' : ∀ m, h ≠ .store m := fun m k => hs ⟨m, k⟩
    rw [if_neg (hs' n), State.span, State.span, handle_spans s superframe apart done h ho hs']

theorem handle_keeps (s : State) (superframe apart : Bool) (done : List Handling) (h : Handling)
    (ho : s.examinesNothing superframe) : s.handlingKeeps superframe (s.handle superframe apart done h) := by
  cases h with
  | number => exact handlingKeeps_of superframe rfl rfl rfl rfl
  | timer n => exact matchTimer_keeps s superframe n
  | store n => exact handlingKeeps_of_becomes superframe (storeBoundary_becomes s superframe n)
  | otu => exact otuBoundary_keeps s superframe apart
  | outputs => exact handlingKeeps_of superframe rfl (pulse_inForce _ _ _) (pulse_inForce _ _ _) rfl
  | swaps => cases superframe <;> exact handlingKeeps_of _ rfl rfl rfl rfl
  | units => cases superframe <;> exact handlingKeeps_of _ rfl rfl rfl rfl
  | orderChannel =>
    cases superframe with
    | false => exact handlingKeeps_refl s false
    | true => exact (orderBoundary_spans s _ (ho.resolve_left nofun)).2

/-- All handlings, each once: every span of theirs has its store handled once (R33, R69). -/
theorem handleAll_spec (superframe apart : Bool) (todo done : List Handling) (s : State) (hn : todo.Nodup)
    (ho : s.examinesNothing superframe) :
    s.handlingKeeps superframe (s.handleAll superframe apart done todo) ∧
      ∀ n, (s.handleAll superframe apart done todo).span n =
        if .store n ∈ todo then (s.span n).storeHandled superframe else s.span n := by
  induction todo generalizing done s with
  | nil => exact ⟨handlingKeeps_refl s superframe, fun n => rfl⟩
  | cons h rest ih =>
    have first := handle_keeps s superframe apart done h ho
    obtain ⟨hnot, hrest⟩ := List.nodup_cons.mp hn
    obtain ⟨keeps, spans⟩ := ih (h :: done) (s.handle superframe apart done h) hrest (first.orders ho)
    refine ⟨handlingKeeps_trans first keeps, fun n => (spans n).trans ?_⟩
    rw [handle_span s superframe apart done h n ho]
    by_cases hh : h = .store n
    · subst hh
      rw [if_neg hnot, if_pos rfl, if_pos List.mem_cons_self]
    · have hmem : (.store n ∈ h :: rest) ↔ .store n ∈ rest := by simp [Ne.symm hh]
      simp only [if_neg hh, hmem]

end Sys2Proof.Machine
end

