-- ==== Sys2Proof/Proofs/SettingsInForce.lean ====
section
/-! A span across an office frame boundary that takes no order: its reads completed and its frame sent, the stored settings in
force, its store handled (R17, R19, R20, R33, R44). -/

namespace Sys2Proof.Machine

/-! ### What stands beside the spans until the handlings -/

/-- Beside the spans, `t` stands as `s` does in all that chooses the bytes of a frame and in all a boundary opens with: units
may have been triggered anew. -/
structure State.besideSpans (s t : State) : Prop where
  restart : t.restart = s.restart
  highway : t.highway = s.highway
  frameNumber : t.frameNumber = s.frameNumber
  channel : t.channel = s.channel
  toa : t.timing.toa = s.timing.toa
  tob : t.timing.tob = s.timing.tob
  units : ∀ u : Fin 4, t.units[u] = s.units[u] ∨ t.units[u] = { s.units[u] with newTrigger := true }

theorem besideSpans_refl (s : State) : s.besideSpans s := ⟨rfl, rfl, rfl, rfl, rfl, rfl, fun _ => .inl rfl⟩

theorem besideSpans_trans {s t u : State} (h : s.besideSpans t) (k : t.besideSpans u) : s.besideSpans u := by
  refine ⟨k.restart.trans h.restart, k.highway.trans h.highway, k.frameNumber.trans h.frameNumber,
    k.channel.trans h.channel, k.toa.trans h.toa, k.tob.trans h.tob, fun i => ?_⟩
  rcases h.units i with h | h <;> rcases k.units i with k | k <;> simp [h, k]

theorem besideSpans_of_becomes {s t : State} {n : Fin 16} {sp : Span} (h : s.becomes n sp t) : s.besideSpans t := by
  obtain ⟨-, ⟨-, -, hr, hh, hf, -, -, hu, -, -, -, -, -, ha, hb, -⟩, hc⟩ := h
  exact ⟨hr, hh, hf, hc, ha, hb, hu⟩

theorem besideSpans_of_timingActs {s t : State} (h : s.timingActs t) : s.besideSpans t := by
  obtain ⟨-, hr, -, hh, hf, -, -, hc, -, -, -, -, ha, hb, -, -, -, -, -, hu, -⟩ := h
  exact ⟨hr, hh, hf, hc, ha, hb, hu⟩

/-- A timeout acts on office timing and the device's count alone (R72, R73). -/
theorem timeout_beside (s : State) : s.besideSpans s.timeout := by
  unfold State.timeout
  split
  · exact besideSpans_refl s
  · obtain ⟨hr, hh, hf, hc, ha, hb, hu⟩ := besideSpans_of_timingActs (dropSelection_spec _).1
    exact ⟨hr, hh, hf, hc, ha, hb, hu⟩

theorem acquisitionTimeout_beside (s : State) : s.besideSpans s.acquisitionTimeout := by
  unfold State.acquisitionTimeout
  split
  · exact timeout_beside s
  · exact besideSpans_refl s

/-- The reads of some spans completed one after another (R31). -/
theorem readSides_spec (l : List (Fin 16)) (s : State) (hn : l.Nodup) :
    s.besideSpans (l.foldl (fun s n => s.readSide n 336) s) ∧
      ∀ n, (l.foldl (fun s n => s.readSide n 336) s).span n =
        if n ∈ l then ((s.span n).readTo 336).latch else s.span n := by
  induction l generalizing s with
  | nil => exact ⟨besideSpans_refl s, fun n => rfl⟩
  | cons m rest ih =>
    have first := (becomes_refl s m).readSide 336
    obtain ⟨hnot, hrest⟩ := List.nodup_cons.mp hn
    obtain ⟨beside, spans⟩ := ih (s.readSide m 336) hrest
    refine ⟨besideSpans_trans (besideSpans_of_becomes first) beside, fun n => (spans n).trans ?_⟩
    obtain ⟨hm, ⟨hne, -⟩, -⟩ := first
    by_cases hmn : n = m
    · subst hmn
      rw [if_neg hnot, if_pos List.mem_cons_self, hm]
    · simp only [hne n hmn, List.mem_cons, hmn, false_or]

theorem finishReads_beside (s : State) : s.besideSpans s.finishReads := (readSides_spec allSpans s allSpans_nodup).1

theorem finishReads_span (s : State) (n : Fin 16) : s.finishReads.span n = ((s.span n).readTo 336).latch := by
  rw [State.finishReads, (readSides_spec allSpans s allSpans_nodup).2 n, if_pos (mem_allSpans n)]

/-! ### The frame sent (R17, R96) -/

section

variable {s t : State} (h : s.besideSpans t)
include h

/-- A new trigger has no part in the transfers of the frame in progress (R125, R126). -/
theorem inserts_beside (p : Point) (u : Fin 4) : t.inserts p u = s.inserts p u := by
  unfold State.inserts State.transfers
  rcases h.units u with k | k <;> rw [k]

theorem insertion_beside (p : Point) : t.insertion p = s.insertion p := by
  have hw : t.winner p = s.winner p := by
    unfold State.winner
    rw [funext (inserts_beside h p)]
  unfold State.insertion
  rw [hw]
  refine congrArg (fun f => (s.winner p).map f) (funext fun u => ?_)
  rcases h.units u with k | k <;> simp only [k]

variable (n : Fin 16) (htx : (t.span n).tx = (s.span n).tx)
include htx

theorem channelByte_beside (c : Fin 40) : t.channelByte n c = s.channelByte n c := by
  unfold State.channelByte State.egressGives
  rw [insertion_beside h, htx, h.highway]

theorem sentFrame_beside : t.sentFrame n = s.sentFrame n := by
  unfold State.sentFrame
  rw [htx]
  simp only [channelByte_beside h n htx]

end

theorem gather_sentFrame (s : State) (b : Byte) (n : Fin 16) : (s.gather b).sentFrame n = s.sentFrame n := by
  unfold State.gather; split <;> rfl

/-- The frame sent by mode (R17, R20). -/
theorem sentFrame_normal (s : State) (n : Fin 16) (h : (s.span n).tx.modeInForce = .normal) :
    ∃ frame : Vector Byte 42, s.sentFrame n = some frame ∧ frame[(0 : Fin 42)] = 0xB2 ∧
      frame[(1 : Fin 42)] = (s.span n).tx.overhead ∧ ∀ c : Fin 40, frame[c.val + 2] = s.channelByte n c := by
  unfold State.sentFrame
  rw [h]
  refine ⟨_, rfl, by simp [Config.alignmentOctet], by simp, fun c => ?_⟩
  have h0 : c.val + 2 ≠ 0 := by omega
  have h1 : c.val + 2 ≠ 1 := by omega
  have hc : Fin.ofNat 40 (c.val + 2 - 2) = c := Fin.ext (Nat.mod_eq_of_lt c.isLt)
  simp only [Vector.getElem_ofFn, h0, h1, if_false, hc]

theorem sentFrame_blank (s : State) (n : Fin 16) (h : (s.span n).tx.modeInForce = .blank) :
    s.sentFrame n = some (Vector.replicate 42 0xFF) := by
  unfold State.sentFrame; rw [h]

theorem sentFrame_off (s : State) (n : Fin 16) (h : (s.span n).tx.modeInForce = .off) : s.sentFrame n = none := by
  unfold State.sentFrame; rw [h]

/-- TD while office timing runs: the frame sent, bit by bit (R1, R17). -/
theorem td_of_runs (s : State) (n : Fin 16) (i : Fin 336) (h : s.officeRuns = true) :
    s.td n i = (s.span n).tx.sent.map fun frame => lineBit frame i := if_pos h

/-- Every bit of a BLANK frame is 1. -/
theorem lineBit_blank (i : Fin 336) : lineBit (Vector.replicate 42 0xFF) i = true := by
  have ones : ∀ k : Fin 8, (0xFF : Byte).getMsbD k.val = true := by decide
  rw [lineBit, Vector.getElem_replicate]
  exact ones ⟨i.val % 8, Nat.mod_lt _ (by decide)⟩

/-! ### The store across the boundary (R31, R33, R44) -/

theorem readBit_lowStored (st : Store) : st.readBit.lowStored = st.lowStored := by
  unfold Store.readBit; dsimp only; split <;> rfl
theorem readBit_highStored (st : Store) : st.readBit.highStored = st.highStored := by
  unfold Store.readBit; dsimp only; split <;> rfl

@[simp] theorem readTo_lowStored (st : Store) (r : Nat) : (st.readTo r).lowStored = st.lowStored :=
  reads_keeps Store.lowStored readBit_lowStored _ st
@[simp] theorem readTo_highStored (st : Store) (r : Nat) : (st.readTo r).highStored = st.highStored :=
  reads_keeps Store.highStored readBit_highStored _ st

/-- Each read that does not empty the store takes one bit (R31, R37). -/
theorem reads_fill (st : Store) (k : Nat) (hs : st.state = .attached) (h : k < st.fill) :
    (st.reads k).fill = st.fill - k := by
  induction k generalizing st with
  | zero => rfl
  | succ k ih =>
    rw [reads_succ st k hs, readBit_attached st (by omega), ih]
    · exact Nat.sub_sub st.fill 1 k ▸ congrArg _ (Nat.add_comm 1 k)
    · exact hs
    · exact show k < st.fill - 1 by omega

/-- An ATTACHED store completes its reads and stays so where it holds more than they take (R31, R38). -/
theorem readTo_attached_iff (st : Store) (h : st.state = .attached → 1 ≤ st.fill) :
    (st.readTo 336).state = .attached ↔ st.state = .attached ∧ 336 - st.out.length < st.fill := by
  have hk : min 336 336 - st.out.length = 336 - st.out.length := by omega
  unfold Store.readTo
  rw [hk]
  by_cases hs : st.state = .attached
  · have h1 := h hs
    by_cases hf : 336 - st.out.length < st.fill
    · simp [hs, hf, (reads_of_enough st _ hs (.inr hf)).1]
    · have dry := (reads_of_dry st (336 - st.out.length) hs (by omega) (by omega)).1
      simp [hf, dry]
  · simp [hs, reads_of_not_attached st _ hs]

theorem slip_thresholds (st : Store) (d : Slip) : (st.slip d).low = st.low ∧ (st.slip d).high = st.high := by
  cases d <;> simp [Store.slip]

theorem boundary_thresholds (st : Store) : st.boundary.1.low = st.low ∧ st.boundary.1.high = st.high := by
  obtain ⟨-, e⟩ | ⟨-, -, e⟩ | ⟨-, -, e⟩ | ⟨-, -, e⟩ | ⟨-, -, e⟩ | ⟨-, e⟩ := boundary_cases st
  case inr.inr.inr.inr.inr =>
    rw [e]
    exact slip_thresholds st.beginFrame st.decision
  all_goals
    rw [e]
    exact ⟨rfl, rfl⟩

/-- The slip decision of R33. -/
theorem slips_iff (st : Store) :
    st.boundary.2.slip ≠ .none ↔ st.state = .attached ∧ (st.fill < st.low ∨ st.high < st.fill) := by
  rw [(boundary_report st).2.2.1]
  unfold Store.decision
  split_ifs <;> simp [*]

/-- A slip sets the indication of the office superframe in progress, and the boundary nothing else of the transmitter (R19,
R36). -/
theorem boundary_tx (sp : Span) (superframe : Bool) :
    (sp.boundary superframe).1.tx =
      { sp.tx with currentSlip := sp.tx.currentSlip || decide (sp.store.boundary.2.slip ≠ .none) } := by
  unfold Span.boundary Span.hitCounted
  dsimp only
  split <;> cases sp.store.boundary.2.slip <;> simp [Span.slipped]

theorem boundary_store (sp : Span) (superframe : Bool) : (sp.boundary superframe).1.store = sp.store.boundary.1 := by
  unfold Span.boundary Span.hitCounted
  dsimp only
  split <;> cases sp.store.boundary.2.slip <;> rfl

@[simp] theorem storeHandled_record (sp : Span) (superframe : Bool) : (sp.storeHandled superframe).record = sp.record := by
  unfold Span.storeHandled; split <;> simp [Span.commitDrift]
@[simp] theorem storeHandled_tx (sp : Span) (superframe : Bool) :
    (sp.storeHandled superframe).tx = (sp.boundary superframe).1.tx := by
  unfold Span.storeHandled; split <;> simp [Span.commitDrift]
@[simp] theorem storeHandled_store (sp : Span) (superframe : Bool) :
    (sp.storeHandled superframe).store = sp.store.boundary.1 := by
  unfold Span.storeHandled; split <;> simp [Span.commitDrift, boundary_store]

/-! ### A span across the boundary -/

/-- A span across a boundary that takes no order, `sent` being its frame of the office frame just ended: its overhead octet
is still that frame's. -/
def Span.crossed (sp : Span) (superframe : Bool) (sent : Option (Vector Byte 42)) : Span :=
  let ended := (sp.readTo 336).latch
  (Span.openBoundary { ended with tx := { ended.tx with sent } } superframe).storeHandled superframe

/-- A span with the overhead octet of its next transmit frame formed (R18). -/
def Span.withOverhead (sp : Span) (overhead : Byte) : Span := { sp with tx := { sp.tx with overhead } }

/-- The store as its decision finds it: its reads completed, the stored thresholds in force (R31, R33, R44). -/
def Store.decides (st : Store) : Store := { st.readTo 336 with low := st.lowStored, high := st.highStored }

theorem crossed_record (sp : Span) (superframe : Bool) (sent : Option (Vector Byte 42)) :
    (sp.crossed superframe sent).record = sp.record := by
  simp [Span.crossed, Span.openBoundary]

theorem crossed_store (sp : Span) (superframe : Bool) (sent : Option (Vector Byte 42)) :
    (sp.crossed superframe sent).store = sp.store.decides.boundary.1 := by
  simp [Span.crossed, Span.openBoundary, Store.decides]

theorem crossed_tx (sp : Span) (superframe : Bool) (sent : Option (Vector Byte 42)) :
    (sp.crossed superframe sent).tx =
      { sp.tx with
        modeInForce := sp.record.transmitMode, loopbackInForce := sp.record.loopback
        conditionedInForce := sp.record.conditioned, sent
        previousSlip := if superframe then sp.tx.currentSlip else sp.tx.previousSlip
        currentSlip := (if superframe then false else sp.tx.currentSlip) || decide (sp.store.decides.boundary.2.slip ≠ .none) } := by
  simp [Span.crossed, Span.openBoundary, Store.decides, boundary_tx]

/-- The slip of the boundary in terms of the store as the office frame's end found it (R33). -/
theorem decides_slips_iff (st : Store) (h : st.state = .attached → 1 ≤ st.fill) :
    st.decides.boundary.2.slip ≠ .none ↔
      st.state = .attached ∧ 336 - st.out.length < st.fill ∧
        (st.fill - (336 - st.out.length) < st.lowStored ∨ st.highStored < st.fill - (336 - st.out.length)) := by
  rw [slips_iff]
  change (st.readTo 336).state = .attached ∧ ((st.readTo 336).fill < st.lowStored ∨ st.highStored < (st.readTo 336).fill) ↔ _
  rw [readTo_attached_iff st h, and_assoc]
  refine and_congr_right fun hs => and_congr_right fun hf => ?_
  have hk : min 336 336 - st.out.length = 336 - st.out.length := by omega
  rw [Store.readTo, hk, reads_fill st _ hs hf]

/-! ### The whole boundary -/

/-- The boundary that ends this office frame is one of a superframe exactly when the count says so (R107). -/
theorem superframeNext_iff (s : State) : s.superframeNext = true ↔ (s.frameNumber.toNat + 1) % 16 = 0 := by
  unfold State.superframeNext frameIndex
  rw [beq_iff_eq, BitVec.toNat_add]
  have one : (1 : FrameNumber).toNat = 1 := rfl
  omega

theorem gather_framed (s : State) (b : Byte) : (s.gather b).channel.framed = s.channel.framed := by
  unfold State.gather; split <;> rfl

/-- The byte of another frame index stays in the receive cell (R137). -/
theorem gather_receive_one (s : State) (b : Byte) (h : s.frameNumber.toNat % 16 ≠ 1) :
    (s.gather b).channel.receive[1] = s.channel.receive[1] := by
  unfold State.gather
  split
  · simp [frameIndex, h.symm]
  · rfl

theorem gather_restart (s : State) (b : Byte) : (s.gather b).restart = s.restart := by
  unfold State.gather; split <;> rfl
theorem gather_timing (s : State) (b : Byte) : (s.gather b).timing = s.timing := by
  unfold State.gather; split <;> rfl

/-- The end of an office frame beside the spans, the highway and the units: the receive cell alone takes its byte. -/
theorem endFrame_beside (s : State) (received : Vector Byte 640) :
    (s.endFrame received).restart = s.restart ∧ (s.endFrame received).timing.toa = s.timing.toa ∧
      (s.endFrame received).timing.tob = s.timing.tob ∧
      (s.endFrame received).channel = (s.finishReads.gather received[0]).channel := by
  have beside := finishReads_beside s
  unfold State.endFrame State.takeHolds
  dsimp only
  rw [gather_restart, gather_timing]
  exact ⟨beside.restart, beside.toa, beside.tob, rfl⟩

/-- A boundary opens with the outputs' stored records in force (R79). -/
theorem openBoundary_outputs (s : State) (superframe : Bool) :
    (s.openBoundary superframe).timing.toa.inForce = s.timing.toa.stored ∧
      (s.openBoundary superframe).timing.tob.inForce = s.timing.tob.stored := ⟨rfl, rfl⟩
theorem openBoundary_restart (s : State) (superframe : Bool) : (s.openBoundary superframe).restart = s.restart := rfl
theorem openBoundary_channel (s : State) (superframe : Bool) : (s.openBoundary superframe).channel = s.channel := rfl

/-- The next office frame begins beside the spans and the channel (R18, R148). -/
theorem closeBoundary_beside (s : State) (superframe status : Bool) :
    (s.closeBoundary superframe status).restart = s.restart ∧ (s.closeBoundary superframe status).timing = s.timing := ⟨rfl, rfl⟩

/-- The handlings of a boundary that takes no order find no order (R137, R140, R151). -/
theorem endFrame_examinesNothing (s : State) (received : Vector Byte 640) (h : s.takesNoOrder) :
    ((s.acquisitionTimeout.endFrame received).openBoundary s.superframeNext).examinesNothing s.superframeNext := by
  have beside := besideSpans_trans (acquisitionTimeout_beside s) (finishReads_beside s.acquisitionTimeout)
  obtain ⟨-, -, -, hch⟩ := endFrame_beside s.acquisitionTimeout received
  unfold State.examinesNothing
  rw [openBoundary_channel, hch, gather_framed, beside.channel]
  cases hs : s.superframeNext with
  | false => exact .inl rfl
  | true =>
    rw [superframeNext_iff] at hs
    rcases h with h | h | h
    · exact absurd hs h
    · exact .inr (.inl h)
    · refine .inr (.inr ?_)
      rw [gather_receive_one _ _ (by rw [beside.frameNumber]; omega), beside.channel, h]

/-- A boundary that takes no order: the outputs' stored records in force, the restart's course unchanged, and each span
crossed, the overhead octet of its next frame formed. -/
theorem boundary_without_order (s : State) (egress : Vector Byte 640) (order : List Handling) (apart : Bool)
    (h : s.takesNoOrder) :
    let t := s.boundary egress order apart
    t.restart = s.restart ∧ t.timing.toa.inForce = s.timing.toa.stored ∧ t.timing.tob.inForce = s.timing.tob.stored ∧
      ∀ n, ∃ overhead, t.span n = ((s.span n).crossed s.superframeNext (s.sentFrame n)).withOverhead overhead := by
  have before := acquisitionTimeout_beside s
  obtain ⟨keeps, spans⟩ := handleAll_spec s.superframeNext apart (schedule order) [] _ (schedule_nodup order)
    (endFrame_examinesNothing s egress h)
  obtain ⟨hres, hta, htb, -⟩ := endFrame_beside s.acquisitionTimeout egress
  obtain ⟨hrestart, htoa, htob, -⟩ := keeps
  obtain ⟨hopena, hopenb⟩ := openBoundary_outputs (s.acquisitionTimeout.endFrame egress) s.superframeNext
  unfold State.boundary
  dsimp only
  obtain ⟨hcloser, hcloset⟩ := closeBoundary_beside
    (((s.acquisitionTimeout.endFrame egress).openBoundary s.superframeNext).handleAll s.superframeNext apart [] (schedule order))
    s.superframeNext s.channel.reply.isNone
  rw [hcloser, hcloset, hrestart, htoa, htob, hopena, hopenb, openBoundary_restart, hres, hta, htb, before.restart, before.toa,
    before.tob]
  refine ⟨rfl, rfl, rfl, fun n => ?_⟩
  · have hsp : s.acquisitionTimeout.span n = s.span n := by rw [State.span, State.span, acquisitionTimeout_spans]
    have hfin : s.acquisitionTimeout.finishReads.span n = ((s.span n).readTo 336).latch := by rw [finishReads_span, hsp]
    have hsent : (s.acquisitionTimeout.finishReads.gather egress[0]).sentFrame n = s.sentFrame n := by
      rw [gather_sentFrame]
      exact sentFrame_beside (besideSpans_trans before (finishReads_beside _)) n (by rw [hfin]; simp)
    rw [closeBoundary_span, spans n, if_pos (store_mem_schedule order n), openBoundary_span, endFrame_span, hfin, hsent]
    exact ⟨_, rfl⟩

/-- Settles O57: each span crosses the boundary, and TD gives the frame it sent. -/
theorem settingsIntoForce : Obligations.SettingsIntoForce := by
  intro s egress order apart n hr ho
  obtain ⟨hrestart, hta, htb, spans⟩ := boundary_without_order s egress order apart ho
  obtain ⟨overhead, hsp⟩ := spans n
  refine ⟨s.boundary egress order apart, whenRunning_of_runs s _ hr, ?_⟩
  have hrun : (s.boundary egress order apart).officeRuns = true := by
    rw [State.officeRuns, hrestart]
    exact hr
  generalize s.boundary egress order apart = t at *
  have htx : (t.span n).tx = { ((s.span n).crossed s.superframeNext (s.sentFrame n)).tx with overhead } := by
    rw [hsp]
    rfl
  have hstore : (t.span n).store = (s.span n).store.decides.boundary.1 := by
    rw [hsp]
    exact crossed_store _ _ _
  rw [crossed_tx] at htx
  have hsent : (t.span n).tx.sent = s.sentFrame n := by rw [htx]
  have htd : ∀ i, t.td n i = (s.sentFrame n).map fun frame => lineBit frame i := fun i => by
    rw [td_of_runs _ n i hrun, hsent]
  have hsf := superframeNext_iff s
  refine ⟨by rw [htx], by rw [htx], by rw [htx], ?_, ?_, hta, htb, ?_, fun hne => ?_, fun he => ?_, fun hfill => ?_,
    fun hoff => ?_, fun hblank => ?_, fun hnormal => ?_⟩
  · rw [hstore]
    exact (boundary_thresholds _).1
  · rw [hstore]
    exact (boundary_thresholds _).2
  · rw [hsp]
    exact crossed_record _ _ _
  · rw [htx]
    exact if_neg fun k => hne (hsf.mp k)
  · rw [htx]
    exact if_pos (hsf.mpr he)
  · rw [htx]
    dsimp only
    rw [Bool.or_eq_true, decide_eq_true_eq, decides_slips_iff _ hfill]
    refine or_congr_left ?_
    by_cases k : s.superframeNext = true
    · simp [k, hsf.mp k]
    · have hne : (s.frameNumber.toNat + 1) % 16 ≠ 0 := fun m => k (hsf.mpr m)
      simp [k, hne]
  · rw [sentFrame_off s n hoff] at hsent htd
    exact ⟨hsent, htd⟩
  · rw [sentFrame_blank s n hblank] at hsent htd
    exact ⟨hsent, fun i => (htd i).trans (congrArg some (lineBit_blank i))⟩
  · obtain ⟨frame, hframe, h0, h1, hc⟩ := sentFrame_normal s n hnormal
    rw [hframe] at hsent htd
    exact ⟨frame, hsent, h0, h1, hc, fun o k => (htd _).trans (congrArg some (lineBit_octet frame o k))⟩

end Sys2Proof.Machine
end

