-- ==== Sys2Proof/Proofs/StoreLaw.lean ====
section
/-! Every step keeps the store law (O7): the store's own operations, the events at its span, the orders, and the boundary, where
an ATTACHED store has read its whole frame before it makes its slip decision. -/

namespace Sys2Proof.Machine

/-! ### The store law beside its aligner -/

/-- The store law with the store DETACHED exactly where its span is not aligned; with `whole`, an ATTACHED store also stands at
the end of its frame or at the start of one, as it does at a boundary once its reads are completed (R31). -/
def Store.lawIn (st : Store) (aligned whole : Bool) : Prop :=
  st.law ∧ (st.state = .detached ↔ aligned = false) ∧ (whole = true → st.state = .attached → st.out.length % 336 = 0)

/-- The store law of a span; `whole` as in `Store.lawIn`. -/
def Span.storeLaw (whole : Bool) (sp : Span) : Prop := sp.store.lawIn sp.rx.aligner.aligned whole

/-- The store law of every span. -/
def State.storeLaws (s : State) (whole : Bool) : Prop := ∀ n, (s.span n).storeLaw whole

theorem storeLaw_false_iff (sp : Span) : sp.storeLaw false ↔ sp.store.law ∧ sp.storeFollows := by
  simp [Span.storeLaw, Store.lawIn, Span.storeFollows]

theorem Store.lawIn.forget {st : Store} {aligned whole : Bool} (h : st.lawIn aligned whole) : st.lawIn aligned false :=
  ⟨h.1, h.2.1, nofun⟩

/-! ### The store's operations -/

/-- A store that is not ATTACHED: its law but for the clauses of ATTACHED. -/
theorem lawIn_of_not_attached {st : Store} {aligned : Bool} (whole : Bool) (hs : st.state ≠ .attached)
    (ht : st.thresholds) (hw : st.writePos < 1344) (hr : st.readPos < 1344) (hf : st.fill ≤ 1344) (ho : st.out.length ≤ 336)
    (hd : st.state = .detached → st.fill = 0 ∧ st.lastFill = 0) (hfault : st.state = .faulted → st.lastFault ≠ .none)
    (ha : st.state = .detached ↔ aligned = false) : st.lawIn aligned whole :=
  ⟨⟨ht, hw, hr, hf, ho, fun k => absurd k hs, hd, hfault⟩, ha, fun _ k => absurd k hs⟩

/-- Leaving alignment (R28). -/
theorem lawIn_detach {st : Store} {aligned whole : Bool} (h : st.lawIn aligned whole) : st.detach.lawIn false whole := by
  obtain ⟨⟨ht, hw, hr, hf, ho, -, hd, -⟩, -⟩ := h
  by_cases hs : st.state = .detached
  · rw [detach_of_detached st hs]
    exact lawIn_of_not_attached whole (by simp [hs]) ht hw hr hf ho hd (by simp [hs]) (by simp [hs])
  · rw [detach_of_in_service st hs]
    exact lawIn_of_not_attached whole nofun ht hw hr (Nat.zero_le _) ho (fun _ => ⟨rfl, rfl⟩) nofun (by simp)

/-- Becoming aligned (R29). -/
theorem lawIn_startCentring {st : Store} {whole : Bool} (h : st.lawIn false whole) : st.startCentring.lawIn true whole := by
  obtain ⟨⟨ht, -, hr, -, ho, -⟩, ha, -⟩ := h
  have hs : st.state = .detached := ha.mpr rfl
  have e : st.startCentring = { st with state := .centring, writePos := 0, fill := 0 } := by
    unfold Store.startCentring
    rw [hs]
  rw [e]
  exact lawIn_of_not_attached whole nofun ht (by decide : 0 < 1344) hr (Nat.zero_le _) ho nofun nofun (by simp)

/-- One arriving bit (R26, R30, R37, R39). -/
theorem lawIn_writeBit {st : Store} {aligned whole : Bool} (b : Bool) (h : st.lawIn aligned whole) :
    (st.writeBit b).lawIn aligned whole := by
  obtain ⟨⟨ht, hw, hr, hf, ho, hat, hd, hfault⟩, ha, hwhole⟩ := id h
  have hw' : ringAfter st.writePos 1 < 1344 := ringAfter_lt _ _
  obtain ⟨-, e⟩ | ⟨hs, e⟩ | ⟨hs, -, e⟩ | ⟨hs, hne, e⟩ | ⟨hs, -, e⟩ | ⟨hs, -, e⟩ := writeBit_cases st b <;> rw [e]
  case inl => exact h
  case inr.inr.inr.inl =>
    obtain ⟨h1, h2, hdist, hslot⟩ := hat hs
    refine ⟨⟨ht, hw', hr, ?_, ho, fun _ => ⟨?_, ?_, ?_, hslot⟩, fun k => by simp [Store.put, hs] at k,
      fun k => by simp [Store.put, hs] at k⟩, ha, hwhole⟩
    · exact show st.fill + 1 ≤ 1344 by omega
    · exact show 1 ≤ st.fill + 1 by omega
    · exact show st.fill + 1 ≤ 1343 by omega
    · simp only [Store.put, ringAfter]
      omega
  case inr.inr.inl =>
    exact lawIn_of_not_attached whole nofun ht hw' hr (Nat.le_refl _) ho nofun (fun _ => nofun)
      (by simpa [hs] using ha)
  case inr.inr.inr.inr.inl =>
    exact lawIn_of_not_attached whole (by simp [hs]) ht hw' hr hf ho hd hfault ha
  all_goals
    exact lawIn_of_not_attached whole (by simp [Store.put, hs]) ht hw' hr (Nat.min_le_right _ _) ho
      (fun k => by simp [Store.put, hs] at k) hfault ha

/-- One read of an ATTACHED store within its frame (R26, R31, R37). -/
theorem lawIn_readBit {st : Store} {aligned : Bool} (h : st.lawIn aligned false) (hs : st.state = .attached)
    (ho' : st.out.length < 336) : st.readBit.lawIn aligned false := by
  obtain ⟨⟨ht, hw, hr, hf, ho, hat, hd, hfault⟩, ha, -⟩ := h
  obtain ⟨h1, h2, hdist, hslot⟩ := hat hs
  have hlen : (st.out ++ [ringBit st.ring st.readPos]).length = st.out.length + 1 := by simp
  have hr' : ringAfter st.readPos 1 < 1344 := ringAfter_lt _ _
  by_cases hdry : st.fill ≤ 1
  · rw [readBit_runs_dry st hdry]
    refine lawIn_of_not_attached false nofun ht hw hr' ?_ ?_ nofun (fun _ => nofun) (by simpa [hs] using ha)
    · exact show st.fill - 1 ≤ 1344 by omega
    · exact show (st.out ++ [ringBit st.ring st.readPos]).length ≤ 336 by omega
  · rw [readBit_attached st (by omega)]
    refine ⟨⟨ht, hw, hr', ?_, ?_, fun _ => ⟨?_, ?_, ?_, ?_⟩, fun k => ?_, fun k => ?_⟩, ha, nofun⟩
    · exact show st.fill - 1 ≤ 1344 by omega
    · exact show (st.out ++ [ringBit st.ring st.readPos]).length ≤ 336 by omega
    · exact show 1 ≤ st.fill - 1 by omega
    · exact show st.fill - 1 ≤ 1343 by omega
    · simp only [ringAfter]
      omega
    · simp only [ringAfter, hlen]
      omega
    · exact absurd (hs.symm.trans k) nofun
    · exact absurd (hs.symm.trans k) nofun

theorem readBit_out_length (st : Store) : st.readBit.out.length = st.out.length + 1 := by
  unfold Store.readBit
  dsimp only
  split <;> simp

/-- Reads within the frame. -/
theorem lawIn_reads {st : Store} {aligned : Bool} (k : Nat) (h : st.lawIn aligned false) (hk : k + st.out.length ≤ 336) :
    (st.reads k).lawIn aligned false := by
  induction k generalizing st with
  | zero => exact h
  | succ k ih =>
    by_cases hs : st.state = .attached
    · rw [reads_succ st k hs]
      refine ih (lawIn_readBit h hs (by omega)) ?_
      have hlen := readBit_out_length st
      omega
    · rwa [reads_of_not_attached st _ hs]

/-- The reads up to a moment (R31). -/
theorem lawIn_readTo {st : Store} {aligned : Bool} (r : Nat) (h : st.lawIn aligned false) :
    (st.readTo r).lawIn aligned false := by
  have ho : st.out.length ≤ 336 := h.1.2.2.2.2.1
  exact lawIn_reads _ h (by omega)

/-- Each read of a store that stays ATTACHED delivers one bit (R31). -/
theorem reads_out_length (st : Store) (k : Nat) (h : (st.reads k).state = .attached) :
    (st.reads k).out.length = st.out.length + k := by
  induction k generalizing st with
  | zero => rfl
  | succ k ih =>
    have hs : st.state = .attached := by
      by_contra hs
      rw [reads_of_not_attached st _ hs] at h
      exact hs h
    rw [reads_succ st k hs] at h ⊢
    rw [ih _ h, readBit_out_length]
    omega

/-- The completed reads of a frame (R31). -/
theorem lawIn_readTo_whole {st : Store} {aligned : Bool} (h : st.lawIn aligned false) : (st.readTo 336).lawIn aligned true := by
  obtain ⟨hlaw, ha, -⟩ := lawIn_readTo 336 h
  have ho : st.out.length ≤ 336 := h.1.2.2.2.2.1
  refine ⟨hlaw, ha, fun _ hs => ?_⟩
  have hlen : (st.readTo 336).out.length = _ := reads_out_length st _ hs
  omega

theorem ringBefore_lt (p n : Nat) : ringBefore p n < 1344 := Nat.mod_lt _ (by decide)

/-- The boundary places the read side 672 to 1007 places behind the write position, at a slot start (R32). -/
theorem lawIn_place {st : Store} {whole : Bool} (ht : st.thresholds) (hw : st.writePos < 1344) (ho : st.out = []) :
    st.place.lawIn true whole := by
  have hfill : st.place.fill = 672 + st.writePos % 336 := rfl
  have hpos : st.place.readPos = (st.writePos + 1344 - (672 + st.writePos % 336)) % 1344 := rfl
  have hout : st.place.out.length = 0 := congrArg List.length ho
  have hwrite : st.place.writePos = st.writePos := rfl
  refine ⟨⟨ht, hw, ringBefore_lt _ _, ?_, ?_, fun _ => ⟨?_, ?_, ?_, ?_⟩, nofun, nofun⟩,
    by simp [Store.place], fun _ _ => ?_⟩ <;> omega

/-- A slip leaves all but the read side and the fills alone (R34, R35). -/
theorem slip_keeps (st : Store) (d : Slip) :
    (st.slip d).state = st.state ∧ (st.slip d).writePos = st.writePos ∧ (st.slip d).ring = st.ring ∧ (st.slip d).out = st.out ∧
      (st.slip d).lastFault = st.lastFault ∧ (st.slip d).lastFill = (st.slip d).fill ∧
      ((st.slip d).thresholds ↔ st.thresholds) := by
  cases d <;> simp [Store.slip, Store.thresholds]

/-- A store that begins its frame with slip `d` keeps its law where its fill and distance do (R26, R37). -/
theorem lawIn_slip_of {st : Store} {aligned : Bool} (d : Slip) (h : st.lawIn aligned true) (hs : st.state = .attached)
    (hr : (st.beginFrame.slip d).readPos < 1344) (hf1 : 1 ≤ (st.beginFrame.slip d).fill)
    (hf2 : (st.beginFrame.slip d).fill ≤ 1343)
    (hdist : ((st.beginFrame.slip d).readPos + (st.beginFrame.slip d).fill) % 1344 = st.writePos)
    (hslot : (st.beginFrame.slip d).readPos % 336 = 0) : (st.beginFrame.slip d).lawIn aligned true := by
  obtain ⟨⟨ht, hw, -⟩, ha, -⟩ := h
  obtain ⟨ks, kw, -, kout, -, -, kt⟩ := slip_keeps st.beginFrame d
  have hs' : (st.beginFrame.slip d).state = .attached := ks.trans hs
  have hout : (st.beginFrame.slip d).out.length = 0 := congrArg List.length kout
  exact ⟨⟨kt.mpr ht, kw ▸ hw, hr, by omega, by omega, fun _ => ⟨hf1, hf2, hdist.trans kw.symm, by omega⟩,
    by simp [hs'], by simp [hs']⟩, by rw [hs', ← hs]; exact ha, fun _ _ => by omega⟩

/-- A slip moves the read side by one slot, and the fill with it (R33 to R35). -/
theorem lawIn_slip {st : Store} {aligned : Bool} (h : st.lawIn aligned true) (hs : st.state = .attached) :
    (st.beginFrame.slip st.decision).lawIn aligned true := by
  obtain ⟨⟨ht, -, hr, -, -, hat, -⟩, -, hwhole⟩ := id h
  obtain ⟨h1, h2, hdist, hslot⟩ := hat hs
  have hzero := hwhole rfl hs
  obtain ⟨hl1, hl2, hh1, hh2, -⟩ := ht
  unfold Store.decision
  split_ifs with hlow hhigh
  · refine lawIn_slip_of .rep h hs (ringBefore_lt _ _) ?_ ?_ ?_ ?_ <;>
      simp only [Store.slip, beginFrame_fill, beginFrame_readPos, ringBefore] <;> omega
  · refine lawIn_slip_of .skip h hs (ringAfter_lt _ _) ?_ ?_ ?_ ?_ <;>
      simp only [Store.slip, beginFrame_fill, beginFrame_readPos, ringAfter] <;> omega
  · exact lawIn_slip_of .none h hs hr h1 h2 hdist (hslot.trans hzero)

/-- A store at a boundary, its reads of the frame completed (R32 to R35, R40). -/
theorem lawIn_boundary {st : Store} {aligned : Bool} (h : st.lawIn aligned true) : st.boundary.1.lawIn aligned true := by
  obtain ⟨⟨ht, hw, hr, hf, -, -, hd, hfault⟩, ha, -⟩ := id h
  have placed (hs : st.state ≠ .detached) : st.beginFrame.place.lawIn aligned true := by
    have hal : aligned = true := by simpa using mt ha.mpr hs
    rw [hal]
    exact lawIn_place ht hw rfl
  obtain ⟨hs, e⟩ | ⟨hs, -, e⟩ | ⟨hs, -, e⟩ | ⟨hs, -, e⟩ | ⟨hs, -, e⟩ | ⟨hs, e⟩ := boundary_cases st <;> rw [e]
  · exact lawIn_of_not_attached true (by simp [hs]) ht hw hr hf (Nat.zero_le _) hd hfault ha
  · exact lawIn_of_not_attached true (by simp [hs]) ht hw hr hf (Nat.zero_le _) hd hfault ha
  · exact lawIn_of_not_attached true nofun ht hw hr hf (Nat.zero_le _) nofun nofun (by simpa [hs] using ha)
  · exact placed (by simp [hs])
  · exact placed (by simp [hs])
  · exact lawIn_slip h hs

/-! ### A span under the operations of its events and orders -/

/-- The store law sees the store and whether the span is aligned. -/
theorem storeLaw_congr {sp sp' : Span} {whole : Bool} (h : sp.storeLaw whole) (hs : sp'.store = sp.store)
    (ha : sp'.rx.aligner.aligned = sp.rx.aligner.aligned) : sp'.storeLaw whole := by
  unfold Span.storeLaw
  rw [hs, ha]
  exact h

theorem storeLaw_latch {sp : Span} {whole : Bool} (h : sp.storeLaw whole) : sp.latch.storeLaw whole := h

/-- A move of the aligner out of alignment, or where there is none (R12, R28). -/
theorem storeLaw_toAligner {sp : Span} {whole : Bool} (a : Aligner) (ha : a.aligned = false) (h : sp.storeLaw whole) :
    (sp.toAligner a).storeLaw whole := by
  unfold Span.storeLaw
  rw [toAligner_aligner, ha]
  cases hs : sp.rx.aligner.aligned with
  | true =>
    rw [toAligner_leaving sp a ha hs]
    exact lawIn_detach h
  | false =>
    rw [toAligner_unaligned sp a ha hs]
    exact hs ▸ h

theorem storeLaw_readTo {sp : Span} (r : Nat) (h : sp.storeLaw false) : (sp.readTo r).storeLaw false := by
  unfold Span.storeLaw
  rw [readTo_store, readTo_rx]
  exact lawIn_readTo r h

/-- A move out of alignment with the reads made up to it (R11, R27). -/
theorem storeLaw_leaveAt {sp : Span} (r : Nat) (a : Aligner) (ha : a.aligned = false) (h : sp.storeLaw false) :
    (sp.leaveAt r a).storeLaw false := by
  cases hs : sp.rx.aligner.aligned with
  | true =>
    rw [leaveAt_of_aligned sp r a hs]
    exact storeLaw_toAligner a ha (storeLaw_congr (storeLaw_readTo r h) rfl rfl)
  | false =>
    rw [leaveAt_of_unaligned sp r a hs]
    exact storeLaw_toAligner a ha h

theorem storeLaw_receiveBits {sp : Span} (bits : List Bool) (h : sp.storeLaw false) : (sp.receiveBits bits).storeLaw false := by
  induction bits generalizing sp with
  | nil => exact h
  | cons b bits ih =>
    refine ih ?_
    unfold Span.storeLaw
    rw [receiveBit_store, receiveBit_aligner]
    exact lawIn_writeBit b h

theorem storeLaw_windowEnded {sp : Span} (r ones : Nat) (noisy : Bool) (h : sp.storeLaw false) :
    (sp.windowEnded r ones noisy).storeLaw false := by
  have counted : (sp.windowCounted (336 - ones) ones noisy).storeLaw false := h
  unfold Span.windowEnded
  dsimp only
  split
  · split
    · exact storeLaw_toAligner _ rfl counted
    · exact counted
  case h_5 => exact counted
  case h_6 => exact counted
  all_goals
    split
    · exact storeLaw_leaveAt r _ rfl counted
    · exact counted

/-- SET SPAN (R21). -/
theorem storeLaw_enableActs {sp : Span} {whole : Bool} (r : SpanRecord) (h : sp.storeLaw whole) :
    (Span.enableActs { sp with record := r } sp.record.enable).storeLaw whole := by
  have cleared : (Span.clearWindows { sp with record := r }).storeLaw whole := h
  unfold Span.enableActs
  split
  · exact h
  · split
    · exact storeLaw_toAligner _ (by split <;> rfl) cleared
    · exact storeLaw_toAligner _ rfl cleared

theorem restartAligner_unaligned (sp : Span) : sp.restartAligner.aligned = false := by
  unfold Span.restartAligner
  split_ifs <;> rfl

/-- SPAN RESTART (R22, R47). -/
theorem storeLaw_restart {sp : Span} {whole : Bool} (h : sp.storeLaw whole) : sp.restart.storeLaw whole := by
  have left := lawIn_detach (storeLaw_toAligner sp.restartAligner (restartAligner_unaligned sp) h)
  have hs := detach_state (sp.toAligner sp.restartAligner).store
  obtain ⟨⟨ht, hw, hr, hf, ho, -, hd, -⟩, ha, -⟩ := left
  have e : sp.restart.store = { (sp.toAligner sp.restartAligner).store.detach with lastFault := .none } := rfl
  unfold Span.storeLaw
  rw [restart_aligner, restartAligner_unaligned, e]
  exact lawIn_of_not_attached whole (by simp [hs]) ht hw hr hf ho hd (by simp [hs]) ha

/-- Thresholds stored or come into force within their ranges (R43, R44). -/
theorem storeLaw_thresholds {sp sp' : Span} {whole : Bool} (h : sp.storeLaw whole) {l k ls ks : Nat}
    (hs : sp'.store = { sp.store with low := l, high := k, lowStored := ls, highStored := ks })
    (ht : sp'.store.thresholds) (ha : sp'.rx = sp.rx) : sp'.storeLaw whole := by
  obtain ⟨⟨-, hw, hr, hf, ho, hat, hd, hfault⟩, hal, hwhole⟩ := h
  unfold Span.storeLaw
  rw [ha]
  rw [hs] at ht ⊢
  exact ⟨⟨ht, hw, hr, hf, ho, hat, hd, hfault⟩, hal, hwhole⟩

/-- The boundary opens with the stored thresholds in force (R44). -/
theorem storeLaw_openBoundary {sp : Span} {whole : Bool} (superframe : Bool) (h : sp.storeLaw whole) :
    (sp.openBoundary superframe).storeLaw whole := by
  obtain ⟨-, -, -, -, t5, t6, t7, t8⟩ := h.1.1
  exact storeLaw_thresholds h rfl ⟨t5, t6, t7, t8, t5, t6, t7, t8⟩ rfl

/-! ### Events of span timing -/

theorem State.becomes.storeLaws {s t : State} {n : Fin 16} {sp : Span} {whole : Bool} (h : s.becomes n sp t)
    (hs : s.storeLaws whole) (k : sp.storeLaw whole) : t.storeLaws whole := fun m => by
  by_cases hm : m = n
  · rw [hm, h.1]; exact k
  · rw [h.2.1.1 m hm]; exact hs m

theorem storeLaws_of_spans {s t : State} {whole : Bool} (h : t.spans = s.spans) (hs : s.storeLaws whole) :
    t.storeLaws whole := fun n => by
  rw [State.span, h]; exact hs n

section

variable {s : State} (h : s.storeLaws false)
include h

theorem storeLaws_clockRise (n : Fin 16) : (s.clockRise n).storeLaws false := by
  by_cases k : (s.span n).record.enable = true ∧ (s.span n).rx.clockPresent = false
  · exact (clockRise_rises s n k.1 k.2).storeLaws h (storeLaw_latch (storeLaw_toAligner _ rfl (storeLaw_congr (h n) rfl rfl)))
  · rw [clockRise_level s n (by simpa only [not_and_or, Bool.not_eq_true, Bool.not_eq_false] using k)]
    exact (modSpan_becomes s n _).storeLaws h (storeLaw_congr (h n) rfl rfl)

theorem storeLaws_clockFall (n : Fin 16) (r : Nat) : (s.clockFall n r).storeLaws false := by
  by_cases k : (s.span n).record.enable = true ∧ (s.span n).rx.clockPresent = true
  · exact (clockFall_falls s n r k.1 k.2).storeLaws h
      (storeLaw_latch (storeLaw_leaveAt r _ rfl (storeLaw_congr (h n) rfl rfl)))
  · rw [clockFall_level s n r (by simpa only [not_and_or, Bool.not_eq_true, Bool.not_eq_false] using k)]
    exact (modSpan_becomes s n _).storeLaws h (storeLaw_congr (h n) rfl rfl)

theorem storeLaws_noiseEnd (n : Fin 16) : (s.noiseEnd n).storeLaws false := by
  by_cases k : (s.span n).sampling = true ∧ (s.span n).noiseDue = true
  · exact (noiseEnd_becomes s n k.1 k.2).storeLaws h (storeLaw_congr (h n) rfl rfl)
  · rw [noiseEnd_other s n (by simpa only [not_and_or, Bool.not_eq_true, Bool.not_eq_false] using k)]
    exact h

theorem storeLaws_windowEnd (n : Fin 16) (r : Nat) (samples : Vector Looks 336) :
    (s.windowEnd n r samples).storeLaws false := by
  cases hs : (s.span n).sampling with
  | false => rw [windowEnd_stopped s n r samples hs]; exact h
  | true =>
    have counted (t : State) (ht : t.storeLaws false) (hs : (t.span n).sampling = true) (hd : (t.span n).noiseDue = false) :
        (t.windowEnd n r samples).storeLaws false :=
      (windowEnd_becomes t n r samples hs hd).storeLaws ht (storeLaw_latch (storeLaw_windowEnded r _ _ (ht n)))
    cases hd : (s.span n).noiseDue with
    | false => exact counted s h hs hd
    | true =>
      have e := (noiseEnd_becomes s n hs hd).1
      rw [windowEnd_of_due s n r samples hs hd]
      exact counted _ (storeLaws_noiseEnd h n) (by rw [e]; exact hs) (by rw [e]; rfl)

theorem storeLaws_huntFound (n : Fin 16) (p : Nat) (o : Byte) : (s.huntFound n p o).storeLaws false := by
  obtain e | ⟨f, hf, hp, ho, hw⟩ := huntFound_cases s n p o
  · rw [e]; exact h
  · exact (huntFound_becomes s n p o hf hp ho hw).storeLaws h (storeLaw_latch (storeLaw_toAligner _ rfl (h n)))

theorem storeLaws_verifyCheck (n : Fin 16) (p : Nat) (o : Byte) : (s.verifyCheck n p o).storeLaws false := by
  obtain e | ⟨c, m, f, hv, e⟩ := verifyCheck_cases s n p o
  · rw [e]; exact h
  · rw [e]
    by_cases hf : (o == 0xB2) = true ∨ f = 0
    · by_cases hm : m = 2
      · subst hm
        have hsp : (s.span n).store.lawIn false false := by simpa [Span.storeLaw, hv, Aligner.aligned] using h n
        exact (verifyResult_locks s n p c f _ hf).storeLaws h (lawIn_startCentring hsp)
      · exact (verifyResult_goes_on s n p c m f _ hf hm).storeLaws h (storeLaw_latch (storeLaw_toAligner _ rfl (h n)))
    · simp only [not_or, Bool.not_eq_true] at hf
      rw [hf.1]
      exact (verifyResult_fails s n p c m f hf.2).storeLaws h (storeLaw_latch (storeLaw_toAligner _ rfl (h n)))

theorem storeLaws_expectedOctet (n : Fin 16) (r p : Nat) (o : Byte) : (s.expectedOctet n r p o).storeLaws false := by
  obtain e | ⟨hal, ⟨a, ha, -, e⟩ | e⟩ := expectedOctet_cases s n r p o <;> rw [e]
  · exact h
  · refine (keepAligned_becomes s n a).storeLaws h (storeLaw_latch ?_)
    rw [toAligner_of_aligned _ a ha]
    exact storeLaw_congr (h n) rfl (ha.trans hal.symm)
  · exact (loseAlignment_becomes (becomes_refl s n) r _).storeLaws h (storeLaw_latch (storeLaw_leaveAt r _ rfl (h n)))

theorem storeLaws_alignedFrame (n : Fin 16) (r : Nat) (bits : List Bool) : (s.alignedFrame n r bits).storeLaws false := by
  cases k : (s.span n).rx.aligner.aligned with
  | false => rw [alignedFrame_unaligned s n r bits k]; exact h
  | true =>
    exact (alignedFrame_becomes s n r bits k).storeLaws h (storeLaw_latch (storeLaw_receiveBits bits (storeLaw_readTo r (h n))))

theorem storeLaws_underrun (n : Fin 16) : (s.underrun n).storeLaws false := by
  cases k : (s.span n).store.runsDry with
  | false => rw [underrun_other s n k]; exact h
  | true =>
    refine (underrun_becomes s n k).storeLaws h (storeLaw_latch ?_)
    unfold Span.storeLaw
    rw [readBits_rx, readBits_eq, withStore_store]
    simp only [Store.runsDry, Bool.and_eq_true, decide_eq_true_eq] at k
    exact lawIn_reads _ (h n) k.2

end

/-! ### Orders -/

/-- An order that changes span settings, counts or latched alarms; every other order leaves the spans alone. -/
def ordersSpans : Instr → Bool
  | .warmRestart _ => true
  | .setSpan .. => true
  | .spanRestart .. => true
  | .setThresholds .. => true
  | .setDrift .. => true
  | .clearLatched .. => true
  | .readCounts .. => true
  | _ => false

theorem takeOrder_spans (sampled : Fin 16 → Bool) (s : State) (i : Instr) (h : ordersSpans i = false) :
    (s.takeOrder sampled i).spans = s.spans := by
  cases i with
  | readSpan => exact takeReadSpan_spans _ _ s
  | readStore => exact takeReadStore_spans _ _ s
  | readDrift => exact takeReadDrift_spans _ _ s
  | setReference => exact takeSetReference_spans _ _ _ _ _ _ s
  | setTimingMode => exact takeSetTimingMode_spans _ _ _ s
  | selectReference => exact takeSelectReference_spans _ _ s
  | readReference => exact takeReadReference_spans _ _ s
  | setTimingOutput => exact takeSetTimingOutput_spans _ _ _ _ _ _ s
  | writeIngressEntry => exact takeWriteIngressEntry_spans _ _ _ _ _ _ s
  | writeEgressEntry => exact takeWriteEgressEntry_spans _ _ _ _ _ _ s
  | readIngressEntry => exact takeReadIngressEntry_spans _ _ _ _ s
  | readEgressEntry => exact takeReadEgressEntry_spans _ _ _ _ s
  | swapMaps => exact takeSwapMaps_spans _ _ s
  | copyMaps => exact takeCopyMaps_spans _ _ s
  | setTimer => exact takeSetTimer_spans _ _ _ _ _ _ s
  | loadMatch => exact takeLoadMatch_spans _ _ _ s
  | armTimer => exact takeArming_spans _ _ _ _ s
  | disarmTimer => exact takeArming_spans _ _ _ _ s
  | readTimer => exact takeReadTimer_spans _ _ s
  | setFrameNumber => exact takeSetFrameNumber_spans _ _ s
  | setUnit => exact takeSetUnit_spans _ _ _ _ _ _ _ _ _ s
  | startUnit => exact takeStartUnit_spans _ _ s
  | stopUnit => exact takeStopUnit_spans _ _ s
  | triggerUnit => exact takeTriggerUnit_spans _ _ s
  | readUnit => exact takeReadUnit_spans _ _ s
  | readBuffer => exact takeReadBuffer_spans _ _ _ s
  | writeBuffer => exact takeWriteBuffer_spans _ _ _ _ s
  | readAlarms => exact takeReadAlarms_spans _ _ s
  | warmRestart => cases h
  | setSpan => cases h
  | spanRestart => cases h
  | setThresholds => cases h
  | setDrift => cases h
  | clearLatched => cases h
  | readCounts => cases h
  | _ => rfl

section

variable {s : State} {whole : Bool} (h : s.storeLaws whole)
include h

omit h in
/-- A reply changes no span. -/
theorem storeLaws_answer {t : State} (ht : t.storeLaws whole) (code tag : Byte) (o : OrderOutcome) (r : List Byte) :
    (t.answer code tag o r).storeLaws whole := ht

/-- An order that changes a span but not its store or its aligner. -/
theorem storeLaws_modSpan (n : Fin 16) (f : Span → Span) (hs : (f (s.span n)).store = (s.span n).store)
    (hx : (f (s.span n)).rx = (s.span n).rx) : (s.modSpan n f).storeLaws whole :=
  (modSpan_becomes s n f).storeLaws h (storeLaw_congr (h n) hs (by rw [hx]))

theorem storeLaws_takeSetSpan (tag a b c d e f : Byte) : (takeSetSpan tag a b c d e f s).storeLaws whole := by
  unfold takeSetSpan
  split
  next n _ _ _ _ _ _ _ =>
    refine storeLaws_answer (((becomes_refl s n).modSpan _).publish.storeLaws h ?_) _ _ _ _
    exact storeLaw_latch (storeLaw_enableActs _ (h n))
  · exact h

theorem storeLaws_takeSpanRestart (tag a : Byte) : (takeSpanRestart tag a s).storeLaws whole := by
  unfold takeSpanRestart
  split
  · exact h
  next n _ =>
    exact storeLaws_answer (((becomes_refl s n).modSpan _).publish.storeLaws h (storeLaw_latch (storeLaw_restart (h n)))) _ _ _ _

theorem storeLaws_takeSetThresholds (tag a : Byte) (l k : Word) : (takeSetThresholds tag a l k s).storeLaws whole := by
  unfold takeSetThresholds
  split
  · exact h
  next n _ =>
    obtain ⟨l1, l2⟩ := clamp_mem 48 336 l.toNat (by decide)
    obtain ⟨k1, k2⟩ := clamp_mem 1008 1296 k.toNat (by decide)
    obtain ⟨t1, t2, t3, t4, -⟩ := (h n).1.1
    refine storeLaws_answer ((modSpan_becomes s n _).storeLaws h ?_) _ _ _ _
    exact storeLaw_thresholds (h n) rfl ⟨t1, t2, t3, t4, l1, l2, k1, k2⟩ rfl

theorem storeLaws_takeSetDrift (sampled : Bool) (tag a k : Byte) (l : Word) :
    (takeSetDrift sampled tag a k l s).storeLaws whole := by
  unfold takeSetDrift
  split
  · exact h
  next n _ =>
    refine storeLaws_answer ?_ _ _ _ _
    split
    · exact (((modSpan_becomes s n _).modSpan Span.commitDrift).publish).storeLaws h (storeLaw_congr (h n) rfl rfl)
    · exact storeLaws_modSpan h n _ rfl rfl

theorem storeLaws_warm : s.warm.storeLaws whole := fun n => by
  have e : s.warm.span n = (s.span n).warm := by simp [State.warm, State.span]
  rw [e]
  exact storeLaw_congr (h n) rfl rfl

theorem storeLaws_takeClearLatched (tag a : Byte) : (takeClearLatched tag a s).storeLaws whole := by
  unfold takeClearLatched
  split
  · exact h
  next n _ => exact storeLaws_modSpan h n (fun sp => { sp with latched := (s.span n).latched &&& (s.span n).active }) rfl rfl
  · exact h

theorem storeLaws_takeReadCounts (tag a b c : Byte) : (takeReadCounts tag a b c s).storeLaws whole := by
  have cleared (n : Fin 16) (f : SpanCounts → SpanCounts) :
      (s.modSpan n fun sp => { sp with counts := f sp.counts }).storeLaws whole := storeLaws_modSpan h n _ rfl rfl
  unfold takeReadCounts
  split
  · exact h
  next cl _ =>
    split
    · exact storeLaws_of_spans (by cases cl <;> rfl) h
    · split
      · exact h
      next n _ =>
        dsimp only
        split_ifs
        · exact cleared n SpanCounts.clear0
        · exact h
        · exact cleared n SpanCounts.clear1
        · exact h
        · exact h

/-- Every order keeps the store law, within a frame and at a boundary. -/
theorem storeLaws_takeOrder (sampled : Fin 16 → Bool) (i : Instr) : (s.takeOrder sampled i).storeLaws whole := by
  cases hi : ordersSpans i with
  | false => exact storeLaws_of_spans (takeOrder_spans sampled s i hi) h
  | true =>
    cases i with
    | warmRestart => exact storeLaws_of_spans rfl (storeLaws_warm h)
    | setSpan => exact storeLaws_takeSetSpan h _ _ _ _ _ _ _
    | spanRestart => exact storeLaws_takeSpanRestart h _ _
    | setThresholds => exact storeLaws_takeSetThresholds h _ _ _ _
    | setDrift => exact storeLaws_takeSetDrift h _ _ _ _ _
    | clearLatched => exact storeLaws_takeClearLatched h _ _
    | readCounts => exact storeLaws_takeReadCounts h _ _ _ _
    | _ => cases hi

/-! ### The office frame boundary -/

omit h in
theorem storeLaw_storeHandled {sp : Span} (superframe : Bool) (h : sp.storeLaw true) :
    (sp.storeHandled superframe).storeLaw true := by
  unfold Span.storeLaw
  have hrx : (sp.storeHandled superframe).rx = sp.rx := by
    unfold Span.storeHandled
    split <;> simp [Span.commitDrift]
  rw [storeHandled_store, hrx]
  exact lawIn_boundary h

theorem storeLaws_orderBoundary (sampled : Fin 16 → Bool) : (s.orderBoundary sampled).storeLaws whole := by
  have formed : s.formSend.storeLaws whole := h
  unfold State.orderBoundary State.examine
  split
  · refine storeLaws_of_spans (clearCell_spans _) ?_
    unfold State.judgeCell
    split_ifs
    · exact formed
    · exact formed
    · exact storeLaws_takeOrder formed sampled _
    · exact formed
  · exact formed

end

theorem storeLaws_handle {s : State} (superframe apart : Bool) (done : List Handling) (i : Handling) (h : s.storeLaws true) :
    (s.handle superframe apart done i).storeLaws true := by
  cases i with
  | number => exact storeLaws_of_spans (formNumber_spans s) h
  | timer n => exact storeLaws_of_spans (matchTimer_spans s n) h
  | store n => exact (storeBoundary_becomes s superframe n).storeLaws h (storeLaw_storeHandled superframe (h n))
  | otu => exact storeLaws_of_spans (otuBoundary_spans s superframe apart) h
  | outputs => exact h
  | swaps => exact storeLaws_of_spans (by cases superframe <;> rfl) h
  | units => exact storeLaws_of_spans (by cases superframe <;> rfl) h
  | orderChannel =>
    cases superframe with
    | false => exact h
    | true => exact storeLaws_orderBoundary h _

theorem storeLaws_handleAll {s : State} (superframe apart : Bool) (todo done : List Handling) (h : s.storeLaws true) :
    (s.handleAll superframe apart done todo).storeLaws true := by
  induction todo generalizing done s with
  | nil => exact h
  | cons i rest ih => exact ih _ (storeLaws_handle superframe apart done i h)

/-- Where a frame ends, every ATTACHED store has read its whole frame (R31). -/
theorem storeLaws_endFrame {s : State} (received : Vector Byte 640) (h : s.storeLaws false) :
    (s.endFrame received).storeLaws true := fun n => by
  rw [endFrame_span, finishReads_span]
  unfold Span.storeLaw
  dsimp only
  rw [latch_store, readTo_store, latch_rx, readTo_rx]
  exact lawIn_readTo_whole (h n)

theorem storeLaws_boundary {s : State} (received : Vector Byte 640) (order : List Handling) (apart : Bool)
    (h : s.storeLaws false) : (s.boundary received order apart).storeLaws false := by
  have ended := storeLaws_endFrame received (storeLaws_of_spans (acquisitionTimeout_spans s) h)
  have opened : ((s.acquisitionTimeout.endFrame received).openBoundary s.superframeNext).storeLaws true := fun n => by
    rw [openBoundary_span]
    exact storeLaw_openBoundary _ (ended n)
  have handled := storeLaws_handleAll s.superframeNext apart (schedule order) [] opened
  unfold State.boundary
  intro n
  dsimp only
  rw [closeBoundary_span]
  exact (storeLaw_congr (handled n) rfl rfl).forget

/-! ### One command -/

theorem storeLaws_of_whenRunning {s t u : State} (k : whenRunning s t = .next u) (h : s.storeLaws false)
    (ht : t.storeLaws false) : u.storeLaws false := by
  rcases (whenRunning_eq_next s t u).mp k with ⟨-, rfl⟩ | ⟨-, rfl⟩
  · exact ht
  · exact h

/-- An order given as a command. -/
theorem storeLaws_of_order {c : Instr} {s t : State} (h : s.storeLaws false)
    (hc : exec c s = whenRunning s (s.takeOrder (fun _ => true) c)) (k : exec c s = .next t) : t.storeLaws false :=
  storeLaws_of_whenRunning (hc.symm.trans k) h (storeLaws_takeOrder h _ c)

/-- While office timing runs, every command keeps the store law. -/
theorem storeLaws_exec (c : Instr) {s t : State} (hr : s.officeRuns = true) (h : s.storeLaws false) (k : exec c s = .next t) :
    t.storeLaws false := by
  cases c with
  | powerOn => cases k; exact h
  | coldRestartBegin =>
    simp only [exec, execColdRestartBegin] at k
    split at k <;> (cases k; exact h)
  | supplyFall =>
    simp only [State.officeRuns, Option.isNone_iff_eq_none] at hr
    simp only [exec, execSupplyFall, hr] at k
    cases k
    exact h
  | restartEnd =>
    simp only [State.officeRuns, Option.isNone_iff_eq_none] at hr
    simp only [exec, execRestartEnd, hr] at k
    cases k
    exact h
  | clockPresentRise n =>
    rw [exec_clockPresentRise n hr] at k
    cases k
    exact storeLaws_clockRise h n
  | clockPresentFall m =>
    rw [exec_clockPresentFall m.span m.readSoFar hr] at k
    cases k
    exact storeLaws_clockFall h _ _
  | lineWindowEnd => exact storeLaws_of_whenRunning k h (storeLaws_windowEnd h _ _ _)
  | noisePeriodEnd => exact storeLaws_of_whenRunning k h (storeLaws_noiseEnd h _)
  | huntCandidateFound => exact storeLaws_of_whenRunning k h (storeLaws_huntFound h _ _ _)
  | verifyCheck => exact storeLaws_of_whenRunning k h (storeLaws_verifyCheck h _ _ _)
  | expectedAlignmentOctet => exact storeLaws_of_whenRunning k h (storeLaws_expectedOctet h _ _ _ _)
  | alignedFrame => exact storeLaws_of_whenRunning k h (storeLaws_alignedFrame h _ _ _)
  | storeUnderrun => exact storeLaws_of_whenRunning k h (storeLaws_underrun h _)
  | referenceEvent => exact storeLaws_of_whenRunning k h (storeLaws_of_spans (by split <;> rfl) h)
  | officeFrameBoundary => exact storeLaws_of_whenRunning k h (storeLaws_boundary _ _ _ h)
  | qualificationComplete =>
    refine storeLaws_of_whenRunning k h (storeLaws_of_spans ?_ h)
    unfold State.qualificationComplete
    dsimp only
    split <;> rfl
  | acquisitionTimeout => exact storeLaws_of_whenRunning k h (storeLaws_of_spans (acquisitionTimeout_spans s) h)
  | unknownOrder => exact storeLaws_of_whenRunning k h (storeLaws_of_spans (by split <;> rfl) h)
  | setDrift => exact storeLaws_of_whenRunning k h (storeLaws_takeSetDrift h true _ _ _ _)
  | _ => exact storeLaws_of_order h rfl k

/-- A store after POWER-ON or COLD (R47). -/
theorem lawIn_reset : Store.reset.lawIn false false :=
  lawIn_of_not_attached false (by decide) (by unfold Store.thresholds; decide) (by decide) (by decide) (by decide) (by decide)
    (by decide) (by decide) (by decide)

/-- Settles O7: every command keeps the store law while office timing runs, and a restart ends with every store empty. -/
theorem storeLawKept : Obligations.StoreLawKept := by
  intro s t h hstep
  suffices t.storeLaws false from fun n => (storeLaw_false_iff _).mp (this n)
  have hs : s.storeLaws false := fun n => (storeLaw_false_iff _).mpr (h n)
  obtain rfl | ⟨c, rest, -, he⟩ := step_cases hstep
  · exact hs
  · cases hr : State.officeRuns { s with pending := rest } with
    | true => exact storeLaws_exec c hr hs he
    | false =>
      obtain ⟨-, spans⟩ | ⟨k, straps, rfl⟩ := exec_held c _ t hr he
      · intro n
        obtain e | ⟨l, e⟩ := spans n
        · rw [e]; exact hs n
        · rw [e]; exact storeLaw_congr (hs n) rfl rfl
      · intro n
        rw [restarted_span]
        exact lawIn_reset

end Sys2Proof.Machine
end

