-- ==== Sys2Proof/Proofs/StoreFaults.lean ====
section
/-! A store that runs empty or full (O32), and the counts and the meter of a span across an office frame boundary. -/

namespace Sys2Proof.Machine

/-! ### Reads that run a store empty (R37, R38) -/

/-- The read side of a store that runs empty stops at the place after the last bit written. -/
theorem reads_to_dry (st : Store) (k : Nat) (hs : st.state = .attached) (h1 : 1 ≤ st.fill) (h : st.fill ≤ k) :
    st.reads k =
      { st with
        out := (st.reads k).out, readPos := (st.readPos + st.fill) % 1344, fill := 0
        state := .faulted, lastFault := .underrun } := by
  induction k generalizing st with
  | zero => omega
  | succ k ih =>
    rw [reads_succ st k hs]
    by_cases hf : st.fill ≤ 1
    · have hf1 : st.fill = 1 := by omega
      rw [reads_of_not_attached _ k (readBit_dry_state st hf), readBit_runs_dry st hf, hf1]
      rfl
    · have e := readBit_attached st (by omega)
      have hs' : st.readBit.state = .attached := by rw [e]; exact hs
      have hfill : st.readBit.fill = st.fill - 1 := by rw [e]
      have hpos : st.readBit.readPos = (st.readPos + 1) % 1344 := by rw [e]; rfl
      have hend : ((st.readPos + 1) % 1344 + (st.fill - 1)) % 1344 = (st.readPos + st.fill) % 1344 := by omega
      have step := ih st.readBit hs' (by omega) (by omega)
      rw [hfill, hpos, hend] at step
      rw [step, e]

/-- The store when its read side has read every bit it holds (R37, R38). -/
def Store.runDry (st : Store) : Store :=
  { st with
    out := st.out ++ (List.range st.fill).map fun k => ringBit st.ring ((st.readPos + k) % 1344)
    readPos := (st.readPos + st.fill) % 1344, fill := 0, state := .faulted, lastFault := .underrun }

theorem reads_fill_eq_runDry (st : Store) (hs : st.state = .attached) (h1 : 1 ≤ st.fill) (hp : st.readPos < 1344) :
    st.reads st.fill = st.runDry := by
  have e := reads_to_dry st st.fill hs h1 (Nat.le_refl _)
  rwa [reads_out st st.fill hs h1 hp, Nat.min_self] at e

/-! ### Store faults (R37, R58) -/

/-- A store that goes from ATTACHED to FAULTED. -/
theorem withStore_faults (sp : Span) (st : Store) (hs : sp.store.state = .attached) (h : st.state = .faulted) :
    sp.withStore st = { sp with store := st }.storeFaulted := if_pos ⟨hs, h⟩

theorem storeFaulted_latched (sp : Span) : sp.storeFaulted.latched.getLsbD 8 = true := by
  simp [Span.storeFaulted, storeFaultAlarm]

/-- An alarm of a set is in every set that contains it. -/
theorem getLsbD_of_subset {a b : Word} (h : subset a b) {i : Nat} (hi : a.getLsbD i = true) : b.getLsbD i = true := by
  rw [← h, BitVec.getLsbD_and, Bool.and_eq_true] at hi
  exact hi.2

/-! ### One arriving bit, beside the store (R12) -/

theorem receiveBit_meter (sp : Span) (b : Bool) : (sp.receiveBit b).meter = (sp.withStore (sp.store.writeBit b)).meter := by
  by_cases h : sp.rx.frameBit = 15 <;> simp [Span.receiveBit, Span.overheadOctet, h]

theorem receiveBit_storeFaults (sp : Span) (b : Bool) :
    (sp.receiveBit b).counts.storeFaults = (sp.withStore (sp.store.writeBit b)).counts.storeFaults := by
  unfold Span.receiveBit
  dsimp only
  split
  · rw [Span.overheadOctet, latch_counts]
    dsimp only
    exact apply_ite SpanCounts.storeFaults _ _ _ |>.trans (ite_self _)
  · rfl

theorem receiveBit_latched (sp : Span) (b : Bool) :
    subset (sp.withStore (sp.store.writeBit b)).latched (sp.receiveBit b).latched := by
  unfold Span.receiveBit
  dsimp only
  split
  · exact subset_or_left _ _
  · exact subset_refl _

/-- The write that makes the fill 1344 (R37, R39). -/
theorem writeBit_overruns (st : Store) (b : Bool) (hs : st.state = .attached) (hf : st.fill = 1343) :
    st.writeBit b = { st.put b with fill := 1344, state := .faulted, lastFault := .overrun } := by
  simp [Store.writeBit, hs, hf]

/-- In FAULTED after an overrun a bit is passed over (R39). -/
theorem writeBit_passed_over (st : Store) (b : Bool) (hs : st.state = .faulted) (hf : st.lastFault = .overrun) :
    st.writeBit b = { st with writePos := ringAfter st.writePos 1 } := by
  simp [Store.writeBit, hs, hf]

/-! ### The counts and the meter at a boundary (R33, R41, R49 to R53, R60) -/

/-- The counts with the slip of a boundary counted (R33). -/
def SpanCounts.slipped (c : SpanCounts) : Slip → SpanCounts
  | .none => c
  | .rep => { c with repeatSlips := raise c.repeatSlips }
  | .skip => { c with skipSlips := raise c.skipSlips }

/-- The counts with a phase hit counted, if there was one (R53). -/
def SpanCounts.hit (c : SpanCounts) (hit : Bool) : SpanCounts :=
  if hit then { c with phaseHits := raise c.phaseHits } else c

/-- What the meter of a span makes of the report of its store's boundary (R51). -/
def Span.metered (sp : Span) (superframe : Bool) : Meter × Bool :=
  sp.meter.report (sp.store.sampledAt superframe) sp.store.boundary.2

theorem boundary_meter (sp : Span) (superframe : Bool) : (sp.boundary superframe).1.meter = (sp.metered superframe).1 := by
  unfold Span.boundary Span.hitCounted
  dsimp only
  split <;> cases sp.store.boundary.2.slip <;> rfl

theorem boundary_counts (sp : Span) (superframe : Bool) :
    (sp.boundary superframe).1.counts = (sp.counts.slipped sp.store.boundary.2.slip).hit (sp.metered superframe).2 := by
  unfold Span.boundary Span.hitCounted SpanCounts.hit Span.metered
  dsimp only
  split <;> cases sp.store.boundary.2.slip <;> rfl

theorem boundary_latched (sp : Span) (superframe : Bool) : (sp.boundary superframe).1.latched = sp.latched := by
  unfold Span.boundary Span.hitCounted
  dsimp only
  split <;> cases sp.store.boundary.2.slip <;> rfl

@[simp] theorem storeHandled_rx (sp : Span) (superframe : Bool) : (sp.storeHandled superframe).rx = sp.rx := by
  unfold Span.storeHandled; split <;> simp [Span.commitDrift]
@[simp] theorem storeHandled_sf (sp : Span) (superframe : Bool) : (sp.storeHandled superframe).sf = sp.sf := by
  unfold Span.storeHandled; split <;> simp [Span.commitDrift]

theorem storeHandled_counts (sp : Span) (superframe : Bool) :
    (sp.storeHandled superframe).counts = (sp.boundary superframe).1.counts := by
  unfold Span.storeHandled; split <;> rfl

theorem storeHandled_meter (sp : Span) (superframe : Bool) :
    (sp.storeHandled superframe).meter =
      if superframe then (sp.metered superframe).1.commit else (sp.metered superframe).1 := by
  rw [← boundary_meter]
  unfold Span.storeHandled
  split <;> rfl

theorem storeHandled_latched (sp : Span) (superframe : Bool) : subset sp.latched (sp.storeHandled superframe).latched := by
  have handled : subset sp.latched (sp.boundary superframe).1.latch.latched := by
    rw [latch_latched, boundary_latched]
    exact subset_or_left _ _
  unfold Span.storeHandled
  split
  · exact subset_trans handled (subset_or_left _ _)
  · exact handled

/-! ### A span across the boundary -/

/-- What the meter makes of a boundary, its span's reads completed and the stored thresholds in force. -/
def Span.crossMetered (sp : Span) (superframe : Bool) : Meter × Bool :=
  (sp.readTo 336).meter.report (sp.store.decides.sampledAt superframe) sp.store.decides.boundary.2

theorem crossed_rx (sp : Span) (superframe : Bool) (sent : Option (Vector Byte 42)) :
    (sp.crossed superframe sent).rx = sp.rx := by
  simp [Span.crossed, Span.openBoundary]

theorem crossed_sf (sp : Span) (superframe : Bool) (sent : Option (Vector Byte 42)) :
    (sp.crossed superframe sent).sf = sp.sf := by
  simp [Span.crossed, Span.openBoundary]

theorem crossed_meter (sp : Span) (superframe : Bool) (sent : Option (Vector Byte 42)) :
    (sp.crossed superframe sent).meter =
      if superframe then (sp.crossMetered superframe).1.commit else (sp.crossMetered superframe).1 := by
  simp [Span.crossed, storeHandled_meter, Span.metered, Span.crossMetered, Span.openBoundary, Store.decides]

theorem crossed_counts (sp : Span) (superframe : Bool) (sent : Option (Vector Byte 42)) :
    (sp.crossed superframe sent).counts =
      ((sp.readTo 336).counts.slipped sp.store.decides.boundary.2.slip).hit (sp.crossMetered superframe).2 := by
  simp [Span.crossed, storeHandled_counts, boundary_counts, Span.metered, Span.crossMetered, Span.openBoundary, Store.decides]

theorem crossed_latched (sp : Span) (superframe : Bool) (sent : Option (Vector Byte 42)) :
    subset (sp.readTo 336).latched (sp.crossed superframe sent).latched := by
  have handled := storeHandled_latched
    (Span.openBoundary { (sp.readTo 336).latch with tx := { (sp.readTo 336).latch.tx with sent } } superframe) superframe
  exact subset_trans (subset_or_left _ (sp.readTo 336).active) handled

/-- A report with attached no gives no sample (R41, R51). -/
theorem report_without_fill (m : Meter) (examined : Bool) (r : Report) (h : r.fill = none) :
    m.report examined r = ((if r.centred then m.clearBaseline else m).countSlip r.slip, false) := by
  unfold Meter.report
  rw [h]
  cases examined <;> rfl

/-! ### A boundary that completes the reads of a store that runs empty (R37, R38, R40) -/

section

variable (sp : Span) (hs : sp.store.state = .attached) (h1 : 1 ≤ sp.store.fill) (h : sp.store.fill + sp.store.out.length ≤ 336)
include hs h1 h

/-- The completed reads empty the store, which faults. -/
theorem readTo_dry :
    sp.store.readTo 336 =
      { sp.store with
        out := (sp.store.readTo 336).out, readPos := (sp.store.readPos + sp.store.fill) % 1344, fill := 0
        state := .faulted, lastFault := .underrun } :=
  reads_to_dry sp.store _ hs h1 (by omega)

theorem readTo_dry_faults :
    sp.readTo 336 = Span.storeFaulted { sp with store := sp.store.readTo 336 } := by
  rw [readTo_eq, withStore_faults sp _ hs (by rw [readTo_dry sp hs h1 h])]

/-- The store then recentres to CENTRING: fewer than 672 bits are left in it. -/
theorem decides_boundary_dry :
    sp.store.decides.boundary =
      ({ sp.store with
          state := .centring, lastFault := .underrun, fill := 0, readPos := (sp.store.readPos + sp.store.fill) % 1344, out := []
          low := sp.store.lowStored, high := sp.store.highStored }, ⟨none, .none, true⟩) := by
  unfold Store.decides
  rw [readTo_dry sp hs h1 h]
  rfl

theorem crossed_dry (superframe : Bool) (sent : Option (Vector Byte 42)) :
    let sp' := sp.crossed superframe sent
    sp'.counts = { sp.counts with storeFaults := raise sp.counts.storeFaults } ∧ sp'.latched.getLsbD 8 = true ∧
      sp'.meter.baseline = none ∧ sp'.meter.drift = false := by
  have faulted := readTo_dry_faults sp hs h1 h
  have boundary := decides_boundary_dry sp hs h1 h
  have metered : sp.crossMetered superframe = (sp.meter.storeLeft, false) := by
    unfold Span.crossMetered
    rw [boundary, report_without_fill _ _ _ rfl, faulted]
    rfl
  refine ⟨?_, ?_, ?_⟩
  · rw [crossed_counts, metered, boundary, faulted]
    rfl
  · refine getLsbD_of_subset (crossed_latched sp superframe sent) ?_
    rw [faulted]
    exact storeFaulted_latched _
  · rw [crossed_meter, metered]
    cases superframe <;> exact ⟨rfl, rfl⟩

end

/-! ### The three events of O32 -/

/-- STORE_UNDERRUN of a store that runs empty in its frame. -/
theorem underrun_empties (s : State) (n : Fin 16) (hr : s.officeRuns = true) (hs : (s.span n).store.state = .attached)
    (h1 : 1 ≤ (s.span n).store.fill) (hp : (s.span n).store.readPos < 1344)
    (h : (s.span n).store.fill + (s.span n).store.out.length ≤ 336) :
    ∃ t, exec (.storeUnderrun n) s = .next t ∧
      s.becomes n (Span.latch (Span.storeFaulted { s.span n with store := (s.span n).store.runDry })) t := by
  have dry : (s.span n).store.runsDry = true := by simp [Store.runsDry, hs, h]
  have becomes := underrun_becomes s n dry
  rw [readBits_eq, reads_fill_eq_runDry _ hs h1 hp, withStore_faults _ _ hs rfl] at becomes
  exact ⟨_, whenRunning_of_runs s _ hr, becomes⟩

/-- ALIGNED_FRAME with one bit and no reads made. -/
theorem alignedFrame_one_bit (s : State) (n : Fin 16) (x : Looks) (hr : s.officeRuns = true)
    (hal : (s.span n).rx.aligner.aligned = true) :
    ∃ t, exec (.alignedFrame n 0 [x]) s = .next t ∧ s.becomes n ((s.span n).receiveBit (majority x)).latch t := by
  refine ⟨_, whenRunning_of_runs s _ hr, ?_⟩
  have becomes := alignedFrame_becomes s n 0 (sampledBits [x]) hal
  have noReads : (s.span n).readTo 0 = s.span n := by simp [Span.readTo, Span.readBits]
  rwa [noReads] at becomes

/-- Settles O32: the reads that empty a store, the write that fills it, and the boundary that completes the reads. -/
theorem storeFaults : Obligations.StoreFaults := by
  refine ⟨fun s n hr hs h1 hp h => ?_, fun s n x hr hal hw => ?_, fun s egress order apart n hr ho hs h1 h => ?_⟩
  · obtain ⟨t, ht, hn, hk, hch⟩ := underrun_empties s n hr hs h1 hp h
    refine ⟨t, ht, hk, hch, ?_⟩
    rw [hn]
    refine ⟨rfl, rfl, rfl, rfl, rfl, rfl, rfl, rfl, ?_, rfl, rfl, rfl, rfl, rfl⟩
    exact getLsbD_of_subset (subset_or_left _ _) (storeFaulted_latched _)
  · have value : majority x = (x == 3 || x == 5 || x == 6 || x == 7) := by
      revert x
      decide
    obtain ⟨t, ht, hn, hk, -⟩ := alignedFrame_one_bit s n x hr hal
    rw [value] at hn
    generalize (x == 3 || x == 5 || x == 6 || x == 7) = b at hn ⊢
    refine ⟨fun hs hf => ⟨t, ht, hk, ?_⟩, fun hs hf => ⟨t, ht, ?_⟩⟩
    · have full := writeBit_overruns (s.span n).store b hs hf
      have faults := withStore_faults (s.span n) ((s.span n).store.writeBit b) hs (by rw [full])
      rw [hn, latch_store, latch_counts, latch_meter, receiveBit_store, receiveBit_meter, receiveBit_storeFaults, faults, full]
      refine ⟨rfl, rfl, rfl, setRingBit_same _ _ _ hw, rfl, rfl, rfl, ?_, rfl, rfl⟩
      refine getLsbD_of_subset (subset_trans (receiveBit_latched (s.span n) b) (subset_or_left _ _)) ?_
      rw [faults]
      exact storeFaulted_latched _
    · have past := writeBit_passed_over (s.span n).store b hs hf
      rw [hn, latch_store, latch_counts, receiveBit_store, receiveBit_storeFaults,
        withStore_of_no_fault (s.span n) _ (.inl (by simp [hs])), past]
      exact ⟨rfl, rfl⟩
  · obtain ⟨-, -, -, spans⟩ := boundary_without_order s egress order apart ho
    obtain ⟨overhead, hsp⟩ := spans n
    refine ⟨_, whenRunning_of_runs s _ hr, ?_⟩
    rw [hsp]
    obtain ⟨hc, hl, hb, hd⟩ := crossed_dry (s.span n) hs h1 h s.superframeNext (s.sentFrame n)
    refine ⟨?_, hc, hl, hb, hd, crossed_rx _ _ _, crossed_sf _ _ _, crossed_record _ _ _⟩
    exact (crossed_store _ _ _).trans (congrArg Prod.fst (decides_boundary_dry (s.span n) hs h1 h))

end Sys2Proof.Machine
end

