-- ==== Sys2Proof/Proofs/HandlingTriggers.lean ====
section
/-! What the handlings of a boundary leave of the holds and of the test units (R90, R91, R123): a handling changes neither the
holds nor the frame sent, and but for an order it gives a unit no more than a trigger. -/

namespace Sys2Proof.Machine

/-! ### The holds and the units -/

/-- Both holds and the frame sent on the ingress highway stand as they did. -/
structure State.keepsHolds (s t : State) : Prop where
  retimed : t.highway.retimed = s.highway.retimed
  held : t.highway.held = s.highway.held
  sent : t.highway.sent = s.highway.sent

/-- A unit has been triggered anew, or stands as it did. -/
def State.triggersOnly (s t : State) : Prop :=
  ∀ u : Fin 4, t.units[u] = s.units[u] ∨ t.units[u] = { s.units[u] with newTrigger := true }

/-- Unit `u` keeps its settings, and a new trigger it has. -/
structure State.keepsTrigger (s : State) (u : Fin 4) (t : State) : Prop where
  source : t.units[u].source = s.units[u].source
  point : t.units[u].point = s.units[u].point
  trigger : s.units[u].newTrigger = true → t.units[u].newTrigger = true

theorem keepsHolds_of_highway {s t : State} (h : t.highway = s.highway) : s.keepsHolds t := ⟨by rw [h], by rw [h], by rw [h]⟩

theorem keepsHolds_refl (s : State) : s.keepsHolds s := ⟨rfl, rfl, rfl⟩

theorem keepsHolds_trans {s t u : State} (h : s.keepsHolds t) (k : t.keepsHolds u) : s.keepsHolds u :=
  ⟨k.retimed.trans h.retimed, k.held.trans h.held, k.sent.trans h.sent⟩

theorem triggersOnly_refl (s : State) : s.triggersOnly s := fun _ => .inl rfl

theorem triggersOnly_of_units {s t : State} (h : t.units = s.units) : s.triggersOnly t := fun u => .inl (by rw [h])

theorem triggersOnly_trans {s t u : State} (h : s.triggersOnly t) (k : t.triggersOnly u) : s.triggersOnly u := fun i => by
  rcases h i with h | h <;> rcases k i with k | k <;> simp [h, k]

theorem State.triggersOnly.keepsTrigger {s t : State} (h : s.triggersOnly t) (u : Fin 4) : s.keepsTrigger u t := by
  rcases h u with e | e
  · exact ⟨by rw [e], by rw [e], fun k => by rw [e, k]⟩
  · exact ⟨by rw [e], by rw [e], fun _ => by rw [e]⟩

theorem State.becomes.keepsHolds {s t : State} {n : Fin 16} {sp : Span} (h : s.becomes n sp t) : s.keepsHolds t :=
  keepsHolds_of_highway (besideSpans_of_becomes h).highway

/-! ### What each handling leaves -/

theorem offerTrigger_triggersOnly (s : State) (src : Fin 8) : s.triggersOnly (s.offerTrigger src) :=
  (besideSpans_of_timingActs (offerTrigger_acts s src)).units

theorem offerUnitTrigger_triggersOnly (s : State) (src : Fin 8) (u : Fin 4) : s.triggersOnly (s.offerUnitTrigger src u) := by
  rw [offerUnitTrigger_eq]
  split
  · intro v
    by_cases hv : v = u
    · subst hv
      exact .inr (setUnit_unit s v _)
    · refine .inl ?_
      have hne : u.val ≠ v.val := fun e => hv (Fin.ext e.symm)
      simp [State.setUnit, hne]
  · exact triggersOnly_refl s

theorem offerUnitTrigger_highway (s : State) (src : Fin 8) (u : Fin 4) : (s.offerUnitTrigger src u).highway = s.highway := by
  rw [offerUnitTrigger_eq]
  split <;> rfl

theorem performAction_keeps_holds (s : State) (t : Timer) :
    s.keepsHolds (s.performAction t).1 ∧ s.triggersOnly (s.performAction t).1 := by
  unfold State.performAction
  split
  · exact ⟨keepsHolds_refl s, triggersOnly_refl s⟩
  · exact ⟨⟨rfl, rfl, rfl⟩, triggersOnly_of_units rfl⟩
  · exact ⟨⟨rfl, rfl, rfl⟩, triggersOnly_of_units rfl⟩
  · exact ⟨⟨rfl, rfl, rfl⟩, triggersOnly_of_units rfl⟩
  · have beside := besideSpans_of_timingActs (selectionRequest_acts s t.param)
    exact ⟨keepsHolds_of_highway beside.highway, beside.units⟩

theorem matchTimer_keeps_holds (s : State) (n : Fin 4) : s.keepsHolds (s.matchTimer n) ∧ s.triggersOnly (s.matchTimer n) := by
  unfold State.matchTimer
  dsimp only
  split
  · obtain ⟨holds, units⟩ := performAction_keeps_holds s s.timers[n]
    refine ⟨keepsHolds_trans holds (keepsHolds_of_highway ?_), triggersOnly_trans units ?_⟩
    · rw [offerUnitTrigger_highway, setTimer_highway]
    · exact triggersOnly_trans (triggersOnly_of_units (setTimer_units _ _ _)) (offerUnitTrigger_triggersOnly _ 5 n)
  · exact ⟨keepsHolds_refl s, triggersOnly_refl s⟩

/-- Stage 3 leaves the loop changed, or makes the timeout as well (R72). -/
theorem lockStage_cases (s : State) (apart : Bool) :
    s.lockStage apart = s ∨ ∃ l, s.lockStage apart = s.setLoop l ∨ s.lockStage apart = (s.setLoop l).timeout := by
  unfold State.lockStage
  dsimp only
  generalize (if s.timing.detector.reading = true then s.timing.loop.lockCount + 1 else 0) = count
  split
  · split
    · exact .inr ⟨_, .inl rfl⟩
    · split
      · exact .inr ⟨_, .inl rfl⟩
      · split
        · exact .inr ⟨_, .inl rfl⟩
        · exact .inr ⟨_, .inr rfl⟩
  · exact .inl rfl

theorem setLoop_beside (s : State) (l : Loop) : s.besideSpans (s.setLoop l) := ⟨rfl, rfl, rfl, rfl, rfl, rfl, fun _ => .inl rfl⟩

theorem lockStage_beside (s : State) (apart : Bool) : s.besideSpans (s.lockStage apart) := by
  obtain e | ⟨l, e | e⟩ := lockStage_cases s apart <;> rw [e]
  · exact besideSpans_refl s
  · exact setLoop_beside s l
  · exact besideSpans_trans (setLoop_beside s l) (timeout_beside _)

theorem autoSelect_beside (s : State) : s.besideSpans s.autoSelect := by
  unfold State.autoSelect
  split
  · exact besideSpans_refl s
  · exact besideSpans_refl s
  · split
    · exact besideSpans_of_timingActs (selectEntry_spec s _).1
    · split
      · exact besideSpans_of_timingActs (selectEntry_spec s _).1
      · exact besideSpans_refl s

theorem monitors_beside (s : State) : s.besideSpans s.monitors := by
  refine besideSpans_trans (t := { s with timing := { s.timing with
    monitorA := s.timing.monitorA.frameEnd, monitorB := s.timing.monitorB.frameEnd } }) ?_
    (besideSpans_of_timingActs (followEntries_acts _))
  exact ⟨rfl, rfl, rfl, rfl, rfl, rfl, fun _ => .inl rfl⟩

/-- The oscillator and the lock detector end the stages, beside the highway and the units (R69). -/
theorem otuSuperframe_stages (s : State) (apart : Bool) :
    (s.otuSuperframe apart).highway = (s.qualifyAll.autoSelect.lockStage apart).highway ∧
      (s.otuSuperframe apart).units = (s.qualifyAll.autoSelect.lockStage apart).units := ⟨rfl, rfl⟩

theorem otuSuperframe_holds (s : State) (apart : Bool) :
    s.keepsHolds (s.otuSuperframe apart) ∧ s.triggersOnly (s.otuSuperframe apart) := by
  have qualified : s.besideSpans s.qualifyAll := ⟨rfl, rfl, rfl, rfl, rfl, rfl, fun _ => .inl rfl⟩
  have staged := besideSpans_trans qualified (besideSpans_trans (autoSelect_beside _) (lockStage_beside _ apart))
  obtain ⟨highway, units⟩ := otuSuperframe_stages s apart
  exact ⟨keepsHolds_of_highway (highway.trans staged.highway), triggersOnly_trans staged.units (triggersOnly_of_units units)⟩

theorem otuBoundary_holds (s : State) (superframe apart : Bool) :
    s.keepsHolds (s.otuBoundary superframe apart) ∧ s.triggersOnly (s.otuBoundary superframe apart) := by
  have monitored := monitors_beside s
  obtain ⟨holds, units⟩ := otuSuperframe_holds s.monitors apart
  unfold State.otuBoundary
  split
  · exact ⟨keepsHolds_trans (keepsHolds_of_highway monitored.highway) holds, triggersOnly_trans monitored.units units⟩
  · exact ⟨keepsHolds_of_highway monitored.highway, monitored.units⟩

/-- A handling other than the order channel's leaves the holds, and gives the units triggers alone. -/
theorem handle_holds (s : State) (superframe apart : Bool) (done : List Handling) (h : Handling) (ho : h ≠ .orderChannel) :
    s.keepsHolds (s.handle superframe apart done h) ∧ s.triggersOnly (s.handle superframe apart done h) := by
  cases h with
  | number => exact ⟨keepsHolds_of_highway (formNumber_highway s), triggersOnly_of_units (formNumber_units s)⟩
  | timer n => exact matchTimer_keeps_holds s n
  | store n =>
    have becomes := storeBoundary_becomes s superframe n
    exact ⟨becomes.keepsHolds, (besideSpans_of_becomes becomes).units⟩
  | otu => exact otuBoundary_holds s superframe apart
  | outputs => exact ⟨⟨rfl, rfl, rfl⟩, triggersOnly_of_units rfl⟩
  | swaps => cases superframe <;> exact ⟨⟨rfl, rfl, rfl⟩, triggersOnly_refl s⟩
  | units =>
    have once := offerTrigger_triggersOnly s 1
    cases superframe with
    | false => exact ⟨⟨rfl, rfl, rfl⟩, once⟩
    | true => exact ⟨⟨rfl, rfl, rfl⟩, triggersOnly_trans once (offerTrigger_triggersOnly _ 2)⟩
  | orderChannel => exact absurd rfl ho

/-- A boundary that takes no order gives the units triggers alone. -/
theorem handle_triggersOnly (s : State) (superframe apart : Bool) (done : List Handling) (h : Handling)
    (ho : s.examinesNothing superframe) : s.triggersOnly (s.handle superframe apart done h) := by
  by_cases hh : h = .orderChannel
  · subst hh
    cases superframe with
    | false => exact triggersOnly_refl s
    | true =>
      refine triggersOnly_of_units ?_
      have nothing := ho.resolve_left nofun
      change (s.orderBoundary _).units = s.units
      unfold State.orderBoundary State.examine
      split
      next hf =>
        have empty : s.formSend.channel.receive[1] = 0 := nothing.resolve_left fun k => Bool.false_ne_true (k.symm.trans hf)
        unfold State.judgeCell
        rw [if_pos empty]
        rfl
      next => rfl
  · exact (handle_holds s superframe apart done h hh).2

theorem handleAll_triggersOnly (superframe apart : Bool) (todo done : List Handling) (s : State)
    (ho : s.examinesNothing superframe) : s.triggersOnly (s.handleAll superframe apart done todo) := by
  induction todo generalizing done s with
  | nil => exact triggersOnly_refl s
  | cons h rest ih =>
    exact triggersOnly_trans (handle_triggersOnly s superframe apart done h ho)
      (ih _ _ ((handle_keeps s superframe apart done h ho).orders ho))

/-! ### Trigger source 3 (R36, R123) -/

/-- A unit that takes the slips of a span. -/
def TestUnit.takesSlips (u : TestUnit) (n : Fin 16) : Prop := u.source = 3 ∧ u.point.span? = some n

/-- The handling of a store that slips triggers every unit that takes its slips. -/
theorem storeBoundary_triggers (s : State) (superframe : Bool) (n : Fin 16) (u : Fin 4)
    (hslip : (s.span n).store.boundary.2.slip ≠ .none) (hu : s.units[u].takesSlips n) :
    (s.storeBoundary superframe n).units[u].newTrigger = true := by
  have offered : ((s.setSpan n ((s.span n).boundary superframe).1).offerSpanTrigger 3 n).units[u].newTrigger = true := by
    rw [offerSpanTrigger_unit]
    exact (if_pos hu).symm ▸ rfl
  have published (t : State) (ht : t.units[u].newTrigger = true) : (t.publish n).units[u].newTrigger = true :=
    (State.triggersOnly.keepsTrigger (besideSpans_of_becomes (publish_becomes t n)).units u).trigger ht
  have hne : ((s.span n).boundary superframe).2 ≠ .none := hslip
  unfold State.storeBoundary
  simp only [hne, if_false]
  split
  · exact published _ (published _ offered)
  · exact published _ offered

/-- Where a store slips at a boundary that takes no order, every unit that takes its slips has a new trigger after the
handlings, in whatever order they come. -/
theorem handleAll_triggers (superframe apart : Bool) (todo done : List Handling) (s : State) (n : Fin 16) (u : Fin 4)
    (ho : s.examinesNothing superframe) (hmem : .store n ∈ todo) (hslip : (s.span n).store.boundary.2.slip ≠ .none)
    (hu : s.units[u].takesSlips n) : (s.handleAll superframe apart done todo).units[u].newTrigger = true := by
  induction todo generalizing done s with
  | nil => cases hmem
  | cons h rest ih =>
    have orders := (handle_keeps s superframe apart done h ho).orders ho
    by_cases hh : h = .store n
    · subst hh
      exact ((handleAll_triggersOnly superframe apart rest _ _ orders).keepsTrigger u).trigger
        (storeBoundary_triggers s superframe n u hslip hu)
    · obtain ⟨hsrc, hpt, -⟩ := (handle_triggersOnly s superframe apart done h ho).keepsTrigger u
      refine ih _ _ orders ((List.mem_cons.mp hmem).resolve_left (Ne.symm hh)) ?_ ?_
      · rwa [handle_span s superframe apart done h n ho, if_neg hh]
      · unfold TestUnit.takesSlips
        rw [hsrc, hpt]
        exact hu

/-! ### The settings of a unit across the end of a frame (R125 to R127) -/

theorem advance_settings (t : TestUnit) : t.advance.source = t.source ∧ t.advance.point = t.point := by
  unfold TestUnit.advance
  dsimp only
  split_ifs <;> exact ⟨rfl, rfl⟩

theorem transferred_settings (s : State) (received : Vector Byte 640) (u : Fin 4) :
    (s.transferred received u).source = s.units[u].source ∧ (s.transferred received u).point = s.units[u].point := by
  have moved : (s.moved received u).source = s.units[u].source ∧ (s.moved received u).point = s.units[u].point := by
    unfold State.moved
    dsimp only
    split <;> exact ⟨rfl, rfl⟩
  obtain ⟨hs, hp⟩ := advance_settings (s.moved received u)
  unfold State.transferred
  split
  · exact ⟨hs.trans moved.1, hp.trans moved.2⟩
  · exact ⟨rfl, rfl⟩

theorem chain_triggersOnly (before : State) (s : State) (u : Fin 4) : s.triggersOnly (before.chain s u) := by
  unfold State.chain
  split
  · exact offerUnitTrigger_triggersOnly _ _ _
  · exact triggersOnly_refl _

theorem chains_triggersOnly (before : State) (l : List (Fin 4)) (s : State) :
    s.triggersOnly (l.foldl before.chain s) := by
  induction l generalizing s with
  | nil => exact triggersOnly_refl s
  | cons u l ih => exact triggersOnly_trans (chain_triggersOnly before s u) (ih _)

theorem unitsEndFrame_settings (s : State) (received : Vector Byte 640) (u : Fin 4) :
    (s.unitsEndFrame received).units[u].source = s.units[u].source ∧
      (s.unitsEndFrame received).units[u].point = s.units[u].point := by
  obtain ⟨hs, hp⟩ := transferred_settings s received u
  obtain ⟨ks, kp, -⟩ := (chains_triggersOnly s allFour
    { s with units := Vector.ofFn fun u => s.transferred received u }).keepsTrigger u
  simp only [Fin.getElem_fin, Vector.getElem_ofFn] at ks kp
  have e : (s.unitsEndFrame received).units[u] =
      ((allFour.foldl s.chain { s with units := Vector.ofFn fun u => s.transferred received u }).units[u]).endFrame := by
    simp [State.unitsEndFrame]
  rw [e]
  exact ⟨ks.trans hs, kp.trans hp⟩

/-! ### The boundary -/

theorem gather_units (s : State) (b : Byte) : (s.gather b).units = s.units := by
  unfold State.gather; split <;> rfl

theorem besideSpans_keepsTrigger {s t : State} (h : s.besideSpans t) (u : Fin 4) : s.keepsTrigger u t :=
  State.triggersOnly.keepsTrigger h.units u

/-- A unit takes the slips of the same span at the end of a frame as within it. -/
theorem endFrame_takesSlips (s : State) (received : Vector Byte 640) (n : Fin 16) (u : Fin 4) (hu : s.units[u].takesSlips n) :
    ((s.acquisitionTimeout.endFrame received).units[u]).takesSlips n := by
  obtain ⟨hs, hp, -⟩ := besideSpans_keepsTrigger
    (besideSpans_trans (acquisitionTimeout_beside s) (finishReads_beside s.acquisitionTimeout)) u
  have e : (s.acquisitionTimeout.endFrame received).units =
      ((s.acquisitionTimeout.finishReads.gather received[0]).unitsEndFrame received).units := by
    unfold State.endFrame
    dsimp only
  obtain ⟨ks, kp⟩ := unitsEndFrame_settings (s.acquisitionTimeout.finishReads.gather received[0]) received u
  rw [gather_units] at ks kp
  unfold TestUnit.takesSlips
  rw [e, ks, kp, hs, hp]
  exact hu

/-- The store as the handlings of a boundary find it (R31, R44). -/
theorem opened_store (s : State) (received : Vector Byte 640) (superframe : Bool) (n : Fin 16) :
    (((s.acquisitionTimeout.endFrame received).openBoundary superframe).span n).store = (s.span n).store.decides := by
  have hsp : s.acquisitionTimeout.span n = s.span n := by rw [State.span, State.span, acquisitionTimeout_spans]
  rw [openBoundary_span, endFrame_span, finishReads_span, hsp]
  simp [Span.openBoundary, Store.decides]

/-- A slip of a boundary that takes no order is trigger source 3 of its span (R36). -/
theorem boundary_triggers (s : State) (egress : Vector Byte 640) (order : List Handling) (apart : Bool) (n : Fin 16) (u : Fin 4)
    (ho : s.takesNoOrder) (hslip : (s.span n).store.decides.boundary.2.slip ≠ .none) (hu : s.units[u].takesSlips n) :
    (s.boundary egress order apart).units[u].newTrigger = true :=
  handleAll_triggers s.superframeNext apart (schedule order) [] _ n u (endFrame_examinesNothing s egress ho)
    (store_mem_schedule order n) (by rwa [opened_store]) (endFrame_takesSlips s egress n u hu)

end Sys2Proof.Machine
end

