-- ==== Sys2Proof/Proofs/SlipsAndCentring.lean ====
section
/-! The slip decision of an ATTACHED store, and the centring and recentring of one that is not (O58). -/

namespace Sys2Proof.Machine

/-! ### The slip decision (R33 to R36) -/

theorem boundary_attached (st : Store) (h : st.state = .attached) :
    st.boundary = (st.beginFrame.slip st.decision, ⟨some (st.beginFrame.slip st.decision).fill, st.decision, false⟩) := by
  unfold Store.boundary
  rw [h]
  rfl

theorem decision_rep (st : Store) (h : st.fill < st.low) : st.decision = .rep := if_pos h

theorem decision_skip (st : Store) (h : st.high < st.fill) (hl : ¬ st.fill < st.low) : st.decision = .skip :=
  (if_neg hl).trans (if_pos h)

theorem decision_none (st : Store) (hl : st.low ≤ st.fill) (hh : st.fill ≤ st.high) : st.decision = .none :=
  (if_neg (Nat.not_lt.mpr hl)).trans (if_neg (Nat.not_lt.mpr hh))

/-- Within an office superframe no report is examined, and there is no phase hit (R51). -/
theorem report_unexamined (m : Meter) (r : Report) :
    m.report false r = ((if r.centred then m.clearBaseline else m).countSlip r.slip, false) := rfl

theorem sampledAt_within (st : Store) : st.sampledAt false = false := rfl

theorem crossMetered_within (sp : Span) :
    sp.crossMetered false =
      ((if sp.store.decides.boundary.2.centred then (sp.readTo 336).meter.clearBaseline else (sp.readTo 336).meter).countSlip
        sp.store.decides.boundary.2.slip, false) := by
  rw [Span.crossMetered, sampledAt_within, report_unexamined]

section

variable (sp : Span) (hs : sp.store.state = .attached) (hf : 336 - sp.store.out.length < sp.store.fill)
  (hp : sp.store.readPos < 1344)
include hs hf hp

/-- The completed reads of a store that holds more. -/
theorem readTo_whole :
    sp.readTo 336 =
      { sp with store :=
          { sp.store with
            out := (sp.store.readTo 336).out, readPos := (sp.store.readPos + (336 - sp.store.out.length)) % 1344
            fill := sp.store.fill - (336 - sp.store.out.length) } } := by
  have e := readTo_of_attached sp 336 hs hp (by omega)
  rw [Nat.min_self] at e
  rw [← readTo_store sp, e]

theorem decides_of_enough :
    sp.store.decides =
      { sp.store with
        out := (sp.store.readTo 336).out, readPos := (sp.store.readPos + (336 - sp.store.out.length)) % 1344
        fill := sp.store.fill - (336 - sp.store.out.length), low := sp.store.lowStored, high := sp.store.highStored } := by
  have e := congrArg Span.store (readTo_whole sp hs hf hp)
  rw [readTo_store] at e
  rw [Store.decides, e]

/-- A span whose ATTACHED store makes decision `d` at the boundary. -/
theorem crossed_attached (superframe : Bool) (sent : Option (Vector Byte 42)) (d : Slip) (hd : sp.store.decides.decision = d) :
    let sp' := sp.crossed superframe sent
    sp'.store = sp.store.decides.beginFrame.slip d ∧
      sp'.counts = (sp.counts.slipped d).hit (sp.crossMetered superframe).2 ∧
      sp'.tx.currentSlip = ((if superframe then false else sp.tx.currentSlip) || decide (d ≠ .none)) ∧
      sp.store.decides.boundary.2.slip = d := by
  have hs' : sp.store.decides.state = .attached := by rw [decides_of_enough sp hs hf hp]; exact hs
  have boundary := boundary_attached sp.store.decides hs'
  rw [hd] at boundary
  refine ⟨?_, ?_, ?_, by rw [boundary]⟩
  · rw [crossed_store, boundary]
  · rw [crossed_counts, boundary, readTo_whole sp hs hf hp]
  · rw [crossed_tx, boundary]

/-- What every decision leaves of the store (R34, R35). -/
theorem slip_of_enough (d : Slip) :
    let st' := sp.store.decides.beginFrame.slip d
    st'.state = .attached ∧ st'.out = [] ∧ st'.ring = sp.store.ring ∧ st'.writePos = sp.store.writePos ∧
      st'.lastFill = st'.fill ∧ st'.lastFault = sp.store.lastFault := by
  obtain ⟨ks, kw, kr, ko, kf, kl, -⟩ := slip_keeps sp.store.decides.beginFrame d
  have e := decides_of_enough sp hs hf hp
  refine ⟨ks.trans ?_, ko, kr.trans ?_, kw.trans ?_, kl, kf.trans ?_⟩ <;> rw [e]
  case refine_1 => exact hs
  all_goals rfl

/-- Where the read side stands, and the fill, after each decision (R34, R35). -/
theorem slip_moves_read_side :
    let f := sp.store.fill - (336 - sp.store.out.length)
    let p := sp.store.readPos + (336 - sp.store.out.length)
    let st := sp.store.decides.beginFrame
    ((st.slip .rep).fill = f + 336 ∧ (st.slip .rep).readPos = (p + 1344 - 336) % 1344) ∧
      ((st.slip .skip).fill = f - 336 ∧ (st.slip .skip).readPos = (p + 336) % 1344) ∧
      ((st.slip .none).fill = f ∧ (st.slip .none).readPos = p % 1344) := by
  have hfill : sp.store.decides.fill = sp.store.fill - (336 - sp.store.out.length) := by rw [decides_of_enough sp hs hf hp]
  have hpos : sp.store.decides.readPos = (sp.store.readPos + (336 - sp.store.out.length)) % 1344 := by
    rw [decides_of_enough sp hs hf hp]
  simp only [Store.slip, beginFrame_fill, beginFrame_readPos, hfill, hpos, ringBefore, ringAfter, true_and]
  refine ⟨?_, ?_, trivial⟩ <;> omega

/-- The store, the indication and the counts after each decision; PHASE HITS alone may have been raised besides (R33 to R36). -/
theorem crossed_slips (superframe : Bool) (sent : Option (Vector Byte 42)) (ht : sp.store.thresholds) :
    let left := 336 - sp.store.out.length
    let f := sp.store.fill - left
    let sp' := sp.crossed superframe sent
    let c := { sp.counts with phaseHits := sp'.counts.phaseHits }
    (f < sp.store.lowStored →
      sp'.store.fill = f + 336 ∧ sp'.store.readPos = (sp.store.readPos + left + 1344 - 336) % 1344 ∧ sp'.tx.currentSlip = true ∧
        sp'.counts = { c with repeatSlips := raise c.repeatSlips } ∧ sp.store.decides.boundary.2.slip ≠ .none) ∧
    (sp.store.highStored < f →
      sp'.store.fill = f - 336 ∧ sp'.store.readPos = (sp.store.readPos + left + 336) % 1344 ∧ sp'.tx.currentSlip = true ∧
        sp'.counts = { c with skipSlips := raise c.skipSlips } ∧ sp.store.decides.boundary.2.slip ≠ .none) ∧
    (sp.store.lowStored ≤ f → f ≤ sp.store.highStored →
      sp'.store.fill = f ∧ sp'.store.readPos = (sp.store.readPos + left) % 1344 ∧
        sp'.tx.currentSlip = (if superframe then false else sp.tx.currentSlip) ∧ sp'.counts = c) := by
  have hfill : sp.store.decides.fill = sp.store.fill - (336 - sp.store.out.length) := by rw [decides_of_enough sp hs hf hp]
  have hlow : sp.store.decides.low = sp.store.lowStored := rfl
  have hhigh : sp.store.decides.high = sp.store.highStored := rfl
  obtain ⟨-, -, -, -, -, hl, hh, -⟩ := ht
  obtain ⟨⟨repFill, repPos⟩, ⟨skipFill, skipPos⟩, nextFill, nextPos⟩ := slip_moves_read_side sp hs hf hp
  have crossed := crossed_attached sp hs hf hp superframe sent
  refine ⟨fun hrep => ?_, fun hskip => ?_, fun hle hge => ?_⟩
  · obtain ⟨hst, hc, htx, hslip⟩ := crossed .rep (decision_rep _ (by omega))
    rw [hst, hc, htx, hslip]
    refine ⟨repFill, repPos, Bool.or_true _, ?_, nofun⟩
    cases (sp.crossMetered superframe).2 <;> rfl
  · obtain ⟨hst, hc, htx, hslip⟩ := crossed .skip (decision_skip _ (by omega) (by omega))
    rw [hst, hc, htx, hslip]
    refine ⟨skipFill, skipPos, Bool.or_true _, ?_, nofun⟩
    cases (sp.crossMetered superframe).2 <;> rfl
  · obtain ⟨hst, hc, htx, -⟩ := crossed .none (decision_none _ (by omega) (by omega))
    rw [hst, hc, htx]
    refine ⟨nextFill, nextPos, Bool.or_false _, ?_⟩
    cases (sp.crossMetered superframe).2 <;> rfl

/-- What the boundary leaves of a span whose ATTACHED store does not run empty: the ring and the write side, and within an
office superframe PHASE HITS (R34, R35, R51). -/
theorem crossed_stays (superframe : Bool) (sent : Option (Vector Byte 42)) :
    let st' := (sp.crossed superframe sent).store
    st'.state = .attached ∧ st'.out = [] ∧ st'.ring = sp.store.ring ∧ st'.writePos = sp.store.writePos ∧
      st'.lastFill = st'.fill ∧ st'.lastFault = sp.store.lastFault ∧
      (superframe = false → (sp.crossed superframe sent).counts.phaseHits = sp.counts.phaseHits) := by
  obtain ⟨hst, hc, -, -⟩ := crossed_attached sp hs hf hp superframe sent _ rfl
  obtain ⟨k1, k2, k3, k4, k5, k6⟩ := slip_of_enough sp hs hf hp sp.store.decides.decision
  rw [hst, hc]
  refine ⟨k1, k2, k3, k4, k5, k6, fun hsf => ?_⟩
  subst hsf
  rw [crossMetered_within]
  cases sp.store.decides.decision <;> rfl

end

/-! ### Centring and recentring (R32, R40) -/

/-- A report of a centring or a recentring is no phase hit, and leaves no baseline but that of its own sample (R50, R51). -/
theorem report_centred (m : Meter) (examined : Bool) (r : Report) (hc : r.centred = true) (hs : r.slip = .none) :
    (m.report examined r).2 = false ∧ (examined = false → (m.report examined r).1.baseline = none) := by
  obtain ⟨fill, slip, centred⟩ := r
  dsimp only at hc hs
  subst hc hs
  have cleared : (m.clearBaseline.countSlip .none) = m.clearBaseline := rfl
  cases examined with
  | false => exact ⟨rfl, fun _ => rfl⟩
  | true => cases fill <;> exact ⟨rfl, nofun⟩

/-- A store out of ATTACHED has no reads to complete. -/
theorem decides_of_not_attached (st : Store) (h : st.state ≠ .attached) :
    st.decides = { st with low := st.lowStored, high := st.highStored } := by
  rw [Store.decides, Store.readTo, reads_of_not_attached st _ h]

/-- The boundary of a CENTRING store that waits, or of a FAULTED one that goes to CENTRING. -/
theorem boundary_waits (st : Store) (hs : st.state = .centring ∨ st.state = .faulted) (hf : st.fill < 672) :
    st.boundary.1 = { st.beginFrame with state := .centring } ∧ st.boundary.2.slip = .none ∧ st.boundary.2.fill = none := by
  unfold Store.boundary
  rcases hs with hs | hs <;> rw [hs] <;> dsimp only <;> rw [if_pos hf]
  · refine ⟨?_, rfl, rfl⟩
    rw [← hs]
    rfl
  · exact ⟨rfl, rfl, rfl⟩

/-- The boundary of a store that is placed by its centring or recentring. -/
theorem boundary_places (st : Store) (hs : st.state = .centring ∨ st.state = .faulted) (hf : 672 ≤ st.fill) :
    st.boundary = (st.beginFrame.place, ⟨some st.beginFrame.place.fill, .none, true⟩) := by
  unfold Store.boundary
  rcases hs with hs | hs <;> rw [hs] <;> dsimp only <;> rw [if_neg (Nat.not_lt.mpr hf)]

/-- The slot start that a centring takes lies 672 to 1007 places behind the write position (R32). -/
theorem place_spec (st : Store) (hw : st.writePos < 1344) :
    672 ≤ st.place.fill ∧ st.place.fill ≤ 1007 ∧ st.place.readPos % 336 = 0 ∧ st.place.readPos < 1344 ∧
      (st.place.readPos + st.place.fill) % 1344 = st.writePos ∧ st.place.lastFill = st.place.fill := by
  refine ⟨?_, ?_, ?_, ringBefore_lt _ _, ?_, rfl⟩ <;> simp only [Store.place, Store.centreDistance, ringBefore] <;> omega

section

variable (sp : Span) (hs : sp.store.state = .centring ∨ sp.store.state = .faulted)
include hs

/-- A centring or a recentring is no slip, and raises no count (R32, R40). -/
theorem crossed_without_slip (superframe : Bool) (sent : Option (Vector Byte 42)) :
    (sp.crossed superframe sent).counts = sp.counts ∧
      (sp.crossed superframe sent).tx.currentSlip = (if superframe then false else sp.tx.currentSlip) := by
  have hna : sp.store.state ≠ .attached := by rcases hs with h | h <;> simp [h]
  have e := decides_of_not_attached sp.store hna
  have hs' : sp.store.decides.state = .centring ∨ sp.store.decides.state = .faulted := by rw [e]; exact hs
  have quiet : sp.store.decides.boundary.2.slip = .none ∧ (sp.crossMetered superframe).2 = false := by
    by_cases hf : sp.store.decides.fill < 672
    · obtain ⟨-, hslip, hfill⟩ := boundary_waits _ hs' hf
      exact ⟨hslip, by rw [Span.crossMetered, report_without_fill _ _ _ hfill]⟩
    · have placed := boundary_places _ hs' (Nat.not_lt.mp hf)
      rw [Span.crossMetered, placed]
      exact ⟨rfl, (report_centred _ _ _ rfl rfl).1⟩
  obtain ⟨hslip, hhit⟩ := quiet
  refine ⟨?_, ?_⟩
  · rw [crossed_counts, hslip, hhit, readTo_of_not_attached sp 336 hna]
    rfl
  · rw [crossed_tx, hslip]
    simp

/-- With fewer than 672 bits the store is in CENTRING after the boundary (R32, R40). -/
theorem crossed_waits (superframe : Bool) (sent : Option (Vector Byte 42)) (hf : sp.store.fill < 672) :
    (sp.crossed superframe sent).store =
      { sp.store with state := .centring, out := [], low := sp.store.lowStored, high := sp.store.highStored } := by
  have hna : sp.store.state ≠ .attached := by rcases hs with h | h <;> simp [h]
  have e := decides_of_not_attached sp.store hna
  obtain ⟨h1, -⟩ := boundary_waits sp.store.decides (by rw [e]; exact hs) (by rw [e]; exact hf)
  rw [crossed_store, h1, e]
  rfl

/-- With 672 bits or more it is placed (R32, R40); within an office superframe its meter is left without a baseline (R50). -/
theorem crossed_placed (superframe : Bool) (sent : Option (Vector Byte 42)) (hf : 672 ≤ sp.store.fill) :
    (sp.crossed superframe sent).store =
        Store.place { sp.store with out := [], low := sp.store.lowStored, high := sp.store.highStored } ∧
      (superframe = false → (sp.crossed superframe sent).meter.baseline = none) := by
  have hna : sp.store.state ≠ .attached := by rcases hs with h | h <;> simp [h]
  have e := decides_of_not_attached sp.store hna
  have placed := boundary_places sp.store.decides (by rw [e]; exact hs) (by rw [e]; exact hf)
  refine ⟨?_, fun hsf => ?_⟩
  · rw [crossed_store, placed, e]
    rfl
  · subst hsf
    rw [crossed_meter, Span.crossMetered, placed]
    exact (report_centred _ _ _ rfl rfl).2 rfl

end

/-! ### The obligation -/

/-- The slip indication that a boundary hands on to the next frame (R19). -/
theorem indication_before (s : State) (b : Bool) :
    (if s.superframeNext then false else b) = (b && decide ((s.frameNumber.toNat + 1) % 16 ≠ 0)) := by
  have h := superframeNext_iff s
  by_cases k : s.superframeNext = true
  · simp [k, h.mp k]
  · simp [k, mt h.mpr k]

theorem superframeNext_eq_false {s : State} (h : (s.frameNumber.toNat + 1) % 16 ≠ 0) : s.superframeNext = false := by
  simpa using mt (superframeNext_iff s).mp h

/-- A span after a boundary that takes no order, but for its transmitter's overhead octet. -/
theorem boundary_crosses (s : State) (egress : Vector Byte 640) (order : List Handling) (apart : Bool) (n : Fin 16)
    (h : s.takesNoOrder) :
    let sp := (s.boundary egress order apart).span n
    let sp' := (s.span n).crossed s.superframeNext (s.sentFrame n)
    sp.store = sp'.store ∧ sp.counts = sp'.counts ∧ sp.meter = sp'.meter ∧ sp.tx.currentSlip = sp'.tx.currentSlip ∧
      sp.rx = (s.span n).rx := by
  obtain ⟨-, -, -, spans⟩ := boundary_without_order s egress order apart h
  obtain ⟨overhead, hsp⟩ := spans n
  rw [hsp]
  exact ⟨rfl, rfl, rfl, rfl, crossed_rx _ _ _⟩

/-- Settles O58, by the state of the store and its fill. -/
theorem slipAndCentring : Obligations.SlipAndCentring := by
  refine ⟨fun s egress order apart n hr ho hs hf hp ht => ?_, fun s egress order apart n hr ho hs hw => ?_⟩
  · obtain ⟨hstore, hcounts, -, htx, hrx⟩ := boundary_crosses s egress order apart n ho
    obtain ⟨k1, k2, k3, k4, k5, k6, k7⟩ := crossed_stays (s.span n) hs hf hp s.superframeNext (s.sentFrame n)
    obtain ⟨rep, skip, goesOn⟩ := crossed_slips (s.span n) hs hf hp s.superframeNext (s.sentFrame n) ht
    have triggers := boundary_triggers s egress order apart n
    refine ⟨s.boundary egress order apart, whenRunning_of_runs s _ hr, ?_⟩
    rw [indication_before] at goesOn
    rw [hstore, hcounts, htx, hrx]
    refine ⟨k1, k2, k3, k4, k5, k6, rfl, fun hne => k7 (superframeNext_eq_false hne), fun h => ?_, fun h => ?_, goesOn,
      fun hd u h1 h2 => triggers u ho ?_ ⟨h1, h2⟩⟩
    · obtain ⟨c1, c2, c3, c4, -⟩ := rep h
      exact ⟨c1, c2, c3, c4⟩
    · obtain ⟨c1, c2, c3, c4, -⟩ := skip h
      exact ⟨c1, c2, c3, c4⟩
    · rcases hd with h | h
      · obtain ⟨-, -, -, -, slips⟩ := rep h
        exact slips
      · obtain ⟨-, -, -, -, slips⟩ := skip h
        exact slips
  · obtain ⟨hstore, hcounts, hmeter, htx, -⟩ := boundary_crosses s egress order apart n ho
    obtain ⟨hc, hslip⟩ := crossed_without_slip (s.span n) hs s.superframeNext (s.sentFrame n)
    have waits := crossed_waits (s.span n) hs s.superframeNext (s.sentFrame n)
    have placed := crossed_placed (s.span n) hs s.superframeNext (s.sentFrame n)
    refine ⟨s.boundary egress order apart, whenRunning_of_runs s _ hr, ?_⟩
    rw [indication_before] at hslip
    rw [hstore, hcounts, hmeter, htx, hc, hslip]
    by_cases hf : (s.span n).store.fill < 672
    · rw [waits hf]
      exact ⟨rfl, rfl, rfl, rfl, rfl, fun k => absurd k (Nat.not_le.mpr hf), fun _ => ⟨rfl, rfl, rfl⟩⟩
    · obtain ⟨hplaced, hbase⟩ := placed (Nat.not_lt.mp hf)
      rw [hplaced]
      obtain ⟨p1, p2, p3, p4, p5, p6⟩ := place_spec
        { (s.span n).store with out := [], low := (s.span n).store.lowStored, high := (s.span n).store.highStored } hw
      exact ⟨rfl, rfl, rfl, rfl, rfl,
        fun _ => ⟨rfl, p1, p2, p3, p4, p5, p6, fun hne => hbase (superframeNext_eq_false hne)⟩, fun k => absurd k hf⟩

end Sys2Proof.Machine
end

