-- ==== Sys2Proof/Proofs/RetimedHold.lean ====
section
/-! No order and no handling of a boundary changes the holds, so that the retimed hold stands as the end of the frame took it;
and the byte chosen for a highway slot and a transmit channel (O59). -/

namespace Sys2Proof.Machine

/-! ### Orders leave the holds alone (R90, R91) -/

theorem keepsHolds_answer {s t : State} (h : s.keepsHolds t) (code tag : Byte) (o : OrderOutcome) (r : List Byte) :
    s.keepsHolds (t.answer code tag o r) := keepsHolds_trans h (keepsHolds_of_highway rfl)

theorem takeSetReference_holds (tag a b c d e : Byte) (s : State) : s.keepsHolds (takeSetReference tag a b c d e s) := by
  unfold takeSetReference
  split
  · split
    · exact ⟨rfl, rfl, rfl⟩
    · split <;> exact ⟨rfl, rfl, rfl⟩
  · exact ⟨rfl, rfl, rfl⟩

theorem takeSelectReference_holds (tag a : Byte) (s : State) : s.keepsHolds (takeSelectReference tag a s) := by
  unfold takeSelectReference
  split
  · exact ⟨rfl, rfl, rfl⟩
  next e _ =>
    have h := keepsHolds_of_highway (besideSpans_of_timingActs (selectionRequest_acts s e)).highway
    split
    case h_1 k => rw [k] at h; exact keepsHolds_answer h _ _ _ _
    case h_2 k => rw [k] at h; exact keepsHolds_answer h _ _ _ _

theorem takeWriteIngressEntry_holds (tag a b c d e : Byte) (s : State) :
    s.keepsHolds (takeWriteIngressEntry tag a b c d e s) := by
  unfold takeWriteIngressEntry
  split
  · split_ifs <;> exact ⟨rfl, rfl, rfl⟩
  · exact ⟨rfl, rfl, rfl⟩

theorem takeWriteEgressEntry_holds (tag a b c d e : Byte) (s : State) :
    s.keepsHolds (takeWriteEgressEntry tag a b c d e s) := by
  unfold takeWriteEgressEntry
  split
  · split_ifs <;> exact ⟨rfl, rfl, rfl⟩
  · exact ⟨rfl, rfl, rfl⟩

theorem takeReadIngressEntry_holds (tag a b c : Byte) (s : State) : s.keepsHolds (takeReadIngressEntry tag a b c s) := by
  unfold takeReadIngressEntry
  split
  · split_ifs <;> exact ⟨rfl, rfl, rfl⟩
  · exact ⟨rfl, rfl, rfl⟩

theorem takeCopyMaps_holds (tag a : Byte) (s : State) : s.keepsHolds (takeCopyMaps tag a s) := by
  unfold takeCopyMaps
  split
  · exact ⟨rfl, rfl, rfl⟩
  · split_ifs <;> exact ⟨rfl, rfl, rfl⟩

theorem takeSetTimer_holds (tag a b : Byte) (p : Word) (c d : Byte) (s : State) :
    s.keepsHolds (takeSetTimer tag a b p c d s) := by
  unfold takeSetTimer
  split
  · split_ifs <;> exact ⟨rfl, rfl, rfl⟩
  · exact ⟨rfl, rfl, rfl⟩

theorem takeSetUnit_holds (tag a b c d e f g h : Byte) (s : State) : s.keepsHolds (takeSetUnit tag a b c d e f g h s) := by
  unfold takeSetUnit
  split
  · split_ifs <;> exact ⟨rfl, rfl, rfl⟩
  · exact ⟨rfl, rfl, rfl⟩

theorem takeSetDrift_holds (sampled : Bool) (tag a k : Byte) (l : Word) (s : State) :
    s.keepsHolds (takeSetDrift sampled tag a k l s) := by
  unfold takeSetDrift
  split
  · exact ⟨rfl, rfl, rfl⟩
  next n _ =>
    refine keepsHolds_answer ?_ _ _ _ _
    split
    · exact ((modSpan_becomes s n _).modSpan Span.commitDrift).publish.keepsHolds
    · exact (modSpan_becomes s n _).keepsHolds

theorem takeReadCounts_holds (tag a b c : Byte) (s : State) : s.keepsHolds (takeReadCounts tag a b c s) := by
  unfold takeReadCounts
  split
  · exact ⟨rfl, rfl, rfl⟩
  next cl _ =>
    split
    · cases cl <;> exact ⟨rfl, rfl, rfl⟩
    · split
      · exact ⟨rfl, rfl, rfl⟩
      · dsimp only
        split_ifs <;> exact ⟨rfl, rfl, rfl⟩

/-- Every order, taken by its owner's rule, leaves the holds and the frame sent. -/
theorem takeOrder_holds (sampled : Fin 16 → Bool) (s : State) (i : Instr) : s.keepsHolds (s.takeOrder sampled i) := by
  cases i with
  | setSpan =>
    dsimp only [State.takeOrder]
    unfold takeSetSpan
    split
    · exact keepsHolds_answer ((becomes_refl s _).modSpan _).publish.keepsHolds _ _ _ _
    · exact ⟨rfl, rfl, rfl⟩
  | spanRestart =>
    dsimp only [State.takeOrder]
    unfold takeSpanRestart
    split
    · exact ⟨rfl, rfl, rfl⟩
    · exact keepsHolds_answer ((becomes_refl s _).modSpan _).publish.keepsHolds _ _ _ _
  | setDrift => exact takeSetDrift_holds _ _ _ _ _ s
  | setReference => exact takeSetReference_holds _ _ _ _ _ _ s
  | selectReference => exact takeSelectReference_holds _ _ s
  | writeIngressEntry => exact takeWriteIngressEntry_holds _ _ _ _ _ _ s
  | writeEgressEntry => exact takeWriteEgressEntry_holds _ _ _ _ _ _ s
  | readIngressEntry => exact takeReadIngressEntry_holds _ _ _ _ s
  | copyMaps => exact takeCopyMaps_holds _ _ s
  | setTimer => exact takeSetTimer_holds _ _ _ _ _ _ s
  | setUnit => exact takeSetUnit_holds _ _ _ _ _ _ _ _ _ s
  | readCounts => exact takeReadCounts_holds _ _ _ _ s
  | setFrameNumber => dsimp only [State.takeOrder]; unfold takeSetFrameNumber; split_ifs <;> exact ⟨rfl, rfl, rfl⟩
  | readSpan => dsimp only [State.takeOrder]; unfold takeReadSpan; split <;> exact ⟨rfl, rfl, rfl⟩
  | setThresholds => dsimp only [State.takeOrder]; unfold takeSetThresholds; split <;> exact ⟨rfl, rfl, rfl⟩
  | readStore => dsimp only [State.takeOrder]; unfold takeReadStore; split <;> exact ⟨rfl, rfl, rfl⟩
  | readDrift => dsimp only [State.takeOrder]; unfold takeReadDrift; split <;> exact ⟨rfl, rfl, rfl⟩
  | setTimingMode => dsimp only [State.takeOrder]; unfold takeSetTimingMode; split <;> exact ⟨rfl, rfl, rfl⟩
  | readReference => dsimp only [State.takeOrder]; unfold takeReadReference; split <;> exact ⟨rfl, rfl, rfl⟩
  | setTimingOutput => dsimp only [State.takeOrder]; unfold takeSetTimingOutput; split <;> exact ⟨rfl, rfl, rfl⟩
  | readEgressEntry => dsimp only [State.takeOrder]; unfold takeReadEgressEntry; split <;> exact ⟨rfl, rfl, rfl⟩
  | swapMaps => dsimp only [State.takeOrder]; unfold takeSwapMaps; split <;> exact ⟨rfl, rfl, rfl⟩
  | loadMatch => dsimp only [State.takeOrder]; unfold takeLoadMatch; split <;> exact ⟨rfl, rfl, rfl⟩
  | armTimer => dsimp only [State.takeOrder]; unfold takeArmTimer takeArming; split <;> exact ⟨rfl, rfl, rfl⟩
  | disarmTimer => dsimp only [State.takeOrder]; unfold takeDisarmTimer takeArming; split <;> exact ⟨rfl, rfl, rfl⟩
  | readTimer => dsimp only [State.takeOrder]; unfold takeReadTimer; split <;> exact ⟨rfl, rfl, rfl⟩
  | startUnit => dsimp only [State.takeOrder]; unfold takeStartUnit; split <;> exact ⟨rfl, rfl, rfl⟩
  | stopUnit => dsimp only [State.takeOrder]; unfold takeStopUnit; split <;> exact ⟨rfl, rfl, rfl⟩
  | triggerUnit => dsimp only [State.takeOrder]; unfold takeTriggerUnit; split <;> exact ⟨rfl, rfl, rfl⟩
  | readUnit => dsimp only [State.takeOrder]; unfold takeReadUnit; split <;> exact ⟨rfl, rfl, rfl⟩
  | readBuffer => dsimp only [State.takeOrder]; unfold takeReadBuffer; split <;> exact ⟨rfl, rfl, rfl⟩
  | writeBuffer => dsimp only [State.takeOrder]; unfold takeWriteBuffer; split <;> exact ⟨rfl, rfl, rfl⟩
  | readAlarms => dsimp only [State.takeOrder]; unfold takeReadAlarms; split <;> exact ⟨rfl, rfl, rfl⟩
  | clearLatched => dsimp only [State.takeOrder]; unfold takeClearLatched; split <;> exact ⟨rfl, rfl, rfl⟩
  | _ => exact ⟨rfl, rfl, rfl⟩

/-! ### The boundary (R90) -/

theorem orderBoundary_holds (s : State) (sampled : Fin 16 → Bool) : s.keepsHolds (s.orderBoundary sampled) := by
  have formed : s.keepsHolds s.formSend := ⟨rfl, rfl, rfl⟩
  unfold State.orderBoundary State.examine
  split
  · unfold State.judgeCell
    split_ifs
    · exact ⟨rfl, rfl, rfl⟩
    · exact ⟨rfl, rfl, rfl⟩
    · exact keepsHolds_trans (keepsHolds_trans formed (takeOrder_holds sampled s.formSend _)) ⟨rfl, rfl, rfl⟩
    · exact ⟨rfl, rfl, rfl⟩
  · exact ⟨rfl, rfl, rfl⟩

theorem handleAll_holds (superframe apart : Bool) (todo done : List Handling) (s : State) :
    s.keepsHolds (s.handleAll superframe apart done todo) := by
  induction todo generalizing done s with
  | nil => exact keepsHolds_refl s
  | cons h rest ih =>
    refine keepsHolds_trans ?_ (ih _ _)
    by_cases hh : h = .orderChannel
    · subst hh
      cases superframe with
      | false => exact keepsHolds_refl s
      | true => exact orderBoundary_holds s _
    · exact (handle_holds s superframe apart done h hh).1

/-- After a boundary the holds and the frame sent are those of the frame it ended (R90, R91). -/
theorem boundary_holds (s : State) (egress : Vector Byte 640) (order : List Handling) (apart : Bool) :
    (s.acquisitionTimeout.endFrame egress).keepsHolds (s.boundary egress order apart) := by
  have opened : (s.acquisitionTimeout.endFrame egress).keepsHolds
      ((s.acquisitionTimeout.endFrame egress).openBoundary s.superframeNext) := ⟨rfl, rfl, rfl⟩
  have handled := handleAll_holds s.superframeNext apart (schedule order) []
    ((s.acquisitionTimeout.endFrame egress).openBoundary s.superframeNext)
  exact keepsHolds_trans opened (keepsHolds_trans handled (keepsHolds_of_highway rfl))

theorem endFrame_retimed (s : State) (received : Vector Byte 640) (n : Fin 16) (c : Fin 40) :
    (s.endFrame received).highway.retimed[n][c] = (s.finishReads.span n).delivered c := by
  have e : (s.endFrame received).highway = ((s.finishReads.gather received[0]).takeHolds received).highway := by
    unfold State.endFrame
    dsimp only
  rw [e]
  simp [State.takeHolds, gather_span]

/-- The retimed hold after a boundary: what each store delivered, its reads completed (R27, R90). -/
theorem boundary_retimed (s : State) (egress : Vector Byte 640) (order : List Handling) (apart : Bool) (n : Fin 16)
    (c : Fin 40) :
    (s.boundary egress order apart).highway.retimed[n][c] = (((s.span n).readTo 336).latch).delivered c := by
  have hsp : s.acquisitionTimeout.span n = s.span n := by rw [State.span, State.span, acquisitionTimeout_spans]
  rw [(boundary_holds s egress order apart).retimed, endFrame_retimed, finishReads_span, hsp]

/-- The bits of its frame that a store has read when the boundary has completed its reads (R27, R31). -/
theorem readTo_out_whole (st : Store) (h : st.state = .attached → 1 ≤ st.fill ∧ st.readPos < 1344) :
    (st.readTo 336).out =
      st.out ++ (List.range (if st.state = .attached then min st.fill (336 - st.out.length) else 0)).map fun j =>
        ringBit st.ring ((st.readPos + j) % 1344) := by
  unfold Store.readTo
  split
  next hs =>
    obtain ⟨h1, hp⟩ := h hs
    rw [reads_out st _ hs h1 hp, Nat.min_self, Nat.min_comm]
  next hs =>
    rw [reads_of_not_attached st _ hs]
    simp

/-! ### The insertion arbiter (R129) -/

/-- The lowest-numbered inserting unit wins. -/
theorem insertion_of_lowest (s : State) (p : Point) (u : Fin 4) (h : s.inserts p u = true)
    (hlow : ∀ v, v < u → s.inserts p v = false) : s.insertion p = some (s.units[u].buffer[s.units[u].pointer]) := by
  have hw : s.winner p = some u := by
    unfold State.winner
    generalize s.inserts p = f at h hlow
    revert f u
    decide
  rw [State.insertion, hw]
  rfl

theorem insertion_of_none (s : State) (p : Point) (h : ∀ u, s.inserts p u = false) : s.insertion p = none := by
  have hw : s.winner p = none := by simp [State.winner, h]
  rw [State.insertion, hw]
  rfl

/-! ### The choice of bytes (R89, R95, R96) -/

theorem ingressByte_of_insertion (s : State) (l : Fin 4) (t : Fin 160) (b : Byte) (h : ¬(l = 0 ∧ t = 0))
    (hi : s.insertion (.ingress l t) = some b) : s.ingressByte l t = b := by
  rw [State.ingressByte, if_neg h, hi]

theorem ingressByte_of_bank (s : State) (l : Fin 4) (t : Fin 160) (h : ¬(l = 0 ∧ t = 0))
    (hi : s.insertion (.ingress l t) = none) :
    s.ingressByte l t = s.ingressGives (s.highway.ingress.inForce (slotIndex l t)) := by
  rw [State.ingressByte, if_neg h, hi]

theorem channelByte_of_insertion (s : State) (n : Fin 16) (c : Fin 40) (b : Byte) (hi : s.insertion (.tx n c) = some b) :
    s.channelByte n c = b := by
  rw [State.channelByte, hi]

theorem channelByte_of_loopback (s : State) (n : Fin 16) (c : Fin 40) (hi : s.insertion (.tx n c) = none)
    (hl : (s.span n).tx.loopbackInForce = .line) : s.channelByte n c = s.highway.retimed[n][c] := by
  rw [State.channelByte, hi, hl]

theorem channelByte_of_bank (s : State) (n : Fin 16) (c : Fin 40) (hi : s.insertion (.tx n c) = none)
    (hl : (s.span n).tx.loopbackInForce = .none) :
    s.channelByte n c = s.egressGives (s.highway.egress.inForce (channelIndex n c)) := by
  rw [State.channelByte, hi, hl]

/-- Settles O59: what the boundary delivers into the retimed hold, then the arbiter, the loopback and the bank in force. -/
theorem bytesChosen : Obligations.BytesChosen := by
  refine ⟨fun s egress order apart n c hr => ?_, fun s => ⟨fun l t h => ⟨fun u hu hlow => ?_, fun hu => ?_⟩,
    fun n c => ⟨fun u hu hlow => ?_, fun hu => ⟨fun hl => ?_, fun hl => ?_⟩⟩⟩⟩
  · refine ⟨s.boundary egress order apart, whenRunning_of_runs s _ hr, fun h => ?_⟩
    rw [← readTo_out_whole _ h, boundary_retimed, Span.delivered, latch_store, readTo_store, latch_tx, readTo_tx]
    refine ⟨fun hwhole k => ?_, fun hshort => if_neg (Nat.not_le.mpr hshort)⟩
    rw [if_pos hwhole, octetAt_getMsbD]
    rfl
  · exact ingressByte_of_insertion s l t _ h (insertion_of_lowest s _ u hu hlow)
  · have bank := ingressByte_of_bank s l t h (insertion_of_none s _ hu)
    exact ⟨fun e => bank.trans (congrArg s.ingressGives e), fun v e => bank.trans (congrArg s.ingressGives e),
      fun n c e => bank.trans (congrArg s.ingressGives e)⟩
  · exact channelByte_of_insertion s n c _ (insertion_of_lowest s _ u hu hlow)
  · exact channelByte_of_loopback s n c (insertion_of_none s _ hu) hl
  · have bank := channelByte_of_bank s n c (insertion_of_none s _ hu) hl
    exact ⟨fun e => bank.trans (congrArg s.egressGives e), fun v e => bank.trans (congrArg s.egressGives e),
      fun l t e => bank.trans (congrArg s.egressGives e)⟩

end Sys2Proof.Machine
end

