-- ==== Sys2Proof/Proofs/StoreOrders.lean ====
section
/-! SET THRESHOLDS (O33), READ STORE, SET DRIFT and READ DRIFT (O34). -/

namespace Sys2Proof.Machine

/-! ### Fields of two bytes -/

/-- The two bytes of a number below 65536 (1.5). -/
theorem bytes16_ofNat (x : Nat) :
    bytes16 (BitVec.ofNat 16 x) = [BitVec.ofNat 8 (x / 256), BitVec.ofNat 8 (x % 256)] := by
  have high : hi16 (BitVec.ofNat 16 x) = BitVec.ofNat 8 (x / 256) := by
    apply BitVec.eq_of_toNat_eq
    simp only [hi16, BitVec.extractLsb'_toNat, BitVec.toNat_ofNat, Nat.shiftRight_eq_div_pow]
    omega
  have low : lo16 (BitVec.ofNat 16 x) = BitVec.ofNat 8 (x % 256) := by
    apply BitVec.eq_of_toNat_eq
    simp only [lo16, BitVec.extractLsb'_toNat, BitVec.toNat_ofNat, Nat.shiftRight_zero]
    omega
  rw [bytes16, high, low]

/-! ### SET THRESHOLDS (R43) -/

/-- A word clamped between two bounds, as a number. -/
theorem clamp_toNat (lo hi x : Word) (h : lo.toNat ≤ hi.toNat) :
    clamp lo.toNat hi.toNat x.toNat =
      (if x.toNat < lo.toNat then lo else if hi.toNat < x.toNat then hi else x).toNat := by
  unfold clamp
  split_ifs <;> omega

theorem toNat_bne (a b : Word) : (a.toNat != b.toNat) = !decide (a = b) := by
  rw [bne, Bool.beq_eq_decide_eq]
  simp [BitVec.toNat_inj]

/-- Both thresholds clamped into their own ranges. -/
theorem takeSetThresholds_accepted (s : State) (tag : Byte) (low high : Word) (n : Fin 16) (l h : Word)
    (hl : clamp 48 336 low.toNat = l.toNat) (hh : clamp 1008 1296 high.toNat = h.toNat) :
    takeSetThresholds tag (BitVec.ofNat 8 n.val) low high s =
      (s.setSpan n { s.span n with
          store := { (s.span n).store with lowStored := l.toNat, highStored := h.toNat } }).replied 0x13 tag
        (if l = low ∧ h = high then .done else .doneClamped)
        #v[BitVec.ofNat 8 n.val, l.extractLsb' 8 8, l.extractLsb' 0 8, h.extractLsb' 8 8, h.extractLsb' 0 8, 0, 0, 0, 0] := by
  have outcome : (if (l.toNat != low.toNat || h.toNat != high.toNat) = true then OrderOutcome.doneClamped else .done) =
      if l = low ∧ h = high then .done else .doneClamped := by
    rw [toNat_bne, toNat_bne]
    by_cases h1 : l = low <;> by_cases h2 : h = high <;> simp [h1, h2]
  unfold takeSetThresholds
  rw [spanOf_ofNat]
  dsimp only
  rw [hl, hh, outcome, BitVec.ofNat_toNat, BitVec.ofNat_toNat]
  rfl

/-- Settles O33: the clamps as words, then the order's own effect. -/
theorem setThresholdsStores : Obligations.SetThresholdsStores := by
  refine fun s tag low high hr => ⟨fun span h => ?_, fun n => ?_⟩
  · refine (whenRunning_of_runs s _ hr).trans (congrArg _ ?_)
    rw [takeSetThresholds, spanOf_none span h]
    rfl
  · refine (whenRunning_of_runs s _ hr).trans (congrArg _ ?_)
    exact takeSetThresholds_accepted s tag low high n _ _ (clamp_toNat 48 336 low (by decide))
      (clamp_toNat 1008 1296 high (by decide))

/-! ### READ STORE (R46) -/

theorem takeReadStore_reply (s : State) (tag : Byte) (n : Fin 16) :
    let st := (s.span n).store
    takeReadStore tag (BitVec.ofNat 8 n.val) s = s.replied 0x14 tag .done
      #v[st.state.code, BitVec.ofNat 8 (st.lastFill / 256), BitVec.ofNat 8 (st.lastFill % 256),
        BitVec.ofNat 8 (st.lowStored / 256), BitVec.ofNat 8 (st.lowStored % 256),
        BitVec.ofNat 8 (st.highStored / 256), BitVec.ofNat 8 (st.highStored % 256), st.lastFault.code, 0] := by
  unfold takeReadStore
  rw [spanOf_ofNat]
  dsimp only
  rw [bytes16_ofNat, bytes16_ofNat, bytes16_ofNat]
  rfl

/-! ### SET DRIFT (R60) -/

/-- A span with drift settings stored. -/
def Span.storesDrift (k limit : Nat) (sp : Span) : Span :=
  { sp with meter := { sp.meter with kStored := k, limitStored := limit } }

/-- A SET DRIFT given as a command: stored and in force at once, and published. -/
theorem takeSetDrift_accepted (s : State) (tag k : Byte) (limit : Word) (n : Fin 16) :
    takeSetDrift true tag (BitVec.ofNat 8 n.val) k limit s =
      (((s.modSpan n (Span.storesDrift (min k.toNat 7) limit.toNat)).modSpan n Span.commitDrift).publish n).answer 0x15 tag
        (if min k.toNat 7 = k.toNat then .done else .doneClamped) ([BitVec.ofNat 8 n.val, BitVec.ofNat 8 (min k.toNat 7)] ++ bytes16 limit) := by
  unfold takeSetDrift
  rw [spanOf_ofNat]
  simp only [if_true, bne_iff_ne, ne_eq, ite_not]
  rfl

/-- Settings that come into force at once; a limit of 0 ends DRIFT (R58, R60). -/
theorem commit_stored (m : Meter) (k : Nat) (limit : Word) :
    Meter.commit { m with kStored := k, limitStored := limit.toNat } =
      { m with
        k := k, kStored := k, limit := limit.toNat, limitStored := limit.toNat, drift := m.drift && limit != 0 } := by
  have hzero : (limit.toNat != 0) = (limit != 0) := by
    rw [show (0 : Nat) = (0 : Word).toNat from rfl, toNat_bne, bne, Bool.beq_eq_decide_eq]
  simp only [Meter.commit, hzero]

/-! ### READ DRIFT (R61) -/

/-- The flags byte with each flag's own value. -/
theorem meter_flags_eq (m : Meter) :
    m.flags = (if m.baseline.isSome then 0x80 else 0) ||| (if m.drift then 0x40 else 0) |||
      (if m.lastDValid then 0x20 else 0) ||| (if m.lastHit then 0x10 else 0) ||| BitVec.ofNat 8 m.k := rfl

/-- Settles O34, order by order. -/
theorem storeAndDriftOrders : Obligations.StoreAndDriftOrders := by
  refine ⟨fun s tag hr => ⟨fun span h => ?_, fun n _ _ _ => ?_⟩, fun s tag k limit hr => ⟨fun span h => ?_, fun n => ?_⟩,
    fun s tag hr => ⟨fun span h => ?_, fun n _ => ?_⟩⟩
  · refine (whenRunning_of_runs s _ hr).trans (congrArg _ ?_)
    rw [takeReadStore, spanOf_none span h]
    rfl
  · refine ⟨(s.span n).store.state.code, (s.span n).store.lastFault.code, ?_, ?_, ?_, ?_, ?_, ?_, ?_,
      (whenRunning_of_runs s _ hr).trans (congrArg _ (takeReadStore_reply s tag n))⟩
    all_goals
      intro h
      rw [h]
      rfl
  · refine (whenRunning_of_runs s _ hr).trans (congrArg _ ?_)
    rw [takeSetDrift, spanOf_none span h]
    rfl
  · have stored := modSpan_becomes s n (Span.storesDrift (min k.toNat 7) limit.toNat)
    obtain ⟨hn, hk, hch⟩ := becomes_answer (stored.modSpan Span.commitDrift).publish 0x15 tag
      (if min k.toNat 7 = k.toNat then .done else .doneClamped)
      ([BitVec.ofNat 8 n.val, BitVec.ofNat 8 (min k.toNat 7)] ++ bytes16 limit)
    rw [← takeSetDrift_accepted] at hn hk hch
    refine ⟨_, whenRunning_of_runs s _ hr, hk, hch, ?_⟩
    rw [hn]
    exact ⟨commit_stored _ _ _, rfl, rfl, rfl, rfl, rfl, rfl, rfl⟩
  · refine (whenRunning_of_runs s _ hr).trans (congrArg _ ?_)
    rw [takeReadDrift, spanOf_none span h]
    rfl
  · refine (whenRunning_of_runs s _ hr).trans (congrArg _ ?_)
    rw [takeReadDrift, spanOf_ofNat, ← meter_flags_eq]
    rfl

end Sys2Proof.Machine
end

