-- ==== Sys2Proof/Proofs/DriftRules.lean ====
section
/-! The drift meter's own arithmetic: the update of the average (R54, R55), the offset (R56, O36), and the sample (R51 to R53,
R57). -/

namespace Sys2Proof.Machine

/-! ### The update of the average (R54, R55) -/

/-- The shifted difference is rounded toward minus infinity. -/
theorem driftUpdate_eq_fdiv (e d : Int) (k : Nat) : driftUpdate e d k = e + Int.fdiv (256 * d - e) (2 ^ k) := by
  rw [driftUpdate, Int.fdiv_eq_ediv_of_nonneg _ (Int.pow_nonneg (by decide))]

/-- Below its target the average does not fall, and does not pass the target. -/
theorem driftUpdate_of_le (e d : Int) (k : Nat) (h : e ≤ 256 * d) :
    e ≤ driftUpdate e d k ∧ driftUpdate e d k ≤ 256 * d := by
  have hdiff : 0 ≤ 256 * d - e := Int.sub_nonneg_of_le h
  have hlow : 0 ≤ (256 * d - e) / 2 ^ k := Int.ediv_nonneg hdiff (Int.pow_nonneg (by decide))
  have hhigh : (256 * d - e) / 2 ^ k ≤ 256 * d - e := Int.ediv_le_self _ hdiff
  unfold driftUpdate
  constructor <;> linarith

/-- Above its target the average falls by at least one unit, since the shift rounds down. -/
theorem driftUpdate_lt (e d : Int) (k : Nat) (h : 256 * d < e) : driftUpdate e d k < e := by
  have hneg : (256 * d - e) / 2 ^ k < 0 := Int.ediv_neg_of_neg_of_pos (Int.sub_neg_of_lt h) (Int.pow_pos (by decide))
  unfold driftUpdate
  linarith

/-- Above its target the average does not rise, and does not pass the target. -/
theorem driftUpdate_of_ge (e d : Int) (k : Nat) (h : 256 * d ≤ e) :
    256 * d ≤ driftUpdate e d k ∧ driftUpdate e d k ≤ e := by
  have hdiff : 256 * d - e ≤ 0 := Int.sub_nonpos_of_le h
  have hpow : (1 : Int) ≤ 2 ^ k := Int.pow_pos (by decide)
  have hlow : 256 * d - e ≤ (256 * d - e) / 2 ^ k := by
    rw [Int.le_ediv_iff_mul_le (by linarith)]
    nlinarith
  have hhigh : (256 * d - e) / 2 ^ k ≤ 0 := Int.ediv_le_of_le_mul (by linarith) (by linarith)
  unfold driftUpdate
  constructor <;> linarith

/-- A sample that is no phase hit keeps the average within the targets of such samples (R55). -/
theorem driftUpdate_natAbs_le (e d : Int) (k : Nat) (he : e.natAbs ≤ 32512) (hd : d.natAbs ≤ 127) :
    (driftUpdate e d k).natAbs ≤ 32512 := by
  rcases le_total e (256 * d) with h | h
  · obtain ⟨h1, h2⟩ := driftUpdate_of_le e d k h
    omega
  · obtain ⟨h1, h2⟩ := driftUpdate_of_ge e d k h
    omega

/-! ### The offset (R56) -/

theorem driftOffset_neg (e : Int) : driftOffset (-e) = -driftOffset e := by
  rw [driftOffset, driftOffset, Int.sign_neg, Int.natAbs_neg, Int.neg_mul]

/-- The magnitude of an offset is its rounded quotient, or less where the average is 0. -/
theorem driftOffset_natAbs_le (e : Int) : (driftOffset e).natAbs ≤ (e.natAbs * 10000000 + 688128) / 1376256 := by
  have hsign : e.sign.natAbs ≤ 1 := by
    rw [Int.natAbs_sign]
    split <;> omega
  rw [driftOffset, Int.natAbs_mul, Int.natAbs_natCast]
  exact (Nat.mul_le_mul_right _ hsign).trans_eq (Nat.one_mul _)

/-- Settles O36. -/
theorem driftOffsetRule : Obligations.DriftOffsetRule := by
  refine fun e => ⟨rfl, by decide, driftOffset_neg e, fun he => (driftOffset_natAbs_le e).trans ?_, by decide⟩
  omega

/-! ### A sample (R51 to R53, R57) -/

/-- The drift sample D of a fill, the fill at the last sample being `prev` (R51, R52). -/
def Meter.driftOf (m : Meter) (fill prev : Nat) : Int := fill + 336 * m.net - prev

/-- The drift average after a drift sample `d`, which a phase hit leaves alone (R53, R54). -/
def Meter.averageAfter (m : Meter) (d : Int) : Int :=
  if decide (127 < d.natAbs) then m.average else driftUpdate m.average d m.k

theorem averageAfter_eq (m : Meter) (d : Int) :
    m.averageAfter d = if -127 ≤ d ∧ d ≤ 127 then driftUpdate m.average d m.k else m.average := by
  by_cases hit : 127 < d.natAbs
  · rw [Meter.averageAfter, if_pos (decide_eq_true hit), if_neg (by omega)]
  · rw [Meter.averageAfter, if_neg (by simpa using hit), if_pos (by omega)]

theorem sample_of_no_baseline (m : Meter) (fill : Nat) (h : m.baseline = none) :
    m.sample fill = ({ m with baseline := some fill, net := 0 }, false) := by
  rw [Meter.sample, h]

theorem sample_of_baseline (m : Meter) (fill prev : Nat) (h : m.baseline = some prev) :
    m.sample fill =
      ({ m with
          baseline := some fill, net := 0, average := m.averageAfter (m.driftOf fill prev)
          lastD := m.driftOf fill prev, lastDValid := true, lastHit := decide (127 < (m.driftOf fill prev).natAbs)
          drift := driftEvaluate m.drift m.limit (driftOffset (m.averageAfter (m.driftOf fill prev))) },
        decide (127 < (m.driftOf fill prev).natAbs)) := by
  rw [Meter.sample, h]
  rfl

theorem countSlip_of_no_baseline (m : Meter) (slip : Slip) (h : m.baseline = none) : m.countSlip slip = m := by
  simp [Meter.countSlip, h]

/-- With a baseline a slip moves N by one (R49). -/
theorem countSlip_of_baseline (m : Meter) (h : m.baseline.isSome = true) :
    m.countSlip .skip = { m with net := m.net + 1 } ∧ m.countSlip .rep = { m with net := m.net - 1 } :=
  ⟨if_pos h, if_pos h⟩

/-- A counted slip changes N alone (R49). -/
theorem countSlip_eq (m : Meter) (slip : Slip) : m.countSlip slip = { m with net := (m.countSlip slip).net } := by
  unfold Meter.countSlip
  split
  · cases slip <;> rfl
  · rfl

theorem countSlip_none (m : Meter) : m.countSlip .none = m := by
  unfold Meter.countSlip
  split <;> rfl

end Sys2Proof.Machine
end

