-- ==== Sys2Proof/Proofs/MeterLaw.lean ====
section
/-! Every step keeps the meter law (O8). Its bounds, and the meter's idling outside ATTACHED, every move of a span keeps; the
stored settings are those in force because every event leaves them, and a boundary that takes a SET DRIFT commits them. -/

namespace Sys2Proof.Machine

/-! ### The parts of the meter law -/

/-- The filter shifts and the drift average in range (R55, R60). -/
def Meter.bounded (m : Meter) : Prop := m.k ≤ 7 ∧ m.kStored ≤ 7 ∧ m.average.natAbs ≤ 32512

/-- No baseline and no DRIFT (R50, R58). -/
def Meter.idle (m : Meter) : Prop := m.baseline = none ∧ m.drift = false

/-- The part of the meter law that every move keeps: the bounds, and the idling outside ATTACHED. -/
def Span.meterKept (sp : Span) : Prop := sp.meter.bounded ∧ (sp.store.state ≠ .attached → sp.meter.idle)

/-- The stored filter shift and drift limit are those in force (R60). -/
def Meter.settled (m : Meter) : Prop := m.kStored = m.k ∧ m.limitStored = m.limit

theorem meterLaw_iff (sp : Span) : sp.meterLaw ↔ sp.meterKept ∧ sp.meter.settled := by
  unfold Span.meterLaw Span.meterKept Meter.bounded Meter.idle Meter.settled
  tauto

/-! ### The meter's operations -/

theorem storeLeft_bounded {m : Meter} (h : m.bounded) : m.storeLeft.bounded := h

theorem storeLeft_idle (m : Meter) : m.storeLeft.idle := ⟨rfl, rfl⟩

theorem sample_bounded {m : Meter} (fill : Nat) (h : m.bounded) : (m.sample fill).1.bounded := by
  obtain ⟨hk, hks, he⟩ := id h
  cases hb : m.baseline with
  | none => rw [sample_of_no_baseline m fill hb]; exact h
  | some prev =>
    rw [sample_of_baseline m fill prev hb]
    refine ⟨hk, hks, ?_⟩
    dsimp only
    rw [averageAfter_eq]
    split
    · exact driftUpdate_natAbs_le _ _ _ he (by omega)
    · exact he

theorem countSlip_bounded {m : Meter} (slip : Slip) (h : m.bounded) : (m.countSlip slip).bounded := by
  rw [countSlip_eq]
  exact h

theorem report_bounded {m : Meter} (examined : Bool) (r : Report) (h : m.bounded) : (m.report examined r).1.bounded := by
  have cleared : (if r.centred then m.clearBaseline else m).bounded := by
    split <;> exact h
  rw [report_cases]
  dsimp only
  split
  · exact sample_bounded _ (countSlip_bounded _ cleared)
  · exact countSlip_bounded _ cleared

/-- A report with attached no leaves an idle meter idle (R49 to R51). -/
theorem report_idle {m : Meter} (examined : Bool) (r : Report) (hr : r.fill = none) (h : m.idle) :
    (m.report examined r).1.idle := by
  have cleared : (if r.centred then m.clearBaseline else m).idle := by
    split
    · exact ⟨rfl, h.2⟩
    · exact h
  rw [report_without_fill m examined r hr, countSlip_of_no_baseline _ _ cleared.1]
  exact cleared

theorem commit_idle {m : Meter} (h : m.idle) : m.commit.idle := ⟨h.1, by simp [Meter.commit, h.2]⟩

/-! ### A span under its moves -/

/-- The law sees the meter, and whether the store is ATTACHED. -/
theorem meterKept_congr {sp sp' : Span} (h : sp.meterKept) (hm : sp'.meter = sp.meter)
    (hs : sp.store.state = .attached → sp'.store.state = .attached) : sp'.meterKept := by
  unfold Span.meterKept
  rw [hm]
  exact ⟨h.1, fun k => h.2 (mt hs k)⟩

/-- A store that leaves service takes the baseline and DRIFT with it (R50, R58). -/
theorem meterKept_of_left {sp sp' : Span} (h : sp.meterKept) (hm : sp'.meter = sp.meter.storeLeft) : sp'.meterKept := by
  unfold Span.meterKept
  rw [hm]
  exact ⟨storeLeft_bounded h.1, fun _ => storeLeft_idle _⟩

/-- An ATTACHED store whose successor is ATTACHED, or FAULTED with the meter told of it (R37, R50, R58). -/
theorem meterKept_withStore {sp : Span} (st : Store) (h : sp.meterKept)
    (hs : sp.store.state = .attached → st.state = .attached ∨ st.state = .faulted) : (sp.withStore st).meterKept := by
  by_cases hf : sp.store.state = .attached ∧ st.state = .faulted
  · rw [withStore_faults sp st hf.1 hf.2]
    exact meterKept_of_left h rfl
  · rw [withStore_of_no_fault sp st (not_and_or.mp hf)]
    exact meterKept_congr h rfl fun k => (hs k).resolve_right fun f => hf ⟨k, f⟩

/-- Reads leave an ATTACHED store ATTACHED or FAULTED (R31, R38). -/
theorem reads_state (st : Store) (k : Nat) (hs : st.state = .attached) :
    (st.reads k).state = .attached ∨ (st.reads k).state = .faulted := by
  by_cases hk : k = 0 ∨ k < st.fill
  · exact .inl (reads_of_enough st k hs hk).1
  · exact .inr (reads_of_dry st k hs (by omega) (by omega)).1

/-- An arriving bit leaves an ATTACHED store ATTACHED or FAULTED (R30, R37). -/
theorem writeBit_state (st : Store) (b : Bool) (hs : st.state = .attached) :
    (st.writeBit b).state = .attached ∨ (st.writeBit b).state = .faulted := by
  by_cases hf : st.fill = 1343
  · rw [writeBit_overruns st b hs hf]
    exact .inr rfl
  · exact .inl (by simp [Store.writeBit, hs, hf, Store.put])

theorem meterKept_readBits {sp : Span} (k : Nat) (h : sp.meterKept) : (sp.readBits k).meterKept := by
  rw [readBits_eq]
  exact meterKept_withStore _ h (reads_state _ k)

theorem meterKept_receiveBit {sp : Span} (b : Bool) (h : sp.meterKept) : (sp.receiveBit b).meterKept :=
  meterKept_congr (meterKept_withStore _ h (writeBit_state _ b)) (receiveBit_meter sp b)
    (by rw [receiveBit_store, withStore_store]; exact id)

theorem meterKept_toAligner {sp : Span} (a : Aligner) (h : sp.meterKept) : (sp.toAligner a).meterKept := by
  cases ha : a.aligned with
  | true => rw [toAligner_of_aligned sp a ha]; exact h
  | false =>
    cases hs : sp.rx.aligner.aligned with
    | true => rw [toAligner_leaving sp a ha hs]; exact meterKept_of_left h rfl
    | false => rw [toAligner_unaligned sp a ha hs]; exact h

theorem meterKept_leaveAt {sp : Span} (r : Nat) (a : Aligner) (h : sp.meterKept) : (sp.leaveAt r a).meterKept := by
  unfold Span.leaveAt
  split
  · exact meterKept_toAligner a (meterKept_congr (meterKept_readBits _ h) rfl id)
  · exact meterKept_toAligner a h

theorem meterKept_windowEnded {sp : Span} (r ones : Nat) (noisy : Bool) (h : sp.meterKept) :
    (sp.windowEnded r ones noisy).meterKept := by
  have counted : (sp.windowCounted (336 - ones) ones noisy).meterKept := h
  unfold Span.windowEnded
  dsimp only
  split
  · split
    · exact meterKept_toAligner _ counted
    · exact counted
  case h_5 => exact counted
  case h_6 => exact counted
  all_goals
    split
    · exact meterKept_leaveAt r _ counted
    · exact counted

theorem meterKept_enableActs {sp : Span} (r : SpanRecord) (h : sp.meterKept) :
    (Span.enableActs { sp with record := r } sp.record.enable).meterKept := by
  have cleared : (Span.clearWindows { sp with record := r }).meterKept := h
  unfold Span.enableActs
  split
  · exact h
  · split <;> exact meterKept_toAligner _ cleared

/-- SPAN RESTART sets the average to 0 and leaves the meter idle (R62). -/
theorem meterKept_restart {sp : Span} (h : sp.meterKept) : sp.restart.meterKept := by
  obtain ⟨hk, hks, -⟩ := h.1
  unfold Span.meterKept
  rw [restart_meter]
  exact ⟨⟨hk, hks, Nat.zero_le _⟩, fun _ => ⟨rfl, rfl⟩⟩

/-- A DETACHED store that begins to centre is still not ATTACHED (R29). -/
theorem startCentring_attached {st : Store} (h : st.state = .attached) : st.startCentring.state = .attached := by
  unfold Store.startCentring
  rw [h]
  exact h

/-- A boundary keeps an ATTACHED store ATTACHED, and samples no store that is not (R33, R41, R51). -/
theorem meterKept_boundary {sp : Span} (superframe : Bool) (h : sp.meterKept) : (sp.boundary superframe).1.meterKept := by
  obtain ⟨hattached, -⟩ := boundary_report sp.store
  unfold Span.meterKept
  rw [boundary_meter, boundary_store, Span.metered]
  refine ⟨report_bounded _ _ h.1, fun hs => report_idle _ _ ?_ (h.2 fun k => hs ?_)⟩
  · exact Option.not_isSome_iff_eq_none.mp fun k => hs (hattached.mp k)
  · rw [boundary_attached _ k]
    exact (slip_keeps _ _).1.trans k

/-- Every move keeps the bounds and the idling outside ATTACHED. -/
theorem spanMove_meterKept (a b : Span) (m : SpanMove a b) (h : a.meterKept) : b.meterKept := by
  cases m with
  | latch => exact h
  | level => exact h
  | clockRise => exact meterKept_toAligner _ h
  | clockFall => exact meterKept_leaveAt _ _ h
  | window => exact meterKept_windowEnded _ _ _ h
  | noise => exact h
  | candidate => exact meterKept_toAligner _ h
  | fails => exact meterKept_toAligner _ h
  | goesOn => exact meterKept_toAligner _ h
  | locks => exact meterKept_congr h rfl startCentring_attached
  | expected => exact meterKept_toAligner _ h
  | missed => exact meterKept_leaveAt _ _ h
  | reads k => exact meterKept_readBits k h
  | bit b => exact meterKept_receiveBit b h
  | setRecord r => exact meterKept_enableActs r h
  | restart => exact meterKept_restart h
  | thresholds => exact meterKept_congr h rfl id
  | driftStored k limit hk =>
    obtain ⟨⟨hk', -, he⟩, hidle⟩ := h
    exact ⟨⟨hk', hk, he⟩, hidle⟩
  | driftCommitted =>
    obtain ⟨⟨-, hks, he⟩, hidle⟩ := h
    exact ⟨⟨hks, hks, he⟩, fun k => commit_idle (hidle k)⟩
  | opens => exact meterKept_congr h rfl id
  | boundary => exact meterKept_boundary _ h
  | transmits => exact h
  | counts => exact h
  | relatch => exact h

/-! ### The drift settings under the operations of a span -/

/-- Filter shift and drift limit, stored and in force. -/
def Meter.driftSettings (m : Meter) : (Nat × Nat) × (Nat × Nat) := ((m.kStored, m.limitStored), (m.k, m.limit))

theorem settled_iff (m : Meter) : m.settled ↔ m.driftSettings.1 = m.driftSettings.2 := by
  simp [Meter.settled, Meter.driftSettings]

theorem settled_congr {m m' : Meter} (h : m'.driftSettings = m.driftSettings) (hs : m.settled) : m'.settled := by
  rw [settled_iff] at hs ⊢
  rwa [h]

theorem commit_settled (m : Meter) : m.commit.settled := ⟨rfl, rfl⟩

theorem sample_driftSettings (m : Meter) (fill : Nat) : (m.sample fill).1.driftSettings = m.driftSettings := by
  cases hb : m.baseline with
  | none => rw [sample_of_no_baseline m fill hb]; rfl
  | some prev => rw [sample_of_baseline m fill prev hb]; rfl

theorem report_driftSettings (m : Meter) (examined : Bool) (r : Report) :
    (m.report examined r).1.driftSettings = m.driftSettings := by
  have counted (m' : Meter) (h : m'.driftSettings = m.driftSettings) :
      (m'.countSlip r.slip).driftSettings = m.driftSettings := by
    rw [countSlip_eq]
    exact h
  have heard := counted (if r.centred then m.clearBaseline else m) (by split <;> rfl)
  rw [report_cases]
  dsimp only
  split
  · exact (sample_driftSettings _ _).trans heard
  · exact heard

@[simp] theorem withStore_driftSettings (sp : Span) (st : Store) :
    (sp.withStore st).meter.driftSettings = sp.meter.driftSettings := by
  unfold Span.withStore; split <;> rfl

@[simp] theorem readBits_driftSettings (sp : Span) (k : Nat) :
    (sp.readBits k).meter.driftSettings = sp.meter.driftSettings :=
  readBits_keeps (fun sp => sp.meter.driftSettings) withStore_driftSettings k sp

@[simp] theorem readTo_driftSettings (sp : Span) (r : Nat) :
    (sp.readTo r).meter.driftSettings = sp.meter.driftSettings := readBits_driftSettings sp _

@[simp] theorem toAligner_driftSettings (sp : Span) (a : Aligner) :
    (sp.toAligner a).meter.driftSettings = sp.meter.driftSettings := by
  unfold Span.toAligner; split_ifs <;> rfl

@[simp] theorem leaveAt_driftSettings (sp : Span) (r : Nat) (a : Aligner) :
    (sp.leaveAt r a).meter.driftSettings = sp.meter.driftSettings := by
  unfold Span.leaveAt
  split <;> simp

theorem windowEnded_driftSettings (sp : Span) (r ones : Nat) (noisy : Bool) :
    (sp.windowEnded r ones noisy).meter.driftSettings = sp.meter.driftSettings := by
  unfold Span.windowEnded
  dsimp only
  split
  case h_5 => rfl
  case h_6 => rfl
  all_goals
    split <;> simp

theorem receiveBits_driftSettings (sp : Span) (bits : List Bool) :
    (sp.receiveBits bits).meter.driftSettings = sp.meter.driftSettings := by
  induction bits generalizing sp with
  | nil => rfl
  | cons b bits ih =>
    refine (ih (sp.receiveBit b)).trans ?_
    rw [receiveBit_meter, withStore_driftSettings]

theorem enableActs_driftSettings (sp : Span) (was : Bool) :
    (sp.enableActs was).meter.driftSettings = sp.meter.driftSettings := by
  unfold Span.enableActs
  split
  · rfl
  · split <;> exact toAligner_driftSettings _ _

theorem restart_driftSettings (sp : Span) : sp.restart.meter.driftSettings = sp.meter.driftSettings := by
  rw [restart_meter]
  rfl

/-- A store's handling within an office superframe leaves the settings; at an office superframe boundary those stored come
into force (R60). -/
theorem storeHandled_settled {sp : Span} (superframe : Bool) (h : superframe = false → sp.meter.settled) :
    (sp.storeHandled superframe).meter.settled := by
  rw [storeHandled_meter]
  cases superframe with
  | true => exact commit_settled _
  | false => exact settled_congr (report_driftSettings _ _ _) (h rfl)

/-! ### Events leave the drift settings alone -/

/-- No span's drift settings are changed. -/
def State.keepsDriftSettings (s t : State) : Prop :=
  ∀ n, (t.span n).meter.driftSettings = (s.span n).meter.driftSettings

theorem keepsDriftSettings_refl (s : State) : s.keepsDriftSettings s := fun _ => rfl

theorem keepsDriftSettings_trans {s t u : State} (h : s.keepsDriftSettings t) (k : t.keepsDriftSettings u) :
    s.keepsDriftSettings u := fun n => (k n).trans (h n)

theorem keepsDriftSettings_of_spans {s t : State} (h : t.spans = s.spans) : s.keepsDriftSettings t := fun n => by
  simp only [State.span, h]

theorem State.becomes.keepsDriftSettings {s t : State} {n : Fin 16} {sp : Span} (h : s.becomes n sp t)
    (k : sp.meter.driftSettings = (s.span n).meter.driftSettings) : s.keepsDriftSettings t := fun m => by
  by_cases hm : m = n
  · rw [hm, h.1, k]
  · rw [h.2.1.1 m hm]

theorem clockRise_driftSettings (s : State) (n : Fin 16) : s.keepsDriftSettings (s.clockRise n) := by
  by_cases h : (s.span n).record.enable = true ∧ (s.span n).rx.clockPresent = false
  · exact (clockRise_rises s n h.1 h.2).keepsDriftSettings (toAligner_driftSettings _ _)
  · rw [clockRise_level s n (by simpa only [not_and_or, Bool.not_eq_true, Bool.not_eq_false] using h)]
    exact (modSpan_becomes s n _).keepsDriftSettings rfl

theorem clockFall_driftSettings (s : State) (n : Fin 16) (r : Nat) : s.keepsDriftSettings (s.clockFall n r) := by
  by_cases h : (s.span n).record.enable = true ∧ (s.span n).rx.clockPresent = true
  · exact (clockFall_falls s n r h.1 h.2).keepsDriftSettings (leaveAt_driftSettings _ _ _)
  · rw [clockFall_level s n r (by simpa only [not_and_or, Bool.not_eq_true, Bool.not_eq_false] using h)]
    exact (modSpan_becomes s n _).keepsDriftSettings rfl

theorem noiseEnd_driftSettings (s : State) (n : Fin 16) : s.keepsDriftSettings (s.noiseEnd n) := by
  by_cases h : (s.span n).sampling = true ∧ (s.span n).noiseDue = true
  · exact (noiseEnd_becomes s n h.1 h.2).keepsDriftSettings rfl
  · rw [noiseEnd_other s n (by simpa only [not_and_or, Bool.not_eq_true, Bool.not_eq_false] using h)]
    exact keepsDriftSettings_refl s

theorem windowEnd_driftSettings (s : State) (n : Fin 16) (r : Nat) (samples : Vector Looks 336) :
    s.keepsDriftSettings (s.windowEnd n r samples) := by
  cases h : (s.span n).sampling with
  | false => rw [windowEnd_stopped s n r samples h]; exact keepsDriftSettings_refl s
  | true =>
    have counted (t : State) (ht : (t.span n).sampling = true) (hd : (t.span n).noiseDue = false) :
        t.keepsDriftSettings (t.windowEnd n r samples) :=
      (windowEnd_becomes t n r samples ht hd).keepsDriftSettings (windowEnded_driftSettings _ _ _ _)
    cases hd : (s.span n).noiseDue with
    | false => exact counted s h hd
    | true =>
      have hs := (noiseEnd_becomes s n h hd).1
      rw [windowEnd_of_due s n r samples h hd]
      exact keepsDriftSettings_trans (noiseEnd_driftSettings s n) (counted _ (by rw [hs]; exact h) (by rw [hs]; rfl))

theorem huntFound_driftSettings (s : State) (n : Fin 16) (p : Nat) (o : Byte) : s.keepsDriftSettings (s.huntFound n p o) := by
  obtain e | ⟨f, hf, hp, ho, hw⟩ := huntFound_cases s n p o
  · rw [e]; exact keepsDriftSettings_refl s
  · exact (huntFound_becomes s n p o hf hp ho hw).keepsDriftSettings (toAligner_driftSettings _ _)

theorem verifyCheck_driftSettings (s : State) (n : Fin 16) (p : Nat) (o : Byte) :
    s.keepsDriftSettings (s.verifyCheck n p o) := by
  obtain e | ⟨c, m, f, -, e⟩ := verifyCheck_cases s n p o
  · rw [e]; exact keepsDriftSettings_refl s
  · rw [e]
    by_cases hf : (o == 0xB2) = true ∨ f = 0
    · by_cases hm : m = 2
      · subst hm
        exact (verifyResult_locks s n p c f _ hf).keepsDriftSettings rfl
      · exact (verifyResult_goes_on s n p c m f _ hf hm).keepsDriftSettings (toAligner_driftSettings _ _)
    · simp only [not_or, Bool.not_eq_true] at hf
      rw [hf.1]
      exact (verifyResult_fails s n p c m f hf.2).keepsDriftSettings (toAligner_driftSettings _ _)

theorem expectedOctet_driftSettings (s : State) (n : Fin 16) (r p : Nat) (o : Byte) :
    s.keepsDriftSettings (s.expectedOctet n r p o) := by
  obtain e | ⟨-, ⟨a, -, -, e⟩ | e⟩ := expectedOctet_cases s n r p o <;> rw [e]
  · exact keepsDriftSettings_refl s
  · exact (keepAligned_becomes s n a).keepsDriftSettings (toAligner_driftSettings _ _)
  · exact (loseAlignment_becomes (becomes_refl s n) r _).keepsDriftSettings (leaveAt_driftSettings _ _ _)

theorem alignedFrame_driftSettings (s : State) (n : Fin 16) (r : Nat) (bits : List Bool) :
    s.keepsDriftSettings (s.alignedFrame n r bits) := by
  cases h : (s.span n).rx.aligner.aligned with
  | false => rw [alignedFrame_unaligned s n r bits h]; exact keepsDriftSettings_refl s
  | true =>
    exact (alignedFrame_becomes s n r bits h).keepsDriftSettings
      ((receiveBits_driftSettings _ _).trans (readTo_driftSettings _ _))

theorem underrun_driftSettings (s : State) (n : Fin 16) : s.keepsDriftSettings (s.underrun n) := by
  cases h : (s.span n).store.runsDry with
  | false => rw [underrun_other s n h]; exact keepsDriftSettings_refl s
  | true => exact (underrun_becomes s n h).keepsDriftSettings (readBits_driftSettings _ _)

/-! ### Orders (R60) -/

theorem keepsDriftSettings_answer {s t : State} (h : s.keepsDriftSettings t) (code tag : Byte) (o : OrderOutcome)
    (r : List Byte) : s.keepsDriftSettings (t.answer code tag o r) := h

theorem takeSetSpan_driftSettings (tag a b c d e f : Byte) (s : State) :
    s.keepsDriftSettings (takeSetSpan tag a b c d e f s) := by
  unfold takeSetSpan
  split
  next n _ _ _ _ _ _ _ =>
    refine keepsDriftSettings_answer (((becomes_refl s n).modSpan _).publish.keepsDriftSettings ?_) _ _ _ _
    rw [latch_meter, enableActs_driftSettings]
  · exact keepsDriftSettings_refl s

theorem takeSpanRestart_driftSettings (tag a : Byte) (s : State) : s.keepsDriftSettings (takeSpanRestart tag a s) := by
  unfold takeSpanRestart
  split
  · exact keepsDriftSettings_refl s
  next n _ =>
    refine keepsDriftSettings_answer (((becomes_refl s n).modSpan _).publish.keepsDriftSettings ?_) _ _ _ _
    rw [latch_meter, restart_driftSettings]

theorem takeSetThresholds_driftSettings (tag a : Byte) (l h : Word) (s : State) :
    s.keepsDriftSettings (takeSetThresholds tag a l h s) := by
  unfold takeSetThresholds
  split
  · exact keepsDriftSettings_refl s
  next n _ => exact keepsDriftSettings_answer ((modSpan_becomes s n _).keepsDriftSettings (by rfl)) _ _ _ _

theorem takeWarmRestart_driftSettings (tag : Byte) (s : State) : s.keepsDriftSettings (takeWarmRestart tag s) := fun n => by
  have e : (takeWarmRestart tag s).span n = (s.span n).warm := by simp [takeWarmRestart, State.answer, State.warm, State.span]
  rw [e]
  rfl

theorem takeClearLatched_driftSettings (tag a : Byte) (s : State) : s.keepsDriftSettings (takeClearLatched tag a s) := by
  unfold takeClearLatched
  split
  · exact keepsDriftSettings_refl s
  next n _ =>
    exact (modSpan_becomes s n fun sp => { sp with latched := (s.span n).latched &&& (s.span n).active }).keepsDriftSettings rfl
  · exact keepsDriftSettings_refl s

theorem takeReadCounts_driftSettings (tag a b c : Byte) (s : State) :
    s.keepsDriftSettings (takeReadCounts tag a b c s) := by
  have cleared (n : Fin 16) (f : SpanCounts → SpanCounts) :
      s.keepsDriftSettings (s.modSpan n fun sp => { sp with counts := f sp.counts }) :=
    (modSpan_becomes s n _).keepsDriftSettings rfl
  unfold takeReadCounts
  split
  · exact keepsDriftSettings_refl s
  next cl _ =>
    split
    · exact keepsDriftSettings_of_spans (by cases cl <;> rfl)
    · split
      · exact keepsDriftSettings_refl s
      next n _ =>
        dsimp only
        split_ifs
        · exact cleared n SpanCounts.clear0
        · exact keepsDriftSettings_refl s
        · exact cleared n SpanCounts.clear1
        · exact keepsDriftSettings_refl s
        · exact keepsDriftSettings_refl s

/-- A SET DRIFT whose span has made its sample of this boundary comes into force at once, and touches no other span (R60). -/
theorem takeSetDrift_settled (sampled : Bool) (tag a k : Byte) (l : Word) (s : State) (n : Fin 16)
    (hs : spanOf a = some n → sampled = true) (h : (s.span n).meter.settled) :
    ((takeSetDrift sampled tag a k l s).span n).meter.settled := by
  unfold takeSetDrift
  split
  · exact h
  next m hm =>
    have stored := modSpan_becomes s m (Span.storesDrift (min k.toNat 7) l.toNat)
    obtain ⟨hcommitted, ⟨hne', -⟩, -⟩ := (stored.modSpan Span.commitDrift).publish
    obtain ⟨-, ⟨hne, -⟩, -⟩ := stored
    change ((if sampled then ((s.modSpan m (Span.storesDrift (min k.toNat 7) l.toNat)).modSpan m Span.commitDrift).publish m
      else s.modSpan m (Span.storesDrift (min k.toNat 7) l.toNat)).span n).meter.settled
    by_cases hn : n = m
    · subst hn
      rw [hs hm, if_pos rfl, hcommitted]
      exact commit_settled _
    · split
      · rw [hne' n hn]; exact h
      · rw [hne n hn]; exact h

/-- An order leaves stored and in force the same settings of every span that has made its sample of this boundary. -/
theorem takeOrder_settled (sampled : Fin 16 → Bool) (s : State) (i : Instr) (n : Fin 16) (hn : sampled n = true)
    (h : (s.span n).meter.settled) : ((s.takeOrder sampled i).span n).meter.settled := by
  have kept {t : State} (k : s.keepsDriftSettings t) : (t.span n).meter.settled := settled_congr (k n) h
  cases hi : ordersSpans i with
  | false => exact kept (keepsDriftSettings_of_spans (takeOrder_spans sampled s i hi))
  | true =>
    cases i with
    | warmRestart => exact kept (takeWarmRestart_driftSettings _ s)
    | setSpan => exact kept (takeSetSpan_driftSettings _ _ _ _ _ _ _ s)
    | spanRestart => exact kept (takeSpanRestart_driftSettings _ _ s)
    | setThresholds => exact kept (takeSetThresholds_driftSettings _ _ _ _ s)
    | setDrift => exact takeSetDrift_settled _ _ _ _ _ s n (fun e => by rw [e]; exact hn) h
    | clearLatched => exact kept (takeClearLatched_driftSettings _ _ s)
    | readCounts => exact kept (takeReadCounts_driftSettings _ _ _ _ s)
    | _ => cases hi

/-! ### The office frame boundary -/

/-- Which spans have their stored settings in force, the handlings `done` having been taken: all within an office superframe;
at its boundary those whose store has been handled, since an order may store others before (R60). -/
def State.settledAfter (superframe : Bool) (done : List Handling) (s : State) : Prop :=
  ∀ n, superframe = false ∨ .store n ∈ done → (s.span n).meter.settled

theorem orderBoundary_settled (s : State) (sampled : Fin 16 → Bool) (n : Fin 16) (hn : sampled n = true)
    (h : (s.span n).meter.settled) : ((s.orderBoundary sampled).span n).meter.settled := by
  unfold State.orderBoundary State.examine
  split
  · have judged : ((s.formSend.judgeCell sampled s.formSend.channel.receive).span n).meter.settled := by
      unfold State.judgeCell
      split_ifs
      · exact h
      · exact h
      · exact takeOrder_settled sampled s.formSend _ n hn h
      · exact h
    exact judged
  · exact h

theorem handle_settledAfter {s : State} (superframe apart : Bool) (done : List Handling) (i : Handling)
    (h : s.settledAfter superframe done) : (s.handle superframe apart done i).settledAfter superframe (i :: done) := by
  have untouched {t : State} (ht : t.spans = s.spans) (hi : ∀ m, i ≠ .store m) : t.settledAfter superframe (i :: done) :=
    fun n hn => settled_congr (keepsDriftSettings_of_spans ht n)
      (h n (hn.imp_right fun k => (List.mem_cons.mp k).resolve_left (hi n).symm))
  cases i with
  | number => exact untouched (formNumber_spans s) nofun
  | timer m => exact untouched (matchTimer_spans s m) nofun
  | store m =>
    intro n hn
    obtain ⟨hm, ⟨hne, -⟩, -⟩ := storeBoundary_becomes s superframe m
    by_cases hnm : n = m
    · subst hnm
      exact (congrArg (fun sp => sp.meter.settled) hm).mpr (storeHandled_settled superframe fun k => h n (.inl k))
    · refine (congrArg (fun sp => sp.meter.settled) (hne n hnm)).mpr (h n (hn.imp_right fun k => ?_))
      exact (List.mem_cons.mp k).resolve_left (by simpa using hnm)
  | otu => exact untouched (otuBoundary_spans s superframe apart) nofun
  | outputs => exact untouched rfl nofun
  | swaps => exact untouched (by cases superframe <;> rfl) nofun
  | units => exact untouched (by cases superframe <;> rfl) nofun
  | orderChannel =>
    cases superframe with
    | false => exact untouched rfl nofun
    | true =>
      intro n hn
      have hdone : .store n ∈ done := (List.mem_cons.mp (hn.resolve_left nofun)).resolve_left nofun
      exact orderBoundary_settled s _ n (decide_eq_true hdone) (h n (.inr hdone))

theorem handleAll_settledAfter {s : State} (superframe apart : Bool) (todo done : List Handling)
    (h : s.settledAfter superframe done) :
    (s.handleAll superframe apart done todo).settledAfter superframe (todo.reverse ++ done) := by
  induction todo generalizing done s with
  | nil => exact h
  | cons i rest ih =>
    rw [List.reverse_cons, List.append_assoc]
    exact ih _ (handle_settledAfter superframe apart done i h)

theorem endFrame_driftSettings (s : State) (received : Vector Byte 640) : s.keepsDriftSettings (s.endFrame received) :=
  fun n => by
    rw [endFrame_span, finishReads_span]
    dsimp only
    rw [latch_meter, readTo_driftSettings]

theorem openBoundary_meter (sp : Span) (superframe : Bool) : (sp.openBoundary superframe).meter = sp.meter := rfl

/-- Every store is handled at a boundary, so that every span's stored settings are in force after it. -/
theorem boundary_settled {s : State} (received : Vector Byte 640) (order : List Handling) (apart : Bool)
    (h : ∀ n, (s.span n).meter.settled) (n : Fin 16) : ((s.boundary received order apart).span n).meter.settled := by
  have ended := keepsDriftSettings_trans (keepsDriftSettings_of_spans (acquisitionTimeout_spans s))
    (endFrame_driftSettings _ received)
  have opened : ((s.acquisitionTimeout.endFrame received).openBoundary s.superframeNext).settledAfter s.superframeNext [] :=
    fun n _ => by
      rw [openBoundary_span, openBoundary_meter]
      exact settled_congr (ended n) (h n)
  have handled := handleAll_settledAfter s.superframeNext apart (schedule order) [] opened n
    (.inr (by simp [store_mem_schedule order n]))
  unfold State.boundary
  dsimp only
  rw [closeBoundary_span]
  exact handled

/-! ### One command -/

theorem settled_of_whenRunning {s t u : State} (k : whenRunning s t = .next u) (h : ∀ n, (s.span n).meter.settled)
    (ht : ∀ n, (t.span n).meter.settled) : ∀ n, (u.span n).meter.settled := by
  rcases (whenRunning_eq_next s t u).mp k with ⟨-, rfl⟩ | ⟨-, rfl⟩
  · exact ht
  · exact h

/-- While office timing runs, every command leaves the stored settings of every span in force. -/
theorem exec_settled (c : Instr) {s t : State} (hr : s.officeRuns = true) (h : ∀ n, (s.span n).meter.settled)
    (k : exec c s = .next t) : ∀ n, (t.span n).meter.settled := by
  have kept {t : State} (k : s.keepsDriftSettings t) : ∀ n, (t.span n).meter.settled := fun n => settled_congr (k n) (h n)
  have event {u : State} (k : whenRunning s u = .next t) (ku : s.keepsDriftSettings u) : ∀ n, (t.span n).meter.settled :=
    settled_of_whenRunning k h (kept ku)
  have order (e : exec c s = whenRunning s (s.takeOrder (fun _ => true) c)) : ∀ n, (t.span n).meter.settled :=
    settled_of_whenRunning (e.symm.trans k) h fun n => takeOrder_settled _ s c n rfl (h n)
  cases c with
  | powerOn => cases k; exact h
  | coldRestartBegin =>
    simp only [exec, execColdRestartBegin] at k
    split at k <;> (cases k; exact h)
  | supplyFall =>
    simp only [State.officeRuns, Option.isNone_iff_eq_none] at hr
    simp only [exec, execSupplyFall, hr] at k
    cases k
    exact h
  | restartEnd =>
    simp only [State.officeRuns, Option.isNone_iff_eq_none] at hr
    simp only [exec, execRestartEnd, hr] at k
    cases k
    exact h
  | clockPresentRise n =>
    rw [exec_clockPresentRise n hr] at k
    cases k
    exact kept (clockRise_driftSettings s n)
  | clockPresentFall m =>
    rw [exec_clockPresentFall m.span m.readSoFar hr] at k
    cases k
    exact kept (clockFall_driftSettings s _ _)
  | lineWindowEnd => exact event k (windowEnd_driftSettings s _ _ _)
  | noisePeriodEnd => exact event k (noiseEnd_driftSettings s _)
  | huntCandidateFound => exact event k (huntFound_driftSettings s _ _ _)
  | verifyCheck => exact event k (verifyCheck_driftSettings s _ _ _)
  | expectedAlignmentOctet => exact event k (expectedOctet_driftSettings s _ _ _ _)
  | alignedFrame => exact event k (alignedFrame_driftSettings s _ _ _)
  | storeUnderrun => exact event k (underrun_driftSettings s _)
  | referenceEvent => exact event k (keepsDriftSettings_of_spans (by split <;> rfl))
  | officeFrameBoundary => exact settled_of_whenRunning k h (boundary_settled _ _ _ h)
  | qualificationComplete =>
    exact event k (keepsDriftSettings_of_spans (by unfold State.qualificationComplete; dsimp only; split <;> rfl))
  | acquisitionTimeout => exact event k (keepsDriftSettings_of_spans (acquisitionTimeout_spans s))
  | unknownOrder => exact event k (keepsDriftSettings_of_spans (by split <;> rfl))
  | setDrift => exact settled_of_whenRunning k h fun n => takeSetDrift_settled true _ _ _ _ s n (fun _ => rfl) (h n)
  | _ => exact order rfl

theorem meterLaw_reset (level : Bool) :
    ({ Span.reset with rx := { Receiver.reset with clockPresent := level } }).meterLaw := by
  have reset : Span.reset.meterLaw := by
    unfold Span.meterLaw
    decide
  exact reset

/-- Settles O8: every move keeps the bounds and the idling outside ATTACHED, every command leaves the stored settings in
force, and a restart ends with the meters reset. -/
theorem meterLawKept : Obligations.MeterLawKept := by
  intro s t h hstep n
  obtain rfl | ⟨c, rest, -, he⟩ := step_cases hstep
  · exact h n
  · obtain ⟨kept, settled⟩ := forall_and.mp fun n => (meterLaw_iff _).mp (h n)
    cases hr : State.officeRuns { s with pending := rest } with
    | true =>
      exact (meterLaw_iff _).mpr
        ⟨SpanMoves.keeps spanMove_meterKept (exec_moves c _ t hr he n) (kept n), exec_settled c hr settled he n⟩
    | false =>
      obtain ⟨-, spans⟩ | ⟨k, straps, rfl⟩ := exec_held c _ t hr he
      · obtain e | ⟨l, e⟩ := spans n
        · rw [e]; exact h n
        · rw [e]; exact h n
      · rw [restarted_span]
        exact meterLaw_reset _

end Sys2Proof.Machine
end

