-- ==== Sys2Proof/Proofs/DriftSample.lean ====
section
/-! The boundary report, the sample of the drift meter, and the meter across an office superframe boundary that takes no order
(O35). -/

namespace Sys2Proof.Machine

/-! ### The boundary report (R33, R41) -/

theorem decision_eq_rep_iff (st : Store) : st.decision = .rep ↔ st.fill < st.low := by
  unfold Store.decision
  split_ifs <;> simp [*]

theorem decision_eq_skip_iff (st : Store) : st.decision = .skip ↔ st.low ≤ st.fill ∧ st.high < st.fill := by
  unfold Store.decision
  split_ifs <;> simp <;> omega

/-- A store that is not ATTACHED decides no slip. -/
theorem boundary_slip_iff (st : Store) (d : Slip) (hd : d ≠ .none) :
    st.boundary.2.slip = d ↔ st.state = .attached ∧ st.decision = d := by
  obtain ⟨-, -, hslip, -⟩ := boundary_report st
  rw [hslip]
  by_cases hs : st.state = .attached
  · simp [hs]
  · simp [hs, hd.symm]

/-- The fill after the slip decision, F_post (R33 to R35). -/
theorem slip_fill (st : Store) :
    (st.slip st.decision).fill =
      if st.fill < st.low then st.fill + 336 else if st.high < st.fill then st.fill - 336 else st.fill := by
  unfold Store.decision
  split_ifs <;> rfl

/-! ### The evaluation of DRIFT (R57) -/

/-- A limit of 0 gives no DRIFT. -/
theorem driftEvaluate_zero (before : Bool) (o : Int) : driftEvaluate before 0 o = false := rfl

/-- DRIFT becomes active above the limit. -/
theorem driftEvaluate_inactive (limit : Nat) (o : Int) (h : limit ≠ 0) :
    driftEvaluate false limit o = true ↔ limit < o.natAbs := by
  simp [driftEvaluate, h]

/-- DRIFT ends at seven eighths of the limit and below. -/
theorem driftEvaluate_active (limit : Nat) (o : Int) (h : limit ≠ 0) :
    driftEvaluate true limit o = false ↔ o.natAbs ≤ limit - limit / 8 := by
  simp [driftEvaluate, h]

/-! ### What a boundary leaves of the meter and the counts -/

/-- The stored settings in force (R60). -/
theorem commit_eq (m : Meter) :
    m.commit = { m with k := m.kStored, limit := m.limitStored, drift := m.drift && decide (m.limitStored ≠ 0) } := by
  rw [Meter.commit, bne, Bool.beq_eq_decide_eq, decide_not]

/-- The counts of slips and phase hits, count by count (R33, R53). -/
theorem slipped_hit (c : SpanCounts) (slip : Slip) (hit : Bool) :
    (c.slipped slip).hit hit =
      { c with
        repeatSlips := if slip = .rep then raise c.repeatSlips else c.repeatSlips
        skipSlips := if slip = .skip then raise c.skipSlips else c.skipSlips
        phaseHits := if hit then raise c.phaseHits else c.phaseHits } := by
  cases slip <;> cases hit <;> rfl

section

variable (sp : Span) (sent : Option (Vector Byte 42))

/-! ### An ATTACHED store (R49, R51) -/

/-- The meter examines the report of a store that is ATTACHED at an office superframe boundary (R51). -/
theorem sampledAt_attached (st : Store) (h : st.state = .attached) : st.sampledAt true = true := by
  simp [Store.sampledAt, Store.faultsAtBoundary, h]

section

variable (hs : sp.store.state = .attached) (hf : 336 - sp.store.out.length < sp.store.fill)
include hs hf

theorem decides_attached : sp.store.decides.state = .attached :=
  (readTo_attached_iff sp.store fun _ => by omega).mpr ⟨hs, hf⟩

theorem decides_fill : sp.store.decides.fill = sp.store.fill - (336 - sp.store.out.length) := by
  have hk : min 336 336 - sp.store.out.length = 336 - sp.store.out.length := by omega
  rw [Store.decides, Store.readTo, hk]
  exact reads_fill sp.store _ hs hf

/-- The completed reads of a store that holds more move its read side alone. -/
theorem readTo_of_enough : sp.readTo 336 = { sp with store := sp.store.readTo 336 } := by
  have attached : (sp.store.readTo 336).state = .attached := decides_attached sp hs hf
  rw [readTo_eq, withStore_of_no_fault sp _ (.inr (by simp [attached]))]

/-- The slip of the boundary is counted, then the sample is taken from the fill after it (R49, R51). -/
theorem crossMetered_attached :
    sp.crossMetered true =
      (sp.meter.countSlip sp.store.decides.decision).sample (sp.store.decides.slip sp.store.decides.decision).fill := by
  have attached := decides_attached sp hs hf
  rw [Span.crossMetered, boundary_attached _ attached, sampledAt_attached _ attached, readTo_of_enough sp hs hf]
  cases sp.store.decides.decision <;> rfl

theorem crossed_sampled :
    let f := sp.store.fill - (336 - sp.store.out.length)
    let slip : Slip := if f < sp.store.lowStored then .rep else if sp.store.highStored < f then .skip else .none
    let sample := (sp.meter.countSlip slip).sample
      (if f < sp.store.lowStored then f + 336 else if sp.store.highStored < f then f - 336 else f)
    (sp.crossed true sent).meter = sample.1.commit ∧
      (sp.crossed true sent).counts = (sp.counts.slipped slip).hit sample.2 := by
  have attached := decides_attached sp hs hf
  have decision : sp.store.decides.decision =
      if sp.store.fill - (336 - sp.store.out.length) < sp.store.lowStored then .rep
      else if sp.store.highStored < sp.store.fill - (336 - sp.store.out.length) then .skip else .none := by
    rw [← decides_fill sp hs hf]
    rfl
  have sampled := crossMetered_attached sp hs hf
  rw [slip_fill, decides_fill sp hs hf] at sampled
  dsimp only
  rw [← decision, crossed_meter, crossed_counts, sampled, boundary_attached _ attached, readTo_of_enough sp hs hf]
  exact ⟨rfl, rfl⟩

end

/-! ### A store that is not ATTACHED (R50, R51, R59) -/

/-- A report with attached no takes no sample and counts no slip; with centred yes it clears the baseline (R50, R51). -/
theorem crossed_unsampled (hs : sp.store.state ≠ .attached) (centred : Bool)
    (hr : sp.store.decides.boundary.2 = ⟨none, .none, centred⟩) :
    (sp.crossed true sent).meter = (if centred then sp.meter.clearBaseline else sp.meter).commit ∧
      (sp.crossed true sent).counts = sp.counts := by
  have metered : sp.crossMetered true = (if centred then sp.meter.clearBaseline else sp.meter, false) := by
    rw [Span.crossMetered, hr, report_without_fill _ _ _ rfl, readTo_of_not_attached sp 336 hs, countSlip_none]
  rw [crossed_meter, crossed_counts, metered, hr, readTo_of_not_attached sp 336 hs]
  exact ⟨rfl, rfl⟩

/-- A DETACHED store, or a CENTRING one with fewer than 672 bits, reports attached no and centred no (R32, R41). -/
theorem decides_report_waits (h : sp.store.state = .detached ∨ sp.store.state = .centring ∧ sp.store.fill < 672) :
    sp.store.decides.boundary.2 = ⟨none, .none, false⟩ := by
  have hna : sp.store.state ≠ .attached := by rcases h with h | ⟨h, -⟩ <;> simp [h]
  rw [decides_of_not_attached _ hna]
  rcases h with h | ⟨h, hf⟩
  · simp [Store.boundary, h]
  · simp [Store.boundary, h, hf]

/-- A FAULTED store with fewer than 672 bits recentres to CENTRING, reporting attached no and centred yes (R40, R41). -/
theorem decides_report_recentres (h : sp.store.state = .faulted) (hf : sp.store.fill < 672) :
    sp.store.decides.boundary.2 = ⟨none, .none, true⟩ := by
  rw [decides_of_not_attached _ (by simp [h])]
  simp [Store.boundary, h, hf]

/-- The baseline that a centring or a recentring leaves at an office superframe boundary: the fill it has set, but none where
an overrun falls together with the boundary (R50, R51, R59, notes/assumptions/18.md). -/
def Store.centredBaseline (st : Store) : Option Nat :=
  if st.state = .faulted ∧ st.lastFault = .overrun ∧ 336 ≤ st.out.length then none else some (672 + st.writePos % 336)

theorem sampledAt_superframe (st : Store) :
    st.sampledAt true = !decide (st.state = .faulted ∧ st.lastFault = .overrun ∧ 336 ≤ st.out.length) := by
  simp [Store.sampledAt, Store.faultsAtBoundary, Bool.and_assoc]

/-- A report of a centring, examined or not. -/
theorem report_of_centring (m : Meter) (examined : Bool) (fill : Nat) :
    m.report examined ⟨some fill, .none, true⟩ =
      ({ m with net := 0, baseline := if examined then some fill else none }, false) := by
  have cleared : m.clearBaseline.countSlip .none = m.clearBaseline := countSlip_none _
  cases examined with
  | false => exact congrArg (·, false) cleared
  | true => exact (congrArg (Meter.sample · fill) cleared).trans (sample_of_no_baseline _ fill rfl)

/-- A store placed by its centring or its recentring (R32, R40, R50, R51). -/
theorem crossed_centred (hs : sp.store.state = .centring ∨ sp.store.state = .faulted) (hf : 672 ≤ sp.store.fill) :
    (sp.crossed true sent).meter = Meter.commit { sp.meter with net := 0, baseline := sp.store.centredBaseline } ∧
      (sp.crossed true sent).counts = sp.counts := by
  have hna : sp.store.state ≠ .attached := by rcases hs with h | h <;> simp [h]
  have e := decides_of_not_attached sp.store hna
  have placed := boundary_places sp.store.decides (by rw [e]; exact hs) (by rw [e]; exact hf)
  have metered : sp.crossMetered true = ({ sp.meter with net := 0, baseline := sp.store.centredBaseline }, false) := by
    rw [Span.crossMetered, placed, report_of_centring, readTo_of_not_attached sp 336 hna, sampledAt_superframe, e,
      Store.centredBaseline]
    simp only [Bool.not_eq_true', decide_eq_false_iff_not, ite_not]
    rfl
  refine ⟨?_, (crossed_without_slip sp hs true sent).1⟩
  rw [crossed_meter, metered]
  rfl

end

/-! ### The obligation -/

/-- Settles O35: the report, the sample, the update, and the boundary by the state of the store and its fill. -/
theorem driftSample : Obligations.DriftSample := by
  refine ⟨fun st => ?_, fun m fill => ⟨sample_of_no_baseline m fill, fun prev h => ?_⟩, fun e d k => ?_,
    fun s egress order apart n hr hsf ho => ?_⟩
  · obtain ⟨hattached, hfill, -, hcentred⟩ := boundary_report st
    have rep := boundary_slip_iff st .rep nofun
    have skip := boundary_slip_iff st .skip nofun
    rw [decision_eq_rep_iff] at rep
    rw [decision_eq_skip_iff] at skip
    exact ⟨hattached, hfill, fun k => Option.not_isSome_iff_eq_none.mp fun j => k (hattached.mp j), rep, skip, hcentred⟩
  · obtain ⟨skip, rep⟩ := countSlip_of_baseline m (by rw [h]; rfl)
    have hd : m.driftOf fill prev = fill + 336 * m.net - prev := rfl
    rw [sample_of_baseline m fill prev h, ← hd]
    dsimp only
    refine ⟨?_, rfl, rfl, rfl, rfl, rfl, averageAfter_eq m _, fun hl => ?_, fun hl hdrift => ?_, fun hl hdrift => ?_, skip, rep,
      countSlip_none m⟩
    · rw [decide_eq_true_eq]
      omega
    · rw [hl, driftEvaluate_zero]
    · rw [hdrift]
      exact driftEvaluate_inactive _ _ hl
    · rw [hdrift]
      exact driftEvaluate_active _ _ hl
  · exact ⟨driftUpdate_eq_fdiv e d k, driftUpdate_of_le e d k, driftUpdate_of_ge e d k, driftUpdate_lt e d k⟩
  · obtain ⟨-, hcounts, hmeter, -⟩ := boundary_crosses s egress order apart n ho
    rw [(superframeNext_iff s).mpr hsf] at hcounts hmeter
    refine ⟨s.boundary egress order apart, whenRunning_of_runs s _ hr, ?_⟩
    rw [hcounts, hmeter]
    refine ⟨fun hs hf => ?_, fun hs hf => ?_, fun hs => ?_, fun hs hf => ?_⟩
    · obtain ⟨meter, counts⟩ := crossed_sampled (s.span n) (s.sentFrame n) hs hf
      rw [meter, counts, commit_eq, slipped_hit]
      exact ⟨rfl, rfl⟩
    · obtain ⟨meter, counts⟩ := crossed_centred (s.span n) (s.sentFrame n) hs hf
      rw [meter, counts, commit_eq]
      exact ⟨rfl, rfl⟩
    · have hna : (s.span n).store.state ≠ .attached := by rcases hs with h | ⟨h, -⟩ <;> simp [h]
      obtain ⟨meter, counts⟩ := crossed_unsampled (s.span n) (s.sentFrame n) hna _ (decides_report_waits _ hs)
      rw [meter, counts, commit_eq]
      exact ⟨rfl, rfl⟩
    · have hna : (s.span n).store.state ≠ .attached := by simp [hs]
      obtain ⟨meter, counts⟩ := crossed_unsampled (s.span n) (s.sentFrame n) hna _ (decides_report_recentres _ hs hf)
      rw [meter, counts, commit_eq]
      exact ⟨rfl, rfl⟩

end Sys2Proof.Machine
end

