-- ==== Sys2Proof/Proofs/Following.lean ====
section
/-! The reference entries following their fault conditions (R66 to R68), and the loop law of R70 under each operation on the
entries and the selection. -/

namespace Sys2Proof.Machine

/-! ### The loop law by its parts -/

/-- The part of R70's law that the loop alone has: its state against the selection, the counts, the timeout left due, and
the ranges of the frequencies. -/
structure Loop.law (l : Loop) : Prop where
  selects : l.selected.isSome = true ↔ l.state = .acquiring ∨ l.state = .locked
  acquires : l.state = .acquiring → l.lockCount ≤ 3
  locks : l.state = .locked → l.lockCount = 4
  counts : l.acqCount ≤ 255
  due : l.timeoutDue = true → l.state = .acquiring ∧ l.acqCount = 255
  rests : l.state = .free ∨ l.state = .holdover → l.lockCount = 0 ∧ l.acqCount = 0
  free : l.state = .free → l.holdoverValid = false
  valid : l.state = .locked ∨ l.state = .holdover → l.holdoverValid = true
  freq : inPull l.freq
  holdoverFreq : inPull l.holdoverFreq
  length : l.history.length ≤ 64
  history : ∀ f ∈ l.history, inPull f

/-- Every entry within its own law (R65, R68). -/
def State.entriesLaw (s : State) : Prop := ∀ e, (s.entry e).law

/-- The selected entry, if there is one, is QUALIFIED (R70). -/
def State.selectsQualified (s : State) : Prop := ∀ e, s.timing.loop.selected = some e → (s.entry e).state = .qualified

/-- An entry that is not DISABLED is enabled (R65). -/
theorem RefEntry.law.enabled {x : RefEntry} (h : x.law) (hs : x.state ≠ .disabled) : x.enable = true := by
  obtain ⟨hd, -⟩ := h
  simpa using fun k => hs (hd.mpr k)

theorem timingLaw_iff (s : State) : s.timing.law ↔ s.entriesLaw ∧ s.timing.loop.law ∧ s.selectsQualified := by
  constructor
  · rintro ⟨he, hs, hq, ha, hl, hc, hd, hr, hf, hv, h1, h2, h3, h4⟩
    exact ⟨he, ⟨hs, ha, hl, hc, hd, hr, hf, hv, h1, h2, h3, h4⟩, fun e k => (hq e k).2⟩
  · rintro ⟨he, ⟨hs, ha, hl, hc, hd, hr, hf, hv, h1, h2, h3, h4⟩, hq⟩
    exact ⟨he, hs, fun e k => ⟨(he e).enabled (by rw [hq e k]; nofun), hq e k⟩, ha, hl, hc, hd, hr, hf, hv, h1, h2, h3, h4⟩

/-! ### Entries (Table 4-4) -/

theorem entryLaw_faulted {x : RefEntry} (why : FaultReason) (h : x.law) (hs : x.state ≠ .disabled) :
    ({ x with state := .faulted, count := 0, reason := why } : RefEntry).law := by
  have on := h.enabled hs
  obtain ⟨-, hp⟩ := h
  exact ⟨by simp [on], hp.1, hp.2.1, nofun⟩

theorem superframes_pos (q : QPeriod) : 0 < q.superframes := by cases q <;> decide

theorem entryLaw_requalify {x : RefEntry} (h : x.law) (hs : x.state ≠ .disabled) : x.requalify.law := by
  have on := h.enabled hs
  obtain ⟨-, hlo, hhi, -⟩ := h
  exact ⟨by simp [RefEntry.requalify, on], hlo, hhi, fun _ => superframes_pos x.q⟩

theorem entryLaw_reason {x : RefEntry} (why : FaultReason) (h : x.law) : ({ x with reason := why } : RefEntry).law := h

/-- A qualification count advanced by one: not in QUALIFYING, at the target, or short of it (R68). -/
theorem qualify_cases (x : RefEntry) :
    (x.state ≠ .qualifying ∧ x.qualify = x) ∨
      (x.state = .qualifying ∧ x.target.superframes ≤ x.count + 1 ∧
        x.qualify = { x with state := .qualified, count := x.target.superframes }) ∨
      (x.state = .qualifying ∧ x.count + 1 < x.target.superframes ∧ x.qualify = { x with count := x.count + 1 }) := by
  unfold RefEntry.qualify
  split
  next h =>
    split
    next hc => exact .inr (.inl ⟨h, hc, rfl⟩)
    next hc => exact .inr (.inr ⟨h, Nat.lt_of_not_le hc, rfl⟩)
  next h => exact .inl ⟨h, rfl⟩

theorem entryLaw_qualify {x : RefEntry} (h : x.law) : x.qualify.law := by
  obtain ⟨-, e⟩ | ⟨hs, -, e⟩ | ⟨hs, hc, e⟩ := qualify_cases x <;> rw [e]
  · exact h
  · have on := h.enabled (by rw [hs]; nofun)
    exact ⟨by simp [on], h.2.1, h.2.2.1, nofun⟩
  · exact ⟨h.1, h.2.1, h.2.2.1, fun _ => hc⟩

/-! ### The loop (R70, R72, R73) -/

theorem loopLaw_select {l : Loop} (e : Fin 4) (h : l.law) :
    ({ l with state := .acquiring, selected := some e, fresh := true, timeoutDue := false, lockCount := 0,
              acqCount := 0 } : Loop).law :=
  ⟨by simp, fun _ => Nat.zero_le 3, nofun, Nat.zero_le _, nofun, fun _ => ⟨rfl, rfl⟩, nofun, fun k => k.elim nofun nofun,
    h.freq, h.holdoverFreq, h.length, h.history⟩

theorem loopLaw_drop {l : Loop} (h : l.law) :
    ({ l with state := if l.holdoverValid then .holdover else .free, selected := none, fresh := false, timeoutDue := false,
              lockCount := 0, acqCount := 0 } : Loop).law := by
  cases hv : l.holdoverValid with
  | false =>
    exact ⟨⟨nofun, fun k => k.elim nofun nofun⟩, nofun, nofun, Nat.zero_le _, nofun, fun _ => ⟨rfl, rfl⟩, fun _ => rfl,
      fun k => k.elim nofun nofun, h.freq, h.holdoverFreq, h.length, h.history⟩
  | true =>
    exact ⟨⟨nofun, fun k => k.elim nofun nofun⟩, nofun, nofun, Nat.zero_le _, nofun, fun _ => ⟨rfl, rfl⟩, nofun,
      fun _ => rfl, h.freq, h.holdoverFreq, h.length, h.history⟩

theorem loopLaw_declareLock {l : Loop} (h : l.law) (ha : l.state = .acquiring) : l.declareLock.law :=
  ⟨⟨fun _ => .inr rfl, fun _ => h.selects.mpr (.inl ha)⟩, nofun, fun _ => rfl, h.counts, nofun, fun k => k.elim nofun nofun,
    nofun, fun _ => rfl, h.freq, h.holdoverFreq, Nat.zero_le 64, nofun⟩

/-- The counts of a loop in ACQUIRING (R72). -/
theorem loopLaw_counted {l : Loop} (lock acq : Nat) (due : Bool) (h : l.law) (ha : l.state = .acquiring) (hl : lock ≤ 3)
    (hc : acq ≤ 255) (hd : due = true → acq = 255) :
    ({ l with lockCount := lock, acqCount := acq, timeoutDue := due } : Loop).law :=
  ⟨h.selects, fun _ => hl, fun k => absurd (ha.symm.trans k) nofun, hc, fun k => ⟨ha, hd k⟩,
    fun k => k.elim (fun k => absurd (ha.symm.trans k) nofun) fun k => absurd (ha.symm.trans k) nofun, h.free, h.valid,
    h.freq, h.holdoverFreq, h.length, h.history⟩

/-! ### The selection -/

theorem entriesLaw_of_entries {s t : State} (h : t.timing.entries = s.timing.entries) (hs : s.entriesLaw) : t.entriesLaw := by
  intro e
  simpa only [State.entry, h] using hs e

theorem entriesLaw_setEntry {s : State} {e : Fin 4} {x : RefEntry} (h : s.entriesLaw) (hx : x.law) :
    (s.setEntry e x).entriesLaw := fun y => by
  by_cases hy : y = e
  · subst hy; simpa using hx
  · rw [setEntry_entry_ne s e y x hy]; exact h y

/-- A selection of a QUALIFIED entry keeps the loop law (R70). -/
theorem law_selectEntry {s : State} (e : Fin 4) (h : s.timing.law) (hq : (s.entry e).state = .qualified) :
    (s.selectEntry e).timing.law := by
  obtain ⟨he, hl, -⟩ := (timingLaw_iff s).mp h
  refine (timingLaw_iff _).mpr ⟨entriesLaw_of_entries rfl he, loopLaw_select e hl, fun y hy => ?_⟩
  cases hy
  exact hq

/-- A selection dropped leaves the loop law whole, whatever the entry has become (R73). -/
theorem law_dropSelection {s : State} (he : s.entriesLaw) (hl : s.timing.loop.law) : s.dropSelection.timing.law :=
  (timingLaw_iff _).mpr ⟨entriesLaw_of_entries rfl he, loopLaw_drop hl, nofun⟩

/-- An entry rewritten within its law, which stays QUALIFIED if it is the selected one. -/
theorem law_setEntry {s : State} {e : Fin 4} {x : RefEntry} (h : s.timing.law) (hx : x.law)
    (hsel : s.timing.loop.selected = some e → x.state = .qualified) : (s.setEntry e x).timing.law := by
  obtain ⟨he, hl, hq⟩ := (timingLaw_iff s).mp h
  refine (timingLaw_iff _).mpr ⟨entriesLaw_setEntry he hx, hl, fun y hy => ?_⟩
  by_cases hye : y = e
  · subst hye; rw [setEntry_entry]; exact hsel hy
  · rw [setEntry_entry_ne s e y x hye]; exact hq y hy

theorem law_faultEntry {s : State} (e : Fin 4) (why : FaultReason) (h : s.timing.law) (hs : (s.entry e).state ≠ .disabled) :
    (s.faultEntry e why).timing.law := by
  obtain ⟨he, hl, hq⟩ := (timingLaw_iff s).mp h
  have set := entriesLaw_setEntry (e := e) he (entryLaw_faulted why (he e) hs)
  unfold State.faultEntry State.dropIfSelected
  split
  next => exact law_dropSelection set hl
  next hne => exact law_setEntry h (entryLaw_faulted why (he e) hs) fun k => absurd k hne

/-- A FAULTED or QUALIFYING entry is not the selected one (R70). -/
theorem not_selected {s : State} {e : Fin 4} (h : s.timing.law) (hs : (s.entry e).state ≠ .qualified) :
    s.timing.loop.selected ≠ some e := fun k => hs (((timingLaw_iff s).mp h).2.2 e k)

/-! ### Entries that follow -/

/-- Entry `e` follows its fault condition (R66, R67). -/
def State.follows (s : State) (e : Fin 4) : Prop :=
  ((s.entry e).state = .qualifying ∨ (s.entry e).state = .qualified → s.entryFault e = none) ∧
  ((s.entry e).state = .faulted → s.entryFault e = some (s.entry e).reason)

/-- The fault conditions of `s` and `t` are the same, whatever span an entry names. -/
def State.sameFaults (s t : State) : Prop := ∀ e n, t.faultOf e n = s.faultOf e n

theorem sameFaults_refl (s : State) : s.sameFaults s := fun _ _ => rfl

/-- The fault conditions are read off the spans' line faults and the monitors. -/
theorem sameFaults_of {s t : State} (hs : ∀ n, (t.span n).lineFault = (s.span n).lineFault)
    (ha : t.timing.monitorA.noActivity = s.timing.monitorA.noActivity)
    (hb : t.timing.monitorB.noActivity = s.timing.monitorB.noActivity) : s.sameFaults t := by
  intro e n
  unfold State.faultOf
  split
  · exact hs n
  · split <;> simp only [ha, hb]

theorem sameFaults_of_timing {s t : State} (hs : t.spans = s.spans) (ht : t.timing = s.timing) : s.sameFaults t :=
  sameFaults_of (fun n => by simp only [State.span, hs]) (by rw [ht]) (by rw [ht])

theorem sameFaults_of_timingActs {s t : State} (h : s.timingActs t) : s.sameFaults t := by
  have hs := timingActs_span h
  obtain ⟨-, -, -, -, -, -, -, -, ha, hb, -⟩ := h
  exact sameFaults_of (fun n => by rw [hs]) (by rw [ha]) (by rw [hb])

theorem follows_congr_entry {s t : State} {e : Fin 4} (hf : s.sameFaults t) (he : t.entry e = s.entry e) (h : s.follows e) :
    t.follows e := by
  unfold State.follows State.entryFault at *
  rw [he, hf]
  exact h

theorem entriesFollow_congr {s t : State} (hf : s.sameFaults t) (he : t.timing.entries = s.timing.entries)
    (h : s.entriesFollow) : t.entriesFollow := fun e =>
  follows_congr_entry hf (by simp only [State.entry, he]) (h e)

/-- An entry rewritten for its fault condition as it stands. -/
theorem follows_setEntry (s : State) (e : Fin 4) (x : RefEntry)
    (hq : x.state = .qualifying ∨ x.state = .qualified → s.faultOf e x.span = none)
    (hx : x.state = .faulted → s.faultOf e x.span = some x.reason) : (s.setEntry e x).follows e := by
  unfold State.follows State.entryFault
  rw [setEntry_entry]
  exact ⟨hq, hx⟩

theorem dropIfSelected_entry (s : State) (e y : Fin 4) : (s.dropIfSelected e).entry y = s.entry y := by
  unfold State.dropIfSelected
  split <;> rfl

theorem faultEntry_entry (s : State) (e y : Fin 4) (why : FaultReason) :
    (s.faultEntry e why).entry y =
      (s.setEntry e { s.entry e with state := .faulted, count := 0, reason := why }).entry y := dropIfSelected_entry _ e y

theorem followEntry_entry_ne (s : State) (e y : Fin 4) (h : y ≠ e) : (s.followEntry e).entry y = s.entry y := by
  unfold State.followEntry
  split
  · rfl
  · exact setEntry_entry_ne s e y _ h
  · exact setEntry_entry_ne s e y _ h
  · exact (faultEntry_entry s e y _).trans (setEntry_entry_ne s e y _ h)
  · exact (faultEntry_entry s e y _).trans (setEntry_entry_ne s e y _ h)
  · rfl
  · rfl

/-- An entry moved with its fault condition follows it, however it stood before. -/
theorem followEntry_follows (s : State) (e : Fin 4) : (s.followEntry e).follows e := by
  have faulted (why : FaultReason) (h : s.entryFault e = some why) : (s.faultEntry e why).follows e :=
    follows_congr_entry (sameFaults_of_timingActs (timingActs_trans (latchDevice_acts _) (dropIfSelected_acts _ e)))
      (faultEntry_entry s e e why) (follows_setEntry s e _ (fun k => k.elim nofun nofun) fun _ => h)
  unfold State.followEntry
  split
  next h => exact ⟨fun k => k.elim (fun k => absurd (h.symm.trans k) nofun) fun k => absurd (h.symm.trans k) nofun,
      fun k => absurd (h.symm.trans k) nofun⟩
  next why hs hf => exact follows_setEntry s e _ (fun k => k.elim (fun k => absurd (hs.symm.trans k) nofun)
      fun k => absurd (hs.symm.trans k) nofun) fun _ => hf
  next hs hf => exact follows_setEntry s e _ (fun _ => hf) nofun
  next why hs hf => exact faulted why hf
  next why hs hf => exact faulted why hf
  next hs hf => exact ⟨fun _ => hf, fun k => absurd (hs.symm.trans k) nofun⟩
  next hs hf => exact ⟨fun _ => hf, fun k => absurd (hs.symm.trans k) nofun⟩

theorem followEntry_keeps_follows (s : State) (e y : Fin 4) (h : s.follows y) : (s.followEntry e).follows y := by
  by_cases hy : y = e
  · subst hy; exact followEntry_follows s y
  · exact follows_congr_entry (sameFaults_of_timingActs (followEntry_acts s e)) (followEntry_entry_ne s e y hy) h

theorem law_followEntry {s : State} (e : Fin 4) (h : s.timing.law) : (s.followEntry e).timing.law := by
  obtain ⟨he, -⟩ := (timingLaw_iff s).mp h
  unfold State.followEntry
  split
  next => exact h
  next why hs hf => exact law_setEntry h (entryLaw_reason why (he e)) fun k => absurd k (not_selected h (by rw [hs]; nofun))
  next hs hf =>
    exact law_setEntry h (entryLaw_requalify (he e) (by rw [hs]; nofun)) fun k => absurd k (not_selected h (by rw [hs]; nofun))
  next why hs hf => exact law_faultEntry e why h (by rw [hs]; nofun)
  next why hs hf => exact law_faultEntry e why h (by rw [hs]; nofun)
  next => exact h
  next => exact h

/-- The entries moved with their fault conditions, one after another. -/
theorem followEntries_eq (s : State) :
    s.followEntries = (((s.followEntry 0).followEntry 1).followEntry 2).followEntry 3 := rfl

/-- Every entry follows once all have been moved, however they stood before (R66, R67). -/
theorem followEntries_follow (s : State) : s.followEntries.entriesFollow := fun e => by
  rw [followEntries_eq]
  have later (t : State) (x : Fin 4) : t.follows e → (t.followEntry x).follows e := followEntry_keeps_follows t x e
  fin_cases e
  · exact later _ 3 (later _ 2 (later _ 1 (followEntry_follows s 0)))
  · exact later _ 3 (later _ 2 (followEntry_follows _ 1))
  · exact later _ 3 (followEntry_follows _ 2)
  · exact followEntry_follows _ 3

theorem law_followEntries {s : State} (h : s.timing.law) : s.followEntries.timing.law :=
  law_followEntry 3 (law_followEntry 2 (law_followEntry 1 (law_followEntry 0 h)))

theorem setEntry_self (s : State) (e : Fin 4) : s.setEntry e (s.entry e) = s := by
  simp [State.setEntry, State.entry]

/-- An entry that follows its fault condition is not moved. -/
theorem followEntry_of_follows (s : State) (e : Fin 4) (h : s.follows e) : s.followEntry e = s := by
  obtain ⟨hq, hf⟩ := h
  unfold State.followEntry
  split
  next => rfl
  next why hs k =>
    have hw : why = (s.entry e).reason := Option.some.inj (k.symm.trans (hf hs))
    rw [hw]
    exact setEntry_self s e
  next hs k => exact absurd (k.symm.trans (hf hs)) nofun
  next why hs k => exact absurd (k.symm.trans (hq (.inl hs))) nofun
  next why hs k => exact absurd (k.symm.trans (hq (.inr hs))) nofun
  next => rfl
  next => rfl

theorem followEntries_of_follow (s : State) (h : s.entriesFollow) : s.followEntries = s := by
  rw [followEntries_eq, followEntry_of_follows s 0 (h 0), followEntry_of_follows s 1 (h 1), followEntry_of_follows s 2 (h 2),
    followEntry_of_follows s 3 (h 3)]

end Sys2Proof.Machine
end

