-- ==== Sys2Proof/Proofs/TimingStages.lean ====
section
/-! The loop law, with the entries following their fault conditions, under the events of span timing, the reference events and
the stages of a boundary (R66 to R76). -/

namespace Sys2Proof.Machine

/-- The loop law, with every entry following its fault condition (R66 to R68, R70). -/
structure State.timingSafe (s : State) : Prop where
  law : s.timing.law
  follow : s.entriesFollow

/-- Office timing and the fault conditions as they were. -/
theorem State.timingSafe.keep {s t : State} (h : s.timingSafe) (hf : s.sameFaults t) (ht : t.timing = s.timing) :
    t.timingSafe := ⟨ht ▸ h.law, entriesFollow_congr hf (by rw [ht]) h.follow⟩

theorem State.timingSafe.of_same {s t : State} (h : s.timingSafe) (hs : t.spans = s.spans) (ht : t.timing = s.timing) :
    t.timingSafe := h.keep (sameFaults_of_timing hs ht) ht

theorem timingSafe_answer {s : State} (h : s.timingSafe) (code tag : Byte) (o : OrderOutcome) (r : List Byte) :
    (s.answer code tag o r).timingSafe := h.of_same rfl rfl

/-- A change published leaves every entry following, whatever the change was (R67). -/
theorem publish_timingSafe {s : State} (n : Fin 16) (h : s.timing.law) : (s.publish n).timingSafe :=
  ⟨law_followEntries (s := s.modSpan n Span.latch) h, followEntries_follow _⟩

/-! ### Events of span timing -/

theorem readSide_timingSafe {s : State} (n : Fin 16) (r : Nat) (h : s.timing.law) : (s.readSide n r).timingSafe :=
  publish_timingSafe n h

theorem loseAlignment_timingSafe {s : State} (n : Fin 16) (r : Nat) (a : Aligner) (h : s.timing.law) :
    (s.loseAlignment n r a).timingSafe := by
  have read := (readSide_timingSafe n r h).law
  unfold State.loseAlignment
  split
  · generalize s.readSide n r = t at read
    exact publish_timingSafe n read
  · exact publish_timingSafe n h

theorem windowActs_timingSafe {s : State} (n : Fin 16) (r : Nat) (before : LineWindows) (h : s.timing.law) :
    (s.windowActs n r before).timingSafe := by
  have published := publish_timingSafe n h
  have lost (a : Aligner) := loseAlignment_timingSafe n r a h
  unfold State.windowActs
  dsimp only
  cases (s.span n).rx.aligner with
  | hunt f =>
    dsimp only
    split
    · exact publish_timingSafe n h
    · exact published
  | verify c m f => dsimp only; split; exacts [lost _, published]
  | locked p => dsimp only; split; exacts [lost _, published]
  | flywheel p m => dsimp only; split; exacts [lost _, published]
  | off => exact published
  | absent => exact published

section

variable {s : State} (h : s.timingSafe)
include h

/-- The level of clock-present is in no fault condition (R67). -/
theorem setClock_timingSafe (n : Fin 16) (l : Bool) : (s.modSpan n fun sp => sp.setClock l).timingSafe := by
  refine h.keep (sameFaults_of (fun m => ?_) rfl rfl) rfl
  by_cases hm : m = n
  · subst hm; rw [modSpan_span]; rfl
  · rw [modSpan_span_ne s n m _ hm]

theorem clockRise_timingSafe (n : Fin 16) : (s.clockRise n).timingSafe := by
  unfold State.clockRise
  dsimp only
  split
  · exact publish_timingSafe n h.law
  · exact setClock_timingSafe h n true

theorem clockFall_timingSafe (n : Fin 16) (r : Nat) : (s.clockFall n r).timingSafe := by
  unfold State.clockFall
  dsimp only
  split
  · exact loseAlignment_timingSafe n r .absent h.law
  · exact setClock_timingSafe h n false

theorem noiseEnd_timingSafe (n : Fin 16) : (s.noiseEnd n).timingSafe := by
  unfold State.noiseEnd
  split
  · exact publish_timingSafe n h.law
  · exact h

theorem windowEnd_timingSafe (n : Fin 16) (r : Nat) (samples : Vector Looks 336) : (s.windowEnd n r samples).timingSafe := by
  unfold State.windowEnd
  split
  · dsimp only
    split
    · exact windowActs_timingSafe n r _ (publish_timingSafe (s := s.modSpan n Span.noiseEvaluate) n h.law).law
    · exact windowActs_timingSafe n r _ h.law
  · exact h

theorem huntFound_timingSafe (n : Fin 16) (p : Nat) (o : Byte) : (s.huntFound n p o).timingSafe := by
  unfold State.huntFound
  split
  · split
    · exact publish_timingSafe n h.law
    · exact h
  · exact h

theorem verifyCheck_timingSafe (n : Fin 16) (p : Nat) (o : Byte) : (s.verifyCheck n p o).timingSafe := by
  obtain e | ⟨c, m, f, -, e⟩ := verifyCheck_cases s n p o <;> rw [e]
  · exact h
  · unfold State.verifyResult
    dsimp only
    split_ifs <;> exact publish_timingSafe n h.law

theorem expectedOctet_timingSafe (n : Fin 16) (r p : Nat) (o : Byte) : (s.expectedOctet n r p o).timingSafe := by
  obtain e | ⟨-, ⟨a, -, -, e⟩ | e⟩ := expectedOctet_cases s n r p o <;> rw [e]
  · exact h
  · exact publish_timingSafe n h.law
  · exact loseAlignment_timingSafe n r _ h.law

theorem alignedFrame_timingSafe (n : Fin 16) (r : Nat) (bits : List Bool) : (s.alignedFrame n r bits).timingSafe := by
  unfold State.alignedFrame
  split
  · exact publish_timingSafe n h.law
  · exact h

theorem underrun_timingSafe (n : Fin 16) : (s.underrun n).timingSafe := by
  unfold State.underrun
  split
  · exact publish_timingSafe n h.law
  · exact h

end

/-! ### Reference events (R71) -/

/-- Office timing `t` stands as `u` does in all that the loop law and the fault conditions read. -/
structure Timing.sameLoop (u t : Timing) : Prop where
  entries : t.entries = u.entries
  loop : t.loop = u.loop
  noActivityA : t.monitorA.noActivity = u.monitorA.noActivity
  noActivityB : t.monitorB.noActivity = u.monitorB.noActivity

theorem timingSafe_of_sameLoop {s t : State} (h : s.timingSafe) (hs : t.spans = s.spans) (ht : s.timing.sameLoop t.timing) :
    t.timingSafe := by
  obtain ⟨he, hl, hq⟩ := (timingLaw_iff s).mp h.law
  refine ⟨(timingLaw_iff t).mpr ⟨entriesLaw_of_entries ht.entries he, ht.loop ▸ hl, fun e k => ?_⟩, ?_⟩
  · rw [State.entry, ht.entries]
    exact hq e (ht.loop ▸ k)
  · exact entriesFollow_congr (sameFaults_of (fun n => by simp only [State.span, hs]) ht.noActivityA ht.noActivityB)
      ht.entries h.follow

theorem notePulse_sameLoop (t : Timing) (input : RefInput) : t.sameLoop (t.notePulse input) := by
  cases input <;> exact ⟨rfl, rfl, rfl, rfl⟩

theorem measure_sameLoop (t : Timing) (input : RefInput) (time : Int) (frequency : Rat) :
    t.sameLoop (t.measure input time frequency) := by
  unfold Timing.measure
  split
  · exact ⟨rfl, rfl, rfl, rfl⟩
  · split <;> exact ⟨rfl, rfl, rfl, rfl⟩

theorem referenceEvent_sameLoop (t : Timing) (input : RefInput) (time : Int) (frequency : Rat) :
    t.sameLoop (t.referenceEvent input time frequency) := by
  obtain ⟨he, hl, ha, hb⟩ := notePulse_sameLoop t input
  obtain ⟨ke, kl, ka, kb⟩ := measure_sameLoop (t.notePulse input) input time frequency
  exact ⟨ke.trans he, kl.trans hl, ka.trans ha, kb.trans hb⟩

/-! ### The stages of a boundary (R66, R68, R72, R76) -/

/-- The monitors, and the entries that follow them (R66). -/
theorem monitors_timingSafe {s : State} (h : s.timing.law) : s.monitors.timingSafe :=
  ⟨law_followEntries h, followEntries_follow _⟩

theorem qualifyAll_entry (s : State) (e : Fin 4) : s.qualifyAll.entry e = (s.entry e).qualify := by
  simp [State.qualifyAll, State.entry]

theorem qualify_qualified {x : RefEntry} (h : x.state = .qualified) : x.qualify = x := by
  unfold RefEntry.qualify
  rw [h]

/-- An entry advanced by a qualification count follows as before: without a fault condition (R68). -/
theorem follows_of_qualify {s t : State} {e : Fin 4} (hf : s.sameFaults t) (he : t.entry e = (s.entry e).qualify)
    (h : s.follows e) : t.follows e := by
  obtain ⟨-, k⟩ | ⟨hs, -, k⟩ | ⟨hs, -, k⟩ := qualify_cases (s.entry e)
  · exact follows_congr_entry hf (he.trans k) h
  · unfold State.follows State.entryFault
    rw [he, k, hf]
    exact ⟨fun _ => h.1 (.inl hs), nofun⟩
  · unfold State.follows State.entryFault
    rw [he, k, hf]
    exact h

theorem qualifyAll_timingSafe {s : State} (h : s.timingSafe) : s.qualifyAll.timingSafe := by
  obtain ⟨he, hl, hq⟩ := (timingLaw_iff s).mp h.law
  refine ⟨(timingLaw_iff _).mpr ⟨fun e => ?_, hl, fun e k => ?_⟩, fun e => ?_⟩
  · rw [qualifyAll_entry]
    exact entryLaw_qualify (he e)
  · rw [qualifyAll_entry, qualify_qualified (hq e k)]
    exact hq e k
  · exact follows_of_qualify (s := s) (sameFaults_of (fun _ => rfl) rfl rfl) (qualifyAll_entry s e) (h.follow e)

theorem selectEntry_timingSafe {s : State} (e : Fin 4) (h : s.timingSafe) (hq : (s.entry e).state = .qualified) :
    (s.selectEntry e).timingSafe :=
  ⟨law_selectEntry e h.law hq, entriesFollow_congr (sameFaults_of_timingActs (selectEntry_spec s e).1) rfl h.follow⟩

theorem better_qualified (t : Timing) (b : Option (Fin 4)) (e x : Fin 4) (hb : b = some x → t.entries[x].state = .qualified)
    (h : t.better b e = some x) : t.entries[x].state = .qualified := by
  unfold Timing.better at h
  split at h
  next hq =>
    split at h
    · cases h; exact hq
    · split at h
      · cases h; exact hq
      · exact hb h
  next => exact hb h

/-- The best entry is QUALIFIED (R76). -/
theorem best_qualified (s : State) (b : Fin 4) (h : s.timing.best = some b) : (s.entry b).state = .qualified := by
  have step (best : Option (Fin 4)) (e : Fin 4) := better_qualified s.timing best e b
  exact step _ 3 (step _ 2 (step _ 1 (step none 0 nofun))) h

theorem autoSelect_timingSafe {s : State} (h : s.timingSafe) : s.autoSelect.timingSafe := by
  unfold State.autoSelect
  split
  · exact h
  · exact h
  next b _ hb =>
    have selects := selectEntry_timingSafe b h (best_qualified s b hb)
    split
    · exact selects
    · split
      · exact selects
      · exact h

/-- An entry after its timeout: faulted, and at once in QUALIFYING from 0 (Table 4-4, R72). -/
def RefEntry.timedOut (x : RefEntry) : RefEntry :=
  { x with state := .qualifying, count := 0, target := x.q, reason := .timeout }

/-- The selection that a timeout drops: the entry timed out, its alarm latched, the device's count raised (R72, R73). -/
theorem timeout_drops {s : State} {e : Fin 4} (h : s.timing.loop.selected = some e) :
    ∃ u, s.timeout = u.dropSelection ∧ s.sameFaults u ∧ u.timing.loop = s.timing.loop ∧
      ∀ y, u.entry y = (s.setEntry e (s.entry e).timedOut).entry y := by
  unfold State.timeout
  rw [h]
  refine ⟨_, rfl, sameFaults_of (fun _ => rfl) rfl rfl, rfl, fun y => ?_⟩
  by_cases hy : y = e
  · subst hy
    exact (setEntry_entry _ y _).trans ((congrArg RefEntry.requalify (setEntry_entry s y _)).trans (setEntry_entry s y _).symm)
  · rw [setEntry_entry_ne s e y _ hy]
    exact (setEntry_entry_ne _ e y _ hy).trans (setEntry_entry_ne s e y _ hy)

theorem timeout_of_none {s : State} (h : s.timing.loop.selected = none) : s.timeout = s := by
  unfold State.timeout
  rw [h]

theorem entryLaw_timedOut {x : RefEntry} (h : x.law) (hs : x.state ≠ .disabled) : x.timedOut.law :=
  entryLaw_requalify (x := { x with reason := .timeout }) h hs

/-- A timeout requalifies an entry without a fault condition, and drops the selection (R72, R73). -/
theorem timeout_timingSafe {s : State} (h : s.timingSafe) : s.timeout.timingSafe := by
  obtain ⟨he, hl, hq⟩ := (timingLaw_iff s).mp h.law
  cases hsel : s.timing.loop.selected with
  | none => rw [timeout_of_none hsel]; exact h
  | some e =>
    obtain ⟨u, eq, faults, loop, entries⟩ := timeout_drops hsel
    have clear : s.entryFault e = none := (h.follow e).1 (.inr (hq e hsel))
    have timed : (s.setEntry e (s.entry e).timedOut).entriesLaw :=
      entriesLaw_setEntry he (entryLaw_timedOut (he e) (by rw [hq e hsel]; nofun))
    rw [eq]
    refine ⟨law_dropSelection (fun y => by rw [entries]; exact timed y) (loop ▸ hl), fun y => ?_⟩
    refine follows_congr_entry (sameFaults_of_timingActs (dropSelection_spec u).1) rfl ?_
    refine follows_congr_entry (s := s.setEntry e (s.entry e).timedOut) faults (entries y) ?_
    by_cases hy : y = e
    · subst hy
      exact follows_setEntry s y _ (fun _ => clear) nofun
    · exact follows_congr_entry (sameFaults_refl s) (setEntry_entry_ne s e y _ hy) (h.follow y)

theorem acquisitionTimeout_timingSafe {s : State} (h : s.timingSafe) : s.acquisitionTimeout.timingSafe := by
  unfold State.acquisitionTimeout
  split
  · exact timeout_timingSafe h
  · exact h

/-- A loop within its law that keeps the selection. -/
theorem setLoop_timingSafe {s : State} {l : Loop} (h : s.timingSafe) (hl : l.law) (hs : l.selected = s.timing.loop.selected) :
    (s.setLoop l).timingSafe := by
  obtain ⟨he, -, hq⟩ := (timingLaw_iff s).mp h.law
  exact ⟨(timingLaw_iff _).mpr ⟨he, hl, fun e k => hq e (hs ▸ k)⟩, entriesFollow_congr (sameFaults_of (fun _ => rfl) rfl rfl)
    rfl h.follow⟩

theorem lockStage_timingSafe {s : State} (apart : Bool) (h : s.timingSafe) : (s.lockStage apart).timingSafe := by
  obtain ⟨-, hl, -⟩ := (timingLaw_iff s).mp h.law
  unfold State.lockStage
  dsimp only
  generalize (if s.timing.detector.reading = true then s.timing.loop.lockCount + 1 else 0) = count
  split
  next ha =>
    obtain ⟨ha, -⟩ := ha
    have due (k : s.timing.loop.timeoutDue = true) : s.timing.loop.acqCount = 255 := (hl.due k).2
    split
    · exact setLoop_timingSafe h (loopLaw_declareLock hl ha) rfl
    next hc =>
      have hc3 : count ≤ 3 := by omega
      split
      next h255 =>
        refine setLoop_timingSafe h (loopLaw_counted count _ _ hl ha hc3 (by omega) fun k => ?_) rfl
        have := due k
        omega
      next h255 =>
        have full : s.timing.loop.acqCount = 255 := by have := hl.counts; omega
        split
        · exact setLoop_timingSafe h (loopLaw_counted count _ true hl ha hc3 hl.counts fun _ => full) rfl
        · exact timeout_timingSafe (setLoop_timingSafe h (loopLaw_counted count _ _ hl ha hc3 hl.counts due) rfl)
  next => exact h

/-! ### The oscillator (R64, R74) -/

theorem inPull_pullIn (f : Rat) : inPull (pullIn f) := by
  unfold inPull pullIn
  have : (0 : Rat) ≤ Config.pullRange := by decide
  exact ⟨le_max_left _ _, max_le (by linarith) (min_le_left _ _)⟩

/-- A slew ends between where it began and its target (R64). -/
theorem inPull_slew {f g : Rat} (hf : inPull f) (hg : inPull g) : inPull (slew f g) := by
  obtain ⟨f1, f2⟩ := hf
  obtain ⟨g1, g2⟩ := hg
  unfold slew
  split_ifs
  · exact ⟨by linarith, by linarith⟩
  · exact ⟨by linarith, by linarith⟩
  · exact ⟨g1, g2⟩

theorem inPull_target {t : Timing} (h : t.loop.law) : inPull t.target := by
  unfold Timing.target
  split
  · exact ⟨by decide, by decide⟩
  · exact h.holdoverFreq
  · exact inPull_pullIn _
  · exact inPull_pullIn _

theorem sum_bounds (l : List Rat) (h : ∀ f ∈ l, inPull f) :
    -Config.pullRange * l.length ≤ l.sum ∧ l.sum ≤ Config.pullRange * l.length := by
  induction l with
  | nil => simp
  | cons f l ih =>
    obtain ⟨f1, f2⟩ := h f List.mem_cons_self
    obtain ⟨l1, l2⟩ := ih fun g hg => h g (List.mem_cons_of_mem f hg)
    rw [List.sum_cons, List.length_cons, Nat.cast_succ]
    constructor <;> linarith

/-- The mean of frequencies within the pull range is within it (R74). -/
theorem inPull_mean {l : List Rat} (hl : l ≠ []) (h : ∀ f ∈ l, inPull f) : inPull (mean l) := by
  obtain ⟨lo, hi⟩ := sum_bounds l h
  have pos : (0 : Rat) < l.length := by exact_mod_cast List.length_pos_iff.mpr hl
  exact ⟨(le_div_iff₀ pos).mpr lo, (div_le_iff₀ pos).mpr hi⟩

theorem loopLaw_steer {t : Timing} (h : t.loop.law) : t.steer.loop.law := by
  have slewed := inPull_slew h.freq (inPull_target h)
  unfold Timing.steer
  dsimp only
  split
  next =>
    have entered : ∀ f ∈ (slew t.loop.freq t.target :: t.loop.history).take 64, inPull f := fun f hf => by
      rcases List.mem_cons.mp (List.mem_of_mem_take hf) with rfl | hf
      · exact slewed
      · exact h.history f hf
    exact ⟨h.selects, h.acquires, h.locks, h.counts, h.due, h.rests, h.free, h.valid, slewed, inPull_mean (by simp) entered,
      by simp, entered⟩
  next =>
    exact ⟨h.selects, h.acquires, h.locks, h.counts, h.due, h.rests, h.free, h.valid, slewed, h.holdoverFreq, h.length,
      h.history⟩

/-- The oscillator changes frequencies alone (R64, R74). -/
theorem steer_eq (t : Timing) :
    t.steer = { t with loop := { t.loop with
      freq := t.steer.loop.freq, history := t.steer.loop.history, holdoverFreq := t.steer.loop.holdoverFreq } } := by
  unfold Timing.steer
  dsimp only
  split <;> rfl

/-! ### The handling of a boundary (R69) -/

theorem otuSuperframe_timingSafe {s : State} (apart : Bool) (h : s.timingSafe) : (s.otuSuperframe apart).timingSafe := by
  have staged := lockStage_timingSafe apart (autoSelect_timingSafe (qualifyAll_timingSafe h))
  unfold State.otuSuperframe
  generalize s.qualifyAll.autoSelect.lockStage apart = u at staged
  obtain ⟨he, hl, hq⟩ := (timingLaw_iff u).mp staged.law
  have hsteer := steer_eq u.timing
  have hent : u.timing.steer.entries = u.timing.entries := by rw [hsteer]
  have hsel : u.timing.steer.loop.selected = u.timing.loop.selected := by rw [hsteer]
  have hma : u.timing.steer.monitorA = u.timing.monitorA := by rw [hsteer]
  have hmb : u.timing.steer.monitorB = u.timing.monitorB := by rw [hsteer]
  refine ⟨(timingLaw_iff _).mpr ⟨entriesLaw_of_entries hent he, loopLaw_steer hl, fun e k => ?_⟩, ?_⟩
  · exact (congrArg (fun v : Vector RefEntry 4 => v[e].state) hent).trans (hq e (hsel.symm.trans k))
  · refine entriesFollow_congr (s := u) (sameFaults_of (fun _ => rfl) ?_ ?_) hent staged.follow
    · exact congrArg Monitor.noActivity hma
    · exact congrArg Monitor.noActivity hmb

theorem otuBoundary_timingSafe {s : State} (superframe apart : Bool) (h : s.timing.law) :
    (s.otuBoundary superframe apart).timingSafe := by
  unfold State.otuBoundary
  split
  · exact otuSuperframe_timingSafe apart (monitors_timingSafe h)
  · exact monitors_timingSafe h

end Sys2Proof.Machine
end

