-- ==== Sys2Proof/Proofs/TimingLaw.lean ====
section
/-! Every step keeps the loop law, with the entries following their fault conditions (O9): the orders, the boundary, and one
command. -/

namespace Sys2Proof.Machine

/-! ### Orders that leave office timing alone -/

/-- An order that writes office timing, or whose published change the reference entries follow. -/
def ordersTiming : Instr → Bool
  | .setSpan .. => true
  | .spanRestart .. => true
  | .setDrift .. => true
  | .setReference .. => true
  | .setTimingMode .. => true
  | .selectReference .. => true
  | .setTimingOutput .. => true
  | _ => false

theorem takeReadCounts_timing (tag a b c : Byte) (s : State) : (takeReadCounts tag a b c s).timing = s.timing := by
  unfold takeReadCounts
  split
  · rfl
  next cl _ =>
    split
    · cases cl <;> rfl
    · split
      · rfl
      · dsimp only
        split_ifs <;> rfl

/-- Every order that neither writes office timing nor is followed by the entries leaves it alone. -/
theorem takeOrder_timing (sampled : Fin 16 → Bool) (s : State) (i : Instr) (h : ordersTiming i = false) :
    (s.takeOrder sampled i).timing = s.timing := by
  cases i with
  | readSpan => dsimp only [State.takeOrder]; unfold takeReadSpan; split <;> rfl
  | setThresholds => dsimp only [State.takeOrder]; unfold takeSetThresholds; split <;> rfl
  | readStore => dsimp only [State.takeOrder]; unfold takeReadStore; split <;> rfl
  | readDrift => dsimp only [State.takeOrder]; unfold takeReadDrift; split <;> rfl
  | readReference => dsimp only [State.takeOrder]; unfold takeReadReference; split <;> rfl
  | writeIngressEntry => dsimp only [State.takeOrder]; unfold takeWriteIngressEntry; split <;> [split_ifs <;> rfl; rfl]
  | writeEgressEntry => dsimp only [State.takeOrder]; unfold takeWriteEgressEntry; split <;> [split_ifs <;> rfl; rfl]
  | readIngressEntry => dsimp only [State.takeOrder]; unfold takeReadIngressEntry; split <;> [split_ifs <;> rfl; rfl]
  | readEgressEntry => dsimp only [State.takeOrder]; unfold takeReadEgressEntry; split <;> rfl
  | swapMaps => dsimp only [State.takeOrder]; unfold takeSwapMaps; split <;> rfl
  | copyMaps => dsimp only [State.takeOrder]; unfold takeCopyMaps; split <;> [rfl; split_ifs <;> rfl]
  | setTimer => dsimp only [State.takeOrder]; unfold takeSetTimer; split <;> [split_ifs <;> rfl; rfl]
  | loadMatch => dsimp only [State.takeOrder]; unfold takeLoadMatch; split <;> rfl
  | armTimer => dsimp only [State.takeOrder]; unfold takeArmTimer takeArming; split <;> rfl
  | disarmTimer => dsimp only [State.takeOrder]; unfold takeDisarmTimer takeArming; split <;> rfl
  | readTimer => dsimp only [State.takeOrder]; unfold takeReadTimer; split <;> rfl
  | setFrameNumber => dsimp only [State.takeOrder]; unfold takeSetFrameNumber; split_ifs <;> rfl
  | setUnit => dsimp only [State.takeOrder]; unfold takeSetUnit; split <;> [split_ifs <;> rfl; rfl]
  | startUnit => dsimp only [State.takeOrder]; unfold takeStartUnit; split <;> rfl
  | stopUnit => dsimp only [State.takeOrder]; unfold takeStopUnit; split <;> rfl
  | triggerUnit => dsimp only [State.takeOrder]; unfold takeTriggerUnit; split <;> rfl
  | readUnit => dsimp only [State.takeOrder]; unfold takeReadUnit; split <;> rfl
  | readBuffer => dsimp only [State.takeOrder]; unfold takeReadBuffer; split <;> rfl
  | writeBuffer => dsimp only [State.takeOrder]; unfold takeWriteBuffer; split <;> rfl
  | readAlarms => dsimp only [State.takeOrder]; unfold takeReadAlarms; split <;> rfl
  | clearLatched => dsimp only [State.takeOrder]; unfold takeClearLatched; split <;> rfl
  | readCounts => exact takeReadCounts_timing _ _ _ _ s
  | setSpan => cases h
  | spanRestart => cases h
  | setDrift => cases h
  | setReference => cases h
  | setTimingMode => cases h
  | selectReference => cases h
  | setTimingOutput => cases h
  | _ => rfl

/-! ### Orders and the fault conditions (R67) -/

/-- One span changed in nothing its line fault reads. -/
theorem sameFaults_modSpan (s : State) (n : Fin 16) (f : Span → Span) (h : ∀ sp, (f sp).lineFault = sp.lineFault) :
    s.sameFaults (s.modSpan n f) := by
  refine sameFaults_of (fun m => ?_) rfl rfl
  by_cases hm : m = n
  · subst hm; rw [modSpan_span]; exact h _
  · rw [modSpan_span_ne s n m f hm]

theorem warm_sameFaults (s : State) : s.sameFaults s.warm := by
  refine sameFaults_of (fun n => ?_) rfl rfl
  have e : s.warm.span n = (s.span n).warm := by simp [State.warm, State.span]
  rw [e]
  rfl

/-- A reply changes no fault condition. -/
theorem sameFaults_answer {s t : State} (h : s.sameFaults t) (code tag : Byte) (o : OrderOutcome) (r : List Byte) :
    s.sameFaults (t.answer code tag o r) := h

theorem takeReadCounts_sameFaults (tag a b c : Byte) (s : State) : s.sameFaults (takeReadCounts tag a b c s) := by
  have cleared (n : Fin 16) (f : SpanCounts → SpanCounts) :
      s.sameFaults (s.modSpan n fun sp => { sp with counts := f sp.counts }) := sameFaults_modSpan s n _ fun _ => rfl
  unfold takeReadCounts
  split
  · exact sameFaults_refl s
  next cl _ =>
    split
    · exact sameFaults_of_timing (by cases cl <;> rfl) (by cases cl <;> rfl)
    · split
      · exact sameFaults_refl s
      next n _ =>
        dsimp only
        split_ifs
        · exact cleared n SpanCounts.clear0
        · exact sameFaults_refl s
        · exact cleared n SpanCounts.clear1
        · exact sameFaults_refl s
        · exact sameFaults_refl s

/-- An order that leaves office timing alone changes no fault condition. -/
theorem takeOrder_sameFaults (sampled : Fin 16 → Bool) (s : State) (i : Instr) (h : ordersTiming i = false) :
    s.sameFaults (s.takeOrder sampled i) := by
  cases hi : ordersSpans i with
  | false => exact sameFaults_of_timing (takeOrder_spans sampled s i hi) (takeOrder_timing sampled s i h)
  | true =>
    cases i with
    | warmRestart => exact warm_sameFaults s
    | setThresholds =>
      dsimp only [State.takeOrder]
      unfold takeSetThresholds
      split
      · exact sameFaults_refl s
      · refine sameFaults_answer ?_ _ _ _ _
        exact sameFaults_modSpan s _ _ fun _ => rfl
    | clearLatched =>
      dsimp only [State.takeOrder]
      unfold takeClearLatched
      split
      · exact sameFaults_refl s
      next n _ =>
        exact sameFaults_modSpan s n (fun sp => { sp with latched := (s.span n).latched &&& (s.span n).active }) fun _ => rfl
      · exact sameFaults_refl s
    | readCounts => exact takeReadCounts_sameFaults _ _ _ _ s
    | setSpan => cases h
    | spanRestart => cases h
    | setDrift => cases h
    | _ => cases hi

/-! ### Orders that write office timing (R77, R78, R82, R83) -/

section

variable {s : State} (h : s.timingSafe)
include h

theorem selectionRequest_timingSafe (e : Fin 4) : (s.selectionRequest e).1.timingSafe := by
  unfold State.selectionRequest
  split_ifs
  · exact h
  · exact h
  next hq => exact selectEntry_timingSafe e h hq
  · exact h

theorem takeSelectReference_timingSafe (tag a : Byte) : (takeSelectReference tag a s).timingSafe := by
  unfold takeSelectReference
  split
  · exact timingSafe_answer h _ _ _ _
  next e _ =>
    have requested := selectionRequest_timingSafe h e
    split
    case h_1 k => rw [k] at requested; exact timingSafe_answer requested _ _ _ _
    case h_2 k => rw [k] at requested; exact timingSafe_answer requested _ _ _ _

theorem takeSetTimingMode_timingSafe (tag a b : Byte) : (takeSetTimingMode tag a b s).timingSafe := by
  unfold takeSetTimingMode
  split
  · exact timingSafe_of_sameLoop h rfl ⟨rfl, rfl, rfl, rfl⟩
  · exact timingSafe_answer h _ _ _ _

theorem takeSetTimingOutput_timingSafe (tag a b c d e : Byte) : (takeSetTimingOutput tag a b c d e s).timingSafe := by
  unfold takeSetTimingOutput
  split
  next o _ _ _ _ _ _ _ _ _ => cases o <;> exact timingSafe_of_sameLoop h rfl ⟨rfl, rfl, rfl, rfl⟩
  · exact timingSafe_answer h _ _ _ _

theorem takeSetSpan_timingSafe (tag a b c d e f : Byte) : (takeSetSpan tag a b c d e f s).timingSafe := by
  unfold takeSetSpan
  split
  · refine timingSafe_answer ?_ _ _ _ _
    exact publish_timingSafe _ h.law
  · exact timingSafe_answer h _ _ _ _

theorem takeSpanRestart_timingSafe (tag a : Byte) : (takeSpanRestart tag a s).timingSafe := by
  unfold takeSpanRestart
  split
  · exact timingSafe_answer h _ _ _ _
  · refine timingSafe_answer ?_ _ _ _ _
    exact publish_timingSafe _ h.law

theorem takeSetDrift_timingSafe (sampled : Bool) (tag a k : Byte) (l : Word) :
    (takeSetDrift sampled tag a k l s).timingSafe := by
  unfold takeSetDrift
  split
  · exact timingSafe_answer h _ _ _ _
  · refine timingSafe_answer ?_ _ _ _ _
    dsimp only
    split
    · exact publish_timingSafe _ h.law
    · exact h.keep (sameFaults_modSpan s _ _ fun _ => rfl) rfl

end

/-! ### SET REFERENCE (R83, Table 4-4) -/

/-- What a change of enable or of span leads to: the state kept, DISABLED, FAULTED, or a new qualification. -/
theorem rewritten_cases (was x : RefEntry) (fault : Option FaultReason) (spanChanged : Bool) :
    (was.rewritten x fault spanChanged = x ∧
        (x.enable = false ∧ was.enable = false ∨ x.enable = true ∧ was.enable = true ∧ spanChanged = false)) ∨
      (x.enable = false ∧ was.rewritten x fault spanChanged = { x with state := .disabled, count := 0 }) ∨
      (x.enable = true ∧ (was.enable = false ∨ spanChanged = true) ∧
        ((∃ why target, fault = some why ∧
            was.rewritten x fault spanChanged = { x with state := .faulted, count := 0, target, reason := why }) ∨
          fault = none ∧ was.rewritten x fault spanChanged = x.requalify)) := by
  unfold RefEntry.rewritten
  split
  next hx =>
    split
    · exact .inr (.inl ⟨hx, rfl⟩)
    next hw => exact .inl ⟨rfl, .inl ⟨hx, by simpa using hw⟩⟩
  next hx =>
    have hx : x.enable = true := by simpa using hx
    split
    next hw =>
      refine .inr (.inr ⟨hx, .inl hw, ?_⟩)
      cases fault with
      | some why => exact .inl ⟨why, _, rfl, rfl⟩
      | none => exact .inr ⟨rfl, rfl⟩
    next hw =>
      split
      next hs =>
        refine .inr (.inr ⟨hx, .inr hs, ?_⟩)
        cases fault with
        | some why => exact .inl ⟨why, _, rfl, rfl⟩
        | none => exact .inr ⟨rfl, rfl⟩
      next hs => exact .inl ⟨rfl, .inr ⟨hx, by simpa using hw, by simpa using hs⟩⟩

/-- Entry `e` of `s` can stand as `y`: within its law, following its fault condition, and QUALIFIED if it is selected. -/
structure State.admits (s : State) (e : Fin 4) (y : RefEntry) : Prop where
  law : y.law
  follows : (s.setEntry e y).follows e
  selected : s.timing.loop.selected = some e → y.state = .qualified

theorem setEntry_timingSafe {s : State} {e : Fin 4} {y : RefEntry} (h : s.timingSafe) (hy : s.admits e y) :
    (s.setEntry e y).timingSafe := by
  refine ⟨law_setEntry h.law hy.law hy.selected, fun z => ?_⟩
  by_cases hz : z = e
  · subst hz; exact hy.follows
  · exact follows_congr_entry (sameFaults_refl s) (setEntry_entry_ne s e z _ hz) (h.follow z)

/-- SET REFERENCE leaves an entry as its fault condition asks, the entry in use alone having been refused (R83). -/
theorem admits_rewritten {s : State} (h : s.timingSafe) (e : Fin 4) {x : RefEntry} {spanChanged : Bool}
    (hp : 1 ≤ x.priority ∧ x.priority ≤ 4) (hs : x.state = (s.entry e).state) (hc : x.count = (s.entry e).count)
    (ht : x.target = (s.entry e).target) (hr : x.reason = (s.entry e).reason)
    (hspan : spanChanged = false → x.span = (s.entry e).span)
    (huse : s.timing.loop.selected = some e → x.enable = true ∧ spanChanged = false) :
    s.admits e ((s.entry e).rewritten x (s.faultOf e x.span) spanChanged) := by
  obtain ⟨he, -, hq⟩ := (timingLaw_iff s).mp h.law
  obtain ⟨hdis, -, -, hcount⟩ := he e
  -- an entry requalified or faulted is not the one in use
  have free (k : (s.entry e).enable = false ∨ spanChanged = true) : s.timing.loop.selected ≠ some e := fun hsel => by
    rcases k with k | k
    · exact absurd (k.symm.trans ((he e).enabled (by rw [hq e hsel]; nofun))) nofun
    · exact absurd (k.symm.trans (huse hsel).2) nofun
  obtain ⟨eq, kept⟩ | ⟨hoff, eq⟩ | ⟨hon, changed, ⟨why, target, hf, eq⟩ | ⟨hf, eq⟩⟩ :=
    rewritten_cases (s.entry e) x (s.faultOf e x.span) spanChanged <;> rw [eq]
  · have same : x.enable = (s.entry e).enable := by
      rcases kept with ⟨a, b⟩ | ⟨a, b, -⟩ <;> exact a.trans b.symm
    have faults (k : x.state ≠ .disabled) : s.faultOf e x.span = s.entryFault e := by
      have hen : x.enable = true := same.trans ((he e).enabled (hs ▸ k))
      rcases kept with ⟨a, -⟩ | ⟨-, -, c⟩
      · exact absurd (hen.symm.trans a) nofun
      · rw [State.entryFault, hspan c]
    refine ⟨⟨by rw [hs, same]; exact hdis, hp.1, hp.2, by rw [hs, hc, ht]; exact hcount⟩,
      follows_setEntry s e _ (fun k => ?_) (fun k => ?_), fun k => hs.trans (hq e k)⟩
    · rw [faults (by rcases k with k | k <;> rw [k] <;> nofun)]
      exact (h.follow e).1 (hs ▸ k)
    · rw [faults (by rw [k]; nofun), hr]
      exact (h.follow e).2 (hs ▸ k)
  · exact ⟨⟨by simpa using hoff, hp.1, hp.2, nofun⟩, follows_setEntry s e _ (fun k => k.elim nofun nofun) nofun,
      fun k => absurd ((huse k).1.symm.trans hoff) nofun⟩
  · exact ⟨⟨by simp [hon], hp.1, hp.2, nofun⟩, follows_setEntry s e _ (fun k => k.elim nofun nofun) fun _ => hf,
      fun k => absurd k (free changed)⟩
  · exact ⟨⟨by simp [RefEntry.requalify, hon], hp.1, hp.2, fun _ => superframes_pos x.q⟩,
      follows_setEntry s e _ (fun _ => hf) nofun, fun k => absurd k (free changed)⟩

theorem priorityOf_range {b : Byte} {p : Nat} (h : priorityOf b = some p) : 1 ≤ p ∧ p ≤ 4 := by
  unfold priorityOf at h
  split at h
  next k => cases h; exact k
  next => cases h

theorem takeSetReference_timingSafe {s : State} (h : s.timingSafe) (tag a b c d f : Byte) :
    (takeSetReference tag a b c d f s).timingSafe := by
  unfold takeSetReference
  split
  next e en p q _ _ hp _ =>
    split
    · exact timingSafe_answer h _ _ _ _
    next n hn =>
      split
      · exact timingSafe_answer h _ _ _ _
      next huse =>
        refine timingSafe_answer ?_ _ _ _ _
        refine State.timingSafe.of_same (setEntry_timingSafe h (admits_rewritten h e
          (x := { s.entry e with enable := en, priority := p, q := q, span := n }) (priorityOf_range hp) rfl rfl rfl rfl
          (fun k => ?_) fun hsel => ?_)) rfl rfl
        · unfold referenceSpan at hn
          cases hi : isLine e with
          | false =>
            rw [hi] at hn
            exact (Option.some.inj hn).symm
          | true => simpa [hi] using k
        · have unused := fun k => huse ⟨hsel, k⟩
          cases en with
          | false => exact absurd (.inl rfl) unused
          | true =>
            refine ⟨rfl, ?_⟩
            cases hi : isLine e with
            | false => rfl
            | true => simpa [hi] using unused
  · exact timingSafe_answer h _ _ _ _

/-- Every order keeps the loop law with the entries following. -/
theorem takeOrder_timingSafe (sampled : Fin 16 → Bool) {s : State} (i : Instr) (h : s.timingSafe) :
    (s.takeOrder sampled i).timingSafe := by
  cases hi : ordersTiming i with
  | false => exact h.keep (takeOrder_sameFaults sampled s i hi) (takeOrder_timing sampled s i hi)
  | true =>
    cases i with
    | setSpan => exact takeSetSpan_timingSafe h _ _ _ _ _ _ _
    | spanRestart => exact takeSpanRestart_timingSafe h _ _
    | setDrift => exact takeSetDrift_timingSafe h _ _ _ _ _
    | setReference => exact takeSetReference_timingSafe h _ _ _ _ _ _
    | setTimingMode => exact takeSetTimingMode_timingSafe h _ _ _
    | selectReference => exact takeSelectReference_timingSafe h _ _
    | setTimingOutput => exact takeSetTimingOutput_timingSafe h _ _ _ _ _ _
    | _ => cases hi

/-! ### The office frame boundary -/

theorem offerUnitTrigger_timing (s : State) (src : Fin 8) (u : Fin 4) : (s.offerUnitTrigger src u).timing = s.timing := by
  rw [offerUnitTrigger_eq]
  split <;> rfl

theorem performAction_timingSafe {s : State} (t : Timer) (h : s.timingSafe) : (s.performAction t).1.timingSafe := by
  unfold State.performAction
  split
  · exact h
  · exact h.of_same rfl rfl
  · exact h.of_same rfl rfl
  · exact h.of_same rfl rfl
  · exact selectionRequest_timingSafe h t.param

theorem matchTimer_timingSafe {s : State} (n : Fin 4) (h : s.timingSafe) : (s.matchTimer n).timingSafe := by
  unfold State.matchTimer
  dsimp only
  split
  · exact (performAction_timingSafe s.timers[n] h).of_same (offerUnitTrigger_spans _ _ _) (offerUnitTrigger_timing _ _ _)
  · exact h

theorem storeBoundary_timingSafe {s : State} (superframe : Bool) (n : Fin 16) (h : s.timing.law) :
    (s.storeBoundary superframe n).timingSafe := by
  have slipped : (if ((s.span n).boundary superframe).2 = .none then s.setSpan n ((s.span n).boundary superframe).1
      else (s.setSpan n ((s.span n).boundary superframe).1).offerSpanTrigger 3 n).timing.law := by
    split <;> exact h
  have handled := publish_timingSafe n slipped
  unfold State.storeBoundary
  dsimp only
  generalize State.publish _ n = t at handled
  split
  · have committed : (t.modSpan n Span.commitDrift).timing.law := handled.law
    exact publish_timingSafe n committed
  · exact handled

theorem orderBoundary_timingSafe {s : State} (sampled : Fin 16 → Bool) (h : s.timingSafe) :
    (s.orderBoundary sampled).timingSafe := by
  have formed : s.formSend.timingSafe := h.of_same rfl rfl
  unfold State.orderBoundary State.examine
  split
  · refine State.timingSafe.of_same ?_ (clearCell_spans _) (clearCell_timing _)
    unfold State.judgeCell
    split_ifs
    · exact formed
    · exact formed.of_same rfl rfl
    · exact takeOrder_timingSafe sampled _ formed
    · exact formed
  · exact formed

theorem handle_timingSafe {s : State} (superframe apart : Bool) (done : List Handling) (i : Handling) (h : s.timingSafe) :
    (s.handle superframe apart done i).timingSafe := by
  cases i with
  | number => exact h.of_same (formNumber_spans s) (formNumber_timing s)
  | timer n => exact matchTimer_timingSafe n h
  | store n => exact storeBoundary_timingSafe superframe n h.law
  | otu => exact otuBoundary_timingSafe superframe apart h.law
  | outputs => exact timingSafe_of_sameLoop h rfl ⟨rfl, rfl, rfl, rfl⟩
  | swaps => cases superframe <;> exact h.of_same rfl rfl
  | units => cases superframe <;> exact h.of_same rfl rfl
  | orderChannel =>
    cases superframe with
    | false => exact h
    | true => exact orderBoundary_timingSafe _ h

theorem handleAll_timingSafe {s : State} (superframe apart : Bool) (todo done : List Handling) (h : s.timingSafe) :
    (s.handleAll superframe apart done todo).timingSafe := by
  induction todo generalizing done s with
  | nil => exact h
  | cons i rest ih => exact ih _ (handle_timingSafe superframe apart done i h)

theorem finishReads_timingSafe {s : State} (h : s.timingSafe) : s.finishReads.timingSafe := by
  unfold State.finishReads
  induction allSpans generalizing s with
  | nil => exact h
  | cons n rest ih => exact ih (readSide_timingSafe n 336 h.law)

/-- No transmit frame and no overhead octet is in a fault condition (R67). -/
theorem lineFault_tx (sp : Span) (tx : Transmitter) : ({ sp with tx } : Span).lineFault = sp.lineFault := rfl

theorem endFrame_timing (s : State) (received : Vector Byte 640) :
    (s.endFrame received).timing = s.finishReads.timing := by
  unfold State.endFrame State.takeHolds
  dsimp only
  exact gather_timing _ _

theorem endFrame_timingSafe {s : State} (received : Vector Byte 640) (h : s.timingSafe) : (s.endFrame received).timingSafe := by
  have timing := endFrame_timing s received
  refine (finishReads_timingSafe h).keep (sameFaults_of (fun n => ?_) (by rw [timing]) (by rw [timing])) timing
  rw [endFrame_span, lineFault_tx]

/-- The loop in a boundary that opens: a selection is fresh no more at an office superframe boundary (R72). -/
theorem loopLaw_fresh {l : Loop} (fresh : Bool) (h : l.law) : ({ l with fresh } : Loop).law :=
  ⟨h.selects, h.acquires, h.locks, h.counts, h.due, h.rests, h.free, h.valid, h.freq, h.holdoverFreq, h.length, h.history⟩

theorem lineFault_openBoundary (sp : Span) (superframe : Bool) : (sp.openBoundary superframe).lineFault = sp.lineFault := rfl

theorem openBoundary_timingSafe {s : State} (superframe : Bool) (h : s.timingSafe) : (s.openBoundary superframe).timingSafe := by
  obtain ⟨he, hl, hq⟩ := (timingLaw_iff s).mp h.law
  refine ⟨(timingLaw_iff _).mpr ⟨he, loopLaw_fresh _ hl, hq⟩,
    entriesFollow_congr (s := s) (sameFaults_of (fun n => ?_) rfl rfl) rfl h.follow⟩
  rw [openBoundary_span, lineFault_openBoundary]

theorem closeBoundary_timingSafe {s : State} (superframe status : Bool) (h : s.timingSafe) :
    (s.closeBoundary superframe status).timingSafe := by
  refine h.keep (sameFaults_of (fun n => ?_) rfl rfl) rfl
  rw [closeBoundary_span, lineFault_tx]

theorem boundary_timingSafe {s : State} (received : Vector Byte 640) (order : List Handling) (apart : Bool)
    (h : s.timingSafe) : (s.boundary received order apart).timingSafe :=
  closeBoundary_timingSafe _ _ (handleAll_timingSafe _ apart (schedule order) []
    (openBoundary_timingSafe _ (endFrame_timingSafe received (acquisitionTimeout_timingSafe h))))

/-! ### One command -/

theorem timingSafe_of_whenRunning {s t u : State} (k : whenRunning s t = .next u) (h : s.timingSafe) (ht : t.timingSafe) :
    u.timingSafe := by
  rcases (whenRunning_eq_next s t u).mp k with ⟨-, rfl⟩ | ⟨-, rfl⟩
  · exact ht
  · exact h

/-- A restart that begins or goes on changes no more of office timing than the pulses of its outputs (R163). -/
theorem hold_timingSafe {s : State} (k : RestartKind) (low up : Bool) (h : s.timingSafe) : (s.hold k low up).timingSafe :=
  timingSafe_of_sameLoop h rfl ⟨rfl, rfl, rfl, rfl⟩

/-- A restart ends with office timing as after reset, where no span has a part in a fault condition (R86). -/
theorem restarted_timingSafe (s : State) (k : RestartKind) (straps : BitVec 5) : (s.restarted k straps).timingSafe := by
  refine State.timingSafe.keep ⟨reset_timing_law, reset_entriesFollow⟩ (sameFaults_of (fun n => ?_) rfl rfl) rfl
  rw [restarted_span, reset_span]
  rfl

theorem qualificationComplete_timingSafe {s : State} (e : Fin 4) (h : s.timingSafe) :
    (s.qualificationComplete e).timingSafe := by
  obtain ⟨he, -, hq⟩ := (timingLaw_iff s).mp h.law
  unfold State.qualificationComplete
  dsimp only
  split
  · refine setEntry_timingSafe h ⟨entryLaw_qualify (he e), ?_, fun k => ?_⟩
    · exact follows_of_qualify (s := s) (sameFaults_refl s) (setEntry_entry s e _) (h.follow e)
    · rw [qualify_qualified (hq e k)]
      exact hq e k
  · exact h

/-- Every command keeps the loop law with the entries following, while office timing runs and in a restart. -/
theorem exec_timingSafe (c : Instr) {s t : State} (h : s.timingSafe) (k : exec c s = .next t) : t.timingSafe := by
  have order (e : exec c s = whenRunning s (s.takeOrder (fun _ => true) c)) : t.timingSafe :=
    timingSafe_of_whenRunning (e.symm.trans k) h (takeOrder_timingSafe _ c h)
  cases c with
  | powerOn => cases k; exact hold_timingSafe _ _ _ h
  | coldRestartBegin =>
    simp only [exec, execColdRestartBegin] at k
    split at k <;> (cases k; exact hold_timingSafe _ _ _ h)
  | supplyFall =>
    simp only [exec, execSupplyFall] at k
    split at k
    · cases k; exact h
    · split at k
      · cases k; exact hold_timingSafe _ _ _ h
      · cases k; exact h
  | restartEnd =>
    simp only [exec, execRestartEnd] at k
    split at k
    · cases k; exact h
    · split at k
      · cases k; exact restarted_timingSafe _ _ _
      · cases k; exact h
  | clockPresentRise n =>
    simp only [exec, execClockPresentRise] at k
    cases k
    split
    · exact clockRise_timingSafe h n
    · exact setClock_timingSafe h n true
  | clockPresentFall m =>
    simp only [exec, execClockPresentFall] at k
    cases k
    split
    · exact clockFall_timingSafe h _ _
    · exact setClock_timingSafe h _ false
  | lineWindowEnd => exact timingSafe_of_whenRunning k h (windowEnd_timingSafe h _ _ _)
  | noisePeriodEnd => exact timingSafe_of_whenRunning k h (noiseEnd_timingSafe h _)
  | huntCandidateFound => exact timingSafe_of_whenRunning k h (huntFound_timingSafe h _ _ _)
  | verifyCheck => exact timingSafe_of_whenRunning k h (verifyCheck_timingSafe h _ _ _)
  | expectedAlignmentOctet => exact timingSafe_of_whenRunning k h (expectedOctet_timingSafe h _ _ _ _)
  | alignedFrame => exact timingSafe_of_whenRunning k h (alignedFrame_timingSafe h _ _ _)
  | storeUnderrun => exact timingSafe_of_whenRunning k h (underrun_timingSafe h _)
  | referenceEvent =>
    refine timingSafe_of_whenRunning k h ?_
    split
    · exact timingSafe_of_sameLoop h rfl (referenceEvent_sameLoop _ _ _ _)
    · exact h
  | officeFrameBoundary => exact timingSafe_of_whenRunning k h (boundary_timingSafe _ _ _ h)
  | qualificationComplete => exact timingSafe_of_whenRunning k h (qualificationComplete_timingSafe _ h)
  | acquisitionTimeout => exact timingSafe_of_whenRunning k h (acquisitionTimeout_timingSafe h)
  | unknownOrder =>
    refine timingSafe_of_whenRunning k h ?_
    split
    · exact timingSafe_answer h _ _ _ _
    · exact h
  | setDrift => exact timingSafe_of_whenRunning k h (takeSetDrift_timingSafe h _ _ _ _ _)
  | _ => exact order rfl

/-- Settles O9: every command keeps the law together with the entries following, each event published as it happens. -/
theorem timingLawKept : Obligations.TimingLawKept := by
  intro s t h hstep
  obtain rfl | ⟨c, rest, -, he⟩ := step_cases hstep
  · exact h
  · have front : ({ s with pending := rest } : State).timingSafe := State.timingSafe.of_same ⟨h.1, h.2⟩ rfl rfl
    have after := exec_timingSafe c front he
    exact ⟨after.law, after.follow⟩

end Sys2Proof.Machine
end

