-- ==== Sys2Proof/Proofs/TimingOrders.lean ====
section
/-! SET REFERENCE (O40), SET TIMING MODE and SELECT REFERENCE (O41), READ REFERENCE, READ TIMING and SET TIMING OUTPUT (O42). -/

namespace Sys2Proof.Machine

/-! ### The codes of Table 4-9 -/

theorem qOf_code (q : QPeriod) : qOf q.code = some q := by cases q <;> rfl

theorem qOf_none (b : Byte) (h : 3 < b.toNat) : qOf b = none := by
  have h0 : b ≠ 0 := byte_ne_of_lt h 0 (by decide)
  have h1 : b ≠ 1 := byte_ne_of_lt h 1 (by decide)
  have h2 : b ≠ 2 := byte_ne_of_lt h 2 (by decide)
  have h3 : b ≠ 3 := byte_ne_of_lt h 3 (by decide)
  rw [qOf, if_neg h0, if_neg h1, if_neg h2, if_neg h3]

theorem timingModeOf_code (m : TimingMode) : timingModeOf m.code = some m := by cases m <;> rfl

theorem timingModeOf_none (b : Byte) (h : 1 < b.toNat) : timingModeOf b = none := by
  have h0 : b ≠ 0 := byte_ne_of_lt h 0 (by decide)
  have h1 : b ≠ 1 := byte_ne_of_lt h 1 (by decide)
  rw [timingModeOf, if_neg h0, if_neg h1]

theorem outputSourceOf_code (o : OutputSource) : outputSourceOf o.code = some o := by
  cases o with
  | office => rfl
  | entry e => fin_cases e <;> rfl

theorem outputSourceOf_none (b : Byte) (h : 4 < b.toNat) : outputSourceOf b = none := by
  have h0 : b ≠ 0 := byte_ne_of_lt h 0 (by decide)
  have h1 : b ≠ 1 := byte_ne_of_lt h 1 (by decide)
  have h2 : b ≠ 2 := byte_ne_of_lt h 2 (by decide)
  have h3 : b ≠ 3 := byte_ne_of_lt h 3 (by decide)
  have h4 : b ≠ 4 := byte_ne_of_lt h 4 (by decide)
  rw [outputSourceOf, if_neg h0, if_neg h1, if_neg h2, if_neg h3, if_neg h4]

theorem outputRateOf_code (r : OutputRate) : outputRateOf r.code = some r := by cases r <;> rfl

theorem outputRateOf_none (b : Byte) (h : 2 < b.toNat) : outputRateOf b = none := by
  have h0 : b ≠ 0 := byte_ne_of_lt h 0 (by decide)
  have h1 : b ≠ 1 := byte_ne_of_lt h 1 (by decide)
  have h2 : b ≠ 2 := byte_ne_of_lt h 2 (by decide)
  rw [outputRateOf, if_neg h0, if_neg h1, if_neg h2]

theorem entryOf_ofNat (e : Fin 4) : below 4 (BitVec.ofNat 8 e.val) = some e := below_ofNat 4 e (by decide)

theorem entryOf_none (b : Byte) (h : 3 < b.toNat) : below 4 b = none := below_none 4 b h

theorem isLine_iff (e : Fin 4) : isLine e = true ↔ 2 ≤ e.val := by simp [isLine]

/-! ### READ REFERENCE and READ TIMING (R84, R85) -/

theorem takeReadReference_reply (s : State) (tag : Byte) (e : Fin 4) :
    takeReadReference tag (BitVec.ofNat 8 e.val) s = s.replied 0x23 tag .done
      #v[(s.entry e).state.code, (s.entry e).reason.code, bit (s.entry e).enable, BitVec.ofNat 8 (s.entry e).priority,
         (s.entry e).q.code, if 2 ≤ e.val then BitVec.ofNat 8 (s.entry e).span.val else 0xFF,
         BitVec.ofNat 8 ((s.entry e).count / 256), BitVec.ofNat 8 ((s.entry e).count % 256), (s.entry e).target.code] := by
  unfold takeReadReference
  rw [entryOf_ofNat]
  dsimp only
  rw [bytes16_ofNat]
  simp only [isLine_iff]
  rfl

theorem timingFlags_eq (t : Timing) :
    t.flags = (if t.mode = .manual then 0x80 else 0) ||| (if t.revertive then 0x40 else 0) |||
      (if t.loop.holdoverValid then 0x20 else 0) := by
  unfold Timing.flags
  cases t.mode <;> rfl

theorem takeReadTiming_reply (s : State) (tag : Byte) :
    takeReadTiming tag s = s.replied 0x24 tag .done
      #v[s.timing.loop.state.code, selectedCode s.timing.loop.selected, s.timing.flags,
         BitVec.ofNat 8 s.timing.loop.lockCount, BitVec.ofNat 8 (s.timing.loop.acqCount / 256),
         BitVec.ofNat 8 (s.timing.loop.acqCount % 256), s.timing.toa.stored.byte, s.timing.tob.stored.byte, 0] := by
  unfold takeReadTiming
  dsimp only
  rw [bytes16_ofNat]
  rfl

/-! ### SET TIMING OUTPUT (R82) -/

theorem takeSetTimingOutput_accepted (s : State) (tag : Byte) (b : Bool) (r : OutputRecord) :
    takeSetTimingOutput tag (bit b) (bit r.enable) r.source.code r.rate.code (bit r.squelch) s =
      ({ s with timing :=
          if b then { s.timing with tob := { s.timing.tob with stored := r } }
          else { s.timing with toa := { s.timing.toa with stored := r } } }).answer 0x25 tag .done (bit b :: r.bytes) := by
  unfold takeSetTimingOutput
  rw [boolOf_bit, boolOf_bit, outputSourceOf_code, outputRateOf_code, boolOf_bit]

theorem takeSetTimingOutput_refused (s : State) (tag o en src rate sq : Byte)
    (h : 1 < o.toNat ∨ 1 < en.toNat ∨ 4 < src.toNat ∨ 2 < rate.toNat ∨ 1 < sq.toNat) :
    takeSetTimingOutput tag o en src rate sq s = s.refuse 0x25 tag .badParameter := by
  unfold takeSetTimingOutput
  split
  next ho hen hsrc hrate hsq =>
    rcases h with h | h | h | h | h
    · exact absurd ((boolOf_none o h).symm.trans ho) nofun
    · exact absurd ((boolOf_none en h).symm.trans hen) nofun
    · exact absurd ((outputSourceOf_none src h).symm.trans hsrc) nofun
    · exact absurd ((outputRateOf_none rate h).symm.trans hrate) nofun
    · exact absurd ((boolOf_none sq h).symm.trans hsq) nofun
  next => rfl

/-- Settles O42, order by order, each code read off Table 4-9. -/
theorem timingReadsAndOutputs : Obligations.TimingReadsAndOutputs := by
  unfold Obligations.TimingReadsAndOutputs
  intro entryState reason period loopState source rate
  have h1 : ∀ x, entryState x = x.code := fun x => by cases x <;> rfl
  have h2 : ∀ r, reason r = r.code := fun r => by cases r <;> rfl
  have h3 : ∀ q, period q = q.code := fun q => by cases q <;> rfl
  have h4 : ∀ l, loopState l = l.code := fun l => by cases l <;> rfl
  have h5 : ∀ o, source o = o.code := fun o => by
    cases o with
    | office => rfl
    | entry e => exact congrArg (BitVec.ofNat 8) (Nat.add_comm 1 e.val)
  have h6 : ∀ r, rate r = r.code := fun r => by cases r <;> rfl
  refine ⟨fun s tag hr => ?_, fun s tag hr => ⟨fun o en src rt sq h => ?_, fun en sq src rt => ?_⟩⟩
  · intro record
    have h7 : ∀ r, record r = r.byte := fun r => by
      simp only [record, h5, h6, OutputRecord.byte]
      cases r.enable <;> cases r.squelch <;> rfl
    refine ⟨fun b h => ?_, fun e => ?_, fun _ => ?_⟩
    · refine (whenRunning_of_runs s _ hr).trans (congrArg _ ?_)
      rw [takeReadReference, entryOf_none b h]
      rfl
    · intro x _
      refine (whenRunning_of_runs s _ hr).trans (congrArg _ ?_)
      rw [takeReadReference_reply, h1, h2, h3, h3]
      rfl
    · refine (whenRunning_of_runs s _ hr).trans (congrArg _ ?_)
      rw [takeReadTiming_reply, h4, h7, h7, timingFlags_eq]
      cases s.timing.loop.selected <;> rfl
  · exact (whenRunning_of_runs s _ hr).trans (congrArg _ (takeSetTimingOutput_refused s tag o en src rt sq h))
  · intro results
    have accepted (b : Bool) := takeSetTimingOutput_accepted s tag b ⟨en, src, rt, sq⟩
    refine ⟨(whenRunning_of_runs s _ hr).trans (congrArg _ ?_), (whenRunning_of_runs s _ hr).trans (congrArg _ ?_)⟩
    · rw [h5, h6]
      refine (accepted false).trans ?_
      change _ = State.replied _ 0x25 tag .done #v[0, bit en, source src, rate rt, bit sq, 0, 0, 0, 0]
      rw [h5, h6]
      rfl
    · rw [h5, h6]
      refine (accepted true).trans ?_
      change _ = State.replied _ 0x25 tag .done #v[1, bit en, source src, rate rt, bit sq, 0, 0, 0, 0]
      rw [h5, h6]
      rfl

/-! ### SET TIMING MODE and SELECT REFERENCE (R77, R78) -/

theorem takeSetTimingMode_accepted (s : State) (tag : Byte) (m : TimingMode) (r : Bool) :
    takeSetTimingMode tag m.code (bit r) s =
      ({ s with timing := { s.timing with mode := m, revertive := r } }).answer 0x21 tag .done [m.code, bit r] := by
  unfold takeSetTimingMode
  rw [timingModeOf_code, boolOf_bit]

theorem takeSetTimingMode_refused (s : State) (tag m r : Byte) (h : 1 < m.toNat ∨ 1 < r.toNat) :
    takeSetTimingMode tag m r s = s.refuse 0x21 tag .badParameter := by
  unfold takeSetTimingMode
  split
  next hm hr =>
    rcases h with h | h
    · exact absurd ((timingModeOf_none m h).symm.trans hm) nofun
    · exact absurd ((boolOf_none r h).symm.trans hr) nofun
  next => rfl

/-- A selection request by the mode, the selection and the entry's state (R77). -/
theorem selectionRequest_auto (s : State) (e : Fin 4) (h : s.timing.mode = .auto) :
    s.selectionRequest e = (s, .wrongMode) := if_pos h

theorem selectionRequest_manual (s : State) (e : Fin 4) (h : s.timing.mode = .manual) :
    s.selectionRequest e =
      if s.timing.loop.selected = some e then (s, .done)
      else if (s.entry e).state = .qualified then (s.selectEntry e, .done)
      else (s, .notQualified) := if_neg (by rw [h]; nofun)

theorem takeSelectReference_done {s t : State} {e : Fin 4} (tag : Byte) (h : s.selectionRequest e = (t, .done)) :
    takeSelectReference tag (BitVec.ofNat 8 e.val) s =
      t.answer 0x22 tag .done [BitVec.ofNat 8 e.val, selectedCode t.timing.loop.selected, t.timing.loop.state.code] := by
  unfold takeSelectReference
  rw [entryOf_ofNat]
  dsimp only
  rw [h]

theorem takeSelectReference_refused {s : State} {e : Fin 4} {o : TimerOutcome} (tag : Byte)
    (h : s.selectionRequest e = (s, o)) (ho : o ≠ .done) :
    takeSelectReference tag (BitVec.ofNat 8 e.val) s = s.refuse 0x22 tag o.toOrder := by
  unfold takeSelectReference
  rw [entryOf_ofNat]
  dsimp only
  rw [h]
  cases o with
  | done => exact absurd rfl ho
  | _ => rfl

/-- The units after a selection: those that take reference switches are triggered (R75, R123). -/
theorem referenceSwitch_unit (s : State) (u : Fin 4) :
    s.referenceSwitch.units[u] = if s.units[u].source = 7 then { s.units[u] with newTrigger := true } else s.units[u] :=
  offerTrigger_unit _ 7 u

/-- Settles O41, by the mode, the selection and the entry's state. -/
theorem modeAndSelection : Obligations.ModeAndSelection := by
  unfold Obligations.ModeAndSelection
  intro timingMode loopState s tag hr
  have h1 : ∀ m, timingMode m = m.code := fun m => by cases m <;> rfl
  have h2 : ∀ l, loopState l = l.code := fun l => by cases l <;> rfl
  have runs (t : State) : whenRunning s t = .next t := whenRunning_of_runs s t hr
  refine ⟨fun m r => ?_, fun m r h => (runs _).trans (congrArg _ (takeSetTimingMode_refused s tag m r h)), fun b h => ?_,
    fun e => ⟨fun ha => ?_, fun hm hs => ?_, fun hm hs hq => ?_, fun hm hs hq => ?_⟩⟩
  · rw [h1]
    exact (runs _).trans (congrArg _ (takeSetTimingMode_accepted s tag m r))
  · refine (runs _).trans (congrArg _ ?_)
    rw [takeSelectReference, entryOf_none b h]
    rfl
  · exact (runs _).trans (congrArg _ (takeSelectReference_refused tag (selectionRequest_auto s e ha) nofun))
  · have request : s.selectionRequest e = (s, .done) := by rw [selectionRequest_manual s e hm, if_pos hs]
    refine (runs _).trans (congrArg _ ((takeSelectReference_done tag request).trans ?_))
    rw [hs, h2]
    rfl
  · have request : s.selectionRequest e = (s, .notQualified) := by
      rw [selectionRequest_manual s e hm, if_neg hs, if_neg hq]
    exact (runs _).trans (congrArg _ (takeSelectReference_refused tag request nofun))
  · have request : s.selectionRequest e = (s.selectEntry e, .done) := by
      rw [selectionRequest_manual s e hm, if_neg hs, if_pos hq]
    refine ⟨_, (runs _).trans (congrArg _ (takeSelectReference_done tag request)), rfl, rfl, rfl, rfl, rfl, rfl, rfl, rfl, rfl,
      rfl, fun u => referenceSwitch_unit _ u, rfl, rfl, rfl, rfl, rfl, rfl⟩

/-! ### SET REFERENCE (R83) -/

theorem priorityOf_toNat (b : Byte) (h1 : 1 ≤ b.toNat) (h4 : b.toNat ≤ 4) : priorityOf b = some b.toNat := if_pos ⟨h1, h4⟩

/-- The entry number that a byte names. -/
theorem toNat_of_below {k : Nat} {b : Byte} {n : Fin k} (h : below k b = some n) : b.toNat = n.val := by
  unfold below at h
  split at h
  · cases h; rfl
  · cases h

theorem takeSetReference_bad (s : State) (tag entry en prio q span : Byte)
    (h : 3 < entry.toNat ∨ 1 < en.toNat ∨ prio = 0 ∨ 4 < prio.toNat ∨ 3 < q.toNat ∨ (2 ≤ entry.toNat ∧ 15 < span.toNat)) :
    takeSetReference tag entry en prio q span s = s.refuse 0x20 tag .badParameter := by
  unfold takeSetReference
  split
  next e on p period he hen hp hq =>
    rcases h with h | h | h | h | h | ⟨hline, h⟩
    · exact absurd ((entryOf_none entry h).symm.trans he) nofun
    · exact absurd ((boolOf_none en h).symm.trans hen) nofun
    · subst h; cases hp
    · exact absurd ((if_neg fun k => absurd k.2 (Nat.not_le.mpr h)).symm.trans hp) nofun
    · exact absurd ((qOf_none q h).symm.trans hq) nofun
    · have line : isLine e = true := (isLine_iff e).mpr (toNat_of_below he ▸ hline)
      rw [referenceSpan, if_pos line, spanOf_none span h]
  next => rfl

/-- SET REFERENCE with its operands read: refused where the change is of the entry in use, else written. -/
theorem takeSetReference_read (s : State) (tag prio span : Byte) (e : Fin 4) (en : Bool) (q : QPeriod) (n : Fin 16)
    (h1 : 1 ≤ prio.toNat) (h4 : prio.toNat ≤ 4) (hn : referenceSpan e span (s.entry e).span = some n) :
    takeSetReference tag (BitVec.ofNat 8 e.val) (bit en) prio q.code span s =
      if s.timing.loop.selected = some e ∧ (en = false ∨ (isLine e ∧ n ≠ (s.entry e).span)) then
        s.refuse 0x20 tag .inUse
      else (s.writeReference e en prio.toNat q n).answer 0x20 tag .done
        (BitVec.ofNat 8 e.val :: ((s.writeReference e en prio.toNat q n).entry e).reply e) := by
  unfold takeSetReference
  rw [entryOf_ofNat, boolOf_bit, priorityOf_toNat prio h1 h4, qOf_code]
  dsimp only
  rw [hn]

/-- The fields SET REFERENCE writes stand in the entry whatever the change leads to (R83). -/
theorem rewritten_settings (was x : RefEntry) (fault : Option FaultReason) (spanChanged : Bool) :
    x.sameSettings (was.rewritten x fault spanChanged) := by
  obtain ⟨e, -⟩ | ⟨-, e⟩ | ⟨-, -, ⟨why, target, -, e⟩ | ⟨-, e⟩⟩ := rewritten_cases was x fault spanChanged <;> rw [e]
  all_goals exact ⟨rfl, rfl, rfl, rfl⟩

/-- The alarm bits of the reference entries (Table 9-1). -/
theorem active_entry_bits : ∀ a b c d e f : Bool,
    let active := alarmBit 0 a ||| alarmBit 1 b ||| alarmBit 2 c ||| alarmBit 3 d ||| alarmBit 4 e ||| alarmBit 5 f
    active.getLsbD 0 = a ∧ active.getLsbD 1 = b ∧ active.getLsbD 2 = c ∧ active.getLsbD 3 = d := by decide

theorem active_entry (t : Timing) (e : Fin 4) : t.active.getLsbD e.val = (t.entries[e].state == .faulted) := by
  obtain ⟨h0, h1, h2, h3⟩ := active_entry_bits (t.entries[0].state == .faulted) (t.entries[1].state == .faulted)
    (t.entries[2].state == .faulted) (t.entries[3].state == .faulted) (t.loop.state == .holdover) (t.loop.state == .free)
  fin_cases e
  · exact h0
  · exact h1
  · exact h2
  · exact h3

/-- The reply to SET REFERENCE, with the entry as it then stands (Table 8-4). -/
theorem reply_eq (x : RefEntry) (e : Fin 4) :
    x.reply e = [bit x.enable, BitVec.ofNat 8 x.priority, x.q.code, if 2 ≤ e.val then BitVec.ofNat 8 x.span.val else 0xFF,
      x.state.code, BitVec.ofNat 8 (x.count / 256), BitVec.ofNat 8 (x.count % 256)] := by
  unfold RefEntry.reply
  rw [bytes16_ofNat]
  simp only [isLine_iff]
  rfl

/-- The entry by the change of its enable and of its span (Table 4-4). -/
theorem rewritten_off {was x : RefEntry} (fault : Option FaultReason) (moved : Bool) (hx : x.enable = false)
    (hw : was.enable = true) : was.rewritten x fault moved = { x with state := .disabled, count := 0 } := by
  simp [RefEntry.rewritten, hx, hw]

theorem rewritten_clear {was x : RefEntry} {moved : Bool} (hx : x.enable = true) (hc : was.enable = false ∨ moved = true) :
    was.rewritten x none moved = x.requalify := by
  rcases hc with hc | hc <;> simp [RefEntry.rewritten, hx, hc]

theorem rewritten_on_faulted {was x : RefEntry} (why : FaultReason) (moved : Bool) (hx : x.enable = true)
    (hw : was.enable = false) :
    was.rewritten x (some why) moved = { x with state := .faulted, count := 0, target := x.q, reason := why } := by
  simp [RefEntry.rewritten, hx, hw]

theorem rewritten_moved_faulted {was x : RefEntry} (why : FaultReason) (hx : x.enable = true) (hw : was.enable = true) :
    was.rewritten x (some why) true = { x with state := .faulted, count := 0, reason := why } := by
  simp [RefEntry.rewritten, hx, hw]

theorem rewritten_same {was x : RefEntry} (fault : Option FaultReason) {moved : Bool} (he : x.enable = was.enable)
    (hm : x.enable = false ∨ moved = false) : was.rewritten x fault moved = x := by
  unfold RefEntry.rewritten
  rw [← he]
  rcases hm with hm | hm
  · simp [hm]
  · cases hx : x.enable <;> simp [hm]

/-- The pending reply to SET REFERENCE, with the entry as it then stands. -/
theorem reference_replied (s : State) (tag : Byte) (e : Fin 4) :
    (s.answer 0x20 tag .done (BitVec.ofNat 8 e.val :: (s.entry e).reply e)).channel = { s.channel with
      reply := some ⟨0x20, tag, .done,
        #v[BitVec.ofNat 8 e.val, bit (s.entry e).enable, BitVec.ofNat 8 (s.entry e).priority, (s.entry e).q.code,
           if 2 ≤ e.val then BitVec.ofNat 8 (s.entry e).span.val else 0xFF, (s.entry e).state.code,
           BitVec.ofNat 8 ((s.entry e).count / 256), BitVec.ofNat 8 ((s.entry e).count % 256), 0]⟩ } := by
  rw [reply_eq]
  rfl

/-- The alarm of an entry that is FAULTED is latched with the device's (R155). -/
theorem latchDevice_faulted {s : State} {e : Fin 4} (h : (s.entry e).state = .faulted) :
    s.latchDevice.device.latched.getLsbD e.val = true := by
  have active : s.timing.active.getLsbD e.val = true := by
    rw [active_entry]
    exact beq_iff_eq.mpr h
  change (s.device.latched ||| s.timing.active).getLsbD e.val = true
  rw [BitVec.getLsbD_or, active, Bool.or_true]

/-- Settles O40: the refusals in their order, then the entry by the change of its enable and of its span. -/
theorem setReferenceActs : Obligations.SetReferenceActs := by
  unfold Obligations.SetReferenceActs
  intro period entryState s tag entry en prio q span hr
  have hperiod : ∀ q, period q = q.code := fun q => by cases q <;> rfl
  have hstate : ∀ x, entryState x = x.code := fun x => by cases x <;> rfl
  have runs (t : State) : whenRunning s t = .next t := whenRunning_of_runs s t hr
  refine ⟨fun h => (runs _).trans (congrArg _ (takeSetReference_bad s tag entry en prio q span h)), ?_⟩
  rintro e n code enable rfl rfl h1 h4 rfl hn hspan
  rw [hperiod]
  have spanByte : 2 ≤ e.val → BitVec.ofNat 8 n.val = span := fun k => by
    rw [hn, if_pos k]
    have := hspan k
    apply BitVec.eq_of_toNat_eq
    simp only [Fin.ofNat, BitVec.toNat_ofNat]
    omega
  have spanKept (k : ¬2 ≤ e.val) : n = (s.entry e).span := hn.trans (if_neg k)
  have hread : referenceSpan e span (s.entry e).span = some n := by
    by_cases k : 2 ≤ e.val
    · rw [referenceSpan, if_pos ((isLine_iff e).mpr k), ← spanByte k]
      exact spanOf_ofNat n
    · rw [referenceSpan, if_neg (by rwa [isLine_iff]), spanKept k]
  have line_of_ne (k : n ≠ (s.entry e).span) : isLine e = true := by
    rw [isLine_iff]
    exact not_not.mp fun hi => k (spanKept hi)
  have taken := takeSetReference_read s tag prio span e enable code n h1 h4 hread
  refine ⟨fun hsel huse => ?_, fun hfree => ?_⟩
  · refine (runs _).trans (congrArg _ (taken.trans (if_pos ⟨hsel, huse.imp_right fun k => ⟨line_of_ne k, k⟩⟩)))
  · have notInUse : ¬(s.timing.loop.selected = some e ∧ (enable = false ∨ (isLine e ∧ n ≠ (s.entry e).span))) := by
      rintro ⟨hsel, huse⟩
      obtain ⟨hon, hsame⟩ := hfree.resolve_left fun k => k hsel
      rcases huse with k | ⟨-, k⟩
      · exact absurd (hon.symm.trans k) nofun
      · exact k hsame
    intro was x
    have hx : (s.writeReference e enable prio.toNat code n).entry e =
        was.rewritten x (s.faultOf e n) (isLine e && n != was.span) := setEntry_entry s e _
    have hchanged : (isLine e && n != was.span) = decide (n ≠ was.span) := by
      by_cases k : n = was.span
      · simp [k]
      · simp [k, line_of_ne k]
    obtain ⟨s1, s2, s3, s4⟩ := rewritten_settings was x (s.faultOf e n) (isLine e && n != was.span)
    rw [← hx] at s1 s2 s3 s4
    rw [hchanged] at hx
    refine ⟨_, (runs _).trans (congrArg _ (taken.trans (if_neg notInUse))), rfl, fun y hy => setEntry_entry_ne s e y _ hy,
      fun hoff hwas => ?_, fun hon hch hf => ?_, fun why hon hwas hf => ?_, fun why hon hwas hch hf => ?_, fun hsame hkept => ?_,
      fun hfault => ?_, ?_⟩
    · exact hx.trans (rewritten_off _ _ hoff hwas)
    · refine hx.trans ?_
      rw [hf]
      exact rewritten_clear hon (hch.imp_right fun k => decide_eq_true k)
    · refine hx.trans ?_
      rw [hf]
      exact rewritten_on_faulted why _ hon hwas
    · refine hx.trans ?_
      rw [hf, decide_eq_true hch]
      exact rewritten_moved_faulted why hon hwas
    · exact hx.trans (rewritten_same _ hsame (hkept.imp_right fun k => decide_eq_false (not_not.mpr k)))
    · exact latchDevice_faulted (s := s.setEntry e (was.rewritten x (s.faultOf e n) (isLine e && n != was.span))) hfault
    · have spans : (if 2 ≤ e.val then BitVec.ofNat 8 n.val else 0xFF) = if 2 ≤ e.val then span else 0xFF := by
        split
        next k => exact spanByte k
        next => rfl
      refine (reference_replied _ tag e).trans ?_
      rw [s1, s2, s3, s4, hstate, ← spans]
      simp only [x, BitVec.ofNat_toNat, BitVec.setWidth_eq]
      rfl

end Sys2Proof.Machine
end

