-- ==== Sys2Proof/Proofs/Timeout.lean ====
section
/-! QUALIFICATION_COMPLETE and ACQUISITION_TIMEOUT (O38). -/

namespace Sys2Proof.Machine

/-! ### QUALIFICATION_COMPLETE (R68) -/

/-- A count that reaches its target (R68). -/
theorem qualify_reaches {x : RefEntry} (hs : x.state = .qualifying) (hc : x.count + 1 = x.target.superframes) :
    x.qualify = { x with state := .qualified, count := x.target.superframes } := by
  obtain ⟨h, -⟩ | ⟨-, -, e⟩ | ⟨-, h, -⟩ := qualify_cases x
  · exact absurd hs h
  · exact e
  · omega

/-- A count short of its target (R68). -/
theorem qualify_counts {x : RefEntry} (hs : x.state = .qualifying) (hc : x.count + 1 < x.target.superframes) :
    x.qualify = { x with count := x.count + 1 } := by
  obtain ⟨h, -⟩ | ⟨-, h, -⟩ | ⟨-, -, e⟩ := qualify_cases x
  · exact absurd hs h
  · omega
  · exact e

theorem qualify_other {x : RefEntry} (hs : x.state ≠ .qualifying) : x.qualify = x := by
  obtain ⟨-, e⟩ | ⟨h, -⟩ | ⟨h, -⟩ := qualify_cases x
  · exact e
  · exact absurd h hs
  · exact absurd h hs

theorem qualificationComplete_reaches {s : State} {e : Fin 4} (hn : s.superframeNext = true)
    (hs : (s.entry e).state = .qualifying) (hc : (s.entry e).count + 1 = (s.entry e).target.superframes) :
    s.qualificationComplete e =
      s.setEntry e { s.entry e with state := .qualified, count := (s.entry e).target.superframes } := by
  unfold State.qualificationComplete
  dsimp only
  rw [if_pos ⟨hn, hs, hc.ge⟩, qualify_reaches hs hc]

/-! ### ACQUISITION_TIMEOUT (R72) -/

/-- A timeout is due: the loop is in ACQUIRING, and a boundary has left the 256th count to be made. -/
def Loop.timeoutLeft (l : Loop) : Prop := l.state = .acquiring ∧ l.timeoutDue = true

theorem acquisitionTimeout_of_left {s : State} (h : s.timing.loop.timeoutLeft) : s.acquisitionTimeout = s.timeout := if_pos h

theorem acquisitionTimeout_of_not {s : State} (h : ¬s.timing.loop.timeoutLeft) : s.acquisitionTimeout = s := if_neg h

/-- The timeout of entry `e` (R72, R73): the units and the device it leaves. -/
theorem timeout_selected {s : State} {e : Fin 4} (h : s.timing.loop.selected = some e) :
    (∀ u : Fin 4, s.timeout.units[u] =
        if s.units[u].source = 7 then { s.units[u] with newTrigger := true } else s.units[u]) ∧
      s.timeout.device.acquisitionTimeouts = raise s.device.acquisitionTimeouts ∧
      s.timeout.device.referenceSwitches = raise s.device.referenceSwitches ∧
      s.timeout.device.checkErrors = s.device.checkErrors ∧ s.timeout.device.latched.getLsbD e.val = true := by
  unfold State.timeout
  rw [h]
  refine ⟨fun u => offerTrigger_unit _ 7 u, rfl, rfl, rfl, ?_⟩
  have faulted := latchDevice_faulted (s := s.setEntry e { s.entry e with state := .faulted, count := 0, reason := .timeout })
    (e := e) (by rw [setEntry_entry])
  dsimp only
  generalize (s.setEntry e _).latchDevice = u at faulted ⊢
  refine getLsbD_of_subset ?_ faulted
  -- the selection dropped latches more, and loses nothing
  obtain ⟨-, -, -, -, -, -, -, -, -, -, -, -, -, -, -, -, -, -, -, -, -, -, latched⟩ := (dropSelection_spec
    { u.setEntry e (u.entry e).requalify with
      device := { u.device with acquisitionTimeouts := raise u.device.acquisitionTimeouts } }).1
  exact latched

/-- Nothing outside office timing, the units and the device changes at a timeout. -/
theorem timeout_outside (s : State) :
    s.timeout.spans = s.spans ∧ s.timeout.highway = s.highway ∧ s.timeout.frameNumber = s.frameNumber ∧
      s.timeout.timers = s.timers ∧ s.timeout.channel = s.channel ∧ s.timeout.restart = s.restart := by
  unfold State.timeout
  split <;> exact ⟨rfl, rfl, rfl, rfl, rfl, rfl⟩

/-- A timeout leaves none due. -/
theorem timeout_leaves_none {s : State} {e : Fin 4} (h : s.timing.loop.selected = some e) :
    s.timeout.timing.loop.timeoutDue = false := by
  obtain ⟨u, eq, -⟩ := timeout_drops h
  rw [eq]
  rfl

/-- The timeout left to be made is made once, and by itself. -/
theorem acquisitionTimeout_idem (s : State) : s.acquisitionTimeout.acquisitionTimeout = s.acquisitionTimeout := by
  by_cases h : s.timing.loop.timeoutLeft
  · rw [acquisitionTimeout_of_left h]
    cases hsel : s.timing.loop.selected with
    | none => rw [timeout_of_none hsel, acquisitionTimeout_of_left h, timeout_of_none hsel]
    | some e =>
      exact acquisitionTimeout_of_not fun k => absurd ((timeout_leaves_none hsel).symm.trans k.2) nofun
  · rw [acquisitionTimeout_of_not h, acquisitionTimeout_of_not h]

/-- A boundary makes the timeout left to be made before all else (notes/assumptions/11.md). -/
theorem boundary_acquisitionTimeout (s : State) (egress : Vector Byte 640) (order : List Handling) (apart : Bool) :
    s.acquisitionTimeout.boundary egress order apart = s.boundary egress order apart := by
  obtain ⟨-, -, frameNumber, channel, -⟩ := acquisitionTimeout_beside s
  have next : s.acquisitionTimeout.superframeNext = s.superframeNext := by
    unfold State.superframeNext
    rw [frameNumber]
  unfold State.boundary
  rw [acquisitionTimeout_idem, next, channel]

/-- Settles O38: the count that reaches its target, the timeout where one is left, and none where none is. -/
theorem qualificationAndTimeout : Obligations.QualificationAndTimeout := by
  refine ⟨fun s e hr hn hs hc => ?_, fun s e hr ha hsel hd => ?_, fun s hd => ?_, fun s egress order apart => ?_⟩
  · exact (whenRunning_of_runs s _ hr).trans (congrArg _ (qualificationComplete_reaches hn hs hc))
  · obtain ⟨units, timeouts, switches, errors, alarm⟩ := timeout_selected hsel
    obtain ⟨spans, highway, frameNumber, timers, channel, restart⟩ := timeout_outside s
    obtain ⟨u, eq, -, loop, entries⟩ := timeout_drops hsel
    have freq : u.timing.loop.freq = s.timing.loop.freq := by rw [loop]
    have dropped := loop ▸ (dropSelection_spec u).2.2.1
    have entry (x : Fin 4) : s.timeout.entry x = (s.setEntry e (s.entry e).timedOut).entry x := by rw [eq]; exact entries x
    refine ⟨s.timeout, (whenRunning_of_runs s _ hr).trans (congrArg _ (acquisitionTimeout_of_left ⟨ha, hd⟩)),
      (entry e).trans (setEntry_entry s e _), fun x hx => (entry x).trans (setEntry_entry_ne s e x _ hx), ?_, ?_, ?_, ?_, ?_, ?_,
      timeouts, switches, errors, alarm, units, spans, highway, frameNumber, timers, channel, restart⟩
    all_goals rw [eq]
    · rfl
    · exact dropped
    · rfl
    · rfl
    · rfl
    · exact freq
  · have none : s.acquisitionTimeout = s := acquisitionTimeout_of_not fun k => absurd (hd.symm.trans k.2) nofun
    change whenRunning s s.acquisitionTimeout = .next s
    rw [none, whenRunning, ite_self]
  · cases hr : s.officeRuns with
    | false => exact ⟨s, whenRunning_of_held s _ hr, rfl⟩
    | true =>
      have runs : s.acquisitionTimeout.officeRuns = true := by
        rw [State.officeRuns, (acquisitionTimeout_beside s).restart]
        exact hr
      refine ⟨s.acquisitionTimeout, whenRunning_of_runs s _ hr, (whenRunning_of_runs s _ hr).trans ?_⟩
      rw [← boundary_acquisitionTimeout]
      exact (whenRunning_of_runs _ _ runs).symm

end Sys2Proof.Machine
end

