-- ==== Sys2Proof/Proofs/ReferenceEvent.lean ====
section
/-! REFERENCE_EVENT: the monitor, the detector and the pulses passed through to the outputs (R66, R71, R80, R81). -/

namespace Sys2Proof.Machine

/-! ### The entry of an event, and the pulse of an output -/

theorem feedsEntry_iff (s : State) (input : RefInput) (e : Fin 4) : feedsEntry input s.timing e = true ↔ s.feeds input e := by
  unfold State.feeds
  cases input with
  | refA => simp [feedsEntry]
  | refB => simp [feedsEntry]
  | span n =>
    simp only [feedsEntry, Bool.and_eq_true, isLine_iff, beq_iff_eq]
    constructor
    · rintro ⟨h, rfl⟩
      exact .inr (.inr ⟨h, rfl⟩)
    · rintro (⟨k, -⟩ | ⟨k, -⟩ | ⟨h, k⟩)
      · cases k
      · cases k
      · exact ⟨h, (RefInput.span.inj k).symm⟩

theorem feedsEntry_of_entries {t u : Timing} (h : u.entries = t.entries) (input : RefInput) (e : Fin 4) :
    feedsEntry input u e = feedsEntry input t e := by
  unfold feedsEntry
  rw [h]

theorem squelched_of_sameLoop {t u : Timing} (h : t.sameLoop u) (r : OutputRecord) : u.squelched r = t.squelched r := by
  unfold Timing.squelched
  rw [h.loop, h.entries]

/-- Whether a pulse of these begins on an output with this record in force (R80, R81). -/
def OutputRecord.begins (r : OutputRecord) (t : Timing) (fires : OutputRecord → Bool) : Prop :=
  r.enable = true ∧ fires r = true ∧ t.squelched r = false

theorem pulse_of_begins {o : TimingOutput} {t : Timing} {fires : OutputRecord → Bool} (h : o.inForce.begins t fires) :
    o.pulse t fires = { o with pulses := o.pulses + 1 } := by
  obtain ⟨he, hf, hs⟩ := h
  simp [TimingOutput.pulse, he, hf, hs]

theorem pulse_of_not_begins {o : TimingOutput} {t : Timing} {fires : OutputRecord → Bool} (h : ¬o.inForce.begins t fires) :
    o.pulse t fires = o := by
  refine if_neg fun k => h ?_
  simp only [Bool.and_eq_true, Bool.not_eq_true'] at k
  exact ⟨k.1.1, k.1.2, k.2⟩

/-- Squelch of a record whose source is an entry: the entry is DISABLED or FAULTED (R81). -/
theorem squelched_entry (s : State) {r : OutputRecord} {e : Fin 4} (h : r.source = .entry e) :
    s.timing.squelched r = false ↔
      (r.squelch = true → (s.entry e).state = .qualifying ∨ (s.entry e).state = .qualified) := by
  have entry : s.timing.squelched r = (r.squelch && ((s.entry e).state == .disabled || (s.entry e).state == .faulted)) := by
    unfold Timing.squelched
    rw [h]
    rfl
  rw [entry]
  cases r.squelch <;> cases (s.entry e).state <;> decide

/-- A reference event passes a pulse through exactly to an enabled, unsquelched record whose source it feeds (R80, R81). -/
theorem begins_passing (s : State) (r : OutputRecord) (input : RefInput) :
    r.begins s.timing (passFires input s.timing) ↔
      r.enable = true ∧ ∃ e, r.source = .entry e ∧ s.feeds input e ∧
        (r.squelch = true → (s.entry e).state = .qualifying ∨ (s.entry e).state = .qualified) := by
  unfold OutputRecord.begins passFires
  refine and_congr_right fun _ => ?_
  cases hs : r.source with
  | office => simp
  | entry e =>
    dsimp only
    rw [feedsEntry_iff, squelched_entry s hs]
    simp

/-! ### The event (R71) -/

/-- An event measured changes the detector alone. -/
theorem measure_eq (t : Timing) (input : RefInput) (time : Int) (frequency : Rat) :
    t.measure input time frequency = { t with detector := (t.measure input time frequency).detector } := by
  unfold Timing.measure
  split
  · rfl
  · split <;> rfl

/-- An event measured of the selected entry (R71). -/
theorem measure_selected {t : Timing} {input : RefInput} {e : Fin 4} (time : Int) (frequency : Rat)
    (h : t.loop.selected = some e) (hf : feedsEntry input t e = true) :
    (t.measure input time frequency).detector =
      t.detector.measure (t.loop.state == .acquiring) time frequency := by
  unfold Timing.measure
  rw [h]
  simp only [hf, if_true]

theorem measure_other {t : Timing} {input : RefInput} (time : Int) (frequency : Rat)
    (h : ∀ e, t.loop.selected = some e → feedsEntry input t e = false) :
    (t.measure input time frequency).detector = t.detector := by
  unfold Timing.measure
  split
  · rfl
  next e he => simp only [h e he, Bool.false_eq_true, if_false]

/-- The detector at a first event, and at a later one as it is judged or not (R71). -/
theorem detector_first {d : Detector} (judging : Bool) (time : Int) (frequency : Rat) (h : d.zero = none) :
    d.measure judging time frequency = { d with zero := some time, frequency := some frequency } := by
  unfold Detector.measure
  rw [h]

theorem detector_unjudged {d : Detector} {z : Int} (time : Int) (frequency : Rat) (h : d.zero = some z) :
    d.measure false time frequency = { d with lastError := some (time - z), frequency := some frequency } := by
  unfold Detector.measure
  rw [h]
  simp

theorem detector_judged {d : Detector} {z : Int} (time : Int) (frequency : Rat) (h : d.zero = some z) :
    d.measure true time frequency =
      { d with
        lastError := some (time - z), frequency := some frequency, measured := true
        inside := d.inside && decide ((time - z).natAbs ≤ 1000000 ∧ -100 ≤ frequency ∧ frequency ≤ 100) } := by
  unfold Detector.measure withinLock withinPull
  rw [h]
  simp only [Bool.or_true, Bool.not_true, Bool.false_or, ← Bool.decide_and]
  rfl

/-- A reference event changes the monitor's note, the detector and the outputs alone. -/
theorem referenceEvent_eq (t : Timing) (input : RefInput) (time : Int) (frequency : Rat) :
    t.referenceEvent input time frequency =
      { t with
        monitorA := if input = .refA then { t.monitorA with pulse := true } else t.monitorA
        monitorB := if input = .refB then { t.monitorB with pulse := true } else t.monitorB
        detector := (t.referenceEvent input time frequency).detector
        toa := (t.referenceEvent input time frequency).toa, tob := (t.referenceEvent input time frequency).tob } := by
  unfold Timing.referenceEvent
  dsimp only
  rw [measure_eq]
  cases input <;> rfl

/-- The detector after a reference event: the event measured. -/
theorem referenceEvent_detector (t : Timing) (input : RefInput) (time : Int) (frequency : Rat) :
    (t.referenceEvent input time frequency).detector = (t.measure input time frequency).detector := by
  have noted := notePulse_sameLoop t input
  have detector : (t.notePulse input).detector = t.detector := by cases input <;> rfl
  change ((t.notePulse input).measure input time frequency).detector = _
  unfold Timing.measure
  rw [noted.loop]
  split
  · exact detector
  next e _ =>
    rw [feedsEntry_of_entries noted.entries]
    split
    · rw [detector]
    · exact detector

/-- An output's pulse at a reference event, with the entries as they stood (R80, R81). -/
theorem pulse_passing (t : Timing) (o : TimingOutput) (input : RefInput) (time : Int) (frequency : Rat) :
    o.pulse ((t.notePulse input).measure input time frequency)
        (passFires input ((t.notePulse input).measure input time frequency)) = o.pulse t (passFires input t) := by
  obtain ⟨he, hl, ha, hb⟩ := notePulse_sameLoop t input
  obtain ⟨ke, kl, ka, kb⟩ := measure_sameLoop (t.notePulse input) input time frequency
  have same : t.sameLoop ((t.notePulse input).measure input time frequency) :=
    ⟨ke.trans he, kl.trans hl, ka.trans ha, kb.trans hb⟩
  unfold TimingOutput.pulse passFires
  simp only [squelched_of_sameLoop same, feedsEntry_of_entries same.entries]

theorem referenceEvent_toa (t : Timing) (input : RefInput) (time : Int) (frequency : Rat) :
    (t.referenceEvent input time frequency).toa = t.toa.pulse t (passFires input t) := by
  have kept : ((t.notePulse input).measure input time frequency).toa = t.toa := by
    rw [measure_eq]
    cases input <;> rfl
  exact (congrArg (fun o : TimingOutput => o.pulse _ _) kept).trans (pulse_passing t t.toa input time frequency)

theorem referenceEvent_tob (t : Timing) (input : RefInput) (time : Int) (frequency : Rat) :
    (t.referenceEvent input time frequency).tob = t.tob.pulse t (passFires input t) := by
  have kept : ((t.notePulse input).measure input time frequency).tob = t.tob := by
    rw [measure_eq]
    cases input <;> rfl
  exact (congrArg (fun o : TimingOutput => o.pulse _ _) kept).trans (pulse_passing t t.tob input time frequency)

/-! ### The command -/

theorem occurs_of_aligned {s : State} {input : RefInput}
    (h : ∀ n : Fin 16, input = .span n → (s.span n).rx.aligner.aligned = true) : s.occurs input = true := by
  cases input with
  | refA => rfl
  | refB => rfl
  | span n => exact h n rfl

theorem exec_referenceEvent {s : State} {input : RefInput} (time : Int) (frequency : Rat) (hr : s.officeRuns = true)
    (ho : s.occurs input = true) :
    exec (.referenceEvent input time frequency) s =
      .next { s with timing := s.timing.referenceEvent input time frequency } := by
  refine (whenRunning_of_runs s _ hr).trans ?_
  rw [if_pos ho]

/-- What a reference event of an aligned span, or of REFA or REFB, leaves on an output (R80, R81). -/
theorem pulse_at_event (s : State) (o : TimingOutput) (input : RefInput) :
    let passes := o.inForce.enable = true ∧ ∃ e, o.inForce.source = .entry e ∧ s.feeds input e ∧
      (o.inForce.squelch = true → (s.entry e).state = .qualifying ∨ (s.entry e).state = .qualified)
    (passes → o.pulse s.timing (passFires input s.timing) = { o with pulses := o.pulses + 1 }) ∧
      (¬passes → o.pulse s.timing (passFires input s.timing) = o) := by
  intro passes
  have iff := begins_passing s o.inForce input
  exact ⟨fun h => pulse_of_begins (iff.mpr h), fun h => pulse_of_not_begins fun k => h (iff.mp k)⟩

/-- The first half of O37: the monitor, the detector and the outputs at a reference event. -/
theorem referenceEvent_acts (s : State) (input : RefInput) (time : Int) (frequency : Rat) (hr : s.officeRuns = true)
    (ho : s.occurs input = true) :
    let d := s.timing.detector
    ∃ t, exec (.referenceEvent input time frequency) s = .next t ∧
      t = { s with timing := { s.timing with
        monitorA := if input = .refA then { s.timing.monitorA with pulse := true } else s.timing.monitorA
        monitorB := if input = .refB then { s.timing.monitorB with pulse := true } else s.timing.monitorB
        detector := t.timing.detector, toa := t.timing.toa, tob := t.timing.tob } } ∧
      ((∀ e, s.timing.loop.selected = some e → ¬s.feeds input e) → t.timing.detector = d) ∧
      (∀ e, s.timing.loop.selected = some e → s.feeds input e →
        t.timing.detector = d.measure (s.timing.loop.state == .acquiring) time frequency) ∧
      t.timing.toa = s.timing.toa.pulse s.timing (passFires input s.timing) ∧
      t.timing.tob = s.timing.tob.pulse s.timing (passFires input s.timing) := by
  intro d
  refine ⟨_, exec_referenceEvent time frequency hr ho, ?_, fun h => ?_, fun e hs hf => ?_,
    referenceEvent_toa _ _ _ _, referenceEvent_tob _ _ _ _⟩
  · exact congrArg (fun t => { s with timing := t }) (referenceEvent_eq s.timing input time frequency)
  · refine (referenceEvent_detector _ _ _ _).trans (measure_other time frequency fun e he => ?_)
    rw [← Bool.not_eq_true, feedsEntry_iff]
    exact h e he
  · exact (referenceEvent_detector _ _ _ _).trans (measure_selected time frequency hs ((feedsEntry_iff s input e).mpr hf))

end Sys2Proof.Machine
end

