-- ==== Sys2Proof/Proofs/OfficePulses.lean ====
section
/-! The OFFICE pulses of a boundary that takes no order, and with them O37 (R79 to R81): the number formed and the outputs are
each touched by their own handling alone. -/

namespace Sys2Proof.Machine

/-! ### What the handlings leave of the number and of the outputs -/

/-- The number formed, the number pending and both timing outputs stand as they did. -/
structure State.keepsNumber (s t : State) : Prop where
  frameNumber : t.frameNumber = s.frameNumber
  pendingNumber : t.pendingNumber = s.pendingNumber
  toa : t.timing.toa = s.timing.toa
  tob : t.timing.tob = s.timing.tob

theorem keepsNumber_refl (s : State) : s.keepsNumber s := ⟨rfl, rfl, rfl, rfl⟩

theorem keepsNumber_trans {s t u : State} (h : s.keepsNumber t) (k : t.keepsNumber u) : s.keepsNumber u :=
  ⟨k.frameNumber.trans h.frameNumber, k.pendingNumber.trans h.pendingNumber, k.toa.trans h.toa, k.tob.trans h.tob⟩

theorem keepsNumber_of_timingActs {s t : State} (h : s.timingActs t) : s.keepsNumber t := by
  obtain ⟨-, -, -, -, hf, hp, -, -, -, -, -, -, ha, hb, -⟩ := h
  exact ⟨hf, hp, ha, hb⟩

theorem keepsNumber_of_becomes {s t : State} {n : Fin 16} {sp : Span} (h : s.becomes n sp t) : s.keepsNumber t := by
  obtain ⟨-, ⟨-, -, -, -, hf, hp, -, -, -, -, -, -, -, ha, hb, -⟩, -⟩ := h
  exact ⟨hf, hp, ha, hb⟩

theorem offerUnitTrigger_keepsNumber (s : State) (src : Fin 8) (u : Fin 4) : s.keepsNumber (s.offerUnitTrigger src u) := by
  rw [offerUnitTrigger_eq]
  split <;> exact ⟨rfl, rfl, rfl, rfl⟩

theorem performAction_keepsNumber (s : State) (t : Timer) : s.keepsNumber (s.performAction t).1 := by
  unfold State.performAction
  split
  · exact keepsNumber_refl s
  · exact ⟨rfl, rfl, rfl, rfl⟩
  · exact ⟨rfl, rfl, rfl, rfl⟩
  · exact ⟨rfl, rfl, rfl, rfl⟩
  · exact keepsNumber_of_timingActs (selectionRequest_acts s t.param)

theorem matchTimer_keepsNumber (s : State) (n : Fin 4) : s.keepsNumber (s.matchTimer n) := by
  unfold State.matchTimer
  dsimp only
  split
  · have set (t : State) (x : Timer) : t.keepsNumber (t.setTimer n x) := ⟨rfl, rfl, rfl, rfl⟩
    exact keepsNumber_trans (performAction_keepsNumber s s.timers[n])
      (keepsNumber_trans (set _ _) (offerUnitTrigger_keepsNumber _ 5 n))
  · exact keepsNumber_refl s

theorem timeout_keepsNumber (s : State) : s.keepsNumber s.timeout := by
  unfold State.timeout
  split <;> exact ⟨rfl, rfl, rfl, rfl⟩

theorem lockStage_keepsNumber (s : State) (apart : Bool) : s.keepsNumber (s.lockStage apart) := by
  have loop (l : Loop) : s.keepsNumber (s.setLoop l) := ⟨rfl, rfl, rfl, rfl⟩
  obtain e | ⟨l, e | e⟩ := lockStage_cases s apart <;> rw [e]
  · exact keepsNumber_refl s
  · exact loop l
  · exact keepsNumber_trans (loop l) (timeout_keepsNumber _)

theorem autoSelect_keepsNumber (s : State) : s.keepsNumber s.autoSelect := by
  have selects (b : Fin 4) := keepsNumber_of_timingActs (selectEntry_spec s b).1
  unfold State.autoSelect
  split
  · exact keepsNumber_refl s
  · exact keepsNumber_refl s
  · split
    · exact selects _
    · split
      · exact selects _
      · exact keepsNumber_refl s

theorem monitors_keepsNumber (s : State) : s.keepsNumber s.monitors := by
  have evaluated : s.keepsNumber { s with timing := { s.timing with
      monitorA := s.timing.monitorA.frameEnd, monitorB := s.timing.monitorB.frameEnd } } := ⟨rfl, rfl, rfl, rfl⟩
  exact keepsNumber_trans evaluated (keepsNumber_of_timingActs (followEntries_acts _))

theorem otuSuperframe_keepsNumber (s : State) (apart : Bool) : s.keepsNumber (s.otuSuperframe apart) := by
  have qualified : s.keepsNumber s.qualifyAll := ⟨rfl, rfl, rfl, rfl⟩
  have staged := keepsNumber_trans qualified (keepsNumber_trans (autoSelect_keepsNumber _) (lockStage_keepsNumber _ apart))
  refine keepsNumber_trans staged ?_
  unfold State.otuSuperframe
  generalize s.qualifyAll.autoSelect.lockStage apart = u
  have toa : u.timing.steer.toa = u.timing.toa := by rw [steer_eq]
  have tob : u.timing.steer.tob = u.timing.tob := by rw [steer_eq]
  exact ⟨rfl, rfl, toa, tob⟩

theorem otuBoundary_keepsNumber (s : State) (superframe apart : Bool) : s.keepsNumber (s.otuBoundary superframe apart) := by
  unfold State.otuBoundary
  split
  · exact keepsNumber_trans (monitors_keepsNumber s) (otuSuperframe_keepsNumber _ apart)
  · exact monitors_keepsNumber s

/-- What an order channel that takes no order leaves: all but the cells (R140, R145, R151). -/
theorem orderBoundary_beside (s : State) (sampled : Fin 16 → Bool)
    (h : s.channel.framed = false ∨ s.channel.receive[1] = 0) :
    ∃ channel, s.orderBoundary sampled = { s with channel := channel } := by
  unfold State.orderBoundary State.examine
  split
  next hf =>
    have empty : s.formSend.channel.receive[1] = 0 := h.resolve_left fun k => Bool.false_ne_true (k.symm.trans hf)
    unfold State.judgeCell
    rw [if_pos empty]
    exact ⟨_, rfl⟩
  next => exact ⟨_, rfl⟩

/-- A handling that neither forms the number nor pulses the outputs leaves both alone. -/
theorem handle_keepsNumber (s : State) (superframe apart : Bool) (done : List Handling) (h : Handling)
    (ho : s.examinesNothing superframe) (hn : h ≠ .number) (hp : h ≠ .outputs) :
    s.keepsNumber (s.handle superframe apart done h) := by
  cases h with
  | number => exact absurd rfl hn
  | timer n => exact matchTimer_keepsNumber s n
  | store n => exact keepsNumber_of_becomes (storeBoundary_becomes s superframe n)
  | otu => exact otuBoundary_keepsNumber s superframe apart
  | outputs => exact absurd rfl hp
  | swaps => cases superframe <;> exact ⟨rfl, rfl, rfl, rfl⟩
  | units => cases superframe <;> exact ⟨rfl, rfl, rfl, rfl⟩
  | orderChannel =>
    cases superframe with
    | false => exact keepsNumber_refl s
    | true =>
      obtain ⟨channel, e⟩ := orderBoundary_beside s (fun n => decide (.store n ∈ done)) (ho.resolve_left nofun)
      refine (congrArg s.keepsNumber e).mpr ?_
      exact ⟨rfl, rfl, rfl, rfl⟩

/-! ### The number of a boundary (R107, R109) -/

/-- The number a boundary forms, as it stands when the handlings `done` have been taken. -/
def State.numberAt (s : State) (done : List Handling) : FrameNumber :=
  if .number ∈ done then s.frameNumber else s.nextNumber

theorem nextNumber_keeps {s t : State} (h : s.keepsNumber t) : t.nextNumber = s.nextNumber := by
  unfold State.nextNumber
  rw [h.pendingNumber, h.frameNumber]

theorem numberAt_keeps {s t : State} (h : s.keepsNumber t) (done : List Handling) : t.numberAt done = s.numberAt done := by
  unfold State.numberAt
  rw [nextNumber_keeps h, h.frameNumber]

theorem numberAt_cons (s : State) (done : List Handling) {h : Handling} (hn : h ≠ .number) :
    s.numberAt (h :: done) = s.numberAt done := by
  simp [State.numberAt, hn.symm]

/-- Each handling, taken once, leaves the number of its boundary what it was. -/
theorem handle_numberAt (s : State) (superframe apart : Bool) (done : List Handling) (h : Handling)
    (ho : s.examinesNothing superframe) (hd : h ∉ done) :
    (s.handle superframe apart done h).numberAt (h :: done) = s.numberAt done := by
  by_cases hn : h = .number
  · subst hn
    change (if Handling.number ∈ Handling.number :: done then s.formNumber.frameNumber else _) = _
    rw [if_pos List.mem_cons_self, State.numberAt, if_neg hd]
    rfl
  · rw [numberAt_cons _ _ hn]
    by_cases hp : h = .outputs
    · subst hp
      rfl
    · exact numberAt_keeps (handle_keepsNumber s superframe apart done h ho hn hp) done

theorem handle_outputs_kept (s : State) (superframe apart : Bool) (done : List Handling) (h : Handling)
    (ho : s.examinesNothing superframe) (hp : h ≠ .outputs) :
    (s.handle superframe apart done h).timing.toa = s.timing.toa ∧
      (s.handle superframe apart done h).timing.tob = s.timing.tob := by
  by_cases hn : h = .number
  · subst hn
    exact ⟨rfl, rfl⟩
  · have kept := handle_keepsNumber s superframe apart done h ho hn hp
    exact ⟨kept.toa, kept.tob⟩

/-! ### Handlings in a row -/

theorem handleAll_append (superframe apart : Bool) (a b done : List Handling) (s : State) :
    s.handleAll superframe apart done (a ++ b) =
      (s.handleAll superframe apart done a).handleAll superframe apart (a.reverse ++ done) b := by
  induction a generalizing done s with
  | nil => rfl
  | cons h a ih =>
    rw [List.reverse_cons, List.append_assoc]
    exact ih (h :: done) _

/-- What each handling of a list keeps, where no order is taken, they keep together. -/
theorem handleAll_induct {P : List Handling → State → Prop} (superframe apart : Bool) (todo done : List Handling) (s : State)
    (step : ∀ t done h, h ∈ todo → t.examinesNothing superframe → P done t →
      P (h :: done) (t.handle superframe apart done h))
    (ho : s.examinesNothing superframe) (hs : P done s) :
    (s.handleAll superframe apart done todo).examinesNothing superframe ∧
      P (todo.reverse ++ done) (s.handleAll superframe apart done todo) := by
  induction todo generalizing done s with
  | nil => exact ⟨ho, hs⟩
  | cons h rest ih =>
    rw [List.reverse_cons, List.append_assoc]
    exact ih (h :: done) _ (fun t done x hx => step t done x (List.mem_cons_of_mem h hx))
      ((handle_keeps s superframe apart done h ho).orders ho) (step s done h List.mem_cons_self ho hs)

/-- Handlings that do not pulse the outputs leave them alone. -/
theorem handleAll_outputs_kept (superframe apart : Bool) (todo done : List Handling) (s : State)
    (ho : s.examinesNothing superframe) (hp : .outputs ∉ todo) :
    (s.handleAll superframe apart done todo).timing.toa = s.timing.toa ∧
      (s.handleAll superframe apart done todo).timing.tob = s.timing.tob := by
  refine (handleAll_induct (P := fun _ t => t.timing.toa = s.timing.toa ∧ t.timing.tob = s.timing.tob) superframe apart todo
    done s (fun t done h hh ht k => ?_) ho ⟨rfl, rfl⟩).2
  obtain ⟨ha, hb⟩ := handle_outputs_kept t superframe apart done h ht fun e => hp (e ▸ hh)
  exact ⟨ha.trans k.1, hb.trans k.2⟩

/-- Handlings taken once each leave the number of their boundary what it was. -/
theorem handleAll_numberAt (superframe apart : Bool) (todo done : List Handling) (s : State) (hn : todo.Nodup)
    (hd : ∀ h ∈ todo, h ∉ done) (ho : s.examinesNothing superframe) :
    (s.handleAll superframe apart done todo).numberAt (todo.reverse ++ done) = s.numberAt done := by
  induction todo generalizing done s with
  | nil => rfl
  | cons h rest ih =>
    obtain ⟨hnot, hrest⟩ := List.nodup_cons.mp hn
    have first := handle_keeps s superframe apart done h ho
    rw [List.reverse_cons, List.append_assoc]
    refine (ih (h :: done) _ hrest (fun x hx k => ?_) (first.orders ho)).trans
      (handle_numberAt s superframe apart done h ho (hd h List.mem_cons_self))
    rcases List.mem_cons.mp k with rfl | k
    · exact hnot hx
    · exact hd x (List.mem_cons_of_mem h hx) k

/-! ### The outputs' place in a schedule -/

/-- Every handling has its place in the model's own order. -/
theorem mem_schedule (order : List Handling) (h : Handling) : h ∈ schedule order := by
  refine mem_foldl_addHandling _ _ _ (.inr (List.mem_append_right _ ?_))
  cases h with
  | timer n => fin_cases n <;> decide
  | store n => simp [defaultOrder, mem_allSpans]
  | _ => decide

/-- The handlings that the model's own order takes after the outputs' (R80). -/
def followsOutputs : Handling → Prop
  | .swaps => True
  | .units => True
  | .orderChannel => True
  | _ => False

/-- The model's order of the handlings up to the outputs'. -/
def openingOrder : List Handling :=
  [.number, .timer 0, .timer 1, .timer 2, .timer 3] ++ allSpans.map Handling.store ++ [.otu]

theorem outputs_not_added (l done : List Handling) (hl : .outputs ∉ l) (hd : .outputs ∉ done) :
    .outputs ∉ l.foldl addHandling done := by
  induction l generalizing done with
  | nil => exact hd
  | cons h l ih =>
    refine ih _ (fun k => hl (List.mem_cons_of_mem h k)) ?_
    rw [mem_addHandling]
    refine not_or.mpr ⟨hd, fun k => hl ?_⟩
    cases h with
    | outputs => exact List.mem_cons_self
    | timer n => simp [expand] at k
    | orderChannel => dsimp only [expand] at k; split at k <;> simp at k
    | _ => simp [expand] at k

/-- Handlings of the timers done, the order channel adds itself alone. -/
theorem expand_orderChannel (done : List Handling) (h : ∀ n, .timer n ∈ done) (x : Handling)
    (hx : x ∈ expand done .orderChannel) (hd : x ∉ done) : x = .orderChannel := by
  dsimp only [expand] at hx
  split at hx
  · simp only [List.mem_cons, List.not_mem_nil, or_false] at hx
    rcases hx with rfl | rfl | rfl | rfl | rfl
    · exact absurd (h 0) hd
    · exact absurd (h 1) hd
    · exact absurd (h 2) hd
    · exact absurd (h 3) hd
    · rfl
  · exact List.mem_singleton.mp hx

theorem addHandling_followsOutputs (done : List Handling) (h : Handling) (hc : followsOutputs h) (ht : ∀ n, .timer n ∈ done) :
    ∃ more, addHandling done h = done ++ more ∧ ∀ x ∈ more, followsOutputs x := by
  refine ⟨_, rfl, fun x hx => ?_⟩
  obtain ⟨hx, hd⟩ := List.mem_filter.mp hx
  have hd : x ∉ done := by simpa using hd
  cases h with
  | swaps => rw [List.mem_singleton.mp hx]; trivial
  | units => rw [List.mem_singleton.mp hx]; trivial
  | orderChannel => rw [expand_orderChannel done ht x hx hd]; trivial
  | _ => cases hc

theorem foldl_addHandling_followsOutputs (l done : List Handling) (hc : ∀ h ∈ l, followsOutputs h)
    (ht : ∀ n, .timer n ∈ done) :
    ∃ more, l.foldl addHandling done = done ++ more ∧ ∀ x ∈ more, followsOutputs x := by
  induction l generalizing done with
  | nil => exact ⟨[], (List.append_nil _).symm, nofun⟩
  | cons h l ih =>
    obtain ⟨a, ea, ha⟩ := addHandling_followsOutputs done h (hc h List.mem_cons_self) ht
    obtain ⟨b, eb, hb⟩ := ih (addHandling done h) (fun x hx => hc x (List.mem_cons_of_mem h hx))
      fun n => by rw [ea]; exact List.mem_append_left _ (ht n)
    refine ⟨a ++ b, ?_, fun x hx => (List.mem_append.mp hx).elim (ha x) (hb x)⟩
    rw [List.foldl_cons, eb, ea, List.append_assoc]

/-- Where a command does not name the outputs' handling, nothing of office timing is handled after it (R80, R81). -/
theorem schedule_outputs (order : List Handling) (h : .outputs ∉ order) :
    ∃ pre post, schedule order = pre ++ .outputs :: post ∧ ∀ x ∈ post, followsOutputs x := by
  have parts : order ++ defaultOrder = (order ++ openingOrder) ++ (.outputs :: [.swaps, .units, .orderChannel]) := by
    simp [defaultOrder, openingOrder]
  have fresh : .outputs ∉ (order ++ openingOrder).foldl addHandling [] :=
    outputs_not_added _ [] (by simp [h, openingOrder]) nofun
  have timers (n : Fin 4) : .timer n ∈ (order ++ openingOrder).foldl addHandling [] :=
    mem_foldl_addHandling _ _ _ (.inr (List.mem_append_right _ (by revert n; decide)))
  rw [schedule, parts, List.foldl_append, List.foldl_cons]
  generalize (order ++ openingOrder).foldl addHandling [] = pre at fresh timers ⊢
  have placed : addHandling pre .outputs = pre ++ [.outputs] := by simp [addHandling, expand, fresh]
  obtain ⟨post, e, hpost⟩ := foldl_addHandling_followsOutputs [.swaps, .units, .orderChannel] (pre ++ [.outputs])
    (by simp [followsOutputs]) fun n => List.mem_append_left _ (timers n)
  exact ⟨pre, post, by rw [placed, e, List.append_assoc, List.singleton_append], hpost⟩

/-- The handlings that follow the outputs leave office timing alone. -/
theorem handle_followsOutputs_timing (s : State) (superframe apart : Bool) (done : List Handling) (h : Handling)
    (ho : s.examinesNothing superframe) (hc : followsOutputs h) : (s.handle superframe apart done h).timing = s.timing := by
  cases h with
  | swaps => cases superframe <;> rfl
  | units => cases superframe <;> rfl
  | orderChannel =>
    cases superframe with
    | false => rfl
    | true =>
      obtain ⟨channel, e⟩ := orderBoundary_beside s (fun n => decide (.store n ∈ done)) (ho.resolve_left nofun)
      exact (congrArg State.timing e).trans rfl
  | _ => cases hc

theorem handleAll_followsOutputs_timing (superframe apart : Bool) (todo done : List Handling) (s : State)
    (ho : s.examinesNothing superframe) (hc : ∀ h ∈ todo, followsOutputs h) :
    (s.handleAll superframe apart done todo).timing = s.timing :=
  (handleAll_induct (P := fun _ t => t.timing = s.timing) superframe apart todo done s
    (fun t done h hh ht k => (handle_followsOutputs_timing t superframe apart done h ht (hc h hh)).trans k) ho rfl).2

/-! ### The pulses of a boundary (R80, R81) -/

/-- An OFFICE pulse begins exactly on an enabled record of that source at a multiple of its divisor, where the loop does not
squelch it (R80, R81). -/
theorem begins_office (t : Timing) (r : OutputRecord) (n : FrameNumber) :
    r.begins t (officeFires n) ↔
      (r.enable = true ∧ r.source = .office ∧ n.toNat % r.rate.divisor = 0) ∧
        (r.squelch = true → ¬(t.loop.state = .free ∨ t.loop.state = .holdover)) := by
  have squelch (h : r.source = .office) :
      t.squelched r = false ↔ (r.squelch = true → ¬(t.loop.state = .free ∨ t.loop.state = .holdover)) := by
    unfold Timing.squelched
    rw [h]
    simp
  unfold OutputRecord.begins officeFires
  rw [Bool.and_eq_true, beq_iff_eq, beq_iff_eq]
  constructor
  · rintro ⟨he, ⟨hs, hd⟩, hq⟩
    exact ⟨⟨he, hs, hd⟩, (squelch hs).mp hq⟩
  · rintro ⟨⟨he, hs, hd⟩, hq⟩
    exact ⟨he, ⟨hs, hd⟩, (squelch hs).mpr hq⟩

/-- The outputs' handling, between those before it and those after. -/
theorem schedule_split (order : List Handling) :
    ∃ pre post, schedule order = pre ++ .outputs :: post ∧ (.outputs ∉ order → ∀ x ∈ post, followsOutputs x) := by
  by_cases h : .outputs ∈ order
  · obtain ⟨pre, post, e⟩ := List.append_of_mem (mem_schedule order .outputs)
    exact ⟨pre, post, e, fun k => absurd h k⟩
  · obtain ⟨pre, post, e, hpost⟩ := schedule_outputs order h
    exact ⟨pre, post, e, fun _ => hpost⟩

/-- The handlings of a boundary pulse each output once, with the number formed at that boundary, and where the outputs'
handling follows the others with the loop they leave. -/
theorem handleAll_pulses (s : State) (superframe apart : Bool) (order : List Handling) (ho : s.examinesNothing superframe) :
    let t := s.handleAll superframe apart [] (schedule order)
    ∃ u : Timing, (.outputs ∉ order → u.loop = t.timing.loop) ∧
      t.timing.toa = s.timing.toa.pulse u (officeFires t.frameNumber) ∧
      t.timing.tob = s.timing.tob.pulse u (officeFires t.frameNumber) := by
  intro t
  obtain ⟨pre, post, split, hpost⟩ := schedule_split order
  have nodup := schedule_nodup order
  have number : t.frameNumber = s.nextNumber := by
    have kept := handleAll_numberAt superframe apart (schedule order) [] s nodup (fun _ _ => List.not_mem_nil) ho
    rw [State.numberAt, List.append_nil, if_pos (List.mem_reverse.mpr (mem_schedule order .number))] at kept
    exact kept
  obtain ⟨nodupPre, nodupRest, apartFrom⟩ := List.nodup_append.mp (split ▸ nodup)
  have noPre : .outputs ∉ pre := fun k => apartFrom _ k _ List.mem_cons_self rfl
  have noPost : .outputs ∉ post := (List.nodup_cons.mp nodupRest).1
  let u := s.handleAll superframe apart [] pre
  obtain ⟨keptA, keptB⟩ : u.timing.toa = s.timing.toa ∧ u.timing.tob = s.timing.tob :=
    handleAll_outputs_kept superframe apart pre [] s ho noPre
  have hu : u.examinesNothing superframe :=
    (handleAll_induct (P := fun _ _ => True) superframe apart pre [] s (fun _ _ _ _ _ _ => trivial) ho trivial).1
  have atOutputs : u.numberAt (pre.reverse ++ []) = s.nextNumber :=
    handleAll_numberAt superframe apart pre [] s nodupPre (fun _ _ => List.not_mem_nil) ho
  let v := u.officePulses s.nextNumber
  have hv : v.examinesNothing superframe := hu
  have whole : t = v.handleAll superframe apart (.outputs :: (pre.reverse ++ [])) post := by
    change s.handleAll superframe apart [] (schedule order) = _
    rw [split, handleAll_append]
    change State.handleAll superframe apart (.outputs :: (pre.reverse ++ [])) post
      (u.officePulses (u.numberAt (pre.reverse ++ []))) = _
    rw [atOutputs]
  obtain ⟨pulsedA, pulsedB⟩ := handleAll_outputs_kept superframe apart post (.outputs :: (pre.reverse ++ [])) v hv noPost
  rw [← whole] at pulsedA pulsedB
  refine ⟨u.timing, fun h => ?_, ?_, ?_⟩
  · have kept := handleAll_followsOutputs_timing superframe apart post (.outputs :: (pre.reverse ++ [])) v hv (hpost h)
    rw [← whole] at kept
    exact (congrArg Timing.loop kept).symm
  · rw [number, ← keptA]
    exact pulsedA
  · rw [number, ← keptB]
    exact pulsedB

/-- The pulses of a boundary that takes no order, on both outputs. -/
theorem boundary_pulses (s : State) (egress : Vector Byte 640) (order : List Handling) (apart : Bool) (h : s.takesNoOrder) :
    let t := s.boundary egress order apart
    ∃ u : Timing, (.outputs ∉ order → u.loop = t.timing.loop) ∧
      t.timing.toa = s.timing.toa.openBoundary.pulse u (officeFires t.frameNumber) ∧
      t.timing.tob = s.timing.tob.openBoundary.pulse u (officeFires t.frameNumber) := by
  intro t
  let opened := (s.acquisitionTimeout.endFrame egress).openBoundary s.superframeNext
  have before := acquisitionTimeout_beside s
  obtain ⟨-, hta, htb, -⟩ := endFrame_beside s.acquisitionTimeout egress
  obtain ⟨u, loop, toa, tob⟩ := handleAll_pulses opened s.superframeNext apart order (endFrame_examinesNothing s egress h)
  have openedA : opened.timing.toa = s.timing.toa.openBoundary :=
    congrArg TimingOutput.openBoundary (hta.trans before.toa)
  have openedB : opened.timing.tob = s.timing.tob.openBoundary :=
    congrArg TimingOutput.openBoundary (htb.trans before.tob)
  exact ⟨u, loop, toa.trans (by rw [openedA]; rfl), tob.trans (by rw [openedB]; rfl)⟩

/-- A pulse leaves both records of an output. -/
theorem pulse_records (o : TimingOutput) (t : Timing) (fires : OutputRecord → Bool) :
    (o.pulse t fires).stored = o.stored ∧ (o.pulse t fires).inForce = o.inForce := by
  unfold TimingOutput.pulse
  split <;> exact ⟨rfl, rfl⟩

/-- One output over a boundary: its record comes into force, and at most one OFFICE pulse begins (R79 to R81). -/
theorem openBoundary_pulse (o : TimingOutput) (u : Timing) (n : FrameNumber) :
    let o' := o.openBoundary.pulse u (officeFires n)
    let fires := o.stored.enable = true ∧ o.stored.source = .office ∧ n.toNat % o.stored.rate.divisor = 0
    o'.stored = o.stored ∧ o'.inForce = o.stored ∧ (¬fires → o'.pulses = 0) ∧
      (fires → o.stored.squelch = false → o'.pulses = 1) ∧
      (fires → o.stored.squelch = true → o'.pulses = if u.loop.state = .free ∨ u.loop.state = .holdover then 0 else 1) := by
  intro o' fires
  obtain ⟨stored, inForce⟩ := pulse_records o.openBoundary u (officeFires n)
  have begins := begins_office u o.stored n
  have one (h : o.stored.begins u (officeFires n)) : o'.pulses = 1 :=
    congrArg TimingOutput.pulses (pulse_of_begins (o := o.openBoundary) h)
  have none (h : ¬o.stored.begins u (officeFires n)) : o'.pulses = 0 :=
    congrArg TimingOutput.pulses (pulse_of_not_begins (o := o.openBoundary) h)
  refine ⟨stored, inForce, fun h => none fun k => h (begins.mp k).1, fun h q => one (begins.mpr ⟨h, fun k => ?_⟩),
    fun h q => ?_⟩
  · exact absurd (q.symm.trans k) Bool.false_ne_true
  · split
    next held => exact none fun k => (begins.mp k).2 q held
    next free => exact one (begins.mpr ⟨h, fun _ => free⟩)

/-! ### O37 -/

/-- Settles O37: what a reference event changes, and the OFFICE pulses of a boundary with the number formed there. -/
theorem referenceEvents : Obligations.ReferenceEvents := by
  refine ⟨fun s input time frequency hr => ⟨fun n hi hn => ?_, fun haligned => ?_⟩, fun s egress order apart hr ho => ?_⟩
  · refine (whenRunning_of_runs s _ hr).trans ?_
    subst hi
    rw [if_neg (by simpa [State.occurs] using hn)]
  · obtain ⟨t, step, shape, other, measured, toa, tob⟩ :=
      referenceEvent_acts s input time frequency hr (occurs_of_aligned haligned)
    refine ⟨t, step, shape, other, fun e hs hf => ⟨fun hz => ?_, fun z hz => ⟨fun hl => ?_, fun hl => ?_⟩⟩, ?_⟩
    · exact (measured e hs hf).trans (detector_first _ _ _ hz)
    · rw [measured e hs hf, beq_eq_false_iff_ne.mpr hl]
      exact detector_unjudged _ _ hz
    · rw [measured e hs hf, beq_iff_eq.mpr hl]
      exact detector_judged _ _ hz
    · rintro o o' (⟨rfl, rfl⟩ | ⟨rfl, rfl⟩)
      · rw [toa]
        exact pulse_at_event s s.timing.toa input
      · rw [tob]
        exact pulse_at_event s s.timing.tob input
  · obtain ⟨u, loop, toa, tob⟩ := boundary_pulses s egress order apart ho
    refine ⟨_, whenRunning_of_runs s _ hr, fun o o' which => ?_⟩
    have pulsed : o' = o.openBoundary.pulse u (officeFires (s.boundary egress order apart).frameNumber) := by
      rcases which with ⟨rfl, rfl⟩ | ⟨rfl, rfl⟩
      · exact toa
      · exact tob
    rw [pulsed]
    obtain ⟨stored, inForce, none, plain, squelch⟩ :=
      openBoundary_pulse o u (s.boundary egress order apart).frameNumber
    exact ⟨stored, inForce, none, plain, fun h q k => loop k ▸ squelch h q⟩

end Sys2Proof.Machine
end

