-- ==== Sys2Proof/Proofs/OfficeAlike.lean ====
section
/-! States alike in office timing and its alarms and counts: the operations of the office timing unit keep them alike, and the
blocks beside it leave them so (R69). -/

namespace Sys2Proof.Machine

/-! ### The oscillator (R64, R74) -/

theorem steer_locked {t : Timing} (h : t.loop.state = .locked) :
    t.steer = { t with loop := { t.loop with
      freq := slew t.loop.freq t.target, history := (slew t.loop.freq t.target :: t.loop.history).take 64
      holdoverFreq := mean ((slew t.loop.freq t.target :: t.loop.history).take 64) } } := if_pos h

theorem steer_unlocked {t : Timing} (h : t.loop.state ≠ .locked) :
    t.steer = { t with loop := { t.loop with freq := slew t.loop.freq t.target } } := if_neg h

/-! ### States alike in office timing -/

/-- `t` stands as `s` does in office timing and in the device's alarms and counts; the timing outputs may differ. -/
structure State.officeAlike (s t : State) : Prop where
  timing : t.timing = { s.timing with toa := t.timing.toa, tob := t.timing.tob }
  device : t.device = s.device

/-- What stands beside the office timing unit taken from `r`. -/
def State.beside (s r : State) : State :=
  { r with timing := { s.timing with toa := r.timing.toa, tob := r.timing.tob }, device := s.device }

theorem officeAlike_refl (s : State) : s.officeAlike s := ⟨rfl, rfl⟩

theorem officeAlike_beside (s r : State) : s.officeAlike (s.beside r) := ⟨rfl, rfl⟩

theorem State.officeAlike.eq_beside {s t : State} (h : s.officeAlike t) : t = s.beside t := by
  unfold State.beside
  rw [← h.timing, ← h.device]

theorem officeAlike_trans {s t u : State} (h : s.officeAlike t) (k : t.officeAlike u) : s.officeAlike u := by
  rw [h.eq_beside] at k
  exact ⟨k.timing, k.device⟩

/-- An operation that reads and writes the office timing unit alone keeps states alike. -/
theorem officeAlike_congr {f : State → State} (h : ∀ s r, (f s).officeAlike (f (s.beside r))) {s t : State}
    (k : s.officeAlike t) : (f s).officeAlike (f t) := by
  rw [k.eq_beside]
  exact h s t

section

variable {s t : State} (h : s.officeAlike t)
include h

theorem State.officeAlike.loop : t.timing.loop = s.timing.loop := (congrArg Timing.loop h.timing).trans rfl
theorem State.officeAlike.mode : t.timing.mode = s.timing.mode := (congrArg Timing.mode h.timing).trans rfl
theorem State.officeAlike.monitorA : t.timing.monitorA = s.timing.monitorA := (congrArg Timing.monitorA h.timing).trans rfl
theorem State.officeAlike.monitorB : t.timing.monitorB = s.timing.monitorB := (congrArg Timing.monitorB h.timing).trans rfl
theorem State.officeAlike.entry (e : Fin 4) : t.entry e = s.entry e :=
  (congrArg (fun u : Timing => u.entries[e]) h.timing).trans rfl

/-- REFA and REFB have the same fault condition in states alike (R66). -/
theorem State.officeAlike.faultOf {e : Fin 4} (he : isLine e = false) (n : Fin 16) : t.faultOf e n = s.faultOf e n := by
  unfold State.faultOf
  rw [he, h.monitorA, h.monitorB]
  rfl

/-! ### The entries following their fault conditions -/

theorem dropIfSelected_alike (e : Fin 4) : (s.dropIfSelected e).officeAlike (t.dropIfSelected e) := by
  refine officeAlike_congr (f := fun s => s.dropIfSelected e) (fun s r => ?_) h
  unfold State.dropIfSelected
  by_cases k : s.timing.loop.selected = some e
  · rw [if_pos k, if_pos (c := (s.beside r).timing.loop.selected = some e) k]
    exact ⟨rfl, rfl⟩
  · rw [if_neg k, if_neg (c := (s.beside r).timing.loop.selected = some e) k]
    exact ⟨rfl, rfl⟩

theorem faultEntry_alike (e : Fin 4) (why : FaultReason) : (s.faultEntry e why).officeAlike (t.faultEntry e why) :=
  dropIfSelected_alike (officeAlike_congr (f := fun s =>
    (s.setEntry e { s.entry e with state := .faulted, count := 0, reason := why }).latchDevice) (fun _ _ => ⟨rfl, rfl⟩) h) e

/-- An entry follows alike in states alike: REFA or REFB, or an entry that does not follow. -/
theorem followEntry_alike {e : Fin 4} (he : isLine e = false ∨ (s.entry e).state = .disabled) :
    (s.followEntry e).officeAlike (t.followEntry e) := by
  have entry := h.entry e
  rcases he with he | he
  · have fault : t.entryFault e = s.entryFault e := by
      rw [State.entryFault, entry]
      exact h.faultOf he _
    have rewritten (x : RefEntry) : (s.setEntry e x).officeAlike (t.setEntry e x) :=
      officeAlike_congr (f := fun s => s.setEntry e x) (fun _ _ => ⟨rfl, rfl⟩) h
    unfold State.followEntry
    rw [fault, entry]
    split
    · exact h
    · exact rewritten _
    · exact rewritten _
    · exact faultEntry_alike h e _
    · exact faultEntry_alike h e _
    · exact h
    · exact h
  · unfold State.followEntry
    rw [entry, he]
    exact h

/-- The entries follow alike where the LINE entries are DISABLED. -/
theorem followEntries_alike (h2 : (s.entry 2).state = .disabled) (h3 : (s.entry 3).state = .disabled) :
    s.followEntries.officeAlike t.followEntries := by
  have kept2 : (((s.followEntry 0).followEntry 1).entry 2).state = .disabled := by
    rw [followEntry_entry_ne _ 1 2 (by decide), followEntry_entry_ne _ 0 2 (by decide), h2]
  have kept3 : ((((s.followEntry 0).followEntry 1).followEntry 2).entry 3).state = .disabled := by
    rw [followEntry_entry_ne _ 2 3 (by decide), followEntry_entry_ne _ 1 3 (by decide), followEntry_entry_ne _ 0 3 (by decide),
      h3]
  rw [followEntries_eq, followEntries_eq]
  exact followEntry_alike (followEntry_alike (followEntry_alike (followEntry_alike h (.inl rfl)) (.inl rfl)) (.inr kept2))
    (.inr kept3)

theorem monitors_alike (h2 : (s.entry 2).state = .disabled) (h3 : (s.entry 3).state = .disabled) :
    s.monitors.officeAlike t.monitors :=
  followEntries_alike (officeAlike_congr (f := fun s => { s with timing := { s.timing with
    monitorA := s.timing.monitorA.frameEnd, monitorB := s.timing.monitorB.frameEnd } }) (fun _ _ => ⟨rfl, rfl⟩) h) h2 h3

/-! ### The three stages and the oscillator -/

theorem qualifyAll_alike : s.qualifyAll.officeAlike t.qualifyAll :=
  officeAlike_congr (f := State.qualifyAll) (fun _ _ => ⟨rfl, rfl⟩) h

theorem autoSelect_alike : s.autoSelect.officeAlike t.autoSelect := by
  refine officeAlike_congr (f := State.autoSelect) (fun s r => ?_) h
  have best : (s.beside r).timing.best = s.timing.best := rfl
  have selects (b : Fin 4) : (s.selectEntry b).officeAlike ((s.beside r).selectEntry b) := ⟨rfl, rfl⟩
  have alike := officeAlike_beside s r
  unfold State.autoSelect
  rw [best, alike.mode, alike.loop]
  split
  · exact alike
  · exact alike
  next b _ _ =>
    split
    · exact selects b
    next e _ =>
      rw [alike.entry b, alike.entry e]
      by_cases k : s.timing.revertive = true ∧ (s.entry b).priority < (s.entry e).priority
      · rw [if_pos k, if_pos (c := (s.beside r).timing.revertive = true ∧ _) k]
        exact selects b
      · rw [if_neg k, if_neg (c := (s.beside r).timing.revertive = true ∧ _) k]
        exact alike

theorem timeout_alike : s.timeout.officeAlike t.timeout := by
  refine officeAlike_congr (f := State.timeout) (fun s r => ?_) h
  unfold State.timeout
  rw [(officeAlike_beside s r).loop]
  split <;> exact ⟨rfl, rfl⟩

theorem lockStage_alike (apart : Bool) : (s.lockStage apart).officeAlike (t.lockStage apart) := by
  have reading : t.timing.detector.reading = s.timing.detector.reading :=
    (congrArg (fun u : Timing => u.detector.reading) h.timing).trans rfl
  have loop (l : Loop) : (s.setLoop l).officeAlike (t.setLoop l) :=
    officeAlike_congr (f := fun s => s.setLoop l) (fun _ _ => ⟨rfl, rfl⟩) h
  unfold State.lockStage
  rw [h.loop, reading]
  dsimp only
  split_ifs
  · exact loop _
  · exact loop _
  · exact loop _
  · exact timeout_alike (loop _)
  · exact loop _
  · exact loop _
  · exact loop _
  · exact timeout_alike (loop _)
  · exact h

theorem otuSuperframe_alike (apart : Bool) : (s.otuSuperframe apart).officeAlike (t.otuSuperframe apart) := by
  refine officeAlike_congr (f := fun s => { s with timing := { s.timing.steer with
    detector := s.timing.detector.nextSuperframe } }) (fun s r => ?_)
    (lockStage_alike (autoSelect_alike (qualifyAll_alike h)) apart)
  have steer : (s.beside r).timing.steer = { s.timing.steer with toa := r.timing.toa, tob := r.timing.tob } := by
    by_cases hl : s.timing.loop.state = .locked
    · rw [steer_locked hl, steer_locked (t := (s.beside r).timing) hl]
      rfl
    · rw [steer_unlocked hl, steer_unlocked (t := (s.beside r).timing) hl]
      rfl
  refine ⟨?_, rfl⟩
  dsimp only
  rw [steer]
  rfl

end

end Sys2Proof.Machine
end

