-- ==== Sys2Proof/Proofs/OfficeHandling.lean ====
section
/-! The office timing unit's handling within a boundary that takes no order: with the LINE entries DISABLED and no timer that
can select, the other blocks leave office timing as it stands (R69). -/

namespace Sys2Proof.Machine

/-- Nothing beside its own handling moves the office timing unit: the entries follow, the LINE entries are DISABLED, and no
timer can select a reference. -/
structure State.officeIdle (s : State) : Prop where
  follow : s.entriesFollow
  line2 : (s.entry 2).state = .disabled
  line3 : (s.entry 3).state = .disabled
  timers : s.timing.mode = .auto ∨ ∀ n : Fin 4, s.timers[n].armed = false

theorem follows_of_disabled {s : State} {e : Fin 4} (h : (s.entry e).state = .disabled) : s.follows e :=
  ⟨fun k => k.elim (fun k => absurd (h.symm.trans k) nofun) fun k => absurd (h.symm.trans k) nofun,
    fun k => absurd (h.symm.trans k) nofun⟩

/-- An idle unit stays idle where the state is alike, the timers unchanged or the mode automatic. -/
theorem officeIdle_alike {s t : State} (h : s.officeIdle) (k : s.officeAlike t)
    (ht : s.timing.mode = .auto ∨ t.timers = s.timers) : t.officeIdle := by
  have line2 : (t.entry 2).state = .disabled := by rw [k.entry 2, h.line2]
  have line3 : (t.entry 3).state = .disabled := by rw [k.entry 3, h.line3]
  have follows (e : Fin 4) (he : isLine e = false) : t.follows e := by
    unfold State.follows State.entryFault
    rw [k.entry e, k.faultOf he]
    exact h.follow e
  refine ⟨fun e => ?_, line2, line3, ?_⟩
  · fin_cases e
    · exact follows 0 rfl
    · exact follows 1 rfl
    · exact follows_of_disabled line2
    · exact follows_of_disabled line3
  · rw [k.mode]
    rcases ht with ht | ht
    · exact .inl ht
    · rw [ht]
      exact h.timers

/-- A step that leaves an idle office timing unit alike and idle. -/
def State.leavesIdle (s t : State) : Prop := s.officeIdle → s.officeAlike t ∧ t.officeIdle

theorem leavesIdle_refl (s : State) : s.leavesIdle s := fun h => ⟨officeAlike_refl s, h⟩

theorem leavesIdle_trans {s t u : State} (h : s.leavesIdle t) (k : t.leavesIdle u) : s.leavesIdle u := fun idle => by
  obtain ⟨alike, idle⟩ := h idle
  obtain ⟨alike', idle⟩ := k idle
  exact ⟨officeAlike_trans alike alike', idle⟩

theorem leavesIdle_of_alike {s t : State} (k : s.officeAlike t) (ht : t.timers = s.timers) : s.leavesIdle t :=
  fun h => ⟨k, officeIdle_alike h k (.inr ht)⟩

theorem modSpan_leavesIdle (s : State) (n : Fin 16) (f : Span → Span) : s.leavesIdle (s.modSpan n f) :=
  leavesIdle_of_alike ⟨rfl, rfl⟩ rfl

/-- A change published does not move entries that are DISABLED, nor entries that follow. -/
theorem publish_leavesIdle (s : State) (n : Fin 16) : s.leavesIdle (s.publish n) := fun h => by
  have latched := modSpan_leavesIdle s n Span.latch h
  rw [State.publish, followEntries_of_follow _ latched.2.follow]
  exact latched

theorem readSide_leavesIdle (s : State) (n : Fin 16) (r : Nat) : s.leavesIdle (s.readSide n r) :=
  leavesIdle_trans (modSpan_leavesIdle s n _) (publish_leavesIdle _ n)

theorem finishReads_leavesIdle (s : State) : s.leavesIdle s.finishReads := by
  unfold State.finishReads
  induction allSpans generalizing s with
  | nil => exact leavesIdle_refl s
  | cons n rest ih => exact leavesIdle_trans (readSide_leavesIdle s n 336) (ih _)

theorem storeBoundary_leavesIdle (s : State) (superframe : Bool) (n : Fin 16) :
    s.leavesIdle (s.storeBoundary superframe n) := by
  have slipped : s.leavesIdle (if ((s.span n).boundary superframe).2 = .none then
      s.setSpan n ((s.span n).boundary superframe).1
      else (s.setSpan n ((s.span n).boundary superframe).1).offerSpanTrigger 3 n) := by
    split <;> exact leavesIdle_of_alike ⟨rfl, rfl⟩ rfl
  have handled := leavesIdle_trans slipped (publish_leavesIdle _ n)
  unfold State.storeBoundary
  dsimp only
  split
  · exact leavesIdle_trans handled (leavesIdle_trans (modSpan_leavesIdle _ n _) (publish_leavesIdle _ n))
  · exact handled

/-- A timer selects no reference in automatic mode. -/
theorem performAction_alike (s : State) (t : Timer) (h : s.timing.mode = .auto) : s.officeAlike (s.performAction t).1 := by
  unfold State.performAction
  split
  · exact officeAlike_refl s
  · exact ⟨rfl, rfl⟩
  · exact ⟨rfl, rfl⟩
  · exact ⟨rfl, rfl⟩
  · unfold State.selectionRequest
    rw [if_pos h]
    exact officeAlike_refl s

theorem matchTimer_leavesIdle (s : State) (n : Fin 4) : s.leavesIdle (s.matchTimer n) := fun h => by
  rcases h.timers with auto | disarmed
  · have alike : s.officeAlike (s.matchTimer n) := by
      unfold State.matchTimer
      dsimp only
      split
      · rw [offerUnitTrigger_eq]
        have performed := performAction_alike s s.timers[n] auto
        split <;> exact officeAlike_trans performed ⟨rfl, rfl⟩
      · exact officeAlike_refl s
    exact ⟨alike, officeIdle_alike h alike (.inl auto)⟩
  · have unmatched : s.matchTimer n = s := by
      unfold State.matchTimer
      exact if_neg fun k => absurd (k.1.symm.trans (disarmed n)) nofun
    rw [unmatched]
    exact ⟨officeAlike_refl s, h⟩

/-- Every handling but its own leaves an idle office timing unit as it stands. -/
theorem handle_leavesIdle (s : State) (superframe apart : Bool) (done : List Handling) (h : Handling)
    (ho : s.examinesNothing superframe) (hn : h ≠ .otu) : s.leavesIdle (s.handle superframe apart done h) := by
  cases h with
  | number => exact leavesIdle_of_alike ⟨rfl, rfl⟩ rfl
  | timer n => exact matchTimer_leavesIdle s n
  | store n => exact storeBoundary_leavesIdle s superframe n
  | otu => exact absurd rfl hn
  | outputs => exact leavesIdle_of_alike ⟨rfl, rfl⟩ rfl
  | swaps => cases superframe <;> exact leavesIdle_of_alike ⟨rfl, rfl⟩ rfl
  | units => cases superframe <;> exact leavesIdle_of_alike ⟨rfl, rfl⟩ rfl
  | orderChannel =>
    cases superframe with
    | false => exact leavesIdle_refl s
    | true =>
      obtain ⟨channel, e⟩ := orderBoundary_beside s (fun n => decide (.store n ∈ done)) (ho.resolve_left nofun)
      refine (congrArg s.leavesIdle e).mpr ?_
      exact leavesIdle_of_alike ⟨rfl, rfl⟩ rfl

theorem handleAll_leavesIdle (superframe apart : Bool) (todo done : List Handling) (s : State)
    (ho : s.examinesNothing superframe) (hn : .otu ∉ todo) :
    (s.handleAll superframe apart done todo).examinesNothing superframe ∧
      s.leavesIdle (s.handleAll superframe apart done todo) :=
  handleAll_induct (P := fun _ t => s.leavesIdle t) superframe apart todo done s
    (fun t done h hh ht k => leavesIdle_trans k (handle_leavesIdle t superframe apart done h ht fun e => hn (e ▸ hh))) ho
    (leavesIdle_refl s)

/-! ### Its own handling -/

/-- No entry is enabled or disabled, and mode and timers stand as they did. -/
structure State.keepsEnables (s t : State) : Prop where
  enable : ∀ e, (t.entry e).enable = (s.entry e).enable
  mode : t.timing.mode = s.timing.mode
  timers : t.timers = s.timers

theorem keepsEnables_refl (s : State) : s.keepsEnables s := ⟨fun _ => rfl, rfl, rfl⟩

theorem keepsEnables_trans {s t u : State} (h : s.keepsEnables t) (k : t.keepsEnables u) : s.keepsEnables u :=
  ⟨fun e => (k.enable e).trans (h.enable e), k.mode.trans h.mode, k.timers.trans h.timers⟩

theorem keepsEnables_of_timingActs {s t : State} (h : s.timingActs t) : s.keepsEnables t := by
  obtain ⟨-, -, -, -, -, -, timers, -, -, -, mode, -, -, -, -, -, -, -, settings, -⟩ := h
  refine ⟨fun e => ?_, mode, timers⟩
  obtain ⟨enable, -⟩ := settings e
  exact enable

theorem qualifyAll_keepsEnables (s : State) : s.keepsEnables s.qualifyAll := by
  refine ⟨fun e => ?_, rfl, rfl⟩
  rw [qualifyAll_entry]
  obtain ⟨-, k⟩ | ⟨-, -, k⟩ | ⟨-, -, k⟩ := qualify_cases (s.entry e) <;> rw [k]

theorem autoSelect_keepsEnables (s : State) : s.keepsEnables s.autoSelect := by
  have selects (b : Fin 4) := keepsEnables_of_timingActs (selectEntry_spec s b).1
  unfold State.autoSelect
  split
  · exact keepsEnables_refl s
  · exact keepsEnables_refl s
  · split
    · exact selects _
    · split
      · exact selects _
      · exact keepsEnables_refl s

theorem timeout_keepsEnables (s : State) : s.keepsEnables s.timeout := by
  refine ⟨fun y => ?_, ?_, ?_⟩
  · cases hsel : s.timing.loop.selected with
    | none => rw [timeout_of_none hsel]
    | some e =>
      obtain ⟨u, drops, -, -, entries⟩ := timeout_drops hsel
      rw [drops, (keepsEnables_of_timingActs (dropSelection_spec u).1).enable, entries]
      by_cases hy : y = e
      · subst hy
        rw [setEntry_entry]
        rfl
      · rw [setEntry_entry_ne s e y _ hy]
  · unfold State.timeout
    split <;> rfl
  · unfold State.timeout
    split <;> rfl

theorem lockStage_keepsEnables (s : State) (apart : Bool) : s.keepsEnables (s.lockStage apart) := by
  have loop (l : Loop) : s.keepsEnables (s.setLoop l) := ⟨fun _ => rfl, rfl, rfl⟩
  obtain e | ⟨l, e | e⟩ := lockStage_cases s apart <;> rw [e]
  · exact keepsEnables_refl s
  · exact loop l
  · exact keepsEnables_trans (loop l) (timeout_keepsEnables _)

theorem monitors_keepsEnables (s : State) : s.keepsEnables s.monitors := by
  have evaluated : s.keepsEnables { s with timing := { s.timing with
      monitorA := s.timing.monitorA.frameEnd, monitorB := s.timing.monitorB.frameEnd } } := ⟨fun _ => rfl, rfl, rfl⟩
  exact keepsEnables_trans evaluated (keepsEnables_of_timingActs (followEntries_acts _))

theorem otuSuperframe_keepsEnables (s : State) (apart : Bool) : s.keepsEnables (s.otuSuperframe apart) := by
  refine keepsEnables_trans (qualifyAll_keepsEnables s) (keepsEnables_trans (autoSelect_keepsEnables _)
    (keepsEnables_trans (lockStage_keepsEnables _ apart) ?_))
  unfold State.otuSuperframe
  generalize s.qualifyAll.autoSelect.lockStage apart = u
  refine ⟨fun e => ?_, ?_, rfl⟩
  · have entries : u.timing.steer.entries = u.timing.entries := by rw [steer_eq]
    exact congrArg (fun v : Vector RefEntry 4 => v[e].enable) entries
  · have mode : u.timing.steer.mode = u.timing.mode := by rw [steer_eq]
    exact mode

/-- An entry within the law is DISABLED exactly while it is not enabled (R65). -/
theorem disabled_keeps {s t : State} (hs : s.timing.law) (ht : t.timing.law) (k : s.keepsEnables t) {e : Fin 4}
    (h : (s.entry e).state = .disabled) : (t.entry e).state = .disabled := by
  obtain ⟨disabled, -⟩ := ((timingLaw_iff s).mp hs).1 e
  obtain ⟨disabled', -⟩ := ((timingLaw_iff t).mp ht).1 e
  exact disabled'.mpr ((k.enable e).trans (disabled.mp h))

/-- The office timing unit is idle again after its own handling. -/
theorem otuSuperframe_idle (s : State) (apart : Bool) (h : s.timing.law) (idle : s.officeIdle) :
    (s.monitors.otuSuperframe apart).officeIdle := by
  have safe : (s.monitors.otuSuperframe apart).timingSafe := otuBoundary_timingSafe true apart h
  have kept := keepsEnables_trans (monitors_keepsEnables s) (otuSuperframe_keepsEnables s.monitors apart)
  refine ⟨safe.follow, disabled_keeps h safe.law kept idle.line2, disabled_keeps h safe.law kept idle.line3, ?_⟩
  rw [kept.mode, kept.timers]
  exact idle.timers

/-- The handlings of a superframe boundary leave office timing as its own handling does, however they are ordered. -/
theorem handleAll_otu (s : State) (apart : Bool) (order : List Handling) (ho : s.examinesNothing true) (idle : s.officeIdle)
    (law : s.timing.law) :
    (s.monitors.otuSuperframe apart).officeAlike (s.handleAll true apart [] (schedule order)) := by
  obtain ⟨pre, post, split⟩ := List.append_of_mem (mem_schedule order .otu)
  have nodup : (pre ++ .otu :: post).Nodup := split ▸ schedule_nodup order
  obtain ⟨-, nodupRest, apartFrom⟩ := List.nodup_append.mp nodup
  have noPre : .otu ∉ pre := fun k => apartFrom _ k _ List.mem_cons_self rfl
  have noPost : .otu ∉ post := (List.nodup_cons.mp nodupRest).1
  obtain ⟨hu, before⟩ := handleAll_leavesIdle true apart pre [] s ho noPre
  have safe := handleAll_timingSafe true apart pre [] (s := s) ⟨law, idle.follow⟩
  rw [split, handleAll_append]
  generalize s.handleAll true apart [] pre = u at hu before safe ⊢
  obtain ⟨alike, idleU⟩ := before idle
  have own : (s.monitors.otuSuperframe apart).officeAlike (u.monitors.otuSuperframe apart) :=
    otuSuperframe_alike (monitors_alike alike idle.line2 idle.line3) apart
  have kept := (handle_keeps u true apart (pre.reverse ++ []) .otu hu).orders hu
  obtain ⟨-, after⟩ := handleAll_leavesIdle true apart post (.otu :: (pre.reverse ++ [])) _ kept noPost
  exact officeAlike_trans own (after (otuSuperframe_idle u apart safe.law idleU)).1

/-! ### The boundary whole -/

theorem gather_device (s : State) (b : Byte) : (s.gather b).device = s.device := by
  unfold State.gather; split <;> rfl
theorem gather_timers (s : State) (b : Byte) : (s.gather b).timers = s.timers := by
  unfold State.gather; split <;> rfl

theorem endFrame_device (s : State) (received : Vector Byte 640) :
    (s.endFrame received).device = s.finishReads.device := by
  unfold State.endFrame State.takeHolds
  dsimp only
  exact gather_device _ _

theorem endFrame_timers (s : State) (received : Vector Byte 640) :
    (s.endFrame received).timers = s.finishReads.timers := by
  unfold State.endFrame State.takeHolds
  dsimp only
  exact gather_timers _ _

theorem officeAlike_of_timing {s t : State} (ht : t.timing = s.timing) (hd : t.device = s.device) : s.officeAlike t :=
  ⟨by rw [ht], hd⟩

theorem endFrame_leavesIdle (s : State) (received : Vector Byte 640) : s.leavesIdle (s.endFrame received) := by
  have alike := officeAlike_of_timing (endFrame_timing s received) (endFrame_device s received)
  exact leavesIdle_trans (finishReads_leavesIdle s) (leavesIdle_of_alike alike (endFrame_timers s received))

/-- Office timing with the superframe of a selection passed: the entry selected is fresh no more (R72). -/
def State.superframeOpened (s : State) : State :=
  { s with timing := { s.timing with loop := { s.timing.loop with fresh := false } } }

theorem openBoundary_alike {s t : State} (h : s.officeAlike t) : s.superframeOpened.officeAlike (t.openBoundary true) := by
  refine officeAlike_trans (officeAlike_congr (f := State.superframeOpened) (fun _ _ => ⟨rfl, rfl⟩) h) ⟨?_, rfl⟩
  have fresh : (t.timing.loop.fresh && !true) = false := Bool.and_false _
  unfold State.openBoundary State.superframeOpened
  rw [fresh]

theorem openBoundary_idle {s : State} (superframe : Bool) (safe : s.timingSafe) (h : s.officeIdle) :
    (s.openBoundary superframe).officeIdle :=
  ⟨(openBoundary_timingSafe superframe safe).follow, h.line2, h.line3, h.timers⟩

/-- A superframe boundary that takes no order leaves an idle office timing unit as its own handling does (R69). -/
theorem boundary_officeAlike (s : State) (egress : Vector Byte 640) (order : List Handling) (apart : Bool)
    (hs : s.superframeNext = true) (ho : s.takesNoOrder) (law : s.timing.law) (idle : s.officeIdle)
    (hdue : s.timing.loop.timeoutDue = false) :
    (s.superframeOpened.monitors.otuSuperframe apart).officeAlike (s.boundary egress order apart) := by
  have nothing := endFrame_examinesNothing s egress ho
  have rest : s.acquisitionTimeout = s := acquisitionTimeout_of_not fun k => absurd (hdue.symm.trans k.2) nofun
  rw [rest, hs] at nothing
  obtain ⟨ended, idleEnded⟩ := endFrame_leavesIdle s egress idle
  have safe : (s.endFrame egress).timingSafe := endFrame_timingSafe egress ⟨law, idle.follow⟩
  unfold State.boundary
  rw [rest, hs]
  dsimp only
  generalize s.endFrame egress = u at nothing ended idleEnded safe ⊢
  have own : (s.superframeOpened.monitors.otuSuperframe apart).officeAlike
      ((u.openBoundary true).monitors.otuSuperframe apart) :=
    otuSuperframe_alike (monitors_alike (openBoundary_alike ended) idle.line2 idle.line3) apart
  have handled := handleAll_otu (u.openBoundary true) apart order nothing (openBoundary_idle true safe idleEnded)
    (openBoundary_timingSafe true safe).law
  exact officeAlike_trans (officeAlike_trans own handled) ⟨rfl, rfl⟩

end Sys2Proof.Machine
end

