-- ==== Sys2Proof/Proofs/BoundaryStages.lean ====
section
/-! The monitors, the three stages and the oscillator, row by row, and with them O39 (R64, R66, R68, R69, R72, R74, R76). -/

namespace Sys2Proof.Machine

/-! ### The input monitors (R66) -/

theorem frameEnd_active (m : Monitor) (h : m.noActivity = false) :
    m.frameEnd = if m.pulse then { m with pulse := false } else ⟨true, 0, false⟩ := by
  unfold Monitor.frameEnd
  rw [h]
  rfl

theorem frameEnd_inactive (m : Monitor) (h : m.noActivity = true) :
    m.frameEnd =
      if m.pulse then if m.streak = 7 then ⟨false, 0, false⟩ else ⟨true, m.streak + 1, false⟩ else ⟨true, 0, false⟩ := by
  unfold Monitor.frameEnd
  rw [h]
  rfl

/-! ### The best entry (R76) -/

/-- Entry `e` comes before entry `x`: by priority number, then by entry number. -/
def Timing.before (t : Timing) (e x : Fin 4) : Prop :=
  t.entries[e].priority < t.entries[x].priority ∨ (t.entries[e].priority = t.entries[x].priority ∧ e ≤ x)

/-- The first of the QUALIFIED entries of a list; none where none of them is QUALIFIED. -/
def Timing.bestAmong (t : Timing) (l : List (Fin 4)) : Option (Fin 4) → Prop
  | none => ∀ x ∈ l, t.entries[x].state ≠ .qualified
  | some e => e ∈ l ∧ t.entries[e].state = .qualified ∧ ∀ x ∈ l, t.entries[x].state = .qualified → t.before e x

theorem before_trans {t : Timing} {a b c : Fin 4} (h : t.before a b) (k : t.before b c) : t.before a c := by
  unfold Timing.before at *
  omega

theorem before_antisymm {t : Timing} {a b : Fin 4} (h : t.before a b) (k : t.before b a) : a = b := by
  unfold Timing.before at *
  omega

/-- The best entry so far, against one entry more of higher number. -/
theorem bestAmong_better {t : Timing} {l : List (Fin 4)} {b : Option (Fin 4)} (e : Fin 4) (h : t.bestAmong l b)
    (later : ∀ x ∈ l, x < e) : t.bestAmong (l ++ [e]) (t.better b e) := by
  have mem (x : Fin 4) : x ∈ l ++ [e] ↔ x ∈ l ∨ x = e := by simp
  unfold Timing.better
  by_cases he : t.entries[e].state = .qualified
  · rw [if_pos he]
    cases b with
    | none =>
      refine ⟨(mem e).mpr (.inr rfl), he, fun x hx hq => ?_⟩
      rcases (mem x).mp hx with hx | rfl
      · exact absurd hq (h x hx)
      · exact .inr ⟨rfl, le_refl _⟩
    | some a =>
      obtain ⟨ha, hqa, first⟩ := h
      dsimp only
      split
      next lower =>
        refine ⟨(mem e).mpr (.inr rfl), he, fun x hx hq => ?_⟩
        rcases (mem x).mp hx with hx | rfl
        · exact before_trans (.inl lower) (first x hx hq)
        · exact .inr ⟨rfl, le_refl _⟩
      next notLower =>
        refine ⟨(mem a).mpr (.inl ha), hqa, fun x hx hq => ?_⟩
        rcases (mem x).mp hx with hx | rfl
        · exact first x hx hq
        · have := later a ha
          unfold Timing.before
          omega
  · rw [if_neg he]
    cases b with
    | none =>
      intro x hx
      rcases (mem x).mp hx with hx | rfl
      · exact h x hx
      · exact he
    | some a =>
      obtain ⟨ha, hqa, first⟩ := h
      refine ⟨(mem a).mpr (.inl ha), hqa, fun x hx hq => ?_⟩
      rcases (mem x).mp hx with hx | rfl
      · exact first x hx hq
      · exact absurd hq he

theorem best_bestAmong (t : Timing) : t.bestAmong allFour t.best := by
  have none : t.bestAmong [] none := nofun
  exact bestAmong_better 3 (bestAmong_better 2 (bestAmong_better 1 (bestAmong_better 0 none (by decide)) (by decide))
    (by decide)) (by decide)

theorem mem_allFour (e : Fin 4) : e ∈ allFour := by
  revert e
  decide

/-- The best entry: QUALIFIED, and before every other that is (R76). -/
theorem best_iff (t : Timing) (e : Fin 4) :
    t.best = some e ↔ t.entries[e].state = .qualified ∧ ∀ x, t.entries[x].state = .qualified → t.before e x := by
  have among := best_bestAmong t
  constructor
  · intro h
    rw [h] at among
    obtain ⟨-, hq, first⟩ := among
    exact ⟨hq, fun x => first x (mem_allFour x)⟩
  · rintro ⟨hq, first⟩
    cases hb : t.best with
    | none =>
      rw [hb] at among
      exact absurd hq (among e (mem_allFour e))
    | some b =>
      rw [hb] at among
      obtain ⟨-, hqb, firstB⟩ := among
      rw [before_antisymm (firstB e (mem_allFour e) hq) (first b hqb)]

/-! ### The automatic evaluation (Table 4-6) -/

theorem autoSelect_rests {s : State} (h : s.timing.mode = .manual ∨ ∀ e, (s.entry e).state ≠ .qualified) :
    s.autoSelect = s := by
  unfold State.autoSelect
  rcases h with h | h
  · rw [h]
  · cases hb : s.timing.best with
    | none => cases s.timing.mode <;> rfl
    | some b => exact absurd (best_qualified s b hb) (h b)

theorem autoSelect_unselected {s : State} {b : Fin 4} (hm : s.timing.mode = .auto) (hb : s.timing.best = some b)
    (hs : s.timing.loop.selected = none) : s.autoSelect = s.selectEntry b := by
  unfold State.autoSelect
  rw [hm, hb, hs]

theorem autoSelect_selected {s : State} {b e : Fin 4} (hm : s.timing.mode = .auto) (hb : s.timing.best = some b)
    (hs : s.timing.loop.selected = some e) :
    s.autoSelect =
      if s.timing.revertive = true ∧ (s.entry b).priority < (s.entry e).priority then s.selectEntry b else s := by
  unfold State.autoSelect
  rw [hm, hb, hs]

/-! ### Lock and acquisition (R72) -/

/-- Stage 3 acts on the loop: it is ACQUIRING, and its entry was selected before the boundary. -/
def Loop.inAcquisition (l : Loop) : Prop := l.state = .acquiring ∧ l.fresh = false

theorem lockStage_rests {s : State} (apart : Bool) (h : s.timing.loop.state ≠ .acquiring ∨ s.timing.loop.fresh = true) :
    s.lockStage apart = s := by
  refine if_neg fun k => ?_
  obtain ⟨acquiring, notFresh⟩ := k
  rcases h with h | h
  · exact h acquiring
  · exact absurd (h.symm.trans notFresh) nofun

/-- The fourth inside reading in succession declares lock. -/
theorem lockStage_locks {s : State} (apart : Bool) (h : s.timing.loop.inAcquisition)
    (hr : s.timing.detector.reading = true) (hl : s.timing.loop.lockCount = 3) :
    s.lockStage apart = s.setLoop s.timing.loop.declareLock := by
  obtain ⟨ha, hf⟩ := h
  unfold State.lockStage
  dsimp only
  rw [if_pos ⟨ha, hf⟩, hr, hl]
  rfl

/-- A count of readings short of four goes on: one more acquisition count, the timeout, or the count left to its own step. -/
theorem lockStage_goesOn {s : State} (apart : Bool) {lock : Nat} (h : s.timing.loop.inAcquisition)
    (hlock : (if s.timing.detector.reading then s.timing.loop.lockCount + 1 else 0) = lock) (hl : lock ≤ 3) :
    let l := { s.timing.loop with lockCount := lock }
    (s.timing.loop.acqCount < 255 → s.lockStage apart = s.setLoop { l with acqCount := s.timing.loop.acqCount + 1 }) ∧
      (s.timing.loop.acqCount = 255 → apart = false → s.lockStage apart = (s.setLoop l).timeout) ∧
      (s.timing.loop.acqCount = 255 → apart = true → s.lockStage apart = s.setLoop { l with timeoutDue := true }) := by
  intro l
  have counted : s.lockStage apart =
      if s.timing.loop.acqCount < 255 then s.setLoop { l with acqCount := s.timing.loop.acqCount + 1 }
      else if apart then s.setLoop { l with timeoutDue := true } else (s.setLoop l).timeout := by
    obtain ⟨ha, hf⟩ := h
    unfold State.lockStage
    dsimp only
    rw [if_pos ⟨ha, hf⟩, hlock, if_neg (by omega)]
  rw [counted]
  refine ⟨fun hc => if_pos hc, fun hc ha => ?_, fun hc ha => ?_⟩
  · rw [hc, ha]
    rfl
  · rw [hc, ha]
    rfl

/-! ### The oscillator (R64, R74) -/

theorem slew_cases (f g : Rat) :
    (g < f - 1 → slew f g = f - 1) ∧ (f + 1 < g → slew f g = f + 1) ∧ (f - 1 ≤ g → g ≤ f + 1 → slew f g = g) := by
  unfold slew
  refine ⟨fun h => if_pos h, fun h => ?_, fun h k => ?_⟩
  · rw [if_neg (by linarith), if_pos h]
  · rw [if_neg (not_lt.mpr h), if_neg (not_lt.mpr k)]

theorem steer_freq (t : Timing) : t.steer.loop.freq = slew t.loop.freq t.target := by
  by_cases h : t.loop.state = .locked
  · rw [steer_locked h]
  · rw [steer_unlocked h]

/-- The target of a loop that follows a measured reference: its frequency within the pull range (R64). -/
theorem target_measured {t : Timing} {g : Rat} (h : t.loop.state = .acquiring ∨ t.loop.state = .locked)
    (hg : t.detector.frequency = some g) : t.target = max (-100) (min 100 g) := by
  unfold Timing.target
  rw [hg]
  rcases h with h | h <;> rw [h] <;> rfl

/-- Whatever is the target of the loop's state is the target the model takes (R64, R74). -/
theorem target_eq {t : Timing} {target : Rat} (free : t.loop.state = .free → target = 0)
    (holdover : t.loop.state = .holdover → target = t.loop.holdoverFreq)
    (measured : ∀ g, t.loop.state = .acquiring ∨ t.loop.state = .locked → t.detector.frequency = some g →
      target = max (-100) (min 100 g))
    (some : t.loop.state = .acquiring ∨ t.loop.state = .locked → t.detector.frequency ≠ none) : target = t.target := by
  have follows (h : t.loop.state = .acquiring ∨ t.loop.state = .locked) : target = t.target := by
    obtain ⟨g, hg⟩ := Option.ne_none_iff_exists'.mp (some h)
    exact (measured g h hg).trans (target_measured h hg).symm
  cases h : t.loop.state with
  | free => exact (free h).trans (by unfold Timing.target; rw [h])
  | acquiring => exact follows (.inl h)
  | locked => exact follows (.inr h)
  | holdover => exact (holdover h).trans (by unfold Timing.target; rw [h])

/-! ### O39 -/

/-- Office timing after the three stages: steered, with the lock detector's next superframe begun. -/
theorem officeAlike_stages {s t : State} {apart : Bool} (h : (s.otuSuperframe apart).officeAlike t) :
    let r := s.qualifyAll.autoSelect.lockStage apart
    t.timing = { r.timing.steer with
      detector := { r.timing.detector with measured := false, inside := true }, toa := t.timing.toa, tob := t.timing.tob } ∧
      t.device = r.device := by
  unfold State.otuSuperframe at h
  dsimp only at h ⊢
  generalize s.qualifyAll.autoSelect.lockStage apart = r at h ⊢
  obtain ⟨timing, device⟩ := h
  exact ⟨timing, device⟩

/-- Settles O39: each stage by its own rows, and a superframe boundary as the office timing unit's own handling. -/
theorem boundaryStages : Obligations.BoundaryStages := by
  refine ⟨fun m => ⟨fun h hp => ?_, fun h hp => ?_, fun h hp hs => ?_, fun h hp hs => ?_, fun h hp => ?_⟩,
    fun s e => ⟨fun hs hc => ?_, fun hs hc => ?_, fun hs => ?_⟩, fun s e => best_iff s.timing e,
    fun s => ⟨autoSelect_rests, fun b => autoSelect_unselected, fun b e => autoSelect_selected⟩,
    fun s apart ha hf _ => ⟨fun hr hl => lockStage_locks apart ⟨ha, hf⟩ hr hl, fun hr hl => ?_, fun hr => ?_⟩,
    fun s apart h => lockStage_rests apart h, fun s egress order apart hr hn ho law follow h2 h3 hdue ht => ?_,
    fun t => ⟨fun target free holdover measured some => ?_, fun hl => ?_, steer_eq t, fun hl => ?_⟩⟩
  · rw [frameEnd_active m h, hp]
    rfl
  · rw [frameEnd_active m h, hp]
    rfl
  · rw [frameEnd_inactive m h, hp, if_pos rfl, if_neg (by omega)]
  · rw [frameEnd_inactive m h, hp, hs]
    rfl
  · rw [frameEnd_inactive m h, hp]
    rfl
  · rw [qualifyAll_entry, qualify_counts hs hc]
  · rw [qualifyAll_entry, qualify_reaches hs hc]
  · rw [qualifyAll_entry, qualify_other hs]
  · exact lockStage_goesOn apart ⟨ha, hf⟩ (if_pos hr) hl
  · exact lockStage_goesOn apart ⟨ha, hf⟩ (if_neg (Bool.eq_false_iff.mp hr)) (Nat.zero_le 3)
  · have alike := boundary_officeAlike s egress order apart ((superframeNext_iff s).mpr hn) ho law ⟨follow, h2, h3, ht⟩ hdue
    exact ⟨_, whenRunning_of_runs s _ hr, officeAlike_stages alike⟩
  · rw [steer_freq, target_eq free holdover measured some]
    exact slew_cases t.loop.freq t.target
  · rw [steer_locked hl]
    exact ⟨rfl, rfl⟩
  · rw [steer_unlocked hl]
    exact ⟨rfl, rfl⟩

end Sys2Proof.Machine
end

