-- ==== Sys2Proof/Proofs/RecordMoves.lean ====
section
/-! What a step can do to the maps, the pending number, the timers and the test units: the moves, one for each operation, and that
every command makes nothing but moves, but for a restart's beginning and end and the office frame boundary. -/

namespace Sys2Proof.Machine

/-! ### The records left alone -/

/-- The course of the restart, the highway interface, the pending number and the timers stand as they did; a unit may have
been triggered anew. -/
structure State.keepsRecords (s t : State) : Prop where
  inProgress : t.restart.inProgress = s.restart.inProgress
  highway : t.highway = s.highway
  pendingNumber : t.pendingNumber = s.pendingNumber
  timers : t.timers = s.timers
  units : s.triggersOnly t

theorem keepsRecords_refl (s : State) : s.keepsRecords s := ⟨rfl, rfl, rfl, rfl, triggersOnly_refl s⟩

theorem keepsRecords_trans {s t u : State} (h : s.keepsRecords t) (k : t.keepsRecords u) : s.keepsRecords u :=
  ⟨k.inProgress.trans h.inProgress, k.highway.trans h.highway, k.pendingNumber.trans h.pendingNumber, k.timers.trans h.timers,
    triggersOnly_trans h.units k.units⟩

/-- Where the units too stand as they did. -/
theorem keepsRecords_of {s t : State} (hr : t.restart.inProgress = s.restart.inProgress) (hh : t.highway = s.highway)
    (hp : t.pendingNumber = s.pendingNumber) (ht : t.timers = s.timers) (hu : t.units = s.units) : s.keepsRecords t :=
  ⟨hr, hh, hp, ht, triggersOnly_of_units hu⟩

theorem keepsRecords_of_timingActs {s t : State} (h : s.timingActs t) : s.keepsRecords t := by
  obtain ⟨-, hr, -, hh, -, hp, ht, -, -, -, -, -, -, -, -, -, -, -, -, hu, -⟩ := h
  exact ⟨by rw [hr], hh, hp, ht, hu⟩

theorem State.becomes.keepsRecords {s t : State} {n : Fin 16} {sp : Span} (h : s.becomes n sp t) : s.keepsRecords t := by
  obtain ⟨-, ⟨-, -, hr, hh, -, hp, ht, hu, -⟩, -⟩ := h
  exact ⟨by rw [hr], hh, hp, ht, hu⟩

theorem keepsRecords_answer {s t : State} (h : s.keepsRecords t) (code tag : Byte) (o : OrderOutcome) (r : List Byte) :
    s.keepsRecords (t.answer code tag o r) := ⟨h.inProgress, h.highway, h.pendingNumber, h.timers, h.units⟩

/-! ### Events -/

/-- An event at span `n`: the span may change, and everything else is as `becomes` says. -/
def State.eventAt (s : State) (n : Fin 16) (t : State) : Prop := ∃ sp, s.becomes n sp t

theorem eventAt_refl (s : State) (n : Fin 16) : s.eventAt n s := ⟨_, becomes_refl s n⟩

theorem eventAt_trans {s t u : State} {n : Fin 16} : s.eventAt n t → t.eventAt n u → s.eventAt n u
  | ⟨_, h⟩, ⟨_, k⟩ => ⟨_, becomes_trans h k⟩

theorem State.eventAt.keepsRecords {s t : State} {n : Fin 16} : s.eventAt n t → s.keepsRecords t
  | ⟨_, h⟩ => h.keepsRecords

theorem setClock_eventAt (s : State) (n : Fin 16) (l : Bool) : s.eventAt n (s.modSpan n fun sp => sp.setClock l) :=
  ⟨_, modSpan_becomes s n _⟩

theorem clockRise_eventAt (s : State) (n : Fin 16) : s.eventAt n (s.clockRise n) := by
  unfold State.clockRise
  dsimp only
  split
  · exact ⟨_, (((becomes_refl s n).modSpan _).modSpan _).publish⟩
  · exact setClock_eventAt s n true

theorem clockFall_eventAt (s : State) (n : Fin 16) (r : Nat) : s.eventAt n (s.clockFall n r) := by
  unfold State.clockFall
  dsimp only
  split
  · exact ⟨_, loseAlignment_becomes (((becomes_refl s n).modSpan _).modSpan Span.clearWindows) r .absent⟩
  · exact setClock_eventAt s n false

theorem noiseEnd_eventAt (s : State) (n : Fin 16) : s.eventAt n (s.noiseEnd n) := by
  by_cases h : (s.span n).sampling = true ∧ (s.span n).noiseDue = true
  · exact ⟨_, noiseEnd_becomes s n h.1 h.2⟩
  · rw [noiseEnd_other s n (by simpa only [not_and_or, Bool.not_eq_true] using h)]
    exact eventAt_refl s n

theorem windowEnd_eventAt (s : State) (n : Fin 16) (r : Nat) (samples : Vector Looks 336) :
    s.eventAt n (s.windowEnd n r samples) := by
  cases h : (s.span n).sampling with
  | false => rw [windowEnd_stopped s n r samples h]; exact eventAt_refl s n
  | true =>
    cases hd : (s.span n).noiseDue with
    | false => exact ⟨_, windowEnd_becomes s n r samples h hd⟩
    | true =>
      have hs := (noiseEnd_becomes s n h hd).1
      rw [windowEnd_of_due s n r samples h hd]
      exact eventAt_trans (noiseEnd_eventAt s n)
        ⟨_, windowEnd_becomes _ n r samples (by rw [hs]; exact h) (by rw [hs]; rfl)⟩

theorem huntFound_eventAt (s : State) (n : Fin 16) (p : Nat) (o : Byte) : s.eventAt n (s.huntFound n p o) := by
  obtain e | ⟨f, h, hp, ho, hw⟩ := huntFound_cases s n p o
  · rw [e]; exact eventAt_refl s n
  · exact ⟨_, huntFound_becomes s n p o h hp ho hw⟩

theorem verifyCheck_eventAt (s : State) (n : Fin 16) (p : Nat) (o : Byte) : s.eventAt n (s.verifyCheck n p o) := by
  obtain e | ⟨c, m, f, -, e⟩ := verifyCheck_cases s n p o <;> rw [e]
  · exact eventAt_refl s n
  · unfold State.verifyResult
    dsimp only
    split
    · exact ⟨_, ((becomes_refl s n).modSpan _).publish⟩
    · split <;> exact ⟨_, ((becomes_refl s n).modSpan _).publish⟩

theorem expectedOctet_eventAt (s : State) (n : Fin 16) (r p : Nat) (o : Byte) : s.eventAt n (s.expectedOctet n r p o) := by
  obtain e | ⟨-, ⟨a, -, -, e⟩ | e⟩ := expectedOctet_cases s n r p o <;> rw [e]
  · exact eventAt_refl s n
  · exact ⟨_, keepAligned_becomes s n a⟩
  · exact ⟨_, loseAlignment_becomes (becomes_refl s n) r _⟩

theorem alignedFrame_eventAt (s : State) (n : Fin 16) (r : Nat) (bits : List Bool) :
    s.eventAt n (s.alignedFrame n r bits) := by
  cases h : (s.span n).rx.aligner.aligned with
  | false => rw [alignedFrame_unaligned s n r bits h]; exact eventAt_refl s n
  | true => exact ⟨_, alignedFrame_becomes s n r bits h⟩

theorem underrun_eventAt (s : State) (n : Fin 16) : s.eventAt n (s.underrun n) := by
  cases h : (s.span n).store.runsDry with
  | false => rw [underrun_other s n h]; exact eventAt_refl s n
  | true => exact ⟨_, underrun_becomes s n h⟩

/-! ### The office timing unit -/

theorem offerUnitTrigger_records (s : State) (src : Fin 8) (u : Fin 4) : s.keepsRecords (s.offerUnitTrigger src u) := by
  refine ⟨?_, offerUnitTrigger_highway s src u, ?_, ?_, offerUnitTrigger_triggersOnly s src u⟩ <;>
    (rw [offerUnitTrigger_eq]; split <;> rfl)

theorem timeout_records (s : State) : s.keepsRecords s.timeout := by
  unfold State.timeout
  split
  · exact keepsRecords_refl s
  · obtain ⟨hr, hh, hp, ht, hu⟩ := keepsRecords_of_timingActs (dropSelection_spec _).1
    exact ⟨hr, hh, hp, ht, hu⟩

theorem acquisitionTimeout_records (s : State) : s.keepsRecords s.acquisitionTimeout := by
  unfold State.acquisitionTimeout
  split
  · exact timeout_records s
  · exact keepsRecords_refl s

theorem lockStage_records (s : State) (apart : Bool) : s.keepsRecords (s.lockStage apart) := by
  have loop (l : Loop) : s.keepsRecords (s.setLoop l) := keepsRecords_of rfl rfl rfl rfl rfl
  obtain e | ⟨l, e | e⟩ := lockStage_cases s apart <;> rw [e]
  · exact keepsRecords_refl s
  · exact loop l
  · exact keepsRecords_trans (loop l) (timeout_records _)

theorem autoSelect_records (s : State) : s.keepsRecords s.autoSelect := by
  unfold State.autoSelect
  split
  · exact keepsRecords_refl s
  · exact keepsRecords_refl s
  · split
    · exact keepsRecords_of_timingActs (selectEntry_spec s _).1
    · split
      · exact keepsRecords_of_timingActs (selectEntry_spec s _).1
      · exact keepsRecords_refl s

theorem monitors_records (s : State) : s.keepsRecords s.monitors := by
  have followed := keepsRecords_of_timingActs (followEntries_acts { s with timing := { s.timing with
    monitorA := s.timing.monitorA.frameEnd, monitorB := s.timing.monitorB.frameEnd } })
  exact ⟨followed.inProgress, followed.highway, followed.pendingNumber, followed.timers, followed.units⟩

theorem otuSuperframe_records (s : State) (apart : Bool) : s.keepsRecords (s.otuSuperframe apart) := by
  have qualified : s.keepsRecords s.qualifyAll := keepsRecords_of rfl rfl rfl rfl rfl
  have staged := keepsRecords_trans qualified (keepsRecords_trans (autoSelect_records _) (lockStage_records _ apart))
  exact ⟨staged.inProgress, staged.highway, staged.pendingNumber, staged.timers, staged.units⟩

theorem otuBoundary_records (s : State) (superframe apart : Bool) : s.keepsRecords (s.otuBoundary superframe apart) := by
  unfold State.otuBoundary
  split
  · exact keepsRecords_trans (monitors_records s) (otuSuperframe_records _ apart)
  · exact monitors_records s

/-! ### The moves -/

/-- One move of the records, with the condition under which the part makes it. -/
inductive RecordMove : State → State → Prop where
  /-- everything but the records -/
  | keeps {s t : State} (h : s.keepsRecords t) : RecordMove s t
  /-- WRITE INGRESS ENTRY (R98) -/
  | writesIngress (s : State) (i : Fin 640) (e : IngressEntry) (h : i ≠ 0) :
      RecordMove s { s with highway := { s.highway with ingress := s.highway.ingress.writeStandby i e } }
  /-- WRITE EGRESS ENTRY (R99) -/
  | writesEgress (s : State) (i : Fin 640) (e : EgressEntry) (h : e ≠ .office 0 0) :
      RecordMove s { s with highway := { s.highway with egress := s.highway.egress.writeStandby i e } }
  /-- SWAP MAPS (R102) -/
  | asks (s : State) (i e : Bool) : RecordMove s { s with highway := s.highway.ask i e }
  /-- COPY MAPS (R101) -/
  | copies (s : State) (i e : Bool) : RecordMove s { s with highway := s.highway.copy i e }
  /-- a timer's swap (R104) -/
  | timerSwaps (s : State) (i e : Bool) : RecordMove s (s.timerSwap i e)
  /-- the swaps due (R103) -/
  | swaps (s : State) : RecordMove s s.performSwaps
  /-- SET FRAME NUMBER (R108) -/
  | pends (s : State) (v : FrameNumber) (h : v.toNat % 16 = 0) :
      RecordMove s { s with pendingNumber := some ⟨v, false⟩ }
  /-- the number formed (R107) -/
  | forms (s : State) : RecordMove s s.formNumber
  /-- an order of a timer, or its match (R111 to R115) -/
  | timer (s : State) (n : Fin 4) (t : Timer) (h : s.timers[n].law → t.law) : RecordMove s (s.setTimer n t)
  /-- an order of a test unit (R130 to R135) -/
  | unit (s : State) (u : Fin 4) (x : TestUnit) (h : s.units[u].law → x.law) : RecordMove s (s.setUnit u x)
  /-- WARM RESTART (R164) -/
  | warm (s : State) : RecordMove s s.warm

/-- The records by moves alone. -/
abbrev RecordMoves : State → State → Prop := Relation.ReflTransGen RecordMove

/-- What every move keeps, a run of moves keeps. -/
theorem RecordMoves.keeps {P : State → Prop} (h : ∀ s t, RecordMove s t → P s → P t) {s t : State} (m : RecordMoves s t)
    (hs : P s) : P t := by
  induction m with
  | refl => exact hs
  | tail _ m ih => exact h _ _ m ih

theorem recordMoves_of_keeps {s t : State} (h : s.keepsRecords t) : RecordMoves s t := .single (.keeps h)

/-- A move and the reply to it. -/
theorem RecordMove.answered {s t : State} (m : RecordMove s t) (code tag : Byte) (o : OrderOutcome) (r : List Byte) :
    RecordMoves s (t.answer code tag o r) :=
  .tail (.single m) (.keeps (keepsRecords_answer (keepsRecords_refl t) code tag o r))

/-- The reply of an order that changes no record. -/
theorem recordMoves_answer {s t : State} (h : s.keepsRecords t) (code tag : Byte) (o : OrderOutcome) (r : List Byte) :
    RecordMoves s (t.answer code tag o r) := recordMoves_of_keeps (keepsRecords_answer h code tag o r)

/-- An order that is answered and no more. -/
theorem recordMoves_replied (s : State) (code tag : Byte) (o : OrderOutcome) (r : List Byte) :
    RecordMoves s (s.answer code tag o r) := recordMoves_answer (keepsRecords_refl s) code tag o r

/-! ### Orders of the maps (R98 to R102) -/

theorem slotIndex_ne_zero {l : Fin 4} {t : Fin 160} (h : ¬(l = 0 ∧ t = 0)) : slotIndex l t ≠ 0 := by
  intro e
  have sum : 160 * l.val + t.val = 0 := congrArg Fin.val e
  exact h ⟨Fin.ext (show l.val = 0 by omega), Fin.ext (show t.val = 0 by omega)⟩

theorem takeWriteIngressEntry_recordMoves (tag a b c d e : Byte) (s : State) :
    RecordMoves s (takeWriteIngressEntry tag a b c d e s) := by
  unfold takeWriteIngressEntry
  split
  · split
    · exact recordMoves_replied s _ _ _ _
    next h =>
      split
      · exact recordMoves_replied s _ _ _ _
      · exact (RecordMove.writesIngress s _ _ (slotIndex_ne_zero h)).answered _ _ _ _
  · exact recordMoves_replied s _ _ _ _

theorem takeWriteEgressEntry_recordMoves (tag a b c d e : Byte) (s : State) :
    RecordMoves s (takeWriteEgressEntry tag a b c d e s) := by
  unfold takeWriteEgressEntry
  split
  · split
    · exact recordMoves_replied s _ _ _ _
    next h =>
      split
      · exact recordMoves_replied s _ _ _ _
      · exact (RecordMove.writesEgress s _ _ h).answered _ _ _ _
  · exact recordMoves_replied s _ _ _ _

theorem takeSwapMaps_recordMoves (tag a : Byte) (s : State) : RecordMoves s (takeSwapMaps tag a s) := by
  unfold takeSwapMaps
  split
  · exact recordMoves_replied s _ _ _ _
  · exact (RecordMove.asks s _ _).answered _ _ _ _

theorem takeCopyMaps_recordMoves (tag a : Byte) (s : State) : RecordMoves s (takeCopyMaps tag a s) := by
  unfold takeCopyMaps
  split
  · exact recordMoves_replied s _ _ _ _
  · split
    · exact recordMoves_replied s _ _ _ _
    · exact (RecordMove.copies s _ _).answered _ _ _ _

/-! ### Orders of the timers and of the number (R108, R111 to R113) -/

/-- Only SELECT-REFERENCE has a parameter (R111). -/
theorem timerActionOf_param {a b : Byte} {action : TimerAction} {p : Fin 4} (h : timerActionOf a b = some (action, p))
    (hne : action ≠ .selectReference) : p = 0 := by
  unfold timerActionOf at h
  split_ifs at h
  · cases h; rfl
  · cases h; rfl
  · cases h; rfl
  · cases h; rfl
  · obtain ⟨_, -, e⟩ := Option.map_eq_some_iff.mp h
    cases e
    exact absurd rfl hne

theorem takeSetTimer_recordMoves (tag a b : Byte) (p : Word) (c d : Byte) (s : State) :
    RecordMoves s (takeSetTimer tag a b p c d s) := by
  unfold takeSetTimer
  split
  next n m action param _ _ ha =>
    split
    · exact recordMoves_replied s _ _ _ _
    next hp => exact (RecordMove.timer s _ _ fun _ => ⟨hp, timerActionOf_param ha⟩).answered _ _ _ _
  · exact recordMoves_replied s _ _ _ _

theorem takeLoadMatch_recordMoves (tag a : Byte) (v : FrameNumber) (s : State) : RecordMoves s (takeLoadMatch tag a v s) := by
  unfold takeLoadMatch
  split
  · exact recordMoves_replied s _ _ _ _
  · refine (RecordMove.timer s _ _ ?_).answered _ _ _ _
    exact id

theorem takeArming_recordMoves (code : Byte) (armed : Bool) (tag a : Byte) (s : State) :
    RecordMoves s (takeArming code armed tag a s) := by
  unfold takeArming
  split
  · exact recordMoves_replied s _ _ _ _
  · refine (RecordMove.timer s _ _ ?_).answered _ _ _ _
    exact id

theorem takeSetFrameNumber_recordMoves (tag : Byte) (v : FrameNumber) (s : State) :
    RecordMoves s (takeSetFrameNumber tag v s) := by
  unfold takeSetFrameNumber
  split
  next h => exact (RecordMove.pends s v h).answered _ _ _ _
  · exact recordMoves_replied s _ _ _ _

/-! ### Orders of the test units (R130 to R133, R135) -/

theorem takeSetUnit_recordMoves (tag a b c d e f g h : Byte) (s : State) : RecordMoves s (takeSetUnit tag a b c d e f g h s) := by
  unfold takeSetUnit
  split
  · split
    · exact recordMoves_replied s _ _ _ _
    next hcount =>
      split
      · exact recordMoves_replied s _ _ _ _
      next hallows =>
        split
        · exact recordMoves_replied s _ _ _ _
        next hslot =>
          split
          · exact recordMoves_replied s _ _ _ _
          · refine (RecordMove.unit s _ _ fun law => ?_).answered _ _ _ _
            obtain ⟨-, -, -, -, hwraps, -⟩ := law
            rw [not_or] at hcount
            exact ⟨Nat.one_le_iff_ne_zero.mpr hcount.1, not_lt.mp hcount.2, Bool.not_eq_false _ ▸ hallows,
              Bool.not_eq_true _ ▸ hslot, hwraps, nofun⟩
  · exact recordMoves_replied s _ _ _ _

theorem takeStartUnit_recordMoves (tag a : Byte) (s : State) : RecordMoves s (takeStartUnit tag a s) := by
  unfold takeStartUnit
  split
  · exact recordMoves_replied s _ _ _ _
  · refine (RecordMove.unit s _ _ fun law => ?_).answered _ _ _ _
    obtain ⟨hone, hmax, hallows, hslot, -, -⟩ := law
    exact ⟨hone, hmax, hallows, hslot, Nat.zero_le _, fun _ => ⟨hone, le_refl _, Nat.zero_add _⟩⟩

theorem takeStopUnit_recordMoves (tag a : Byte) (s : State) : RecordMoves s (takeStopUnit tag a s) := by
  unfold takeStopUnit
  split
  · exact recordMoves_replied s _ _ _ _
  · refine (RecordMove.unit s _ _ fun law => ?_).answered _ _ _ _
    obtain ⟨hone, hmax, hallows, hslot, hwraps, -⟩ := law
    exact ⟨hone, hmax, hallows, hslot, hwraps, nofun⟩

theorem takeTriggerUnit_recordMoves (tag a : Byte) (s : State) : RecordMoves s (takeTriggerUnit tag a s) := by
  unfold takeTriggerUnit
  split
  · exact recordMoves_replied s _ _ _ _
  · refine (RecordMove.unit s _ _ ?_).answered _ _ _ _
    exact id

theorem takeWriteBuffer_recordMoves (tag a b : Byte) (d : Vector Byte 8) (s : State) :
    RecordMoves s (takeWriteBuffer tag a b d s) := by
  unfold takeWriteBuffer
  split
  · refine (RecordMove.unit s _ _ ?_).answered _ _ _ _
    exact id
  · exact recordMoves_replied s _ _ _ _

/-! ### Orders of the spans, of office timing and of the collector -/

theorem takeSetDrift_records (sampled : Bool) (tag a k : Byte) (l : Word) (s : State) :
    s.keepsRecords (takeSetDrift sampled tag a k l s) := by
  unfold takeSetDrift
  split
  · exact keepsRecords_answer (keepsRecords_refl s) _ _ _ _
  next n _ =>
    refine keepsRecords_answer ?_ _ _ _ _
    split
    · exact ((modSpan_becomes s n _).modSpan Span.commitDrift).publish.keepsRecords
    · exact (modSpan_becomes s n _).keepsRecords

theorem takeSetReference_records (tag a b c d e : Byte) (s : State) : s.keepsRecords (takeSetReference tag a b c d e s) := by
  unfold takeSetReference
  split
  · split
    · exact keepsRecords_of rfl rfl rfl rfl rfl
    · split <;> exact keepsRecords_of rfl rfl rfl rfl rfl
  · exact keepsRecords_of rfl rfl rfl rfl rfl

theorem takeSelectReference_records (tag a : Byte) (s : State) : s.keepsRecords (takeSelectReference tag a s) := by
  unfold takeSelectReference
  split
  · exact keepsRecords_of rfl rfl rfl rfl rfl
  next e _ =>
    have h := keepsRecords_of_timingActs (selectionRequest_acts s e)
    split
    case h_1 k => rw [k] at h; exact keepsRecords_answer h _ _ _ _
    case h_2 k => rw [k] at h; exact keepsRecords_answer h _ _ _ _

theorem takeSetSpan_records (tag a b c d e f : Byte) (s : State) : s.keepsRecords (takeSetSpan tag a b c d e f s) := by
  unfold takeSetSpan
  split
  · exact keepsRecords_answer ((becomes_refl s _).modSpan _).publish.keepsRecords _ _ _ _
  · exact keepsRecords_of rfl rfl rfl rfl rfl

theorem takeSpanRestart_records (tag a : Byte) (s : State) : s.keepsRecords (takeSpanRestart tag a s) := by
  unfold takeSpanRestart
  split
  · exact keepsRecords_of rfl rfl rfl rfl rfl
  · exact keepsRecords_answer ((becomes_refl s _).modSpan _).publish.keepsRecords _ _ _ _

theorem takeReadCounts_records (tag a b c : Byte) (s : State) : s.keepsRecords (takeReadCounts tag a b c s) := by
  unfold takeReadCounts
  split
  · exact keepsRecords_of rfl rfl rfl rfl rfl
  next cl _ =>
    split
    · cases cl <;> exact keepsRecords_of rfl rfl rfl rfl rfl
    · split
      · exact keepsRecords_of rfl rfl rfl rfl rfl
      · dsimp only
        split_ifs <;> exact keepsRecords_of rfl rfl rfl rfl rfl

/-- An order that moves a map, the pending number, a timer or a unit, or restarts the part. -/
def ordersRecords : Instr → Bool
  | .warmRestart .. => true
  | .writeIngressEntry .. => true
  | .writeEgressEntry .. => true
  | .swapMaps .. => true
  | .copyMaps .. => true
  | .setTimer .. => true
  | .loadMatch .. => true
  | .armTimer .. => true
  | .disarmTimer .. => true
  | .setFrameNumber .. => true
  | .setUnit .. => true
  | .startUnit .. => true
  | .stopUnit .. => true
  | .triggerUnit .. => true
  | .writeBuffer .. => true
  | _ => false

/-- Every other order leaves the records alone. -/
theorem takeOrder_records (sampled : Fin 16 → Bool) (s : State) (i : Instr) (h : ordersRecords i = false) :
    s.keepsRecords (s.takeOrder sampled i) := by
  have same {t : State} (hr : t.restart.inProgress = s.restart.inProgress) (hh : t.highway = s.highway)
      (hp : t.pendingNumber = s.pendingNumber)
      (ht : t.timers = s.timers) (hu : t.units = s.units) : s.keepsRecords t := keepsRecords_of hr hh hp ht hu
  cases i with
  | setSpan => exact takeSetSpan_records _ _ _ _ _ _ _ s
  | spanRestart => exact takeSpanRestart_records _ _ s
  | setDrift => exact takeSetDrift_records _ _ _ _ _ s
  | setReference => exact takeSetReference_records _ _ _ _ _ _ s
  | selectReference => exact takeSelectReference_records _ _ s
  | readCounts => exact takeReadCounts_records _ _ _ _ s
  | readIngressEntry =>
    dsimp only [State.takeOrder]
    unfold takeReadIngressEntry
    split
    · split <;> exact same rfl rfl rfl rfl rfl
    · exact same rfl rfl rfl rfl rfl
  | readSpan => dsimp only [State.takeOrder]; unfold takeReadSpan; split <;> exact same rfl rfl rfl rfl rfl
  | setThresholds => dsimp only [State.takeOrder]; unfold takeSetThresholds; split <;> exact same rfl rfl rfl rfl rfl
  | readStore => dsimp only [State.takeOrder]; unfold takeReadStore; split <;> exact same rfl rfl rfl rfl rfl
  | readDrift => dsimp only [State.takeOrder]; unfold takeReadDrift; split <;> exact same rfl rfl rfl rfl rfl
  | setTimingMode => dsimp only [State.takeOrder]; unfold takeSetTimingMode; split <;> exact same rfl rfl rfl rfl rfl
  | readReference => dsimp only [State.takeOrder]; unfold takeReadReference; split <;> exact same rfl rfl rfl rfl rfl
  | setTimingOutput => dsimp only [State.takeOrder]; unfold takeSetTimingOutput; split <;> exact same rfl rfl rfl rfl rfl
  | readEgressEntry => dsimp only [State.takeOrder]; unfold takeReadEgressEntry; split <;> exact same rfl rfl rfl rfl rfl
  | readTimer => dsimp only [State.takeOrder]; unfold takeReadTimer; split <;> exact same rfl rfl rfl rfl rfl
  | readUnit => dsimp only [State.takeOrder]; unfold takeReadUnit; split <;> exact same rfl rfl rfl rfl rfl
  | readBuffer => dsimp only [State.takeOrder]; unfold takeReadBuffer; split <;> exact same rfl rfl rfl rfl rfl
  | readAlarms => dsimp only [State.takeOrder]; unfold takeReadAlarms; split <;> exact same rfl rfl rfl rfl rfl
  | clearLatched => dsimp only [State.takeOrder]; unfold takeClearLatched; split <;> exact same rfl rfl rfl rfl rfl
  | warmRestart => cases h
  | writeIngressEntry => cases h
  | writeEgressEntry => cases h
  | swapMaps => cases h
  | copyMaps => cases h
  | setTimer => cases h
  | loadMatch => cases h
  | armTimer => cases h
  | disarmTimer => cases h
  | setFrameNumber => cases h
  | setUnit => cases h
  | startUnit => cases h
  | stopUnit => cases h
  | triggerUnit => cases h
  | writeBuffer => cases h
  | _ => exact same rfl rfl rfl rfl rfl

/-- Every order, taken by its owner's rule, makes nothing but moves of the records. -/
theorem takeOrder_recordMoves (sampled : Fin 16 → Bool) (s : State) (i : Instr) :
    RecordMoves s (s.takeOrder sampled i) := by
  cases h : ordersRecords i with
  | false => exact recordMoves_of_keeps (takeOrder_records sampled s i h)
  | true =>
    cases i with
    | warmRestart => exact (RecordMove.warm s).answered _ _ _ _
    | writeIngressEntry => exact takeWriteIngressEntry_recordMoves _ _ _ _ _ _ s
    | writeEgressEntry => exact takeWriteEgressEntry_recordMoves _ _ _ _ _ _ s
    | swapMaps => exact takeSwapMaps_recordMoves _ _ s
    | copyMaps => exact takeCopyMaps_recordMoves _ _ s
    | setTimer => exact takeSetTimer_recordMoves _ _ _ _ _ _ s
    | loadMatch => exact takeLoadMatch_recordMoves _ _ _ s
    | armTimer => exact takeArming_recordMoves _ _ _ _ s
    | disarmTimer => exact takeArming_recordMoves _ _ _ _ s
    | setFrameNumber => exact takeSetFrameNumber_recordMoves _ _ s
    | setUnit => exact takeSetUnit_recordMoves _ _ _ _ _ _ _ _ _ s
    | startUnit => exact takeStartUnit_recordMoves _ _ s
    | stopUnit => exact takeStopUnit_recordMoves _ _ s
    | triggerUnit => exact takeTriggerUnit_recordMoves _ _ s
    | writeBuffer => exact takeWriteBuffer_recordMoves _ _ _ _ s
    | _ => cases h

/-! ### The handlings of a boundary (R69) -/

theorem performAction_recordMoves (s : State) (t : Timer) : RecordMoves s (s.performAction t).1 := by
  unfold State.performAction
  split
  · exact .refl
  · exact .single (.timerSwaps s _ _)
  · exact .single (.timerSwaps s _ _)
  · exact .single (.timerSwaps s _ _)
  · exact recordMoves_of_keeps (keepsRecords_of_timingActs (selectionRequest_acts s t.param))

theorem performAction_timers (s : State) (t : Timer) : (s.performAction t).1.timers = s.timers := by
  unfold State.performAction
  split
  · rfl
  · rfl
  · rfl
  · rfl
  · exact (keepsRecords_of_timingActs (selectionRequest_acts s t.param)).timers

/-- A match changes no setting of the timer (R115). -/
theorem afterMatch_law {t : Timer} (o : TimerOutcome) (h : t.law) : (t.afterMatch o).law := by
  unfold Timer.afterMatch
  split <;> exact h

theorem matchTimer_recordMoves (s : State) (n : Fin 4) : RecordMoves s (s.matchTimer n) := by
  unfold State.matchTimer
  dsimp only
  split
  · refine ((performAction_recordMoves s s.timers[n]).tail (.timer _ n _ fun h => afterMatch_law _ ?_)).tail
      (.keeps (offerUnitTrigger_records _ 5 n))
    rwa [performAction_timers] at h
  · exact .refl

theorem orderBoundary_recordMoves (s : State) (sampled : Fin 16 → Bool) : RecordMoves s (s.orderBoundary sampled) := by
  have channelOnly (t : State) (channel : OrderChannel) : t.keepsRecords { t with channel } :=
    keepsRecords_of rfl rfl rfl rfl rfl
  have formed : RecordMoves s s.formSend := recordMoves_of_keeps (channelOnly s _)
  have judged (cell : Cell) : RecordMoves s.formSend (s.formSend.judgeCell sampled cell) := by
    unfold State.judgeCell
    split_ifs
    · exact .refl
    · exact recordMoves_of_keeps (keepsRecords_of rfl rfl rfl rfl rfl)
    · exact takeOrder_recordMoves sampled s.formSend _
    · exact .refl
  unfold State.orderBoundary State.examine
  split
  · exact (formed.trans (judged _)).tail (.keeps (channelOnly _ _))
  · exact formed

/-- The handlings that neither form the number, nor match a timer, nor swap, nor take an order leave the records alone. -/
theorem handle_records (s : State) (superframe apart : Bool) (done : List Handling) (h : Handling) (hn : h ≠ .number)
    (ht : ∀ n, h ≠ .timer n) (hs : h ≠ .swaps) (ho : h ≠ .orderChannel) :
    s.keepsRecords (s.handle superframe apart done h) := by
  cases h with
  | number => exact absurd rfl hn
  | timer n => exact absurd rfl (ht n)
  | store n => exact (storeBoundary_becomes s superframe n).keepsRecords
  | otu => exact otuBoundary_records s superframe apart
  | outputs => exact keepsRecords_of rfl rfl rfl rfl rfl
  | swaps => exact absurd rfl hs
  | units =>
    have offered (t : State) (src : Fin 8) : t.keepsRecords (t.offerTrigger src) :=
      keepsRecords_of_timingActs (offerTrigger_acts t src)
    cases superframe with
    | false => exact offered s 1
    | true => exact keepsRecords_trans (offered s 1) (offered _ 2)
  | orderChannel => exact absurd rfl ho

/-- Every handling makes nothing but moves of the records. -/
theorem handle_recordMoves (s : State) (superframe apart : Bool) (done : List Handling) (h : Handling) :
    RecordMoves s (s.handle superframe apart done h) := by
  cases h with
  | number => exact .single (.forms s)
  | timer n => exact matchTimer_recordMoves s n
  | swaps =>
    cases superframe with
    | false => exact .refl
    | true => exact .single (.swaps s)
  | orderChannel =>
    cases superframe with
    | false => exact .refl
    | true => exact orderBoundary_recordMoves s _
  | _ => exact recordMoves_of_keeps (handle_records s superframe apart done _ nofun nofun nofun nofun)

theorem handleAll_recordMoves (superframe apart : Bool) (todo done : List Handling) (s : State) :
    RecordMoves s (s.handleAll superframe apart done todo) := by
  induction todo generalizing done s with
  | nil => exact .refl
  | cons h rest ih => exact (handle_recordMoves s superframe apart done h).trans (ih _ _)

/-! ### One command -/

/-- A command makes moves of the records alone, or begins or goes on with a restart, or ends one, or is the office frame
boundary. -/
theorem exec_recordMoves (c : Instr) {s t : State} (h : exec c s = .next t) :
    RecordMoves s t ∨ (∃ k low up, t = s.hold k low up) ∨
      (∃ k straps, c = .restartEnd straps ∧ t = s.restarted k straps) ∨
      ∃ egress order apart, c = .officeFrameBoundary egress order apart ∧ s.officeRuns = true ∧
        t = s.boundary egress order apart := by
  have stays (e : s = t) : RecordMoves s t := e ▸ .refl
  have running {u : State} (k : whenRunning s u = .next t) (m : RecordMoves s u) : RecordMoves s t := by
    rcases (whenRunning_eq_next s u t).mp k with ⟨-, rfl⟩ | ⟨-, rfl⟩
    · exact m
    · exact .refl
  have event {n : Fin 16} {u : State} (k : whenRunning s u = .next t) (m : s.eventAt n u) : RecordMoves s t :=
    running k (recordMoves_of_keeps m.keepsRecords)
  have taken (e : exec c s = whenRunning s (s.takeOrder (fun _ => true) c)) : RecordMoves s t :=
    running (e.symm.trans h) (takeOrder_recordMoves _ s c)
  cases c with
  | powerOn => cases h; exact .inr (.inl ⟨_, _, _, rfl⟩)
  | coldRestartBegin =>
    simp only [exec, execColdRestartBegin] at h
    split at h <;> (cases h; exact .inr (.inl ⟨_, _, _, rfl⟩))
  | supplyFall =>
    simp only [exec, execSupplyFall] at h
    split at h
    · cases h; exact .inl .refl
    · split at h
      · cases h; exact .inr (.inl ⟨_, _, _, rfl⟩)
      · cases h; exact .inl .refl
  | restartEnd straps =>
    simp only [exec, execRestartEnd] at h
    split at h
    · cases h; exact .inl .refl
    · split at h
      · cases h; exact .inr (.inr (.inl ⟨_, straps, rfl, rfl⟩))
      · cases h; exact .inl .refl
  | clockPresentRise n =>
    cases h
    split
    · exact .inl (recordMoves_of_keeps (clockRise_eventAt s n).keepsRecords)
    · exact .inl (recordMoves_of_keeps (setClock_eventAt s n true).keepsRecords)
  | clockPresentFall m =>
    cases h
    split
    · exact .inl (recordMoves_of_keeps (clockFall_eventAt s m.span m.readSoFar).keepsRecords)
    · exact .inl (recordMoves_of_keeps (setClock_eventAt s m.span false).keepsRecords)
  | lineWindowEnd => exact .inl (event h (windowEnd_eventAt s _ _ _))
  | noisePeriodEnd => exact .inl (event h (noiseEnd_eventAt s _))
  | huntCandidateFound => exact .inl (event h (huntFound_eventAt s _ _ _))
  | verifyCheck => exact .inl (event h (verifyCheck_eventAt s _ _ _))
  | expectedAlignmentOctet => exact .inl (event h (expectedOctet_eventAt s _ _ _ _))
  | alignedFrame => exact .inl (event h (alignedFrame_eventAt s _ _ _))
  | storeUnderrun => exact .inl (event h (underrun_eventAt s _))
  | referenceEvent =>
    exact .inl (running h (recordMoves_of_keeps (by split <;> exact keepsRecords_of rfl rfl rfl rfl rfl)))
  | officeFrameBoundary egress order apart =>
    rcases (whenRunning_eq_next _ _ _).mp h with ⟨hr, rfl⟩ | ⟨-, rfl⟩
    · exact .inr (.inr (.inr ⟨egress, order, apart, rfl, hr, rfl⟩))
    · exact .inl .refl
  | qualificationComplete =>
    refine .inl (running h (recordMoves_of_keeps ?_))
    unfold State.qualificationComplete
    dsimp only
    split <;> exact keepsRecords_of rfl rfl rfl rfl rfl
  | acquisitionTimeout => exact .inl (running h (recordMoves_of_keeps (acquisitionTimeout_records s)))
  | unknownOrder =>
    refine .inl (running h ?_)
    split
    · exact recordMoves_replied s _ _ _ _
    · exact .refl
  | setDrift => exact .inl (running h (recordMoves_of_keeps (takeSetDrift_records true _ _ _ _ s)))
  | _ => exact .inl (taken rfl)

end Sys2Proof.Machine
end

