-- ==== Sys2Proof/Proofs/RecordLaws.lean ====
section
/-! Every move of the records keeps the map law, the timers' and the units' laws, and makes nothing overdue that was not; the
boundary takes everything due there; and with them O10. -/

namespace Sys2Proof.Machine

/-! ### The end of an office frame and the opening of the boundary -/

theorem finishReads_records (s : State) : s.keepsRecords s.finishReads := by
  unfold State.finishReads
  induction allSpans generalizing s with
  | nil => exact keepsRecords_refl s
  | cons n rest ih => exact keepsRecords_trans ((becomes_refl s n).readSide 336).keepsRecords (ih _)

/-- The receive cell alone takes the byte of the management slot (R137). -/
theorem gather_eq (s : State) (b : Byte) : ∃ channel, s.gather b = { s with channel } := by
  unfold State.gather
  split <;> exact ⟨_, rfl⟩

/-- The records as the end of an office frame leaves them: the maps, the office frame number with the pending one, and the
timers stand as they did. -/
structure State.endsFrame (s : State) (t : State) : Prop where
  inProgress : t.restart.inProgress = s.restart.inProgress
  ingress : t.highway.ingress = s.highway.ingress
  egress : t.highway.egress = s.highway.egress
  frameNumber : t.frameNumber = s.frameNumber
  pendingNumber : t.pendingNumber = s.pendingNumber
  timers : t.timers = s.timers

theorem endsFrame_trans {s t u : State} (h : s.endsFrame t) (k : t.endsFrame u) : s.endsFrame u :=
  ⟨k.inProgress.trans h.inProgress, k.ingress.trans h.ingress, k.egress.trans h.egress, k.frameNumber.trans h.frameNumber,
    k.pendingNumber.trans h.pendingNumber, k.timers.trans h.timers⟩

theorem endsFrame_of_records {s t : State} (h : s.keepsRecords t) (hf : t.frameNumber = s.frameNumber) : s.endsFrame t :=
  ⟨h.inProgress, by rw [h.highway], by rw [h.highway], hf, h.pendingNumber, h.timers⟩

/-- The holds, the frame sent and the transmitters alone are written (R17, R90, R91). -/
theorem takeHolds_eq (s : State) (received : Vector Byte 640) :
    ∃ spans retimed held sent,
      s.takeHolds received = { s with spans, highway := { s.highway with retimed, held, sent } } := ⟨_, _, _, _, rfl⟩

theorem takeHolds_endsFrame (s : State) (received : Vector Byte 640) (units : Vector TestUnit 4) :
    s.endsFrame { s.takeHolds received with units } := by
  obtain ⟨spans, retimed, held, sent, e⟩ := takeHolds_eq s received
  rw [e]
  exact ⟨rfl, rfl, rfl, rfl, rfl, rfl⟩

/-- The end of the office frame in progress, an acquisition timeout left to this moment made first. -/
theorem endFrame_endsFrame (s : State) (received : Vector Byte 640) :
    s.endsFrame (s.acquisitionTimeout.endFrame received) := by
  have read := endsFrame_of_records (keepsRecords_trans (acquisitionTimeout_records s) (finishReads_records _))
    (besideSpans_trans (acquisitionTimeout_beside s) (finishReads_beside _)).frameNumber
  have gathered (t : State) (b : Byte) : t.endsFrame (t.gather b) := by
    obtain ⟨channel, e⟩ := gather_eq t b
    rw [e]
    exact ⟨rfl, rfl, rfl, rfl, rfl, rfl⟩
  exact endsFrame_trans (endsFrame_trans read (gathered _ _)) (takeHolds_endsFrame _ received _)

/-- The state in which the handlings of a boundary begin. -/
def State.opened (s : State) (received : Vector Byte 640) : State :=
  (s.acquisitionTimeout.endFrame received).openBoundary s.superframeNext

theorem openBoundary_ingress (s : State) (superframe : Bool) :
    (s.openBoundary superframe).highway.ingress = s.highway.ingress.openBoundary superframe := rfl
theorem openBoundary_egress (s : State) (superframe : Bool) :
    (s.openBoundary superframe).highway.egress = s.highway.egress.openBoundary superframe := rfl
theorem openBoundary_pendingNumber (s : State) (superframe : Bool) :
    (s.openBoundary superframe).pendingNumber = openNumber superframe s.pendingNumber := rfl
theorem openBoundary_timers (s : State) (superframe : Bool) : (s.openBoundary superframe).timers = s.timers := rfl
theorem openBoundary_units (s : State) (superframe : Bool) : (s.openBoundary superframe).units = s.units := rfl

theorem opened_ingress (s : State) (received : Vector Byte 640) :
    (s.opened received).highway.ingress = s.highway.ingress.openBoundary s.superframeNext := by
  rw [State.opened, openBoundary_ingress, (endFrame_endsFrame s received).ingress]

theorem opened_egress (s : State) (received : Vector Byte 640) :
    (s.opened received).highway.egress = s.highway.egress.openBoundary s.superframeNext := by
  rw [State.opened, openBoundary_egress, (endFrame_endsFrame s received).egress]

theorem opened_pendingNumber (s : State) (received : Vector Byte 640) :
    (s.opened received).pendingNumber = openNumber s.superframeNext s.pendingNumber := by
  rw [State.opened, openBoundary_pendingNumber, (endFrame_endsFrame s received).pendingNumber]

theorem opened_timers (s : State) (received : Vector Byte 640) : (s.opened received).timers = s.timers := by
  rw [State.opened, openBoundary_timers, (endFrame_endsFrame s received).timers]

/-- From the opening of a boundary on, there are nothing but moves of the records. -/
theorem boundary_recordMoves (s : State) (received : Vector Byte 640) (order : List Handling) (apart : Bool) :
    RecordMoves (s.opened received) (s.boundary received order apart) :=
  (handleAll_recordMoves s.superframeNext apart (schedule order) [] (s.opened received)).tail
    (.keeps (keepsRecords_of rfl rfl rfl rfl rfl))

/-! ### The maps (R92, R93) -/

section

variable {entry : Type} (m : ChannelMap entry)

/-- WRITE INGRESS ENTRY and WRITE EGRESS ENTRY write one entry of the standby bank (R98, R99). -/
theorem writeStandby_bank (i j : Fin 640) (e : entry) (b : Fin 2) :
    (m.writeStandby i e).banks[b][j] = if b = m.standby ∧ j = i then e else m.banks[b][j] := by
  unfold ChannelMap.writeStandby
  by_cases hb : b = m.standby
  · subst hb
    simp [Vector.getElem_set, Fin.ext_iff, eq_comm]
  · have hne : m.standby.val ≠ b.val := fun k => hb (Fin.ext k.symm)
    simp [hb, hne]

/-- COPY MAPS gives both banks the entries of the active one (R101). -/
theorem copy_bank (b : Fin 2) : m.copy.banks[b] = if b = m.standby then m.banks[m.active] else m.banks[b] := by
  unfold ChannelMap.copy
  simp only [Fin.getElem_fin]
  rw [Vector.getElem_set]
  simp [Fin.ext_iff, eq_comm]

@[simp] theorem timerSwap_banks : m.timerSwap.banks = m.banks := by unfold ChannelMap.timerSwap; split <;> rfl

@[simp] theorem performDue_banks : m.performDue.banks = m.banks := by
  unfold ChannelMap.performDue
  split
  · split <;> rfl
  · rfl

@[simp] theorem ask_banks : m.ask.banks = m.banks := by unfold ChannelMap.ask; split <;> rfl

/-- A timer's swap leaves no request (R104). -/
@[simp] theorem timerSwap_request : m.timerSwap.request = .absent := rfl

@[simp] theorem copy_request : m.copy.request = m.request := rfl

@[simp] theorem writeStandby_request (i : Fin 640) (e : entry) : (m.writeStandby i e).request = m.request := rfl

/-- The swaps due leave none due (R103). -/
theorem performDue_not_due : m.performDue.request ≠ .pending true := by
  unfold ChannelMap.performDue
  split
  · exact nofun
  next h => exact h

/-- A request asked for at a boundary falls due at the next (R102). -/
theorem ask_due (h : m.ask.request = .pending true) : m.request = .pending true := by
  unfold ChannelMap.ask at h
  split at h
  · cases h
  · exact h

end

/-- The map law reads the banks alone. -/
theorem highwayLaw_of_banks {h k : Highway} (hi : k.ingress.banks = h.ingress.banks) (he : k.egress.banks = h.egress.banks)
    (law : h.law) : k.law := by
  unfold Highway.law
  rw [hi, he]
  exact law

/-- Where the entries of both maps satisfy the law in every bank, so they do after a copy (R101). -/
theorem highwayLaw_copy {h : Highway} (i e : Bool) (law : h.law) : (h.copy i e).law := by
  obtain ⟨vacant, named⟩ := law
  refine ⟨fun b => ?_, fun b j => ?_⟩
  · cases i with
    | false => exact vacant b
    | true =>
      change h.ingress.copy.banks[b][(0 : Fin 640)] = .unused
      rw [copy_bank]
      split <;> exact vacant _
  · cases e with
    | false => exact named b j
    | true =>
      change h.egress.copy.banks[b][j] ≠ .office 0 0
      rw [copy_bank]
      split <;> exact named _ j

theorem recordMove_highwayLaw (s t : State) (m : RecordMove s t) (law : s.highway.law) : t.highway.law := by
  cases m with
  | keeps h => exact h.highway ▸ law
  | writesIngress i e hi =>
    refine ⟨fun b => ?_, law.2⟩
    rw [writeStandby_bank, if_neg fun k => hi k.2.symm]
    exact law.1 b
  | writesEgress i e he =>
    refine ⟨law.1, fun b j => ?_⟩
    rw [writeStandby_bank]
    split
    · exact he
    · exact law.2 b j
  | asks i e => exact highwayLaw_of_banks (by cases i <;> simp [Highway.ask]) (by cases e <;> simp [Highway.ask]) law
  | copies i e => exact highwayLaw_copy i e law
  | timerSwaps i e =>
    exact highwayLaw_of_banks (by cases i <;> simp [State.timerSwap]) (by cases e <;> simp [State.timerSwap]) law
  | swaps => exact highwayLaw_of_banks (performDue_banks _) (performDue_banks _) law
  | forms => rwa [formNumber_highway]
  | pends => exact law
  | timer => exact law
  | unit => exact law
  | warm => exact law

/-! ### The timers (R110, R111) -/

theorem recordMove_timerLaw (s t : State) (m : RecordMove s t) (law : ∀ n : Fin 4, s.timers[n].law) :
    ∀ n : Fin 4, t.timers[n].law := by
  cases m with
  | keeps h => exact h.timers ▸ law
  | forms => rwa [formNumber_timers]
  | timer n x h =>
    intro k
    by_cases hk : k = n
    · subst hk
      rw [setTimer_timer]
      exact h (law k)
    · have hne : n.val ≠ k.val := fun e => hk (Fin.ext e.symm)
      simpa [State.setTimer, hne] using law k
  | warm =>
    intro k
    have e : s.warm.timers[k] = .reset := by simp [State.warm]
    rw [e]
    exact reset_timer_law
  | writesIngress => exact law
  | writesEgress => exact law
  | asks => exact law
  | copies => exact law
  | timerSwaps => exact law
  | swaps => exact law
  | pends => exact law
  | unit => exact law

/-! ### The test units (R128) -/

/-- A new trigger has no part in the unit law. -/
theorem triggersOnly_law {s t : State} (h : s.triggersOnly t) (law : ∀ u : Fin 4, s.units[u].law) :
    ∀ u : Fin 4, t.units[u].law := fun u => by
  rcases h u with e | e <;> rw [e] <;> exact law u

theorem recordMove_unitLaw (s t : State) (m : RecordMove s t) (law : ∀ u : Fin 4, s.units[u].law) :
    ∀ u : Fin 4, t.units[u].law := by
  cases m with
  | keeps h => exact triggersOnly_law h.units law
  | forms => rwa [formNumber_units]
  | unit u x h =>
    intro k
    by_cases hk : k = u
    · subst hk
      rw [setUnit_unit]
      exact h (law k)
    · have hne : u.val ≠ k.val := fun e => hk (Fin.ext e.symm)
      simpa [State.setUnit, hne] using law k
  | warm =>
    intro k
    have e : s.warm.units[k] = .reset := by simp [State.warm]
    rw [e]
    exact reset_unit_law
  | writesIngress => exact law
  | writesEgress => exact law
  | asks => exact law
  | copies => exact law
  | timerSwaps => exact law
  | swaps => exact law
  | pends => exact law
  | timer => exact law

/-- A transfer lowers remaining and moves the pointer on by as much, or completes the run (R126, R127). -/
theorem advance_law {x : TestUnit} (law : x.law) : x.advance.law := by
  obtain ⟨hone, hmax, hallows, hslot, hwraps, hrun⟩ := law
  unfold TestUnit.advance
  dsimp only
  split
  · split
    · exact ⟨hone, hmax, hallows, hslot, Nat.min_le_right _ _, fun _ => ⟨hone, le_refl _, Nat.zero_add _⟩⟩
    · exact ⟨hone, hmax, hallows, hslot, hwraps, nofun⟩
  next goesOn =>
    refine ⟨hone, hmax, hallows, hslot, hwraps, fun running => ?_⟩
    obtain ⟨-, hle, hsum⟩ := hrun running
    have moved : (x.pointer + 1).val = x.pointer.val + 1 := by
      rw [Fin.val_add, Fin.val_one, Nat.mod_eq_of_lt (by omega)]
    refine ⟨Nat.one_le_iff_ne_zero.mpr goesOn, by dsimp only; omega, ?_⟩
    dsimp only
    rw [moved]
    omega

/-- A capture enters a byte, and an insertion may collide: no more of the unit is changed (R126, R129). -/
theorem moved_law {s : State} (received : Vector Byte 640) {u : Fin 4} (law : s.units[u].law) :
    (s.moved received u).law := by
  unfold State.moved
  dsimp only
  split <;> exact law

theorem transferred_law {s : State} (received : Vector Byte 640) {u : Fin 4} (law : s.units[u].law) :
    (s.transferred received u).law := by
  unfold State.transferred
  split
  · exact advance_law (moved_law received law)
  · exact law

theorem unitsEndFrame_law {s : State} (received : Vector Byte 640) (law : ∀ u : Fin 4, s.units[u].law) (u : Fin 4) :
    (s.unitsEndFrame received).units[u].law := by
  have transferred (v : Fin 4) : ({ s with units := Vector.ofFn fun u => s.transferred received u } : State).units[v].law := by
    simpa using transferred_law received (law v)
  have chained := triggersOnly_law (chains_triggersOnly s allFour _) transferred u
  unfold State.unitsEndFrame
  simpa [TestUnit.endFrame, TestUnit.law] using chained

/-- The unit law as the handlings of a boundary find it. -/
theorem opened_unitLaw {s : State} (received : Vector Byte 640) (law : ∀ u : Fin 4, s.units[u].law) (u : Fin 4) :
    (s.opened received).units[u].law := by
  have read := triggersOnly_law (keepsRecords_trans (acquisitionTimeout_records s) (finishReads_records _)).units law
  rw [← gather_units _ received[0]] at read
  have ended : (s.acquisitionTimeout.endFrame received).units =
      ((s.acquisitionTimeout.finishReads.gather received[0]).unitsEndFrame received).units := by
    unfold State.endFrame
    dsimp only
  rw [State.opened, openBoundary_units, ended]
  exact unitsEndFrame_law received read u

/-! ### What is due (R103, R108, R109) -/

/-- What is due once the handlings `done` of a boundary have been taken: a pending number only at an office superframe boundary
that has still to form its number, and swaps only at one that has still to make them. -/
structure State.dueBy (superframe : Bool) (done : List Handling) (s : State) : Prop where
  multiple : ∀ p, s.pendingNumber = some p → p.value.toNat % 16 = 0
  number : ∀ p, s.pendingNumber = some p → p.due = true → superframe = true ∧ .number ∉ done
  ingress : s.highway.ingress.request = .pending true → superframe = true ∧ .swaps ∉ done
  egress : s.highway.egress.request = .pending true → superframe = true ∧ .swaps ∉ done

/-- Nothing is due where no superframe boundary is open. -/
theorem dueLaw_iff (s : State) : s.dueLaw ↔ s.dueBy false [] := by
  constructor
  · rintro ⟨number, ingress, egress⟩
    exact ⟨fun p hp => (number p hp).1, fun p hp due => absurd ((number p hp).2.symm.trans due) nofun,
      fun k => absurd k ingress, fun k => absurd k egress⟩
  · rintro ⟨multiple, number, ingress, egress⟩
    refine ⟨fun p hp => ⟨multiple p hp, ?_⟩, fun k => absurd (ingress k).1 nofun, fun k => absurd (egress k).1 nofun⟩
    exact Bool.eq_false_iff.mpr fun due => absurd (number p hp due).1 nofun

/-- The number formed, nothing is overdue of it (R109). -/
theorem formNumber_pending_cases {s : State} {p : PendingNumber} (h : s.formNumber.pendingNumber = some p) :
    s.pendingNumber = some p ∧ p.due = false := by
  unfold State.formNumber at h
  dsimp only at h
  split at h
  · cases h
  next k =>
    refine ⟨h, Bool.eq_false_iff.mpr fun due => k p.value ?_⟩
    rw [h, ← due]

theorem recordMove_dueBy (superframe : Bool) (done : List Handling) (s t : State) (m : RecordMove s t)
    (h : s.dueBy superframe done) : t.dueBy superframe done := by
  have maps {hw : Highway} (hi : hw.ingress.request = .pending true → s.highway.ingress.request = .pending true)
      (he : hw.egress.request = .pending true → s.highway.egress.request = .pending true) :
      ({ s with highway := hw } : State).dueBy superframe done := ⟨h.multiple, h.number, h.ingress ∘ hi, h.egress ∘ he⟩
  cases m with
  | keeps k =>
    obtain ⟨-, hh, hp, -, -⟩ := k
    exact ⟨by rw [hp]; exact h.multiple, by rw [hp]; exact h.number, by rw [hh]; exact h.ingress, by rw [hh]; exact h.egress⟩
  | asks i e =>
    refine maps ?_ ?_
    · cases i
      · exact id
      · exact ask_due _
    · cases e
      · exact id
      · exact ask_due _
  | timerSwaps i e =>
    refine maps ?_ ?_
    · cases i
      · exact id
      · exact nofun
    · cases e
      · exact id
      · exact nofun
  | swaps => exact maps (fun k => absurd k (performDue_not_due _)) (fun k => absurd k (performDue_not_due _))
  | copies i e =>
    refine maps ?_ ?_
    · cases i <;> exact id
    · cases e <;> exact id
  | pends v hv =>
    refine ⟨fun p hp => ?_, fun p hp due => ?_, h.ingress, h.egress⟩ <;> cases hp
    · exact hv
    · cases due
  | forms =>
    refine ⟨fun p hp => h.multiple p (formNumber_pending_cases hp).1, fun p hp due => ?_, ?_, ?_⟩
    · exact absurd ((formNumber_pending_cases hp).2.symm.trans due) nofun
    · rw [formNumber_highway]; exact h.ingress
    · rw [formNumber_highway]; exact h.egress
  | writesIngress => exact maps id id
  | writesEgress => exact maps id id
  | timer => exact ⟨h.multiple, h.number, h.ingress, h.egress⟩
  | unit => exact ⟨h.multiple, h.number, h.ingress, h.egress⟩
  | warm => exact ⟨h.multiple, h.number, h.ingress, h.egress⟩

/-- A handling takes what is due to it (R103, R109). -/
theorem handle_dueBy {s : State} (superframe apart : Bool) (done : List Handling) (x : Handling)
    (h : s.dueBy superframe done) : (s.handle superframe apart done x).dueBy superframe (x :: done) := by
  have moved : (s.handle superframe apart done x).dueBy superframe done :=
    (handle_recordMoves s superframe apart done x).keeps (recordMove_dueBy superframe done) h
  refine ⟨moved.multiple, fun p hp due => ?_, fun k => ?_, fun k => ?_⟩
  · obtain ⟨hs, hd⟩ := moved.number p hp due
    refine ⟨hs, fun k => (List.mem_cons.mp k).elim (fun e => ?_) hd⟩
    subst e
    exact absurd ((formNumber_pending_cases hp).2.symm.trans due) nofun
  · obtain ⟨rfl, hd⟩ := moved.ingress k
    refine ⟨rfl, fun hx => (List.mem_cons.mp hx).elim (fun e => ?_) hd⟩
    subst e
    exact performDue_not_due _ k
  · obtain ⟨rfl, hd⟩ := moved.egress k
    refine ⟨rfl, fun hx => (List.mem_cons.mp hx).elim (fun e => ?_) hd⟩
    subst e
    exact performDue_not_due _ k

theorem handleAll_dueBy {s : State} (superframe apart : Bool) (todo done : List Handling) (h : s.dueBy superframe done) :
    (s.handleAll superframe apart done todo).dueBy superframe (todo.reverse ++ done) := by
  induction todo generalizing done s with
  | nil => exact h
  | cons x rest ih =>
    rw [List.reverse_cons, List.append_assoc]
    exact ih (x :: done) (handle_dueBy superframe apart done x h)

/-- A boundary opens with the pending number and the requests due there, if it is one of a superframe (R102, R108). -/
theorem opened_dueBy {s : State} (received : Vector Byte 640) (h : s.dueLaw) :
    (s.opened received).dueBy s.superframeNext [] := by
  obtain ⟨number, ingress, egress⟩ := h
  have opens {entry : Type} {m : ChannelMap entry} (hm : m.request ≠ .pending true)
      (k : (m.openBoundary s.superframeNext).request = .pending true) : s.superframeNext = true := by
    unfold ChannelMap.openBoundary at k
    dsimp only at k
    split at k
    next due e =>
      cases due with
      | true => exact absurd e hm
      | false => simpa using k
    · cases k
  have pending {p : PendingNumber} (k : (s.opened received).pendingNumber = some p) :
      ∃ q, s.pendingNumber = some q ∧ p = { q with due := q.due || s.superframeNext } := by
    rw [opened_pendingNumber] at k
    cases hq : s.pendingNumber with
    | none => rw [hq] at k; cases k
    | some q => rw [hq] at k; cases k; exact ⟨q, rfl, rfl⟩
  refine ⟨fun p k => ?_, fun p k due => ⟨?_, nofun⟩, fun k => ⟨opens ingress (opened_ingress s received ▸ k), nofun⟩,
    fun k => ⟨opens egress (opened_egress s received ▸ k), nofun⟩⟩
  · obtain ⟨q, hq, rfl⟩ := pending k
    exact (number q hq).1
  · obtain ⟨q, hq, rfl⟩ := pending k
    simpa [(number q hq).2] using due

/-- Every boundary forms its number and makes its swaps, so that nothing is overdue after it. -/
theorem boundary_dueLaw {s : State} (received : Vector Byte 640) (order : List Handling) (apart : Bool) (h : s.dueLaw) :
    (s.boundary received order apart).dueLaw := by
  obtain ⟨multiple, number, ingress, egress⟩ :=
    handleAll_dueBy s.superframeNext apart (schedule order) [] (opened_dueBy received h)
  have taken (x : Handling) : x ∈ (schedule order).reverse ++ [] := by simpa using mem_schedule order x
  rw [dueLaw_iff]
  exact ⟨multiple, fun p hp due => absurd (taken _) (number p hp due).2, fun k => absurd (taken _) (ingress k).2,
    fun k => absurd (taken _) (egress k).2⟩

/-! ### One command -/

/-- A law of the records that every move keeps, every command keeps, if a restart keeps it and a boundary finds it. -/
theorem exec_keeps {P : State → Prop} {c : Instr} {s t : State} (move : ∀ a b, RecordMove a b → P a → P b)
    (hold : ∀ k low up, P s → P (s.hold k low up)) (restarted : ∀ k straps, P (s.restarted k straps))
    (boundary : ∀ received order apart, P s → P (s.boundary received order apart)) (hs : P s) (h : exec c s = .next t) :
    P t := by
  obtain m | ⟨k, low, up, rfl⟩ | ⟨k, straps, -, rfl⟩ | ⟨received, order, apart, -, -, rfl⟩ := exec_recordMoves c h
  · exact m.keeps move hs
  · exact hold k low up hs
  · exact restarted k straps
  · exact boundary received order apart hs

/-- A law that does not read the queue and that every command keeps, every step keeps. -/
theorem step_keeps {P : State → Prop} (queue : ∀ (s : State) rest, P s → P { s with pending := rest })
    (exec_keeps : ∀ c s t, P s → exec c s = .next t → P t) {s t : State} (hs : P s) (h : step s = .next t) : P t := by
  obtain rfl | ⟨c, rest, -, he⟩ := step_cases h
  · exact hs
  · exact exec_keeps c _ t (queue s rest hs) he

/-- The map law as the handlings of a boundary find it. -/
theorem opened_highwayLaw {s : State} (received : Vector Byte 640) (law : s.highway.law) :
    (s.opened received).highway.law := by
  refine highwayLaw_of_banks ?_ ?_ law
  · rw [opened_ingress]; rfl
  · rw [opened_egress]; rfl

/-- Settles O10: each law is kept by every move, and by the boundary as its opening leaves it. -/
theorem recordLawsKept : Obligations.RecordLawsKept := by
  obtain ⟨-, -, -, maps, due, timers, units, -⟩ := lawsHoldAtReset
  refine ⟨fun s t hs h => ?_, fun s t hs h => ?_, fun s t hs h => ?_, fun s t hs h => ?_⟩
  · refine step_keeps (P := fun s => s.highway.law) (fun _ _ => id) (fun c s t hs h => ?_) hs h
    exact exec_keeps (P := fun s => s.highway.law) recordMove_highwayLaw (fun _ _ _ => id) (fun _ _ => maps)
      (fun r o a k => (boundary_recordMoves s r o a).keeps recordMove_highwayLaw (opened_highwayLaw r k)) hs h
  · refine step_keeps (P := State.dueLaw) (fun _ _ => id) (fun c s t hs h => ?_) hs h
    have moves (a b : State) (m : RecordMove a b) : a.dueLaw → b.dueLaw := by
      rw [dueLaw_iff, dueLaw_iff]
      exact recordMove_dueBy false [] a b m
    exact exec_keeps moves (fun _ _ _ _ => ⟨nofun, nofun, nofun⟩) (fun _ _ => due) (fun r o a => boundary_dueLaw r o a) hs h
  · refine step_keeps (P := fun s => ∀ n : Fin 4, s.timers[n].law) (fun _ _ => id) (fun c s t hs h => ?_) hs h
    refine exec_keeps (P := fun s => ∀ n : Fin 4, s.timers[n].law) recordMove_timerLaw (fun _ _ _ => id) (fun _ _ => timers)
      (fun r o a k =>
        (boundary_recordMoves s r o a).keeps (P := fun s => ∀ n : Fin 4, s.timers[n].law) recordMove_timerLaw ?_) hs h
    rw [opened_timers]
    exact k
  · refine step_keeps (P := fun s => ∀ u : Fin 4, s.units[u].law) (fun _ _ => id) (fun c s t hs h => ?_) hs h
    exact exec_keeps (P := fun s => ∀ u : Fin 4, s.units[u].law) recordMove_unitLaw (fun _ _ _ => id) (fun _ _ => units)
      (fun r o a k => (boundary_recordMoves s r o a).keeps (P := fun s => ∀ u : Fin 4, s.units[u].law) recordMove_unitLaw
        (opened_unitLaw r k)) hs h

end Sys2Proof.Machine
end

