-- ==== Sys2Proof/Proofs/MapOrders.lean ====
section
/-! WRITE and READ INGRESS and EGRESS ENTRY (O43), SWAP MAPS and COPY MAPS. -/

namespace Sys2Proof.Machine

/-! ### Reading the operands, and the reply of a map order -/

theorem boolOf_sel (b : Bool) : boolOf (if b then 1 else 0) = some b := by cases b <;> rfl

theorem isPending_iff (r : SwapRequest) : r.isPending = true ↔ r ≠ .absent := by cases r <;> simp [SwapRequest.isPending]

/-- The kinds of an ingress entry with the arguments they take (Table 5-1). -/
def writtenIngress (kind a b : Byte) (e : IngressEntry) : Prop :=
  (kind = 0 ∧ e = .unused) ∨ (kind = 1 ∧ e = .fixed a) ∨
    (kind = 2 ∧ ∃ (n : Fin 16) (c : Fin 40), a = BitVec.ofNat 8 n.val ∧ b = BitVec.ofNat 8 c.val ∧ e = .bearer n c)

/-- The kinds of an egress entry with the arguments they take (Table 5-1). -/
def writtenEgress (kind a b : Byte) (e : EgressEntry) : Prop :=
  (kind = 0 ∧ e = .idle) ∨ (kind = 1 ∧ e = .fixed a) ∨
    (kind = 2 ∧ ∃ (l : Fin 4) (t : Fin 160), a = BitVec.ofNat 8 l.val ∧ b = BitVec.ofNat 8 t.val ∧ e = .office l t)

/-- An entry as written is read back, and replied with its unused arguments 00h (R98, 5.5). -/
theorem ingressEntryOf_written {kind a b : Byte} {e : IngressEntry} (h : writtenIngress kind a b e) :
    ingressEntryOf kind a b = some e ∧ e.bytes = [kind, if kind = 0 then 0 else a, if kind = 2 then b else 0] := by
  rcases h with ⟨rfl, rfl⟩ | ⟨rfl, rfl⟩ | ⟨rfl, n, c, rfl, rfl, rfl⟩
  · exact ⟨rfl, rfl⟩
  · exact ⟨rfl, rfl⟩
  · refine ⟨?_, rfl⟩
    unfold ingressEntryOf
    rw [below_ofNat 16 n (by decide), below_ofNat 40 c (by decide)]
    rfl

theorem egressEntryOf_written {kind a b : Byte} {e : EgressEntry} (h : writtenEgress kind a b e) :
    egressEntryOf kind a b = some e ∧ e.bytes = [kind, if kind = 0 then 0 else a, if kind = 2 then b else 0] := by
  rcases h with ⟨rfl, rfl⟩ | ⟨rfl, rfl⟩ | ⟨rfl, l, t, rfl, rfl, rfl⟩
  · exact ⟨rfl, rfl⟩
  · exact ⟨rfl, rfl⟩
  · refine ⟨?_, rfl⟩
    unfold egressEntryOf
    rw [below_ofNat 4 l (by decide), below_ofNat 160 t (by decide)]
    rfl

/-- A kind above 2 is none, and BEARER wants a span and a channel. -/
theorem ingressEntryOf_none {kind a b : Byte} (h : 2 < kind.toNat ∨ (kind = 2 ∧ (15 < a.toNat ∨ 39 < b.toNat))) :
    ingressEntryOf kind a b = none := by
  unfold ingressEntryOf
  rcases h with h | ⟨rfl, h | h⟩
  · have h0 : kind ≠ 0 := byte_ne_of_lt h 0 (by decide)
    have h1 : kind ≠ 1 := byte_ne_of_lt h 1 (by decide)
    have h2 : kind ≠ 2 := byte_ne_of_lt h 2 (by decide)
    rw [if_neg h0, if_neg h1, if_neg h2]
  · rw [below_none 16 a h]
    rfl
  · rw [below_none 40 b h]
    cases below 16 a <;> rfl

/-- A kind above 2 is none, and OFFICE wants a lane and a slot. -/
theorem egressEntryOf_none {kind a b : Byte} (h : 2 < kind.toNat ∨ (kind = 2 ∧ (3 < a.toNat ∨ 159 < b.toNat))) :
    egressEntryOf kind a b = none := by
  unfold egressEntryOf
  rcases h with h | ⟨rfl, h | h⟩
  · have h0 : kind ≠ 0 := byte_ne_of_lt h 0 (by decide)
    have h1 : kind ≠ 1 := byte_ne_of_lt h 1 (by decide)
    have h2 : kind ≠ 2 := byte_ne_of_lt h 2 (by decide)
    rw [if_neg h0, if_neg h1, if_neg h2]
  · rw [below_none 4 a h]
    rfl
  · rw [below_none 160 b h]
    cases below 4 a <;> rfl

/-! ### WRITE INGRESS ENTRY and WRITE EGRESS ENTRY (R98, R99) -/

theorem takeWriteIngressEntry_bad (s : State) (tag lane slot kind a b : Byte)
    (h : 3 < lane.toNat ∨ 159 < slot.toNat ∨ 2 < kind.toNat ∨ (kind = 2 ∧ (15 < a.toNat ∨ 39 < b.toNat))) :
    takeWriteIngressEntry tag lane slot kind a b s = s.refusedMap 0x30 tag .badParameter := by
  unfold takeWriteIngressEntry
  split
  next hl ht he =>
    rcases h with h | h | h
    · cases hl.symm.trans (below_none 4 lane h)
    · cases ht.symm.trans (below_none 160 slot h)
    · cases he.symm.trans (ingressEntryOf_none h)
  · rfl

theorem takeWriteEgressEntry_bad (s : State) (tag span channel kind a b : Byte)
    (h : 15 < span.toNat ∨ 39 < channel.toNat ∨ 2 < kind.toNat ∨ (kind = 2 ∧ (3 < a.toNat ∨ 159 < b.toNat))) :
    takeWriteEgressEntry tag span channel kind a b s = s.refusedMap 0x31 tag .badParameter := by
  unfold takeWriteEgressEntry
  split
  next hn hc he =>
    rcases h with h | h | h
    · cases hn.symm.trans (spanOf_none span h)
    · cases hc.symm.trans (below_none 40 channel h)
    · cases he.symm.trans (egressEntryOf_none h)
  · rfl

/-- The order with its operands read: the management slot, then a pending swap, then the write. -/
theorem takeWriteIngressEntry_read (s : State) (tag kind a b : Byte) (l : Fin 4) (t : Fin 160) (e : IngressEntry)
    (he : ingressEntryOf kind a b = some e) :
    takeWriteIngressEntry tag (BitVec.ofNat 8 l.val) (BitVec.ofNat 8 t.val) kind a b s =
      if l = 0 ∧ t = 0 then s.refusedMap 0x30 tag .badSlot
      else if s.highway.ingress.request.isPending then s.refusedMap 0x30 tag .swapPending
      else
        ({ s with highway := { s.highway with
            ingress := s.highway.ingress.writeStandby (slotIndex l t) e } } : State).answerMap 0x30 tag .done
          ([bankCode s.highway.ingress.standby, BitVec.ofNat 8 l.val, BitVec.ofNat 8 t.val] ++ e.bytes) := by
  unfold takeWriteIngressEntry
  rw [below_ofNat 4 l (by decide), below_ofNat 160 t (by decide), he]
  rfl

theorem takeWriteEgressEntry_read (s : State) (tag kind a b : Byte) (n : Fin 16) (c : Fin 40) (e : EgressEntry)
    (he : egressEntryOf kind a b = some e) :
    takeWriteEgressEntry tag (BitVec.ofNat 8 n.val) (BitVec.ofNat 8 c.val) kind a b s =
      if e = .office 0 0 then s.refusedMap 0x31 tag .badSlot
      else if s.highway.egress.request.isPending then s.refusedMap 0x31 tag .swapPending
      else
        ({ s with highway := { s.highway with
            egress := s.highway.egress.writeStandby (channelIndex n c) e } } : State).answerMap 0x31 tag .done
          ([bankCode s.highway.egress.standby, BitVec.ofNat 8 n.val, BitVec.ofNat 8 c.val] ++ e.bytes) := by
  unfold takeWriteEgressEntry
  rw [spanOf_ofNat, below_ofNat 40 c (by decide), he]
  rfl

/-! ### READ INGRESS ENTRY and READ EGRESS ENTRY (R100) -/

theorem takeReadIngressEntry_bad (s : State) (tag lane slot sel : Byte)
    (h : 3 < lane.toNat ∨ 159 < slot.toNat ∨ 1 < sel.toNat) :
    takeReadIngressEntry tag lane slot sel s = s.refusedMap 0x32 tag .badParameter := by
  unfold takeReadIngressEntry
  split
  next hl ht hs =>
    rcases h with h | h | h
    · cases hl.symm.trans (below_none 4 lane h)
    · cases ht.symm.trans (below_none 160 slot h)
    · cases hs.symm.trans (boolOf_none sel h)
  · rfl

theorem takeReadEgressEntry_bad (s : State) (tag span channel sel : Byte)
    (h : 15 < span.toNat ∨ 39 < channel.toNat ∨ 1 < sel.toNat) :
    takeReadEgressEntry tag span channel sel s = s.refusedMap 0x33 tag .badParameter := by
  unfold takeReadEgressEntry
  split
  next hn hc hs =>
    rcases h with h | h | h
    · cases hn.symm.trans (spanOf_none span h)
    · cases hc.symm.trans (below_none 40 channel h)
    · cases hs.symm.trans (boolOf_none sel h)
  · rfl

theorem takeReadIngressEntry_read (s : State) (tag : Byte) (l : Fin 4) (t : Fin 160) (sel : Bool) :
    takeReadIngressEntry tag (BitVec.ofNat 8 l.val) (BitVec.ofNat 8 t.val) (if sel then 1 else 0) s =
      if l = 0 ∧ t = 0 then s.refusedMap 0x32 tag .badSlot
      else
        s.answerMap 0x32 tag .done
          ([bankCode (s.highway.ingress.bankNamed sel), bankCode s.highway.ingress.active, BitVec.ofNat 8 l.val,
            BitVec.ofNat 8 t.val] ++ (s.highway.ingress.banks[s.highway.ingress.bankNamed sel][slotIndex l t]).bytes) := by
  unfold takeReadIngressEntry
  rw [below_ofNat 4 l (by decide), below_ofNat 160 t (by decide), boolOf_sel]
  rfl

theorem takeReadEgressEntry_read (s : State) (tag : Byte) (n : Fin 16) (c : Fin 40) (sel : Bool) :
    takeReadEgressEntry tag (BitVec.ofNat 8 n.val) (BitVec.ofNat 8 c.val) (if sel then 1 else 0) s =
      s.answerMap 0x33 tag .done
        ([bankCode (s.highway.egress.bankNamed sel), bankCode s.highway.egress.active, BitVec.ofNat 8 n.val,
          BitVec.ofNat 8 c.val] ++ (s.highway.egress.banks[s.highway.egress.bankNamed sel][channelIndex n c]).bytes) := by
  unfold takeReadEgressEntry
  rw [spanOf_ofNat, below_ofNat 40 c (by decide), boolOf_sel]

/-- An ingress entry has three bytes, its kind and its two arguments (Table 5-1). -/
theorem ingressEntry_bytes (e : IngressEntry) :
    ∃ kind a b : Byte, e.bytes = [kind, a, b] ∧ (e = .unused → kind = 0 ∧ a = 0 ∧ b = 0) ∧
      (∀ v, e = .fixed v → kind = 1 ∧ a = v ∧ b = 0) ∧
      (∀ n c, e = .bearer n c → kind = 2 ∧ a = BitVec.ofNat 8 n.val ∧ b = BitVec.ofNat 8 c.val) := by
  cases e with
  | unused => exact ⟨_, _, _, rfl, fun _ => ⟨rfl, rfl, rfl⟩, nofun, nofun⟩
  | fixed v => exact ⟨_, _, _, rfl, nofun, fun _ h => by cases h; exact ⟨rfl, rfl, rfl⟩, nofun⟩
  | bearer n c => exact ⟨_, _, _, rfl, nofun, nofun, fun _ _ h => by cases h; exact ⟨rfl, rfl, rfl⟩⟩

theorem egressEntry_bytes (e : EgressEntry) :
    ∃ kind a b : Byte, e.bytes = [kind, a, b] ∧ (e = .idle → kind = 0 ∧ a = 0 ∧ b = 0) ∧
      (∀ v, e = .fixed v → kind = 1 ∧ a = v ∧ b = 0) ∧
      (∀ l t, e = .office l t → kind = 2 ∧ a = BitVec.ofNat 8 l.val ∧ b = BitVec.ofNat 8 t.val) := by
  cases e with
  | idle => exact ⟨_, _, _, rfl, fun _ => ⟨rfl, rfl, rfl⟩, nofun, nofun⟩
  | fixed v => exact ⟨_, _, _, rfl, nofun, fun _ h => by cases h; exact ⟨rfl, rfl, rfl⟩, nofun⟩
  | office l t => exact ⟨_, _, _, rfl, nofun, nofun, fun _ _ h => by cases h; exact ⟨rfl, rfl, rfl⟩⟩

/-- Settles O43: each order with its operands read, refusal by refusal, and its reply entry by entry. -/
theorem mapEntries : Obligations.MapEntries := by
  refine ⟨fun s tag hr => ⟨fun lane slot kind a b h => ?_, fun l t e kind a b h => ⟨fun hl ht => ?_, fun hs hp => ?_,
      fun hs hp => ?_⟩, fun span channel kind a b h => ?_, fun n c e kind a b h => ⟨fun hs => ?_, fun hs hp => ?_,
      fun hs hp => ?_⟩⟩,
    fun s tag hr => ⟨fun lane slot sel h => ?_, fun sel => ?_, fun l t sel hs => ?_, fun span channel sel h => ?_,
      fun n c sel => ?_⟩⟩
  all_goals have run (t : State) : whenRunning s t = .next t := whenRunning_of_runs s t hr
  · exact (run _).trans (congrArg _ (takeWriteIngressEntry_bad s tag lane slot kind a b h))
  · obtain ⟨he, -⟩ := ingressEntryOf_written h
    refine (run _).trans (congrArg _ ((takeWriteIngressEntry_read s tag kind a b l t e he).trans ?_))
    rw [if_pos ⟨hl, ht⟩]
  · obtain ⟨he, -⟩ := ingressEntryOf_written h
    refine (run _).trans (congrArg _ ((takeWriteIngressEntry_read s tag kind a b l t e he).trans ?_))
    rw [if_neg hs, if_pos ((isPending_iff _).mpr hp)]
  · obtain ⟨he, hb⟩ := ingressEntryOf_written h
    refine (run _).trans (congrArg _ ((takeWriteIngressEntry_read s tag kind a b l t e he).trans ?_))
    rw [if_neg hs, if_neg fun k => (isPending_iff _).mp k hp, hb]
    rfl
  · exact (run _).trans (congrArg _ (takeWriteEgressEntry_bad s tag span channel kind a b h))
  · obtain ⟨he, -⟩ := egressEntryOf_written h
    refine (run _).trans (congrArg _ ((takeWriteEgressEntry_read s tag kind a b n c e he).trans ?_))
    rw [if_pos hs]
  · obtain ⟨he, -⟩ := egressEntryOf_written h
    refine (run _).trans (congrArg _ ((takeWriteEgressEntry_read s tag kind a b n c e he).trans ?_))
    rw [if_neg hs, if_pos ((isPending_iff _).mpr hp)]
  · obtain ⟨he, hb⟩ := egressEntryOf_written h
    refine (run _).trans (congrArg _ ((takeWriteEgressEntry_read s tag kind a b n c e he).trans ?_))
    rw [if_neg hs, if_neg fun k => (isPending_iff _).mp k hp, hb]
    rfl
  · exact (run _).trans (congrArg _ (takeReadIngressEntry_bad s tag lane slot sel h))
  · exact (run _).trans (congrArg _ (takeReadIngressEntry_read s tag 0 0 sel))
  · obtain ⟨kind, a, b, hb, hentry⟩ := ingressEntry_bytes
      (s.highway.ingress.banks[s.highway.ingress.bankNamed sel][slotIndex l t])
    refine ⟨kind, a, b, (run _).trans (congrArg _ ((takeReadIngressEntry_read s tag l t sel).trans ?_)), hentry⟩
    rw [if_neg hs, hb]
    rfl
  · exact (run _).trans (congrArg _ (takeReadEgressEntry_bad s tag span channel sel h))
  · obtain ⟨kind, a, b, hb, hentry⟩ := egressEntry_bytes
      (s.highway.egress.banks[s.highway.egress.bankNamed sel][channelIndex n c])
    refine ⟨kind, a, b, (run _).trans (congrArg _ ((takeReadEgressEntry_read s tag n c sel).trans ?_)), hentry⟩
    rw [hb]
    rfl

/-! ### SWAP MAPS and COPY MAPS (R101, R102) -/

theorem directionOf_none {d : Byte} (h : 2 < d.toNat) : directionOf d = none := by
  have h0 : d ≠ 0 := byte_ne_of_lt h 0 (by decide)
  have h1 : d ≠ 1 := byte_ne_of_lt h 1 (by decide)
  have h2 : d ≠ 2 := byte_ne_of_lt h 2 (by decide)
  rw [directionOf, if_neg h0, if_neg h1, if_neg h2]

/-- A direction names the ingress map but for 1, and the egress map but for 0 (Table 5-2). -/
theorem directionOf_some {d : Byte} (h : d.toNat ≤ 2) : directionOf d = some (decide (d ≠ 1), decide (d ≠ 0)) := by
  have cases : d = 0 ∨ d = 1 ∨ d = 2 := by
    have h012 : d.toNat = 0 ∨ d.toNat = 1 ∨ d.toNat = 2 := by omega
    rcases h012 with k | k | k
    · exact .inl (BitVec.eq_of_toNat_eq k)
    · exact .inr (.inl (BitVec.eq_of_toNat_eq k))
    · exact .inr (.inr (BitVec.eq_of_toNat_eq k))
  rcases cases with rfl | rfl | rfl <;> rfl

section

variable {entry : Type} (m : ChannelMap entry) (named : Prop) [Decidable named]

/-- A request is set where none is pending, or joined (R102). -/
theorem ask_if_named :
    (if decide named = true then m.ask else m) =
      { m with request := if named ∧ m.request = .absent then .pending false else m.request } := by
  by_cases hn : named
  · rw [if_pos (decide_eq_true hn)]
    unfold ChannelMap.ask
    split
    next h => rw [if_pos ⟨hn, h⟩]
    next d h =>
      have hne : m.request ≠ .absent := by rw [h]; nofun
      rw [if_neg fun k => hne k.2]
  · rw [if_neg fun k => hn (of_decide_eq_true k), if_neg fun k => hn k.1]

/-- A swap is pending in a map after the order exactly where it was named or had one. -/
theorem ask_if_named_pending :
    (if decide named = true then m.ask else m).request.isPending = true ↔ named ∨ m.request ≠ .absent := by
  rw [ask_if_named, isPending_iff]
  by_cases hn : named <;> by_cases hr : m.request = .absent <;> simp [hn, hr]

theorem copy_if_named :
    (if decide named = true then m.copy else m) =
      if named then { m with banks := m.banks.set (m.active + 1 : Fin 2) m.banks[m.active] } else m := by
  by_cases hn : named <;> simp only [hn] <;> rfl

end

/-- The pending-swap flags of a reply (Table 5-2). -/
theorem swapFlags_eq (h : Highway) (e i : Prop) [Decidable e] [Decidable i] (he : h.egress.request.isPending = true ↔ e)
    (hi : h.ingress.request.isPending = true ↔ i) : h.swapFlags = (if e then 2 else 0) ||| (if i then 1 else 0) := by
  unfold Highway.swapFlags flag
  simp only [he, hi]
  rfl

/-- SWAP MAPS with a direction: the requests of the maps named, and the flags replied (R102). -/
theorem takeSwapMaps_named (s : State) (tag : Byte) {d : Byte} (h : d.toNat ≤ 2) :
    let im := s.highway.ingress
    let em := s.highway.egress
    let t := takeSwapMaps tag d s
    t = { s with highway := t.highway, channel := t.channel } ∧
      t.highway = { s.highway with
        ingress := { im with request := if d ≠ 1 ∧ im.request = .absent then .pending false else im.request }
        egress := { em with request := if d ≠ 0 ∧ em.request = .absent then .pending false else em.request } } ∧
      t.channel = { s.channel with reply := some ⟨0x34, tag, .accepted,
        #v[(if d ≠ 0 ∨ em.request ≠ .absent then 2 else 0) ||| (if d ≠ 1 ∨ im.request ≠ .absent then 1 else 0),
           0, 0, 0, 0, 0, 0, BitVec.ofNat 8 im.active.val, BitVec.ofNat 8 em.active.val]⟩ } := by
  have asked : s.highway.ask (decide (d ≠ 1)) (decide (d ≠ 0)) = { s.highway with
      ingress := { s.highway.ingress with
        request := if d ≠ 1 ∧ s.highway.ingress.request = .absent then .pending false else s.highway.ingress.request }
      egress := { s.highway.egress with
        request := if d ≠ 0 ∧ s.highway.egress.request = .absent then .pending false else s.highway.egress.request } } := by
    unfold Highway.ask
    rw [ask_if_named, ask_if_named]
  have flags : (s.highway.ask (decide (d ≠ 1)) (decide (d ≠ 0))).swapFlags = _ :=
    swapFlags_eq _ (d ≠ 0 ∨ s.highway.egress.request ≠ .absent) (d ≠ 1 ∨ s.highway.ingress.request ≠ .absent)
      (ask_if_named_pending _ _) (ask_if_named_pending _ _)
  have taken : takeSwapMaps tag d s =
      ({ s with highway := s.highway.ask (decide (d ≠ 1)) (decide (d ≠ 0)) } : State).answerMap 0x34 tag .accepted
        [(s.highway.ask (decide (d ≠ 1)) (decide (d ≠ 0))).swapFlags] := by
    unfold takeSwapMaps
    rw [directionOf_some h]
  rw [flags, asked] at taken
  dsimp only
  rw [taken]
  exact ⟨rfl, rfl, rfl⟩

/-- COPY MAPS where a map named has a swap pending (R101). -/
theorem takeCopyMaps_pending (s : State) (tag : Byte) {d : Byte} (h : d.toNat ≤ 2)
    (hp : (d ≠ 1 ∧ s.highway.ingress.request ≠ .absent) ∨ (d ≠ 0 ∧ s.highway.egress.request ≠ .absent)) :
    takeCopyMaps tag d s = s.refusedMap 0x35 tag .swapPending := by
  unfold takeCopyMaps
  rw [directionOf_some h]
  refine if_pos ?_
  simpa only [Bool.or_eq_true, Bool.and_eq_true, decide_eq_true_eq, isPending_iff] using hp

/-- COPY MAPS where no map named has (R101). -/
theorem takeCopyMaps_copies (s : State) (tag : Byte) {d : Byte} (h : d.toNat ≤ 2)
    (hi : d ≠ 1 → s.highway.ingress.request = .absent) (he : d ≠ 0 → s.highway.egress.request = .absent) :
    takeCopyMaps tag d s =
      ({ s with highway := s.highway.copy (decide (d ≠ 1)) (decide (d ≠ 0)) } : State).answerMap 0x35 tag .done [] := by
  unfold takeCopyMaps
  rw [directionOf_some h]
  refine if_neg ?_
  simp only [Bool.or_eq_true, Bool.and_eq_true, decide_eq_true_eq, isPending_iff]
  rintro (⟨hd, hr⟩ | ⟨hd, hr⟩)
  · exact hr (hi hd)
  · exact hr (he hd)

theorem takeSwapMaps_bad (s : State) (tag : Byte) {d : Byte} (h : 2 < d.toNat) :
    takeSwapMaps tag d s = s.refusedMap 0x34 tag .badParameter := by
  unfold takeSwapMaps
  rw [directionOf_none h]
  rfl

theorem takeCopyMaps_bad (s : State) (tag : Byte) {d : Byte} (h : 2 < d.toNat) :
    takeCopyMaps tag d s = s.refusedMap 0x35 tag .badParameter := by
  unfold takeCopyMaps
  rw [directionOf_none h]
  rfl

end Sys2Proof.Machine
end

