-- ==== Sys2Proof/Proofs/MapsAtBoundary.lean ====
section
/-! The maps across a boundary that takes no order: a timer that matches swaps, what is due is swapped, each map once; and with
them O44 (R101 to R104). -/

namespace Sys2Proof.Machine

/-! ### What one handling does to a map -/

/-- The actions that swap the ingress map (R116). -/
def TimerAction.swapsIngress : TimerAction → Bool
  | .swapIngress => true
  | .swapBoth => true
  | _ => false

/-- The actions that swap the egress map (R116). -/
def TimerAction.swapsEgress : TimerAction → Bool
  | .swapEgress => true
  | .swapBoth => true
  | _ => false

/-- An armed timer with such an action that matches the number `n` (R115). -/
def Timer.swapsAt (t : Timer) (swaps : TimerAction → Bool) (n : FrameNumber) : Prop :=
  t.armed = true ∧ t.matchAt = n ∧ swaps t.action = true

/-- A map after one handling, where `swaps` says which actions of a timer swap it. -/
def State.mapAfter {entry : Type} (s : State) (swaps : TimerAction → Bool) (superframe : Bool) (m : ChannelMap entry) :
    Handling → ChannelMap entry
  | .timer n =>
    if s.timers[n].armed = true ∧ s.timers[n].matchAt = s.frameNumber ∧ swaps s.timers[n].action = true then m.timerSwap
    else m
  | .swaps => if superframe then m.performDue else m
  | _ => m

theorem performAction_highway (s : State) (t : Timer) :
    (s.performAction t).1.highway = (s.timerSwap t.action.swapsIngress t.action.swapsEgress).highway := by
  unfold State.performAction
  cases t.action with
  | selectReference => exact (keepsRecords_of_timingActs (selectionRequest_acts s t.param)).highway
  | _ => rfl

theorem matchTimer_highway (s : State) (n : Fin 4) :
    (s.matchTimer n).highway =
      if s.timers[n].armed = true ∧ s.timers[n].matchAt = s.frameNumber then
        (s.timerSwap s.timers[n].action.swapsIngress s.timers[n].action.swapsEgress).highway
      else s.highway := by
  unfold State.matchTimer
  dsimp only
  split
  · rw [offerUnitTrigger_highway, setTimer_highway, performAction_highway]
  · rfl

theorem matchTimer_maps (s : State) (superframe : Bool) (n : Fin 4) :
    (s.matchTimer n).highway.ingress = s.mapAfter TimerAction.swapsIngress superframe s.highway.ingress (.timer n) ∧
      (s.matchTimer n).highway.egress = s.mapAfter TimerAction.swapsEgress superframe s.highway.egress (.timer n) := by
  rw [matchTimer_highway]
  dsimp only [State.mapAfter]
  by_cases h : s.timers[n].armed = true ∧ s.timers[n].matchAt = s.frameNumber
  · obtain ⟨armed, matched⟩ := h
    simp only [armed, matched, and_self, if_true, true_and]
    exact ⟨rfl, rfl⟩
  · rw [if_neg h, if_neg fun k => h ⟨k.1, k.2.1⟩, if_neg fun k => h ⟨k.1, k.2.1⟩]
    exact ⟨rfl, rfl⟩

/-- Where no order is taken, the timers and the swaps alone change the maps (R103, R104). -/
theorem handle_maps (s : State) (superframe apart : Bool) (done : List Handling) (h : Handling)
    (ho : s.examinesNothing superframe) :
    (s.handle superframe apart done h).highway.ingress =
        s.mapAfter TimerAction.swapsIngress superframe s.highway.ingress h ∧
      (s.handle superframe apart done h).highway.egress =
        s.mapAfter TimerAction.swapsEgress superframe s.highway.egress h := by
  have same {t : State} {x : Handling} (e : t.highway = s.highway)
      (hi : s.mapAfter TimerAction.swapsIngress superframe s.highway.ingress x = s.highway.ingress)
      (he : s.mapAfter TimerAction.swapsEgress superframe s.highway.egress x = s.highway.egress) :
      t.highway.ingress = s.mapAfter TimerAction.swapsIngress superframe s.highway.ingress x ∧
        t.highway.egress = s.mapAfter TimerAction.swapsEgress superframe s.highway.egress x := by
    rw [e, hi, he]
    exact ⟨rfl, rfl⟩
  cases h with
  | number => exact same (formNumber_highway s) rfl rfl
  | timer n => exact matchTimer_maps s superframe n
  | swaps => cases superframe <;> exact ⟨rfl, rfl⟩
  | orderChannel =>
    cases superframe with
    | false => exact same rfl rfl rfl
    | true =>
      obtain ⟨channel, e⟩ := orderBoundary_beside s (fun n => decide (.store n ∈ done)) (ho.resolve_left nofun)
      exact same ((congrArg State.highway e).trans rfl) rfl rfl
  | store n => exact same (handle_records s superframe apart done (.store n) nofun nofun nofun nofun).highway rfl rfl
  | otu => exact same (handle_records s superframe apart done .otu nofun nofun nofun nofun).highway rfl rfl
  | outputs => exact same (handle_records s superframe apart done .outputs nofun nofun nofun nofun).highway rfl rfl
  | units => exact same (handle_records s superframe apart done .units nofun nofun nofun nofun).highway rfl rfl

/-- A match changes its own timer alone. -/
theorem matchTimer_timer (s : State) {n k : Fin 4} (hne : n ≠ k) : (s.matchTimer n).timers[k] = s.timers[k] := by
  unfold State.matchTimer
  dsimp only
  split
  · calc (State.offerUnitTrigger _ 5 n).timers[k]
      _ = (State.setTimer _ n _).timers[k] := congrArg (·[k]) (offerUnitTrigger_records _ 5 n).timers
      _ = (s.performAction s.timers[n]).1.timers[k] := Vector.getElem_set_ne n.isLt k.isLt fun e => hne (Fin.ext e)
      _ = s.timers[k] := congrArg (·[k]) (performAction_timers s _)
  · rfl

/-- Where no order is taken, a timer is changed by its own match alone. -/
theorem handle_timer (s : State) (superframe apart : Bool) (done : List Handling) (h : Handling) (k : Fin 4)
    (ho : s.examinesNothing superframe) (hk : h ≠ .timer k) :
    (s.handle superframe apart done h).timers[k] = s.timers[k] := by
  have same {t : State} (e : t.timers = s.timers) : t.timers[k] = s.timers[k] := congrArg (·[k]) e
  cases h with
  | number => exact same (formNumber_timers s)
  | timer n => exact matchTimer_timer s fun e => hk (congrArg Handling.timer e)
  | swaps => cases superframe <;> rfl
  | orderChannel =>
    cases superframe with
    | false => rfl
    | true =>
      obtain ⟨channel, e⟩ := orderBoundary_beside s (fun n => decide (.store n ∈ done)) (ho.resolve_left nofun)
      exact (congrArg (fun t : State => t.timers[k]) e).trans rfl
  | store n => exact same (handle_records s superframe apart done (.store n) nofun nofun nofun nofun).timers
  | otu => exact same (handle_records s superframe apart done .otu nofun nofun nofun nofun).timers
  | outputs => exact same (handle_records s superframe apart done .outputs nofun nofun nofun nofun).timers
  | units => exact same (handle_records s superframe apart done .units nofun nofun nofun nofun).timers

/-! ### Timers compare once the number has been formed (R115) -/

/-- In `todo`, taken after `done`, every timer follows the number. -/
def numberFirst : List Handling → List Handling → Prop
  | _, [] => True
  | done, h :: rest => (∀ n, h = .timer n → .number ∈ done) ∧ numberFirst (h :: done) rest

theorem numberFirst_of_mem (done todo : List Handling) (h : .number ∈ done) : numberFirst done todo := by
  induction todo generalizing done with
  | nil => trivial
  | cons x rest ih => exact ⟨fun _ _ => h, ih (x :: done) (List.mem_cons_of_mem x h)⟩

theorem numberFirst_of_no_timer (done todo : List Handling) (h : ∀ n, .timer n ∉ todo) : numberFirst done todo := by
  induction todo generalizing done with
  | nil => trivial
  | cons x rest ih =>
    exact ⟨fun n e => absurd (e ▸ List.mem_cons_self) (h n), ih (x :: done) fun n k => h n (List.mem_cons_of_mem x k)⟩

theorem numberFirst_append (done a b : List Handling) (ha : numberFirst done a) (hb : numberFirst (a.reverse ++ done) b) :
    numberFirst done (a ++ b) := by
  induction a generalizing done with
  | nil => exact hb
  | cons x a ih =>
    obtain ⟨first, rest⟩ := ha
    rw [List.reverse_cons, List.append_assoc] at hb
    exact ⟨first, ih (x :: done) rest hb⟩

/-- A handling added brings the number before a timer. -/
theorem numberFirst_expand (before done : List Handling) (h : Handling) (hb : ∀ x, x ∈ before ↔ x ∈ done) :
    numberFirst before ((expand done h).filter fun x => !done.contains x) := by
  by_cases formed : .number ∈ done
  · exact numberFirst_of_mem _ _ ((hb _).mpr formed)
  · cases h with
    | timer n =>
      have e : (expand done (.timer n)).filter (fun x => !done.contains x) =
          .number :: ([.timer n].filter fun x => !done.contains x) := by simp [expand, formed]
      rw [e]
      exact ⟨nofun, numberFirst_of_mem _ _ List.mem_cons_self⟩
    | orderChannel => exact numberFirst_of_no_timer _ _ fun n k => by simp [expand, formed] at k
    | _ => exact numberFirst_of_no_timer _ _ fun n k => by simp [expand] at k

theorem foldl_addHandling_numberFirst (l done : List Handling) (h : numberFirst [] done) :
    numberFirst [] (l.foldl addHandling done) := by
  induction l generalizing done with
  | nil => exact h
  | cons x l ih =>
    refine ih _ (numberFirst_append [] done _ h (numberFirst_expand _ done x fun y => ?_))
    simp

theorem schedule_numberFirst (order : List Handling) : numberFirst [] (schedule order) :=
  foldl_addHandling_numberFirst _ [] trivial

/-! ### A map across the handlings -/

/-- A map of the state, with the timer actions that swap it. -/
structure MapOf (entry : Type) where
  get : State → ChannelMap entry
  swaps : TimerAction → Bool
  handled : ∀ (s : State) (superframe apart : Bool) (done : List Handling) (h : Handling), s.examinesNothing superframe →
    get (s.handle superframe apart done h) = s.mapAfter swaps superframe (get s) h

/-- The ingress map (R94). -/
def MapOf.ingress : MapOf IngressEntry :=
  ⟨fun s => s.highway.ingress, TimerAction.swapsIngress, fun s sf a d h ho => (handle_maps s sf a d h ho).1⟩

/-- The egress map (R94). -/
def MapOf.egress : MapOf EgressEntry :=
  ⟨fun s => s.highway.egress, TimerAction.swapsEgress, fun s sf a d h ho => (handle_maps s sf a d h ho).2⟩

section

variable {entry : Type}

/-- No handling moves an entry (R103). -/
theorem mapAfter_banks (s : State) (swaps : TimerAction → Bool) (superframe : Bool) (m : ChannelMap entry) (h : Handling) :
    (s.mapAfter swaps superframe m h).banks = m.banks := by
  unfold State.mapAfter
  split
  · split
    · exact timerSwap_banks m
    · rfl
  · split
    · exact performDue_banks m
    · rfl
  · rfl

theorem handleAll_banks (f : MapOf entry) (superframe apart : Bool) (todo done : List Handling) (s : State)
    (ho : s.examinesNothing superframe) :
    (f.get (s.handleAll superframe apart done todo)).banks = (f.get s).banks :=
  (handleAll_induct (P := fun _ t => (f.get t).banks = (f.get s).banks) superframe apart todo done s
    (fun t done h _ ht k => by rw [f.handled t _ _ _ _ ht, mapAfter_banks, k]) ho rfl).2

/-- A map whose due swap has been made: the other bank active, noted as swapped, no request left (R103, R104). -/
def ChannelMap.swappedFrom (m : ChannelMap entry) (active : Fin 2) : Prop :=
  m.active = active + 1 ∧ m.swapped = true ∧ m.request = .absent

/-- A map whose due swap is still to be made. -/
def ChannelMap.awaitsSwap (m : ChannelMap entry) (active : Fin 2) : Prop :=
  m.active = active ∧ m.swapped = false ∧ m.request = .pending true

/-- A timer's swap stands for the due one, and is none after it (R104). -/
theorem timerSwap_swappedFrom {m : ChannelMap entry} {active : Fin 2} (h : m.awaitsSwap active ∨ m.swappedFrom active) :
    m.timerSwap.swappedFrom active := by
  unfold ChannelMap.timerSwap
  rcases h with ⟨rfl, hs, -⟩ | ⟨ha, hs, -⟩
  · rw [hs]
    exact ⟨rfl, rfl, rfl⟩
  · rw [hs]
    exact ⟨ha, hs, rfl⟩

/-- The due swap is made once (R103, R104). -/
theorem performDue_swappedFrom {m : ChannelMap entry} {active : Fin 2} (h : m.awaitsSwap active ∨ m.swappedFrom active) :
    m.performDue.swappedFrom active := by
  unfold ChannelMap.performDue
  rcases h with ⟨rfl, hs, hr⟩ | ⟨ha, hs, hr⟩
  · rw [hr, hs]
    exact ⟨rfl, rfl, rfl⟩
  · rw [hr]
    exact ⟨ha, hs, hr⟩

/-- Whatever timers do at an office superframe boundary, a due swap is made exactly once there (R103, R104). -/
theorem handleAll_swaps_due (f : MapOf entry) (apart : Bool) (todo done : List Handling) (s : State) (active : Fin 2)
    (ho : s.examinesNothing true) (hm : (f.get s).awaitsSwap active ∧ .swaps ∈ todo ∨ (f.get s).swappedFrom active) :
    (f.get (s.handleAll true apart done todo)).swappedFrom active := by
  induction todo generalizing done s with
  | nil => exact hm.resolve_left fun k => nomatch k.2
  | cons h rest ih =>
    refine ih (h :: done) _ ((handle_keeps s true apart done h ho).orders ho) ?_
    have either : (f.get s).awaitsSwap active ∨ (f.get s).swappedFrom active := hm.imp_left And.left
    have unchanged (hs : h ≠ .swaps) : (f.get s).awaitsSwap active ∧ .swaps ∈ rest ∨ (f.get s).swappedFrom active :=
      hm.imp_left fun k => ⟨k.1, (List.mem_cons.mp k.2).resolve_left hs.symm⟩
    rw [f.handled s true apart done h ho]
    cases h with
    | timer n =>
      dsimp only [State.mapAfter]
      split
      · exact .inr (timerSwap_swappedFrom either)
      · exact unchanged nofun
    | swaps => exact .inr (performDue_swappedFrom either)
    | _ => exact unchanged nofun

/-- With nothing due and no timer that swaps it, a map stands as it did. -/
theorem handleAll_leaves_map (f : MapOf entry) (superframe apart : Bool) (todo done : List Handling) (s : State)
    (hn : todo.Nodup) (hd : ∀ h ∈ todo, h ∉ done) (hf : numberFirst done todo) (ho : s.examinesNothing superframe)
    (hm : superframe = false ∨ (f.get s).request = .absent)
    (ht : ∀ k, .timer k ∈ todo → ¬s.timers[k].swapsAt f.swaps (s.numberAt done)) :
    f.get (s.handleAll superframe apart done todo) = f.get s := by
  induction todo generalizing done s with
  | nil => rfl
  | cons h rest ih =>
    obtain ⟨hnot, hrest⟩ := List.nodup_cons.mp hn
    obtain ⟨hnumber, hfirst⟩ := hf
    have orders := (handle_keeps s superframe apart done h ho).orders ho
    have hfresh : h ∉ done := hd h List.mem_cons_self
    have left : f.get (s.handle superframe apart done h) = f.get s := by
      rw [f.handled s superframe apart done h ho]
      cases h with
      | timer n =>
        refine if_neg fun k => ht n List.mem_cons_self ?_
        rw [State.numberAt, if_pos (hnumber n rfl)]
        exact k
      | swaps =>
        dsimp only [State.mapAfter]
        rcases hm with rfl | hm
        · rfl
        · unfold ChannelMap.performDue
          rw [hm]
          exact ite_self _
      | _ => rfl
    have number := handle_numberAt s superframe apart done h ho hfresh
    refine (ih (h :: done) _ hrest (fun x hx k => ?_) hfirst orders (by rwa [left]) fun k hk => ?_).trans left
    · rcases List.mem_cons.mp k with rfl | k
      · exact hnot hx
      · exact hd x (List.mem_cons_of_mem h hx) k
    · rw [number, handle_timer s superframe apart done h k ho fun e => hnot (e ▸ hk)]
      exact ht k (List.mem_cons_of_mem h hk)

/-- A map as a boundary opens: what is requested is due at one of a superframe alone (R102, R103). -/
theorem openBoundary_map (m : ChannelMap entry) (superframe : Bool) :
    (m.openBoundary superframe).banks = m.banks ∧ (m.openBoundary superframe).active = m.active ∧
      (m.request = .absent ∨ superframe = false → (m.openBoundary superframe).request = m.request) ∧
      (m.request ≠ .absent → (m.openBoundary true).awaitsSwap m.active) := by
  refine ⟨rfl, rfl, fun h => ?_, fun h => ⟨rfl, rfl, ?_⟩⟩
  · unfold ChannelMap.openBoundary
    cases hr : m.request with
    | absent => rfl
    | pending due =>
      rcases h with h | rfl
      · exact absurd (hr.symm.trans h) nofun
      · simp
  · unfold ChannelMap.openBoundary
    cases hr : m.request with
    | absent => exact absurd hr h
    | pending due => simp

/-! ### The whole boundary -/

/-- The number a boundary that takes no order forms (R107). -/
theorem boundary_frameNumber (s : State) (egress : Vector Byte 640) (order : List Handling) (apart : Bool)
    (h : s.takesNoOrder) : (s.boundary egress order apart).frameNumber = (s.opened egress).numberAt [] := by
  have formed := handleAll_numberAt s.superframeNext apart (schedule order) [] (s.opened egress) (schedule_nodup order)
    (fun _ _ => nofun) (endFrame_examinesNothing s egress h)
  rw [State.numberAt, if_pos (by simpa using mem_schedule order .number)] at formed
  exact formed

/-- A map, as the boundary opens it and as the handlings leave it. -/
theorem boundary_map (f : MapOf entry) (s : State) (egress : Vector Byte 640) (order : List Handling) (apart : Bool)
    (h : s.takesNoOrder) (m m' : ChannelMap entry) (hopen : f.get (s.opened egress) = m.openBoundary s.superframeNext)
    (hclose : m' = f.get ((s.opened egress).handleAll s.superframeNext apart [] (schedule order))) :
    m'.banks = m.banks ∧
      (m.request ≠ .absent → (s.frameNumber.toNat + 1) % 16 = 0 → m'.active = m.active + 1 ∧ m'.request = .absent) ∧
      (m.request = .absent ∨ ¬(s.frameNumber.toNat + 1) % 16 = 0 →
        (∀ k : Fin 4, ¬s.timers[k].swapsAt f.swaps (s.boundary egress order apart).frameNumber) →
        m'.active = m.active ∧ m'.request = m.request) := by
  have orders : (s.opened egress).examinesNothing s.superframeNext := endFrame_examinesNothing s egress h
  obtain ⟨hbanks, hactive, hrequest, hawaits⟩ := openBoundary_map m s.superframeNext
  subst hclose
  refine ⟨?_, fun hr due => ?_, fun hr untimed => ?_⟩
  · rw [handleAll_banks f _ apart _ _ _ orders, hopen, hbanks]
  · rw [← superframeNext_iff] at due
    rw [due] at orders hopen ⊢
    obtain ⟨ha, -, hq⟩ := handleAll_swaps_due f apart (schedule order) [] (s.opened egress) m.active orders
      (.inl ⟨hopen ▸ hawaits hr, mem_schedule order .swaps⟩)
    exact ⟨ha, hq⟩
  · have within : m.request = .absent ∨ s.superframeNext = false :=
      hr.imp_right fun k => Bool.eq_false_iff.mpr fun e => k ((superframeNext_iff s).mp e)
    have still := handleAll_leaves_map f s.superframeNext apart (schedule order) [] (s.opened egress) (schedule_nodup order)
      (fun _ _ => nofun) (schedule_numberFirst order) orders
      (within.symm.imp_right fun k => by rw [hopen, hrequest within, k])
      (fun k _ => by rw [opened_timers, ← boundary_frameNumber s egress order apart h]; exact untimed k)
    rw [still, hopen]
    exact ⟨hactive, hrequest within⟩

end

/-- The actions that swap the ingress map, by name. -/
theorem swapsIngress_iff (a : TimerAction) : a.swapsIngress = true ↔ a = .swapIngress ∨ a = .swapBoth := by
  cases a <;> simp [TimerAction.swapsIngress]

theorem swapsEgress_iff (a : TimerAction) : a.swapsEgress = true ↔ a = .swapEgress ∨ a = .swapBoth := by
  cases a <;> simp [TimerAction.swapsEgress]

/-- Settles O44: the orders with their direction read, and each map across the boundary. -/
theorem swapAndCopy : Obligations.SwapAndCopy := by
  refine ⟨fun s tag hr => ⟨fun d hd => ?_, fun d hd => ⟨?_, fun hp => ?_, fun hi he => ?_⟩⟩,
    fun s egress order apart hr ho => ?_⟩
  · exact ⟨(whenRunning_of_runs s _ hr).trans (congrArg _ (takeSwapMaps_bad s tag hd)),
      (whenRunning_of_runs s _ hr).trans (congrArg _ (takeCopyMaps_bad s tag hd))⟩
  · exact ⟨takeSwapMaps tag d s, whenRunning_of_runs s _ hr, takeSwapMaps_named s tag hd⟩
  · exact (whenRunning_of_runs s _ hr).trans (congrArg _ (takeCopyMaps_pending s tag hd hp))
  · refine (whenRunning_of_runs s _ hr).trans (congrArg _ ((takeCopyMaps_copies s tag hd hi he).trans ?_))
    unfold Highway.copy
    rw [copy_if_named, copy_if_named]
    split <;> split <;> rfl
  · obtain ⟨ingressBanks, ingressDue, ingressIdle⟩ := boundary_map MapOf.ingress s egress order apart ho s.highway.ingress _
      (opened_ingress s egress) rfl
    obtain ⟨egressBanks, egressDue, egressIdle⟩ := boundary_map MapOf.egress s egress order apart ho s.highway.egress _
      (opened_egress s egress) rfl
    refine ⟨s.boundary egress order apart, whenRunning_of_runs s _ hr, ingressBanks, egressBanks, ingressDue, egressDue,
      fun hm untimed => ingressIdle hm fun k ⟨armed, matched, swaps⟩ => ?_,
      fun hm untimed => egressIdle hm fun k ⟨armed, matched, swaps⟩ => ?_⟩
    · exact untimed ⟨k, armed, matched, (swapsIngress_iff _).mp swaps⟩
    · exact untimed ⟨k, armed, matched, (swapsEgress_iff _).mp swaps⟩

end Sys2Proof.Machine
end

