-- ==== Sys2Proof/Proofs/HighwayFrames.lean ====
section
/-! The highways across an office frame boundary: the egress hold taken, the ingress frame sent with its management slot, and the
order channel's cells within a superframe; and with them O55 and O60 (R87 to R91, R95). -/

namespace Sys2Proof.Machine

/-! ### The order channel within a superframe (R137, R151) -/

theorem performAction_channel (s : State) (t : Timer) : (s.performAction t).1.channel = s.channel := by
  unfold State.performAction
  split
  · rfl
  · rfl
  · rfl
  · rfl
  · exact (besideSpans_of_timingActs (selectionRequest_acts s t.param)).channel

theorem offerUnitTrigger_channel (s : State) (src : Fin 8) (u : Fin 4) : (s.offerUnitTrigger src u).channel = s.channel := by
  rw [offerUnitTrigger_eq]
  split <;> rfl

theorem matchTimer_channel (s : State) (n : Fin 4) : (s.matchTimer n).channel = s.channel := by
  unfold State.matchTimer
  dsimp only
  split
  · rw [offerUnitTrigger_channel, setTimer_channel, performAction_channel]
  · rfl

/-- Within a superframe no handling touches the cells. -/
theorem handle_channel (s : State) (apart : Bool) (done : List Handling) (h : Handling) :
    (s.handle false apart done h).channel = s.channel := by
  cases h with
  | number => exact formNumber_channel s
  | timer n => exact matchTimer_channel s n
  | store n =>
    obtain ⟨-, -, channel⟩ := storeBoundary_becomes s false n
    exact channel
  | otu => exact (monitors_beside s).channel
  | outputs => exact officePulses_channel s _
  | swaps => rfl
  | units => exact offerTrigger_channel s 1
  | orderChannel => rfl

theorem handleAll_channel (apart : Bool) (todo done : List Handling) (s : State) :
    (s.handleAll false apart done todo).channel = s.channel := by
  induction todo generalizing done s with
  | nil => rfl
  | cons h rest ih => exact (ih _ _).trans (handle_channel s apart done h)

theorem closeBoundary_channel_within (s : State) (status : Bool) : (s.closeBoundary false status).channel = s.channel := by
  unfold State.closeBoundary
  simp

/-- What a frame's management byte does to the channel depends on nothing that the reads of the stores change. -/
theorem gather_channel_beside {s t : State} (h : s.besideSpans t) (b : Byte) : (t.gather b).channel = (s.gather b).channel := by
  unfold State.gather
  rw [h.channel, h.frameNumber]
  split
  · rfl
  · exact h.channel

theorem gather_send (s : State) (b : Byte) : (s.gather b).channel.send = s.channel.send := by
  unfold State.gather
  split <;> rfl

/-- The management byte of a frame is that of its frame index in the receive cell (R137). -/
theorem gather_receive (s : State) (b : Byte) (f : Fin 16) (h : s.channel.framed = true) :
    (s.gather b).channel.receive[f] = if f.val = s.frameNumber.toNat % 16 then b else s.channel.receive[f] := by
  unfold State.gather
  rw [if_pos h]
  exact Vector.getElem_ofFn f.isLt

theorem opened_channel (s : State) (received : Vector Byte 640) :
    (s.opened received).channel = (s.gather received[0]).channel := by
  obtain ⟨-, -, -, channel⟩ := endFrame_beside s.acquisitionTimeout received
  exact (openBoundary_channel _ _).trans
    (channel.trans (gather_channel_beside (besideSpans_trans (acquisitionTimeout_beside s) (finishReads_beside _)) _))

/-- A boundary within a superframe puts its management byte into the receive cell and no more. -/
theorem boundary_channel_within (s : State) (egress : Vector Byte 640) (order : List Handling) (apart : Bool)
    (h : (s.frameNumber.toNat + 1) % 16 ≠ 0) : (s.boundary egress order apart).channel = (s.gather egress[0]).channel := by
  have within : s.superframeNext = false := superframeNext_eq_false h
  calc (s.boundary egress order apart).channel
    _ = (State.closeBoundary (State.handleAll false apart [] (schedule order) (s.opened egress)) false
          s.channel.reply.isNone).channel := by rw [← within]; rfl
    _ = (s.opened egress).channel := (closeBoundary_channel_within _ _).trans (handleAll_channel apart _ _ _)
    _ = (s.gather egress[0]).channel := opened_channel s egress

/-! ### The egress hold (R91) -/

theorem endFrame_highway (s : State) (received : Vector Byte 640) :
    (s.endFrame received).highway = ((s.finishReads.gather received[0]).takeHolds received).highway := by
  unfold State.endFrame
  dsimp only

theorem takeHolds_held (s : State) (received : Vector Byte 640) :
    (s.takeHolds received).highway.held = received.set 0 0xFF := rfl

/-- The hold takes the byte of every slot but the management slot. -/
theorem boundary_held (s : State) (egress : Vector Byte 640) (order : List Handling) (apart : Bool) {i : Fin 640}
    (h : i ≠ 0) : (s.boundary egress order apart).highway.held[i] = egress[i] := by
  have taken : (s.boundary egress order apart).highway.held = egress.set 0 0xFF := by
    rw [(boundary_holds s egress order apart).held, endFrame_highway, takeHolds_held]
  rw [taken]
  exact Vector.getElem_set_ne _ i.isLt fun e => h (Fin.ext e.symm)

/-- No move of the records touches the hold. -/
theorem recordMove_held (v : Vector Byte 640) (s t : State) (m : RecordMove s t) (h : s.highway.held = v) :
    t.highway.held = v := by
  cases m with
  | keeps k => rw [k.highway, h]
  | forms => rw [formNumber_highway, h]
  | _ => exact h

theorem exec_keeps_held (c : Instr) {s t : State} (hb : ∀ e o a, c ≠ .officeFrameBoundary e o a)
    (he : ∀ straps, c ≠ .restartEnd straps) (h : exec c s = .next t) : t.highway.held = s.highway.held := by
  rcases exec_recordMoves c h with moves | ⟨k, low, up, rfl⟩ | ⟨k, straps, rfl, -⟩ | ⟨e, o, a, rfl, -, -⟩
  · exact moves.keeps (recordMove_held s.highway.held) rfl
  · rfl
  · exact absurd rfl (he straps)
  · exact absurd rfl (hb e o a)

/-- The end of a restart, once supply is up (R163). -/
theorem exec_restartEnd (s : State) (straps : BitVec 5) (hi : s.restart.inProgress.isSome = true)
    (hu : s.restart.supplyUp = true) : ∃ k, exec (.restartEnd straps) s = .next (s.restarted k straps) := by
  obtain ⟨k, hk⟩ := Option.isSome_iff_exists.mp hi
  refine ⟨k, ?_⟩
  simp only [exec, execRestartEnd, hk, hu, if_true]

theorem restarted_held (s : State) (k : RestartKind) (straps : BitVec 5) :
    (s.restarted k straps).highway.held = Vector.replicate 640 0xFF := rfl

/-- Settles O55: the hold at the boundary, at every other command, in an entry, and at the end of a restart. -/
theorem egressHold : Obligations.EgressHold := by
  refine ⟨fun s egress order apart hr => ⟨_, whenRunning_of_runs s _ hr, fun i hi => boundary_held s egress order apart hi,
    fun framed within f => ?_⟩, fun c s t hb he h => exec_keeps_held c hb he h, fun s l slot => rfl,
    fun s t straps hi hu h i _ => ?_⟩
  · rw [boundary_channel_within s egress order apart within]
    exact gather_receive s egress[0] f framed
  · obtain ⟨k, e⟩ := exec_restartEnd s straps hi hu
    obtain rfl : s.restarted k straps = t := Host.Outcome.next.inj (e.symm.trans h)
    rw [restarted_held]
    exact Vector.getElem_replicate _

/-! ### The ingress frame (R89, R95) -/

section

variable {s t : State} (h : s.besideSpans t)
include h

theorem managementByte_beside : t.managementByte = s.managementByte := by
  unfold State.managementByte
  simp only [h.channel, h.frameNumber]

theorem ingressGives_beside (e : IngressEntry) : t.ingressGives e = s.ingressGives e := by
  unfold State.ingressGives
  rw [h.highway]

/-- The reads of the stores do not touch the bytes of the ingress frame in progress. -/
theorem ingressByte_beside (l : Fin 4) (slot : Fin 160) : t.ingressByte l slot = s.ingressByte l slot := by
  unfold State.ingressByte
  rw [managementByte_beside h, insertion_beside h, ingressGives_beside h, h.highway]

end

theorem gather_ingressByte (s : State) (b : Byte) (l : Fin 4) (slot : Fin 160) :
    (s.gather b).ingressByte l slot = s.ingressByte l slot := by
  unfold State.gather
  split <;> rfl

theorem takeHolds_sent (s : State) (received : Vector Byte 640) (l : Fin 4) (slot : Fin 160) :
    (s.takeHolds received).highway.sent[slotIndex l slot] = s.ingressByte l slot := by
  have lane : (160 * l.val + slot.val) / 160 = l.val := by omega
  have place : (160 * l.val + slot.val) % 160 = slot.val := by omega
  simp [State.takeHolds, slotIndex, State.ingressAt, lane, place]

/-- The frame sent carries in every slot the byte chosen for it while it was in progress. -/
theorem boundary_sent (s : State) (egress : Vector Byte 640) (order : List Handling) (apart : Bool) (l : Fin 4)
    (slot : Fin 160) : (s.boundary egress order apart).highway.sent[slotIndex l slot] = s.ingressByte l slot := by
  rw [(boundary_holds s egress order apart).sent, endFrame_highway, takeHolds_sent, gather_ingressByte,
    ingressByte_beside (besideSpans_trans (acquisitionTimeout_beside s) (finishReads_beside _))]

theorem ingressByte_management (s : State) : s.ingressByte 0 0 = s.managementByte := rfl

theorem boundary_sent_management (s : State) (egress : Vector Byte 640) (order : List Handling) (apart : Bool) :
    (s.boundary egress order apart).highway.sent[0] = s.managementByte :=
  (boundary_sent s egress order apart 0 0).trans (ingressByte_management s)

theorem managementByte_some {s : State} {cell : Cell} (h : s.channel.send = some cell) :
    s.managementByte = cell[s.frameNumber.toNat % 16] := by
  unfold State.managementByte
  rw [h]
  rfl

theorem managementByte_none {s : State} (h : s.channel.send = none) : s.managementByte = 0xFF := by
  unfold State.managementByte
  rw [h]
  rfl

/-! ### The pins of the highways (R87, R88, R163) -/

theorem recordMove_inProgress (p : Option RestartKind) (s t : State) (m : RecordMove s t) (h : s.restart.inProgress = p) :
    t.restart.inProgress = p := by
  cases m with
  | keeps k => rw [k.inProgress, h]
  | _ => exact h

theorem opened_inProgress (s : State) (received : Vector Byte 640) :
    (s.opened received).restart.inProgress = s.restart.inProgress := by
  rw [State.opened, openBoundary_restart, (endFrame_endsFrame s received).inProgress]

/-- Office timing runs on across a boundary. -/
theorem boundary_officeRuns (s : State) (egress : Vector Byte 640) (order : List Handling) (apart : Bool) :
    (s.boundary egress order apart).officeRuns = s.officeRuns := by
  have course := (boundary_recordMoves s egress order apart).keeps (recordMove_inProgress s.restart.inProgress)
    (opened_inProgress s egress)
  rw [State.officeRuns, course, State.officeRuns]

/-- Bit `k` of slot `slot` on its lane. -/
theorem laneBit_slot (bytes : Vector Byte 640) (l : Fin 4) (slot : Fin 160) (k : Fin 8) :
    laneBit bytes l ⟨8 * slot.val + k.val, by omega⟩ = (bytes[slotIndex l slot]).getMsbD k.val := by
  have place : (8 * slot.val + k.val) / 8 = slot.val := by omega
  have bit : (8 * slot.val + k.val) % 8 = k.val := by omega
  simp only [laneBit, place, bit]

theorem ihd_of_runs {s : State} (h : s.officeRuns = true) (l : Fin 4) (i : Fin 1280) :
    s.ihd l i = laneBit s.highway.sent l i := by simp [State.ihd, h]

/-- HFP is one period of HCK wide, two where a superframe begins (R88). -/
theorem hfp_iff {s : State} (h : s.officeRuns = true) (p : Fin 1280) :
    s.hfp p = true ↔ p.val = 0 ∨ (p.val = 1 ∧ s.channel.framed = true ∧ s.frameNumber.toNat % 16 = 0) := by
  have wide : s.hfpWidth = if s.channel.framed = true ∧ s.frameNumber.toNat % 16 = 0 then 2 else 1 := by
    simp [State.hfpWidth, h]
  simp only [State.hfp, h, wide, Bool.not_true, Bool.false_or, decide_eq_true_eq]
  by_cases begins : s.channel.framed = true ∧ s.frameNumber.toNat % 16 = 0
  · simp only [begins, and_self, and_true, if_true]
    omega
  · simp only [begins, and_false, or_false, if_false, Nat.lt_one_iff]

/-- A byte of EHD is the eight samples of its slot, the first the most significant (R87). -/
theorem sampledEgress_bit (lanes : Vector (BitVec 1280) 4) (l : Fin 4) (slot : Fin 160) (k : Fin 8) :
    ((sampledEgress lanes)[slotIndex l slot]).getMsbD k.val = (lanes[l]).getMsbD (8 * slot.val + k.val) := by
  have lane : (160 * l.val + slot.val) / 160 = l.val := by omega
  have place : (160 * l.val + slot.val) % 160 = slot.val := by omega
  have sample : 1272 - 8 * slot.val + (8 - 1 - k.val) = 1280 - 1 - (8 * slot.val + k.val) := by omega
  have inside : 8 * slot.val + k.val < 1280 := by omega
  have first : 8 - 1 - k.val < 8 := by omega
  simp only [sampledEgress, slotIndex, Fin.getElem_fin, Vector.getElem_ofFn, lane, place, BitVec.getMsbD,
    BitVec.getLsbD_extractLsb', sample, inside, first, k.isLt, decide_true, Bool.true_and]

/-- The pins while a restart holds the part (R163). -/
theorem held_pins {t : State} (h : t.officeRuns = false) :
    t.hck = some true ∧ (∀ p, t.hfp p = true) ∧ (∀ l i, t.ihd l i = true) ∧ ∀ n i, t.td n i = none := by
  simp [State.hck, State.hfp, State.ihd, State.td, h]

/-- A restart's beginning stops office timing. -/
theorem hold_of_restart {s t : State} (h : (∃ low, exec (.powerOn low) s = .next t) ∨ exec .coldRestartBegin s = .next t) :
    ∃ k low up, t = s.hold k low up := by
  rcases h with ⟨low, h⟩ | h
  · cases h
    exact ⟨_, _, _, rfl⟩
  · simp only [exec, execColdRestartBegin] at h
    split at h <;> (cases h; exact ⟨_, _, _, rfl⟩)

theorem hold_officeRuns (s : State) (k : RestartKind) (low up : Bool) : (s.hold k low up).officeRuns = false := rfl

/-- Settles O60: the ingress frame and HFP at a boundary, the bits of EHD, and the pins in a restart. -/
theorem highwayFrame : Obligations.HighwayFrame := by
  refine ⟨fun s egress order apart hr => ⟨_, whenRunning_of_runs s _ hr,
    fun l slot => ⟨boundary_sent s egress order apart l slot, fun k => ?_⟩, fun cell h => ?_, fun h => ?_, fun within => ?_,
      hfp_iff ?_⟩,
    fun s lanes order apart hr => ⟨_, whenRunning_of_runs s _ hr, fun l slot k hne => ?_⟩, fun s t h => ?_⟩
  · rw [ihd_of_runs ((boundary_officeRuns s egress order apart).trans hr), laneBit_slot, boundary_sent]
  · exact (boundary_sent_management s egress order apart).trans (managementByte_some h)
  · exact (boundary_sent_management s egress order apart).trans (managementByte_none h)
  · rw [boundary_channel_within s egress order apart within]
    exact ⟨gather_send s _, gather_framed s _⟩
  · exact (boundary_officeRuns s egress order apart).trans hr
  · refine Eq.trans (congrArg (BitVec.getMsbD · k.val) ?_) (sampledEgress_bit lanes l slot k)
    exact boundary_held s (sampledEgress lanes) order apart (slotIndex_ne_zero hne)
  · obtain ⟨k, low, up, rfl⟩ := hold_of_restart h
    exact held_pins (hold_officeRuns s k low up)

end Sys2Proof.Machine
end

