-- ==== Sys2Proof/Proofs/TimerOrders.lean ====
section
/-! SET TIMER, LOAD MATCH, ARM TIMER and DISARM TIMER (O45), and READ TIMER (O46). -/

namespace Sys2Proof.Machine

/-! ### Reading the operands (Table 6-2) -/

theorem timerModeOf_code (m : TimerMode) : timerModeOf m.code = some m := by cases m <;> rfl

theorem timerModeOf_none (b : Byte) (h : 1 < b.toNat) : timerModeOf b = none := by
  have h0 : b ≠ 0 := byte_ne_of_lt h 0 (by decide)
  have h1 : b ≠ 1 := byte_ne_of_lt h 1 (by decide)
  rw [timerModeOf, if_neg h0, if_neg h1]

/-- An action code is read with its parameter: an entry number for SELECT-REFERENCE, else 0 (R111). -/
theorem timerActionOf_code (a : TimerAction) (param : Byte) (h : a = .selectReference → param.toNat ≤ 3) :
    timerActionOf a.code param = some (a, if a = .selectReference then Fin.ofNat 4 param.toNat else 0) := by
  cases a with
  | selectReference =>
    have entry : param.toNat < 4 := Nat.lt_succ_of_le (h rfl)
    have read : below 4 param = some (Fin.ofNat 4 param.toNat) :=
      (dif_pos entry).trans (congrArg some (Fin.ext (Nat.mod_eq_of_lt entry).symm))
    exact congrArg (Option.map fun e => (TimerAction.selectReference, e)) read
  | _ => rfl

theorem timerActionOf_none (a param : Byte) (h : 4 < a.toNat ∨ (a = 4 ∧ 3 < param.toNat)) : timerActionOf a param = none := by
  unfold timerActionOf
  rcases h with h | ⟨rfl, h⟩
  · have h0 : a ≠ 0 := byte_ne_of_lt h 0 (by decide)
    have h1 : a ≠ 1 := byte_ne_of_lt h 1 (by decide)
    have h2 : a ≠ 2 := byte_ne_of_lt h 2 (by decide)
    have h3 : a ≠ 3 := byte_ne_of_lt h 3 (by decide)
    have h4 : a ≠ 4 := byte_ne_of_lt h 4 (by decide)
    rw [if_neg h0, if_neg h1, if_neg h2, if_neg h3, if_neg h4]
  · rw [below_none 4 param h]
    rfl

/-- The timer flags byte, its bits spelled out (Table 6-2). -/
theorem timerFlags_eq (t : Timer) :
    t.flags = (if t.armed then 0x80 else 0) ||| (if t.matched then 0x40 else 0) ||| (if t.mode = .periodic then 0x20 else 0) := by
  obtain ⟨_, mode, _, _, _, armed, matched, _⟩ := t
  cases mode <;> cases armed <;> cases matched <;> rfl

theorem timerFlags_disarmed {t : Timer} (h : t.armed = false) :
    t.flags = (if t.matched then 0x40 else 0) ||| (if t.mode = .periodic then 0x20 else 0) := by
  rw [timerFlags_eq, h]
  exact congrArg (· ||| _) (BitVec.zero_or ..)

/-! ### SET TIMER (R111) -/

theorem takeSetTimer_refused (s : State) (tag timer mode : Byte) (period : Word) (action param : Byte)
    (h : 3 < timer.toNat ∨ 1 < mode.toNat ∨ period = 0 ∨ 4 < action.toNat ∨ (action = 4 ∧ 3 < param.toNat)) :
    takeSetTimer tag timer mode period action param s = s.refused 0x40 tag .badParameter := by
  unfold takeSetTimer
  split
  next hn hm ha =>
    rcases h with h | h | h | h
    · cases hn.symm.trans (below_none 4 timer h)
    · cases hm.symm.trans (timerModeOf_none mode h)
    · exact if_pos h
    · cases ha.symm.trans (timerActionOf_none action param h)
  · rfl

theorem takeSetTimer_read (s : State) (tag param : Byte) (n : Fin 4) (m : TimerMode) (period : Word) (action : TimerAction)
    (hp : period ≠ 0) (ha : action = .selectReference → param.toNat ≤ 3) :
    let p : Fin 4 := if action = .selectReference then Fin.ofNat 4 param.toNat else 0
    let t : Timer := { s.timers[n] with mode := m, period := period, action := action, param := p, armed := false }
    takeSetTimer tag (BitVec.ofNat 8 n.val) m.code period action.code param s =
      (s.setTimer n t).answer 0x40 tag .done
        ([(if t.matched then 0x40 else 0) ||| (if t.mode = .periodic then 0x20 else 0), m.code] ++ bytes16 period ++
          [action.code, BitVec.ofNat 8 p.val]) := by
  intro p t
  rw [← timerFlags_disarmed (t := t) rfl]
  unfold takeSetTimer
  rw [below_ofNat 4 n (by decide), timerModeOf_code, timerActionOf_code action param ha]
  exact if_neg hp

/-! ### LOAD MATCH, ARM TIMER and DISARM TIMER (R112, R113) -/

theorem takeLoadMatch_refused (s : State) (tag timer : Byte) (v : FrameNumber) (h : 3 < timer.toNat) :
    takeLoadMatch tag timer v s = s.refused 0x41 tag .badParameter := by
  unfold takeLoadMatch
  rw [below_none 4 timer h]
  rfl

theorem takeLoadMatch_read (s : State) (tag : Byte) (n : Fin 4) (v : FrameNumber) :
    let t : Timer := { s.timers[n] with matchAt := v, armed := false }
    takeLoadMatch tag (BitVec.ofNat 8 n.val) v s = (s.setTimer n t).answer 0x41 tag .done (t.seen s.frameNumber) := by
  unfold takeLoadMatch
  rw [below_ofNat 4 n (by decide)]

theorem takeArming_refused (s : State) (code : Byte) (armed : Bool) (tag timer : Byte) (h : 3 < timer.toNat) :
    takeArming code armed tag timer s = s.refused code tag .badParameter := by
  unfold takeArming
  rw [below_none 4 timer h]
  rfl

theorem takeArming_read (s : State) (code : Byte) (armed : Bool) (tag : Byte) (n : Fin 4) :
    let t : Timer := { s.timers[n] with armed := armed, matched := false }
    takeArming code armed tag (BitVec.ofNat 8 n.val) s = (s.setTimer n t).answer code tag .done (t.seen s.frameNumber) := by
  unfold takeArming
  rw [below_ofNat 4 n (by decide)]

/-- The flags of a timer that ARM TIMER or DISARM TIMER has left with MATCHED clear. -/
theorem timerFlags_arming (t : Timer) (armed : Bool) :
    Timer.flags { t with armed := armed, matched := false } =
      (if armed then 0x80 else 0) ||| (if t.mode = .periodic then 0x20 else 0) := by
  rw [timerFlags_eq]
  exact congrArg (· ||| _) (BitVec.or_zero ..)

/-- A reply of the match and the number as seen (R112, R113). -/
theorem answer_seen (s : State) (code tag : Byte) (t : Timer) (v : FrameNumber) {flags : Byte} (h : t.flags = flags) :
    s.answer code tag .done (t.seen v) =
      s.replied code tag .done
        #v[flags, t.matchAt.extractLsb' 16 8, t.matchAt.extractLsb' 8 8, t.matchAt.extractLsb' 0 8, v.extractLsb' 16 8,
           v.extractLsb' 8 8, v.extractLsb' 0 8, 0, 0] := by
  subst h
  rfl

/-- Settles O45: each order refused, or with its operands read. -/
theorem timerWrites : Obligations.TimerWrites := by
  unfold Obligations.TimerWrites
  intro timerMode timerAction
  have modeCode (m : TimerMode) : timerMode m = m.code := by cases m <;> rfl
  have actionCode (a : TimerAction) : timerAction a = a.code := by cases a <;> rfl
  refine ⟨fun s tag hr => ⟨fun timer mode action param period h => ?_, fun n m period action param hp ha => ?_,
      fun timer v h => ?_, fun n v => ?_⟩, fun s tag hr => ⟨fun timer h => ⟨?_, ?_⟩, fun n => ⟨?_, ?_⟩⟩⟩ <;>
    refine (whenRunning_of_runs s _ hr).trans (congrArg Host.Outcome.next ?_)
  · exact takeSetTimer_refused s tag timer mode period action param h
  · rw [modeCode, actionCode]
    exact takeSetTimer_read s tag param n m period action hp ha
  · exact takeLoadMatch_refused s tag timer v h
  · exact (takeLoadMatch_read s tag n v).trans (answer_seen _ _ _ _ _ (timerFlags_disarmed rfl))
  · exact takeArming_refused s 0x42 true tag timer h
  · exact takeArming_refused s 0x43 false tag timer h
  · exact (takeArming_read s 0x42 true tag n).trans (answer_seen _ _ _ _ _ (timerFlags_arming _ true))
  · exact (takeArming_read s 0x43 false tag n).trans
      (answer_seen _ _ _ _ _ ((timerFlags_arming _ false).trans (BitVec.zero_or ..)))

/-! ### READ TIMER (R114) -/

theorem takeReadTimer_refused (s : State) (tag timer : Byte) (h : 3 < timer.toNat) :
    takeReadTimer tag timer s = s.refused 0x44 tag .badParameter := by
  unfold takeReadTimer
  rw [below_none 4 timer h]
  rfl

theorem takeReadTimer_read (s : State) (tag : Byte) (n : Fin 4) :
    let t := s.timers[n]
    takeReadTimer tag (BitVec.ofNat 8 n.val) s =
      s.answer 0x44 tag .done
        ([t.flags] ++ bytes24 t.matchAt ++ bytes16 t.period ++
          [t.action.code, BitVec.ofNat 8 t.param.val, t.lastOutcome.code]) := by
  unfold takeReadTimer
  rw [below_ofNat 4 n (by decide)]

/-- Settles O46: the record read byte by byte, or the order refused. -/
theorem readTimerReply : Obligations.ReadTimerReply := by
  unfold Obligations.ReadTimerReply
  intro timerAction lastOutcome s tag hr
  have actionCode (a : TimerAction) : timerAction a = a.code := by cases a <;> rfl
  have outcomeCode (o : TimerOutcome) : lastOutcome o = o.code := by cases o <;> rfl
  refine ⟨fun timer h => ?_, fun n => ?_⟩ <;> refine (whenRunning_of_runs s _ hr).trans (congrArg Host.Outcome.next ?_)
  · exact takeReadTimer_refused s tag timer h
  · rw [actionCode, outcomeCode, ← timerFlags_eq]
    exact takeReadTimer_read s tag n

end Sys2Proof.Machine
end

