-- ==== Sys2Proof/Proofs/FrameNumber.lean ====
section
/-! The office frame number: SET FRAME NUMBER, the number a boundary forms whatever order it takes, and the pending number it
leaves; with them O47 (R107 to R109). -/

namespace Sys2Proof.Machine

/-! ### Orders leave the number formed alone (R108) -/

theorem publish_frameNumber (s : State) (n : Fin 16) : (s.publish n).frameNumber = s.frameNumber :=
  (besideSpans_of_becomes (publish_becomes s n)).frameNumber

theorem takeSetSpan_frameNumber (tag a b c d e f : Byte) (s : State) :
    (takeSetSpan tag a b c d e f s).frameNumber = s.frameNumber := by
  unfold takeSetSpan
  split
  · rw [answer_frameNumber, publish_frameNumber, modSpan_frameNumber]
  · rfl

theorem takeSpanRestart_frameNumber (tag a : Byte) (s : State) : (takeSpanRestart tag a s).frameNumber = s.frameNumber := by
  unfold takeSpanRestart
  split
  · rfl
  · rw [answer_frameNumber, publish_frameNumber, modSpan_frameNumber]

theorem takeSetDrift_frameNumber (sampled : Bool) (tag a k : Byte) (l : Word) (s : State) :
    (takeSetDrift sampled tag a k l s).frameNumber = s.frameNumber := by
  unfold takeSetDrift
  split
  · rfl
  · rw [answer_frameNumber]
    split
    · rw [publish_frameNumber, modSpan_frameNumber, modSpan_frameNumber]
    · rfl

theorem takeSelectReference_frameNumber (tag a : Byte) (s : State) :
    (takeSelectReference tag a s).frameNumber = s.frameNumber := by
  unfold takeSelectReference
  split
  · rfl
  next e _ =>
    have h := (besideSpans_of_timingActs (selectionRequest_acts s e)).frameNumber
    split
    case h_1 k => rw [k] at h; exact h
    case h_2 k => rw [k] at h; exact h

theorem takeReadCounts_frameNumber (tag a b c : Byte) (s : State) :
    (takeReadCounts tag a b c s).frameNumber = s.frameNumber := by
  unfold takeReadCounts
  split
  · rfl
  next cl _ =>
    split
    · cases cl <;> rfl
    · split
      · rfl
      · dsimp only
        split_ifs <;> rfl

/-- No order forms a number: SET FRAME NUMBER leaves it to a boundary (R108, R109). -/
theorem takeOrder_frameNumber (sampled : Fin 16 → Bool) (s : State) (i : Instr) :
    (s.takeOrder sampled i).frameNumber = s.frameNumber := by
  cases i with
  | setSpan => exact takeSetSpan_frameNumber _ _ _ _ _ _ _ s
  | spanRestart => exact takeSpanRestart_frameNumber _ _ s
  | setDrift => exact takeSetDrift_frameNumber _ _ _ _ _ s
  | selectReference => exact takeSelectReference_frameNumber _ _ s
  | readCounts => exact takeReadCounts_frameNumber _ _ _ _ s
  | readSpan => dsimp only [State.takeOrder]; unfold takeReadSpan; split <;> rfl
  | setThresholds => dsimp only [State.takeOrder]; unfold takeSetThresholds; split <;> rfl
  | readStore => dsimp only [State.takeOrder]; unfold takeReadStore; split <;> rfl
  | readDrift => dsimp only [State.takeOrder]; unfold takeReadDrift; split <;> rfl
  | setReference =>
    dsimp only [State.takeOrder]; unfold takeSetReference; split <;> [split <;> [rfl; split <;> rfl]; rfl]
  | setTimingMode => dsimp only [State.takeOrder]; unfold takeSetTimingMode; split <;> rfl
  | readReference => dsimp only [State.takeOrder]; unfold takeReadReference; split <;> rfl
  | setTimingOutput => dsimp only [State.takeOrder]; unfold takeSetTimingOutput; split <;> rfl
  | writeIngressEntry => dsimp only [State.takeOrder]; unfold takeWriteIngressEntry; split <;> [split_ifs <;> rfl; rfl]
  | writeEgressEntry => dsimp only [State.takeOrder]; unfold takeWriteEgressEntry; split <;> [split_ifs <;> rfl; rfl]
  | readIngressEntry => dsimp only [State.takeOrder]; unfold takeReadIngressEntry; split <;> [split_ifs <;> rfl; rfl]
  | readEgressEntry => dsimp only [State.takeOrder]; unfold takeReadEgressEntry; split <;> rfl
  | swapMaps => dsimp only [State.takeOrder]; unfold takeSwapMaps; split <;> rfl
  | copyMaps => dsimp only [State.takeOrder]; unfold takeCopyMaps; split <;> [rfl; split_ifs <;> rfl]
  | setTimer => dsimp only [State.takeOrder]; unfold takeSetTimer; split <;> [split_ifs <;> rfl; rfl]
  | loadMatch => dsimp only [State.takeOrder]; unfold takeLoadMatch; split <;> rfl
  | armTimer => dsimp only [State.takeOrder]; unfold takeArmTimer takeArming; split <;> rfl
  | disarmTimer => dsimp only [State.takeOrder]; unfold takeDisarmTimer takeArming; split <;> rfl
  | readTimer => dsimp only [State.takeOrder]; unfold takeReadTimer; split <;> rfl
  | setFrameNumber => dsimp only [State.takeOrder]; unfold takeSetFrameNumber; split_ifs <;> rfl
  | setUnit => dsimp only [State.takeOrder]; unfold takeSetUnit; split <;> [split_ifs <;> rfl; rfl]
  | startUnit => dsimp only [State.takeOrder]; unfold takeStartUnit; split <;> rfl
  | stopUnit => dsimp only [State.takeOrder]; unfold takeStopUnit; split <;> rfl
  | triggerUnit => dsimp only [State.takeOrder]; unfold takeTriggerUnit; split <;> rfl
  | readUnit => dsimp only [State.takeOrder]; unfold takeReadUnit; split <;> rfl
  | readBuffer => dsimp only [State.takeOrder]; unfold takeReadBuffer; split <;> rfl
  | writeBuffer => dsimp only [State.takeOrder]; unfold takeWriteBuffer; split <;> rfl
  | readAlarms => dsimp only [State.takeOrder]; unfold takeReadAlarms; split <;> rfl
  | clearLatched => dsimp only [State.takeOrder]; unfold takeClearLatched; split <;> rfl
  | _ => rfl

theorem orderBoundary_frameNumber (s : State) (sampled : Fin 16 → Bool) :
    (s.orderBoundary sampled).frameNumber = s.frameNumber := by
  unfold State.orderBoundary State.examine
  split
  · rw [clearCell_frameNumber]
    unfold State.judgeCell
    split_ifs
    · rfl
    · rfl
    · exact takeOrder_frameNumber sampled s.formSend _
    · rfl
  · rfl

/-! ### The number a boundary forms, whatever order it takes (R107, R109) -/

/-- The forming of the number alone changes it. -/
theorem handle_frameNumber (s : State) (superframe apart : Bool) (done : List Handling) (h : Handling) (hn : h ≠ .number) :
    (s.handle superframe apart done h).frameNumber = s.frameNumber := by
  cases h with
  | number => exact absurd rfl hn
  | timer n => exact (matchTimer_keepsNumber s n).frameNumber
  | store n => exact (keepsNumber_of_becomes (storeBoundary_becomes s superframe n)).frameNumber
  | otu => exact (otuBoundary_keepsNumber s superframe apart).frameNumber
  | outputs => rfl
  | swaps => cases superframe <;> rfl
  | units => cases superframe <;> rfl
  | orderChannel =>
    cases superframe with
    | false => rfl
    | true => exact orderBoundary_frameNumber s _

/-- What the number formed satisfies: `Q` is kept by every move of the records, and the number formed from `f` where `Q` holds
satisfies `V`. -/
theorem handleAll_forms {Q : State → Prop} {V : FrameNumber → Prop} {f : FrameNumber} (superframe apart : Bool)
    (todo done : List Handling) (s : State) (keeps : ∀ s t, RecordMove s t → Q s → Q t)
    (forms : ∀ s, Q s → s.frameNumber = f → V s.nextNumber) (hn : todo.Nodup) (hq : Q s)
    (h : s.frameNumber = f ∧ .number ∈ todo ∨ V s.frameNumber ∧ .number ∉ todo) :
    V (s.handleAll superframe apart done todo).frameNumber := by
  induction todo generalizing done s with
  | nil => exact (h.resolve_left fun k => nomatch k.2).1
  | cons x rest ih =>
    obtain ⟨hnot, hrest⟩ := List.nodup_cons.mp hn
    refine ih (x :: done) _ hrest ((handle_recordMoves s superframe apart done x).keeps keeps hq) ?_
    by_cases hx : x = .number
    · subst hx
      exact .inr ⟨forms s hq (h.resolve_right fun k => k.2 List.mem_cons_self).1, hnot⟩
    · rw [handle_frameNumber s superframe apart done x hx]
      exact h.imp (fun k => ⟨k.1, (List.mem_cons.mp k.2).resolve_left (Ne.symm hx)⟩)
        fun k => ⟨k.1, fun m => k.2 (List.mem_cons_of_mem x m)⟩

theorem openBoundary_frameNumber (s : State) (superframe : Bool) : (s.openBoundary superframe).frameNumber = s.frameNumber :=
  rfl

theorem opened_frameNumber (s : State) (received : Vector Byte 640) : (s.opened received).frameNumber = s.frameNumber := by
  rw [State.opened, openBoundary_frameNumber, (endFrame_endsFrame s received).frameNumber]

/-- The number a boundary forms from that of the office frame it ends. -/
theorem boundary_forms {Q : State → Prop} {V : FrameNumber → Prop} (s : State) (egress : Vector Byte 640)
    (order : List Handling) (apart : Bool) (keeps : ∀ s t, RecordMove s t → Q s → Q t)
    (forms : ∀ t, Q t → t.frameNumber = s.frameNumber → V t.nextNumber) (hq : Q (s.opened egress)) :
    V (s.boundary egress order apart).frameNumber :=
  handleAll_forms s.superframeNext apart (schedule order) [] (s.opened egress) keeps forms (schedule_nodup order) hq
    (.inl ⟨opened_frameNumber s egress, mem_schedule order .number⟩)

/-- No pending number has come to the boundary it records. -/
def State.numberUndue (s : State) : Prop := ∀ p, s.pendingNumber = some p → p.due = false

theorem recordMove_numberUndue (s t : State) (m : RecordMove s t) (h : s.numberUndue) : t.numberUndue := by
  cases m with
  | keeps k => unfold State.numberUndue; rw [k.pendingNumber]; exact h
  | pends v hv => intro p hp; cases hp; rfl
  | forms => exact fun p hp => (formNumber_pending_cases hp).2
  | _ => exact h

/-- Counting goes on where nothing pending is due (R107). -/
theorem nextNumber_undue {s : State} (h : s.numberUndue) : s.nextNumber = s.frameNumber + 1 := by
  unfold State.nextNumber
  split
  next hp => exact absurd (h _ hp) nofun
  next => rfl

theorem succ_toNat (v : FrameNumber) : (v + 1).toNat = (v.toNat + 1) % 16777216 := by
  rw [BitVec.toNat_add]
  rfl

/-- A number within a superframe is not the last one, so that counting does not wrap. -/
theorem succ_toNat_within {v : FrameNumber} (h : (v.toNat + 1) % 16 ≠ 0) : (v + 1).toNat = v.toNat + 1 := by
  have := v.isLt
  rw [succ_toNat]
  omega

/-- The number formed at an office superframe boundary is a multiple of 16, counted or pending (R107, R108). -/
theorem nextNumber_multiple {s : State} {superframe : Bool} {done : List Handling} (h : s.dueBy superframe done)
    (hf : (s.frameNumber.toNat + 1) % 16 = 0) : s.nextNumber.toNat % 16 = 0 := by
  unfold State.nextNumber
  split
  next hp => exact h.multiple _ hp
  next =>
    rw [succ_toNat]
    omega

/-! ### The pending number a boundary leaves (R109) -/

/-- The pending number once one has been formed: taken if it is due. -/
def pendingAfter : Option PendingNumber → Option PendingNumber
  | some ⟨_, true⟩ => none
  | p => p

theorem formNumber_pendingNumber (s : State) : s.formNumber.pendingNumber = pendingAfter s.pendingNumber := rfl

theorem handle_pendingNumber (s : State) (superframe apart : Bool) (done : List Handling) (h : Handling)
    (ho : s.examinesNothing superframe) (hn : h ≠ .number) :
    (s.handle superframe apart done h).pendingNumber = s.pendingNumber := by
  by_cases hp : h = .outputs
  · subst hp
    rfl
  · exact (handle_keepsNumber s superframe apart done h ho hn hp).pendingNumber

theorem handleAll_pendingNumber (superframe apart : Bool) (todo done : List Handling) (s : State) (hn : todo.Nodup)
    (ho : s.examinesNothing superframe) :
    (s.handleAll superframe apart done todo).pendingNumber =
      if .number ∈ todo then pendingAfter s.pendingNumber else s.pendingNumber := by
  induction todo generalizing done s with
  | nil => rfl
  | cons h rest ih =>
    obtain ⟨hnot, hrest⟩ := List.nodup_cons.mp hn
    have orders := (handle_keeps s superframe apart done h ho).orders ho
    refine (ih (h :: done) _ hrest orders).trans ?_
    by_cases hh : h = .number
    · subst hh
      rw [if_neg hnot, if_pos List.mem_cons_self]
      exact formNumber_pendingNumber s
    · have hmem : (.number ∈ h :: rest) ↔ .number ∈ rest := by simp [Ne.symm hh]
      simp only [handle_pendingNumber s superframe apart done h ho hh, hmem]

theorem boundary_pendingNumber (s : State) (egress : Vector Byte 640) (order : List Handling) (apart : Bool)
    (h : s.takesNoOrder) :
    (s.boundary egress order apart).pendingNumber = pendingAfter (openNumber s.superframeNext s.pendingNumber) := by
  have left := handleAll_pendingNumber s.superframeNext apart (schedule order) [] (s.opened egress) (schedule_nodup order)
    (endFrame_examinesNothing s egress h)
  rw [if_pos (mem_schedule order .number), opened_pendingNumber] at left
  exact left

/-- Within a superframe a pending number waits (R109). -/
theorem openNumber_within (p : Option PendingNumber) : openNumber false p = p := by
  cases p with
  | none => rfl
  | some p => exact congrArg (fun due => some { p with due }) (Bool.or_false _)

/-- What is not due is left pending. -/
theorem pendingAfter_undue {p : Option PendingNumber} (h : ∀ q, p = some q → q.due = false) : pendingAfter p = p := by
  unfold pendingAfter
  split
  next => exact absurd (h _ rfl) nofun
  next => rfl

/-- A boundary opens with nothing due of the number, within a superframe or where none is pending. -/
theorem opened_numberUndue {s : State} (egress : Vector Byte 640) (hd : s.dueLaw)
    (h : s.superframeNext = false ∨ s.pendingNumber = none) : (s.opened egress).numberUndue := by
  obtain ⟨number, -⟩ := hd
  intro p hp
  rw [opened_pendingNumber] at hp
  rcases h with h | h
  · rw [h, openNumber_within] at hp
    exact (number p hp).2
  · rw [h] at hp
    cases hp

/-! ### SET FRAME NUMBER (R108) -/

theorem takeSetFrameNumber_refused (s : State) (tag : Byte) (v : FrameNumber) (h : v.toNat % 16 ≠ 0) :
    takeSetFrameNumber tag v s = s.refused 0x45 tag .badParameter := if_neg h

theorem takeSetFrameNumber_accepted (s : State) (tag : Byte) (v : FrameNumber) (h : v.toNat % 16 = 0) :
    takeSetFrameNumber tag v s =
      ({ s with pendingNumber := some ⟨v, false⟩ } : State).answer 0x45 tag .accepted (bytes24 v ++ bytes24 s.frameNumber) :=
  if_pos h

/-- Where nothing of the number is due at it, a boundary counts on by 1 (R107). -/
theorem boundary_frameNumber_undue {s : State} (egress : Vector Byte 640) (order : List Handling) (apart : Bool) (hd : s.dueLaw)
    (h : s.superframeNext = false ∨ s.pendingNumber = none) :
    (s.boundary egress order apart).frameNumber = s.frameNumber + 1 :=
  boundary_forms (V := (· = s.frameNumber + 1)) s egress order apart recordMove_numberUndue
    (fun _ ht e => (nextNumber_undue ht).trans (congrArg (· + 1) e))
    (opened_numberUndue egress hd h)

/-- Settles O47: the order by the value it names, and the boundary by whether one of a superframe comes and what is pending
there. -/
theorem frameNumberForms : Obligations.FrameNumberForms := by
  refine ⟨fun s tag v hr => ⟨fun h => ?_, fun h => ?_⟩, fun s egress order apart hr hd => ?_⟩
  · exact (whenRunning_of_runs s _ hr).trans (congrArg _ (takeSetFrameNumber_refused s tag v h))
  · exact (whenRunning_of_runs s _ hr).trans (congrArg _ (takeSetFrameNumber_accepted s tag v h))
  have counted (h : s.superframeNext = false ∨ s.pendingNumber = none) :
      (s.boundary egress order apart).frameNumber = s.frameNumber + 1 := boundary_frameNumber_undue egress order apart hd h
  have within (h : (s.frameNumber.toNat + 1) % 16 ≠ 0) :
      (s.boundary egress order apart).frameNumber.toNat = s.frameNumber.toNat + 1 := by
    rw [counted (.inl (superframeNext_eq_false h)), succ_toNat_within h]
  have atSuperframe (h : (s.frameNumber.toNat + 1) % 16 = 0) : (s.boundary egress order apart).frameNumber.toNat % 16 = 0 :=
    boundary_forms (V := fun v => v.toNat % 16 = 0) s egress order apart (recordMove_dueBy s.superframeNext [])
      (fun t ht e => nextNumber_multiple ht (e ▸ h)) (opened_dueBy egress hd)
  refine ⟨_, whenRunning_of_runs s _ hr, ⟨fun h => ?_, atSuperframe⟩, fun h => ⟨within h, ?_⟩, fun _ hp => ?_,
    fun p h hp empty => ?_⟩
  · by_contra k
    exact k (within k ▸ h)
  · rw [boundary_pendingNumber s egress order apart (.inl h), superframeNext_eq_false h, openNumber_within]
    exact pendingAfter_undue fun q hq => (hd.1 q hq).2
  · rw [counted (.inr hp), succ_toNat]
  · have takesNone : s.takesNoOrder := .inr (.inr empty)
    have due : (s.opened egress).pendingNumber = some ⟨p.value, true⟩ := by
      rw [opened_pendingNumber, hp, (superframeNext_iff s).mpr h]
      exact congrArg (fun due => some { p with due }) (Bool.or_true _)
    constructor
    · rw [boundary_frameNumber s egress order apart takesNone, State.numberAt, if_neg nofun, State.nextNumber, due]
    · rw [boundary_pendingNumber s egress order apart takesNone, ← opened_pendingNumber s egress, due]
      rfl

end Sys2Proof.Machine
end

