-- ==== Sys2Proof/Proofs/TimerMatch.lean ====
section
/-! A timer at a boundary that takes no order: the handlings before it leave it and the number formed, its match acts, and the
handlings after it leave what it did (R104, R115, R116, R123). -/

namespace Sys2Proof.Machine

/-! ### One match (R115) -/

/-- The record a match leaves: a one-shot timer is disarmed, a periodic one has its match moved on by its period. -/
theorem afterMatch_eq {t : Timer} (o : TimerOutcome) (h : t.armed = true) :
    t.afterMatch o = { t with
      matched := true, lastOutcome := o, armed := decide (t.mode = .periodic)
      matchAt := if t.mode = .periodic then t.matchAt + t.period.setWidth 24 else t.matchAt } := by
  obtain ⟨_, mode, _, _, _, _, _, _⟩ := t
  subst h
  cases mode <;> rfl

theorem afterMatch_outcome (t : Timer) (o : TimerOutcome) : (t.afterMatch o).lastOutcome = o := by
  unfold Timer.afterMatch
  split <;> rfl

theorem matchTimer_acts {s : State} {n : Fin 4} (ha : s.timers[n].armed = true) (hm : s.timers[n].matchAt = s.frameNumber) :
    s.matchTimer n =
      ((s.performAction s.timers[n]).1.setTimer n
        (s.timers[n].afterMatch (s.performAction s.timers[n]).2)).offerUnitTrigger 5 n :=
  if_pos ⟨ha, hm⟩

theorem matchTimer_rests {s : State} {n : Fin 4} (h : s.timers[n].armed = false ∨ s.timers[n].matchAt ≠ s.frameNumber) :
    s.matchTimer n = s := by
  refine if_neg fun k => ?_
  obtain ⟨armed, matched⟩ := k
  rcases h with h | h
  · exact absurd (h.symm.trans armed) nofun
  · exact h matched

theorem performAction_select {s : State} {t : Timer} (h : t.action = .selectReference) :
    s.performAction t = s.selectionRequest t.param := by
  unfold State.performAction
  rw [h]

/-- Every action but SELECT-REFERENCE gives DONE (R116). -/
theorem performAction_done {s : State} {t : Timer} (h : t.action ≠ .selectReference) : (s.performAction t).2 = .done := by
  unfold State.performAction
  split
  next => rfl
  next => rfl
  next => rfl
  next => rfl
  next k => exact absurd k h

theorem offerUnitTrigger_timers (s : State) (src : Fin 8) (u : Fin 4) : (s.offerUnitTrigger src u).timers = s.timers :=
  (offerUnitTrigger_records s src u).timers

/-- The timer that matches takes its record after the match. -/
theorem matchTimer_self {s : State} {n : Fin 4} (ha : s.timers[n].armed = true) (hm : s.timers[n].matchAt = s.frameNumber) :
    (s.matchTimer n).timers[n] = s.timers[n].afterMatch (s.performAction s.timers[n]).2 := by
  rw [matchTimer_acts ha hm, offerUnitTrigger_timers, setTimer_timer]

/-- A match is trigger source 5 of the unit of its number (R115 step 3, R123). -/
theorem matchTimer_triggers {s : State} {n : Fin 4} (ha : s.timers[n].armed = true) (hm : s.timers[n].matchAt = s.frameNumber)
    (hs : s.units[n].source = 5) : (s.matchTimer n).units[n].newTrigger = true := by
  rw [matchTimer_acts ha hm, offerUnitTrigger_eq, setTimer_units]
  have source := ((performAction_keeps_holds s s.timers[n]).2.keepsTrigger n).source
  rw [if_pos (source.trans hs), setUnit_unit]
  rfl

/-! ### The timer's place in a schedule (R115) -/

/-- A timer in a list where every timer follows the number comes after it. -/
theorem numberFirst_before {done pre post : List Handling} {n : Fin 4} (h : numberFirst done (pre ++ .timer n :: post)) :
    .number ∈ pre.reverse ++ done := by
  induction pre generalizing done with
  | nil => exact h.1 n rfl
  | cons x pre ih =>
    rw [List.reverse_cons, List.append_assoc]
    exact ih h.2

/-- A timer's handling between those before it, among them the number's, and those after it. -/
theorem schedule_timer (order : List Handling) (n : Fin 4) :
    ∃ pre post, schedule order = pre ++ .timer n :: post ∧ .number ∈ pre ∧ .timer n ∉ pre ∧ .timer n ∉ post := by
  obtain ⟨pre, post, split⟩ := List.append_of_mem (mem_schedule order (.timer n))
  have nodup : (pre ++ .timer n :: post).Nodup := split ▸ schedule_nodup order
  obtain ⟨-, nodupRest, apartFrom⟩ := List.nodup_append.mp nodup
  have first : .number ∈ pre.reverse ++ [] := numberFirst_before (split ▸ schedule_numberFirst order)
  exact ⟨pre, post, split, by simpa using first, fun k => apartFrom _ k _ List.mem_cons_self rfl,
    (List.nodup_cons.mp nodupRest).1⟩

/-! ### What the handlings around it leave -/

theorem handleAll_timer (superframe apart : Bool) (todo done : List Handling) (s : State) (k : Fin 4)
    (ho : s.examinesNothing superframe) (hk : .timer k ∉ todo) :
    (s.handleAll superframe apart done todo).timers[k] = s.timers[k] :=
  (handleAll_induct (P := fun _ t => t.timers[k] = s.timers[k]) superframe apart todo done s
    (fun t done h hh ht e => (handle_timer t superframe apart done h k ht fun x => hk (x ▸ hh)).trans e) ho rfl).2

theorem handleAll_frameNumber (superframe apart : Bool) (todo done : List Handling) (s : State)
    (ho : s.examinesNothing superframe) (hn : .number ∉ todo) :
    (s.handleAll superframe apart done todo).frameNumber = s.frameNumber :=
  (handleAll_induct (P := fun _ t => t.frameNumber = s.frameNumber) superframe apart todo done s
    (fun t done h hh _ e => (handle_frameNumber t superframe apart done h fun x => hn (x ▸ hh)).trans e) ho rfl).2

/-- A selection leaves the mode, and so does a match (R116). -/
theorem matchTimer_mode (s : State) (n : Fin 4) : (s.matchTimer n).timing.mode = s.timing.mode := by
  unfold State.matchTimer
  dsimp only
  split
  · rw [offerUnitTrigger_timing, setTimer_timing]
    unfold State.performAction
    split
    · rfl
    · rfl
    · rfl
    · rfl
    · exact (keepsEnables_of_timingActs (selectionRequest_acts s _)).mode
  · rfl

/-- Only an order changes the mode (R78). -/
theorem handle_mode (s : State) (superframe apart : Bool) (done : List Handling) (h : Handling)
    (ho : s.examinesNothing superframe) : (s.handle superframe apart done h).timing.mode = s.timing.mode := by
  cases h with
  | number => rfl
  | timer n => exact matchTimer_mode s n
  | store n =>
    obtain ⟨-, ⟨-, -, -, -, -, -, -, -, -, -, -, mode, -⟩, -⟩ := storeBoundary_becomes s superframe n
    exact mode
  | otu =>
    have followed := (monitors_keepsEnables s).mode
    change (s.otuBoundary superframe apart).timing.mode = _
    unfold State.otuBoundary
    split
    · exact (otuSuperframe_keepsEnables s.monitors apart).mode.trans followed
    · exact followed
  | outputs => rfl
  | swaps => cases superframe <;> rfl
  | units => cases superframe <;> rfl
  | orderChannel =>
    cases superframe with
    | false => rfl
    | true =>
      obtain ⟨channel, e⟩ := orderBoundary_beside s (fun n => decide (.store n ∈ done)) (ho.resolve_left nofun)
      exact (congrArg (fun t : State => t.timing.mode) e).trans rfl

theorem handleAll_mode (superframe apart : Bool) (todo done : List Handling) (s : State)
    (ho : s.examinesNothing superframe) : (s.handleAll superframe apart done todo).timing.mode = s.timing.mode :=
  (handleAll_induct (P := fun _ t => t.timing.mode = s.timing.mode) superframe apart todo done s
    (fun t done h _ ht e => (handle_mode t superframe apart done h ht).trans e) ho rfl).2

theorem acquisitionTimeout_mode (s : State) : s.acquisitionTimeout.timing.mode = s.timing.mode := by
  unfold State.acquisitionTimeout
  split
  · exact (timeout_keepsEnables s).mode
  · rfl

theorem finishReads_mode (s : State) : s.finishReads.timing.mode = s.timing.mode := by
  unfold State.finishReads
  induction allSpans generalizing s with
  | nil => rfl
  | cons n rest ih =>
    obtain ⟨-, ⟨-, -, -, -, -, -, -, -, -, -, -, mode, -⟩, -⟩ := (becomes_refl s n).readSide 336
    exact (ih _).trans mode

theorem openBoundary_mode (s : State) (superframe : Bool) : (s.openBoundary superframe).timing.mode = s.timing.mode := rfl

theorem opened_mode (s : State) (received : Vector Byte 640) : (s.opened received).timing.mode = s.timing.mode := by
  rw [State.opened, openBoundary_mode, endFrame_timing, finishReads_mode, acquisitionTimeout_mode]

/-- A unit keeps its trigger source over the end of an office frame (R125). -/
theorem opened_source (s : State) (received : Vector Byte 640) (u : Fin 4) :
    (s.opened received).units[u].source = s.units[u].source := by
  have beside := besideSpans_keepsTrigger
    (besideSpans_trans (acquisitionTimeout_beside s) (finishReads_beside s.acquisitionTimeout)) u
  have ended : (s.acquisitionTimeout.endFrame received).units =
      ((s.acquisitionTimeout.finishReads.gather received[0]).unitsEndFrame received).units := by
    unfold State.endFrame
    dsimp only
  obtain ⟨source, -⟩ := unitsEndFrame_settings (s.acquisitionTimeout.finishReads.gather received[0]) received u
  rw [gather_units] at source
  rw [State.opened, openBoundary_units, ended, source, beside.source]

/-- The handlings of a boundary that takes no order begin with none to take (R140, R151). -/
theorem opened_examinesNothing {s : State} (received : Vector Byte 640) (ho : s.takesNoOrder) :
    (s.opened received).examinesNothing s.superframeNext := endFrame_examinesNothing s received ho

/-! ### A timer's swap (R104) -/

section

variable {entry : Type}

/-- A map not swapped at this boundary, or swapped once with no request left. -/
def ChannelMap.swapsOnce (m : ChannelMap entry) (active : Fin 2) : Prop :=
  m.active = active ∧ m.swapped = false ∨ m.swappedFrom active

/-- Whatever stands of a swap, a timer's swap leaves it made once. -/
theorem timerSwap_once {m : ChannelMap entry} {active : Fin 2} (h : m.swapsOnce active) : m.timerSwap.swappedFrom active := by
  unfold ChannelMap.timerSwap
  rcases h with ⟨rfl, hs⟩ | ⟨ha, hs, -⟩
  · rw [hs]
    exact ⟨rfl, rfl, rfl⟩
  · rw [hs]
    exact ⟨ha, hs, rfl⟩

/-- A map swapped once, with no request left, stays so under every handling of its boundary (R104). -/
theorem mapAfter_swappedFrom (s : State) (swaps : TimerAction → Bool) (superframe : Bool) {m : ChannelMap entry}
    {active : Fin 2} (h : Handling) (hm : m.swappedFrom active) : (s.mapAfter swaps superframe m h).swappedFrom active := by
  unfold State.mapAfter
  split
  · split
    · exact timerSwap_once (.inr hm)
    · exact hm
  · split
    · exact performDue_swappedFrom (.inr hm)
    · exact hm
  · exact hm

/-- No handling swaps a map twice (R104). -/
theorem mapAfter_swapsOnce (s : State) (swaps : TimerAction → Bool) (superframe : Bool) {m : ChannelMap entry}
    {active : Fin 2} (h : Handling) (hm : m.swapsOnce active) : (s.mapAfter swaps superframe m h).swapsOnce active := by
  rcases hm with ⟨ha, hs⟩ | hm
  · unfold State.mapAfter
    split
    · split
      · exact .inr (timerSwap_once (.inl ⟨ha, hs⟩))
      · exact .inl ⟨ha, hs⟩
    · split
      · unfold ChannelMap.performDue
        split
        · rw [hs]
          exact .inr ⟨congrArg (· + 1) ha, rfl, rfl⟩
        · exact .inl ⟨ha, hs⟩
      · exact .inl ⟨ha, hs⟩
    · exact .inl ⟨ha, hs⟩
  · exact .inr (mapAfter_swappedFrom s swaps superframe h hm)

theorem handleAll_swapsOnce (f : MapOf entry) (superframe apart : Bool) (todo done : List Handling) (s : State)
    (active : Fin 2) (ho : s.examinesNothing superframe) (hm : (f.get s).swapsOnce active) :
    (f.get (s.handleAll superframe apart done todo)).swapsOnce active :=
  (handleAll_induct (P := fun _ t => (f.get t).swapsOnce active) superframe apart todo done s
    (fun t done h _ ht k => by rw [f.handled t _ _ _ _ ht]; exact mapAfter_swapsOnce t _ _ h k) ho hm).2

theorem handleAll_swappedFrom (f : MapOf entry) (superframe apart : Bool) (todo done : List Handling) (s : State)
    (active : Fin 2) (ho : s.examinesNothing superframe) (hm : (f.get s).swappedFrom active) :
    (f.get (s.handleAll superframe apart done todo)).swappedFrom active :=
  (handleAll_induct (P := fun _ t => (f.get t).swappedFrom active) superframe apart todo done s
    (fun t done h _ ht k => by rw [f.handled t _ _ _ _ ht]; exact mapAfter_swappedFrom t _ _ h k) ho hm).2

end

/-! ### The boundary, with the moment at which a timer compares -/

/-- `u` is the state in which timer `n` compares at a boundary of `s`, the handlings `pre` having been taken before it and
`post` being taken after it. -/
structure State.comparesAt (s : State) (egress : Vector Byte 640) (order : List Handling) (apart : Bool) (n : Fin 4)
    (pre post : List Handling) (u : State) : Prop where
  split : schedule order = pre ++ .timer n :: post
  number : .number ∈ pre
  notBefore : .timer n ∉ pre
  notAfter : .timer n ∉ post
  before : u = (s.opened egress).handleAll s.superframeNext apart [] pre
  orders : u.examinesNothing s.superframeNext

theorem comparesAt_exists (s : State) (egress : Vector Byte 640) (order : List Handling) (apart : Bool) (n : Fin 4)
    (ho : s.takesNoOrder) : ∃ pre post u, s.comparesAt egress order apart n pre post u := by
  obtain ⟨pre, post, split, number, notBefore, notAfter⟩ := schedule_timer order n
  have orders := (handleAll_induct (P := fun _ _ => True) s.superframeNext apart pre [] (s.opened egress)
    (fun _ _ _ _ _ _ => trivial) (opened_examinesNothing egress ho) trivial).1
  exact ⟨pre, post, _, split, number, notBefore, notAfter, rfl, orders⟩

section

variable {s u : State} {egress : Vector Byte 640} {order pre post : List Handling} {apart : Bool} {n : Fin 4}
  (h : s.comparesAt egress order apart n pre post u)
include h

/-- The handlings of the boundary, up to the comparison and after it. -/
theorem State.comparesAt.handled :
    (s.opened egress).handleAll s.superframeNext apart [] (schedule order) =
      (u.matchTimer n).handleAll s.superframeNext apart (.timer n :: (pre.reverse ++ [])) post := by
  rw [h.split, handleAll_append, ← h.before]
  rfl

theorem State.comparesAt.after :
    s.boundary egress order apart =
      ((u.matchTimer n).handleAll s.superframeNext apart (.timer n :: (pre.reverse ++ [])) post).closeBoundary
        s.superframeNext s.channel.reply.isNone :=
  congrArg (State.closeBoundary · s.superframeNext s.channel.reply.isNone) h.handled

theorem State.comparesAt.matchOrders : (u.matchTimer n).examinesNothing s.superframeNext :=
  (matchTimer_keeps u s.superframeNext n).orders h.orders

theorem State.comparesAt.nodup : pre.Nodup ∧ post.Nodup ∧ ∀ x ∈ post, x ∉ pre := by
  have nodup : (pre ++ .timer n :: post).Nodup := h.split ▸ schedule_nodup order
  obtain ⟨nodupPre, nodupRest, apartFrom⟩ := List.nodup_append.mp nodup
  exact ⟨nodupPre, (List.nodup_cons.mp nodupRest).2, fun x hx k => apartFrom x k x (List.mem_cons_of_mem _ hx) rfl⟩

/-- A timer reaches its comparison as the office frame left it. -/
theorem State.comparesAt.timer (ho : s.takesNoOrder) : u.timers[n] = s.timers[n] := by
  rw [h.before, handleAll_timer _ _ _ _ _ n (opened_examinesNothing egress ho) h.notBefore, opened_timers]

theorem State.comparesAt.mode (ho : s.takesNoOrder) : u.timing.mode = s.timing.mode := by
  rw [h.before, handleAll_mode _ _ _ _ _ (opened_examinesNothing egress ho), opened_mode]

theorem State.comparesAt.source (ho : s.takesNoOrder) (v : Fin 4) : u.units[v].source = s.units[v].source := by
  have kept := handleAll_triggersOnly s.superframeNext apart pre [] (s.opened egress) (opened_examinesNothing egress ho)
  rw [h.before, (kept.keepsTrigger v).source, opened_source]

/-- The number the timer compares is the number of the boundary (R115). -/
theorem State.comparesAt.frameNumber : (s.boundary egress order apart).frameNumber = u.frameNumber := by
  obtain ⟨-, -, disjoint⟩ := h.nodup
  rw [h.after]
  refine (handleAll_frameNumber _ _ post _ _ h.matchOrders fun k => disjoint _ k h.number).trans ?_
  exact (matchTimer_keepsNumber u n).frameNumber

/-- A timer has at the end of the boundary the record its own comparison left. -/
theorem State.comparesAt.left : (s.boundary egress order apart).timers[n] = (u.matchTimer n).timers[n] := by
  rw [h.after]
  exact handleAll_timer _ _ post _ _ n h.matchOrders h.notAfter

theorem State.comparesAt.triggers {v : Fin 4} (ht : (u.matchTimer n).units[v].newTrigger = true) :
    (s.boundary egress order apart).units[v].newTrigger = true := by
  rw [h.after]
  exact ((handleAll_triggersOnly _ apart post _ _ h.matchOrders).keepsTrigger v).trigger ht

/-- A timer that matches with an action that swaps a map leaves it swapped once, and no request for it (R104). -/
theorem State.comparesAt.swaps {entry : Type} (f : MapOf entry) (ho : s.takesNoOrder) {m m' : ChannelMap entry}
    (hopen : f.get (s.opened egress) = m.openBoundary s.superframeNext)
    (hclose : m' = f.get ((s.opened egress).handleAll s.superframeNext apart [] (schedule order)))
    (ht : u.timers[n].swapsAt f.swaps u.frameNumber) : m'.active = m.active + 1 ∧ m'.request = .absent := by
  have compares : (f.get u).swapsOnce m.active := by
    rw [h.before]
    refine handleAll_swapsOnce f _ _ _ _ _ _ (opened_examinesNothing egress ho) ?_
    rw [hopen]
    exact .inl ⟨rfl, rfl⟩
  have swapped : (f.get (u.matchTimer n)).swappedFrom m.active := by
    have handled : f.get (u.matchTimer n) = u.mapAfter f.swaps s.superframeNext (f.get u) (.timer n) :=
      f.handled u s.superframeNext apart [] (.timer n) h.orders
    have swaps : u.mapAfter f.swaps s.superframeNext (f.get u) (.timer n) = (f.get u).timerSwap := if_pos ht
    rw [handled, swaps]
    exact timerSwap_once compares
  obtain ⟨active, -, request⟩ := handleAll_swappedFrom f s.superframeNext apart post (.timer n :: (pre.reverse ++ [])) _ _
    h.matchOrders swapped
  rw [hclose, h.handled]
  exact ⟨active, request⟩

end

end Sys2Proof.Machine
end

