-- ==== Sys2Proof/Proofs/SelectionHeld.lean ====
section
/-! What a boundary in MANUAL mode does to the reference entries and to the selection (R70 to R73, R76): an entry that has left
QUALIFIED is not QUALIFIED again at that boundary, and the selection is lost only with its entry. -/

namespace Sys2Proof.Machine

/-! ### Entries away from QUALIFIED -/

/-- The entry is not QUALIFIED, and `b` more stages of qualification do not make it so (R68). -/
def RefEntry.away (b : Nat) (x : RefEntry) : Prop :=
  x.state ≠ .qualified ∧ (x.state = .qualifying → x.count + b < x.target.superframes)

theorem RefEntry.away.mono {b c : Nat} {x : RefEntry} (h : x.away b) (hc : c ≤ b) : x.away c :=
  ⟨h.1, fun k => by have := h.2 k; omega⟩

/-- A qualification lasts 16 superframes or more (Table 4-2). -/
theorem sixteen_le_superframes (q : QPeriod) : 16 ≤ q.superframes := by cases q <;> decide

theorem away_of_idle {b : Nat} {x : RefEntry} (h : x.state = .faulted ∨ x.state = .disabled) : x.away b := by
  rcases h with h | h <;> exact ⟨by rw [h]; nofun, by rw [h]; nofun⟩

/-- An entry in QUALIFYING from 0 is away for a whole boundary and more. -/
theorem away_of_begun {b : Nat} {x : RefEntry} (hs : x.state = .qualifying) (hc : x.count = 0) (hb : b < 16) : x.away b := by
  refine ⟨by rw [hs]; nofun, fun _ => ?_⟩
  have := sixteen_le_superframes x.target
  omega

/-- Within its law an entry that is not QUALIFIED is away until the next stage of qualification (R68). -/
theorem away_of_law {x : RefEntry} (h : x.law) (hs : x.state ≠ .qualified) : x.away 0 := by
  obtain ⟨-, -, -, counts⟩ := h
  exact ⟨hs, counts⟩

/-- One stage of qualification uses up one of those that an entry is away for. -/
theorem away_qualify {b : Nat} {x : RefEntry} (h : x.away (b + 1)) : x.qualify.away b := by
  obtain ⟨hs, e⟩ | ⟨hs, hc, -⟩ | ⟨hs, -, e⟩ := qualify_cases x
  · rw [e]
    exact h.mono (Nat.le_succ b)
  · have := h.2 hs
    omega
  · rw [e]
    refine ⟨h.1, fun _ => ?_⟩
    have := h.2 hs
    dsimp only
    omega

/-! ### The moves of office timing in MANUAL mode -/

/-- Entry `e` has been selected since the boundary opened (R70). -/
structure State.freshly (s : State) (e : Fin 4) : Prop where
  selected : s.timing.loop.selected = some e
  state : s.timing.loop.state = .acquiring
  fresh : s.timing.loop.fresh = true
  lockCount : s.timing.loop.lockCount = 0
  acqCount : s.timing.loop.acqCount = 0

/-- The selection stands, with no reference switch counted, and a fresh one stands as it was made (R72, R75). -/
structure State.selectionKept (s t : State) : Prop where
  selected : t.timing.loop.selected = s.timing.loop.selected
  switches : t.device.referenceSwitches = s.device.referenceSwitches
  fresh : ∀ e, s.freshly e → t.freshly e

/-- With `b` stages of qualification to come before and `c` after: an entry away stays away, one that is QUALIFIED stays so or
is away, and the selection stands, unless its entry is away. -/
structure State.officeMoves (b c : Nat) (s t : State) : Prop where
  away : ∀ y, (s.entry y).away b → (t.entry y).away c
  leaves : ∀ y, (s.entry y).state = .qualified → (t.entry y).state = .qualified ∨ (t.entry y).away c
  kept : s.selectionKept t ∨ ∃ y, s.timing.loop.selected = some y ∧ (t.entry y).away c

theorem selectionKept_refl (s : State) : s.selectionKept s := ⟨rfl, rfl, fun _ => id⟩

theorem selectionKept_trans {s t u : State} (h : s.selectionKept t) (k : t.selectionKept u) : s.selectionKept u :=
  ⟨k.selected.trans h.selected, k.switches.trans h.switches, fun e m => k.fresh e (h.fresh e m)⟩

theorem selectionKept_of_loop {s t : State} (hl : t.timing.loop = s.timing.loop) (hd : t.device = s.device) :
    s.selectionKept t :=
  ⟨by rw [hl], by rw [hd], fun _ ⟨a, b, c, d, e⟩ => ⟨by rw [hl, a], by rw [hl, b], by rw [hl, c], by rw [hl, d], by rw [hl, e]⟩⟩

theorem officeMoves_trans {a b c : Nat} {s t u : State} (h : s.officeMoves a b t) (k : t.officeMoves b c u) :
    s.officeMoves a c u := by
  refine ⟨fun y m => k.away y (h.away y m), fun y m => ?_, ?_⟩
  · rcases h.leaves y m with m | m
    · exact k.leaves y m
    · exact .inr (k.away y m)
  · rcases h.kept with m | ⟨y, hy, m⟩
    · rcases k.kept with n | ⟨y, hy, n⟩
      · exact .inl (selectionKept_trans m n)
      · exact .inr ⟨y, m.selected ▸ hy, n⟩
    · exact .inr ⟨y, hy, k.away y m⟩

/-- Where the entries and the selection stand. -/
theorem officeMoves_of_kept {b c : Nat} {s t : State} (hc : c ≤ b) (he : ∀ y, t.entry y = s.entry y) (hk : s.selectionKept t) :
    s.officeMoves b c t :=
  ⟨fun y m => by rw [he]; exact m.mono hc, fun y m => .inl (by rw [he]; exact m), .inl hk⟩

theorem officeMoves_refl (b : Nat) (s : State) : s.officeMoves b b s :=
  officeMoves_of_kept le_rfl (fun _ => rfl) (selectionKept_refl s)

/-- Where office timing and the device's counts stand. -/
theorem officeMoves_of_timing {b : Nat} {s t : State} (ht : t.timing = s.timing) (hd : t.device = s.device) :
    s.officeMoves b b t :=
  officeMoves_of_kept le_rfl (fun y => by simp only [State.entry, ht]) (selectionKept_of_loop (by rw [ht]) hd)

/-- An entry rewritten, the selection standing. -/
theorem setEntry_officeMoves {b : Nat} (s : State) (e : Fin 4) {x : RefEntry} (ha : (s.entry e).away b → x.away b)
    (hq : (s.entry e).state = .qualified → x.state = .qualified ∨ x.away b) : s.officeMoves b b (s.setEntry e x) := by
  have other {y : Fin 4} (hy : y ≠ e) := setEntry_entry_ne s e y x hy
  refine ⟨fun y m => ?_, fun y m => ?_, .inl (selectionKept_of_loop rfl rfl)⟩ <;> by_cases hy : y = e
  · subst hy
    rw [setEntry_entry]
    exact ha m
  · rw [other hy]
    exact m
  · subst hy
    rw [setEntry_entry]
    exact hq m
  · rw [other hy]
    exact .inl m

theorem latchDevice_officeMoves (b : Nat) (s : State) : s.officeMoves b b s.latchDevice :=
  officeMoves_of_kept le_rfl (fun _ => rfl) ⟨rfl, rfl, fun _ ⟨h1, h2, h3, h4, h5⟩ => ⟨h1, h2, h3, h4, h5⟩⟩

/-- The selection of an entry that is away is dropped (R73). -/
theorem dropIfSelected_officeMoves {b : Nat} {s : State} {e : Fin 4} (h : (s.entry e).away b) :
    s.officeMoves b b (s.dropIfSelected e) := by
  have entries (y : Fin 4) := dropIfSelected_entry s e y
  refine ⟨fun y m => by rw [entries]; exact m, fun y m => .inl (by rw [entries]; exact m), ?_⟩
  by_cases hsel : s.timing.loop.selected = some e
  · exact .inr ⟨e, hsel, by rw [entries]; exact h⟩
  · left
    unfold State.dropIfSelected
    rw [if_neg hsel]
    exact selectionKept_refl s

/-! ### The entries following their fault conditions (Table 4-4) -/

theorem faultEntry_officeMoves (b : Nat) (s : State) (e : Fin 4) (why : FaultReason) :
    s.officeMoves b b (s.faultEntry e why) := by
  have faulted : ({ s.entry e with state := .faulted, count := 0, reason := why } : RefEntry).away b := away_of_idle (.inl rfl)
  refine officeMoves_trans (setEntry_officeMoves s e (fun _ => faulted) fun _ => .inr faulted)
    (officeMoves_trans (latchDevice_officeMoves b _) (dropIfSelected_officeMoves ?_))
  rw [latchDevice_entry, setEntry_entry]
  exact faulted

theorem followEntry_officeMoves {b : Nat} (hb : b < 16) (s : State) (e : Fin 4) : s.officeMoves b b (s.followEntry e) := by
  have rewritten {x : RefEntry} (hs : (s.entry e).state = .faulted) (hx : x.away b) : s.officeMoves b b (s.setEntry e x) :=
    setEntry_officeMoves s e (fun _ => hx) fun k => absurd (hs.symm.trans k) nofun
  unfold State.followEntry
  split
  next => exact officeMoves_refl b s
  next hs _ => exact rewritten hs (away_of_idle (.inl hs))
  next hs _ => exact rewritten hs (away_of_begun rfl rfl hb)
  next => exact faultEntry_officeMoves b s e _
  next => exact faultEntry_officeMoves b s e _
  next => exact officeMoves_refl b s
  next => exact officeMoves_refl b s

theorem followEntries_officeMoves {b : Nat} (hb : b < 16) (s : State) : s.officeMoves b b s.followEntries := by
  rw [followEntries_eq]
  exact officeMoves_trans (followEntry_officeMoves hb s 0) (officeMoves_trans (followEntry_officeMoves hb _ 1)
    (officeMoves_trans (followEntry_officeMoves hb _ 2) (followEntry_officeMoves hb _ 3)))

theorem publish_officeMoves {b : Nat} (hb : b < 16) (s : State) (n : Fin 16) : s.officeMoves b b (s.publish n) :=
  officeMoves_trans (t := s.modSpan n Span.latch) (officeMoves_of_timing rfl rfl) (followEntries_officeMoves hb _)

theorem readSide_officeMoves {b : Nat} (hb : b < 16) (s : State) (n : Fin 16) (r : Nat) :
    s.officeMoves b b (s.readSide n r) :=
  officeMoves_trans (t := s.modSpan n fun sp => sp.readTo r) (officeMoves_of_timing rfl rfl) (publish_officeMoves hb _ n)

theorem finishReads_officeMoves {b : Nat} (hb : b < 16) (s : State) : s.officeMoves b b s.finishReads := by
  unfold State.finishReads
  induction allSpans generalizing s with
  | nil => exact officeMoves_refl b s
  | cons n rest ih => exact officeMoves_trans (readSide_officeMoves hb s n 336) (ih _)

/-! ### The acquisition timeout (R72, R73) -/

theorem timeout_officeMoves {b : Nat} (hb : b < 16) (s : State) : s.officeMoves b b s.timeout := by
  cases hsel : s.timing.loop.selected with
  | none =>
    rw [timeout_of_none hsel]
    exact officeMoves_refl b s
  | some e =>
    obtain ⟨u, drops, -, -, entries⟩ := timeout_drops hsel
    have timedOut : (s.entry e).timedOut.away b := away_of_begun rfl rfl hb
    have moved := setEntry_officeMoves s e (x := (s.entry e).timedOut) (fun _ => timedOut) fun _ => .inr timedOut
    have left (y : Fin 4) : s.timeout.entry y = (s.setEntry e (s.entry e).timedOut).entry y := by
      rw [drops]
      exact entries y
    refine ⟨fun y m => ?_, fun y m => ?_, .inr ⟨e, hsel, ?_⟩⟩ <;> rw [left]
    · exact moved.away y m
    · exact moved.leaves y m
    · rw [setEntry_entry]
      exact timedOut

theorem acquisitionTimeout_officeMoves {b : Nat} (hb : b < 16) (s : State) : s.officeMoves b b s.acquisitionTimeout := by
  unfold State.acquisitionTimeout
  split
  · exact timeout_officeMoves hb s
  · exact officeMoves_refl b s

theorem endFrame_officeMoves {b : Nat} (hb : b < 16) (s : State) (received : Vector Byte 640) :
    s.officeMoves b b (s.endFrame received) :=
  officeMoves_trans (finishReads_officeMoves hb s)
    (officeMoves_of_timing (endFrame_timing s received) (endFrame_device s received))

/-! ### The three stages and the oscillator (R68, R69, R72) -/

theorem qualifyAll_officeMoves (c : Nat) (s : State) : s.officeMoves (c + 1) c s.qualifyAll := by
  refine ⟨fun y m => ?_, fun y m => .inl ?_, .inl (selectionKept_of_loop rfl rfl)⟩ <;> rw [qualifyAll_entry]
  · exact away_qualify m
  · rw [qualify_qualified m, m]

/-- Stage 3 acts on a selection of an earlier superframe alone, which it keeps, unless the timeout comes (R72). -/
theorem lockStage_officeMoves {b : Nat} (hb : b < 16) (s : State) (apart : Bool) : s.officeMoves b b (s.lockStage apart) := by
  by_cases h : s.timing.loop.state ≠ .acquiring ∨ s.timing.loop.fresh = true
  · rw [lockStage_rests apart h]
    exact officeMoves_refl b s
  · have stale : s.timing.loop.fresh ≠ true := fun k => h (.inr k)
    have loop {l : Loop} (hl : l.selected = s.timing.loop.selected) : s.officeMoves b b (s.setLoop l) :=
      officeMoves_of_kept le_rfl (fun _ => rfl) ⟨hl, rfl, fun _ k => absurd k.fresh stale⟩
    unfold State.lockStage
    dsimp only
    generalize (if s.timing.detector.reading = true then s.timing.loop.lockCount + 1 else 0) = count
    split
    · split
      · exact loop rfl
      · split
        · exact loop rfl
        · split
          · exact loop rfl
          · exact officeMoves_trans (loop (l := { s.timing.loop with lockCount := count }) rfl) (timeout_officeMoves hb _)
    · exact officeMoves_refl b s

/-- In MANUAL mode nothing is selected by the stages, and one stage of qualification is made (R68, R76). -/
theorem otuSuperframe_officeMoves {c : Nat} (hc : c < 16) {s : State} (apart : Bool) (hm : s.timing.mode = .manual) :
    s.officeMoves (c + 1) c (s.otuSuperframe apart) := by
  have rests : s.qualifyAll.autoSelect = s.qualifyAll := autoSelect_rests (.inl hm)
  refine officeMoves_trans (officeMoves_trans (qualifyAll_officeMoves c s) (lockStage_officeMoves hc _ apart)) ?_
  unfold State.otuSuperframe
  rw [rests]
  generalize s.qualifyAll.lockStage apart = u
  have steered := steer_eq u.timing
  have entries : u.timing.steer.entries = u.timing.entries := by rw [steered]
  have selected : u.timing.steer.loop.selected = u.timing.loop.selected := by rw [steered]
  have state : u.timing.steer.loop.state = u.timing.loop.state := by rw [steered]
  have fresh : u.timing.steer.loop.fresh = u.timing.loop.fresh := by rw [steered]
  have lockCount : u.timing.steer.loop.lockCount = u.timing.loop.lockCount := by rw [steered]
  have acqCount : u.timing.steer.loop.acqCount = u.timing.loop.acqCount := by rw [steered]
  exact officeMoves_of_kept le_rfl (fun y => congrArg (fun v : Vector RefEntry 4 => v[y]) entries)
    ⟨selected, rfl, fun e k => ⟨selected.trans k.selected, state.trans k.state, fresh.trans k.fresh,
      lockCount.trans k.lockCount, acqCount.trans k.acqCount⟩⟩

theorem monitors_officeMoves {b : Nat} (hb : b < 16) (s : State) : s.officeMoves b b s.monitors := by
  refine officeMoves_trans (t := { s with timing := { s.timing with
    monitorA := s.timing.monitorA.frameEnd, monitorB := s.timing.monitorB.frameEnd } }) ?_ (followEntries_officeMoves hb _)
  exact officeMoves_of_kept le_rfl (fun _ => rfl) (selectionKept_of_loop rfl rfl)

/-! ### The handlings (R69) -/

/-- The stages of qualification that the handlings `todo` bring (R68, R69). -/
def stagesLeft (superframe : Bool) (todo : List Handling) : Nat := if superframe = true ∧ .otu ∈ todo then 1 else 0

theorem stagesLeft_le (superframe : Bool) (todo : List Handling) : stagesLeft superframe todo ≤ 1 := by
  unfold stagesLeft
  split <;> omega

theorem otuBoundary_officeMoves {c : Nat} (hc : c < 15) {s : State} (superframe apart : Bool)
    (hm : s.timing.mode = .manual) :
    s.officeMoves (stagesLeft superframe [.otu] + c) c (s.otuBoundary superframe apart) := by
  cases superframe with
  | false =>
    have none : stagesLeft false [.otu] + c = c := Nat.zero_add c
    rw [none]
    exact monitors_officeMoves (by omega) s
  | true =>
    have one : stagesLeft true [.otu] + c = c + 1 := Nat.add_comm 1 c
    rw [one]
    exact officeMoves_trans (monitors_officeMoves (by omega) s)
      (otuSuperframe_officeMoves (by omega) apart ((monitors_keepsEnables s).mode.trans hm))

theorem storeBoundary_officeMoves {b : Nat} (hb : b < 16) (s : State) (superframe : Bool) (n : Fin 16) :
    s.officeMoves b b (s.storeBoundary superframe n) := by
  have slipped : s.officeMoves b b (if ((s.span n).boundary superframe).2 = .none then
      s.setSpan n ((s.span n).boundary superframe).1
      else (s.setSpan n ((s.span n).boundary superframe).1).offerSpanTrigger 3 n) := by
    split <;> exact officeMoves_of_timing rfl rfl
  have handled := officeMoves_trans slipped (publish_officeMoves hb _ n)
  unfold State.storeBoundary
  dsimp only
  generalize State.publish _ n = t at handled
  split
  · have committed : t.officeMoves b b (t.modSpan n Span.commitDrift) := officeMoves_of_timing rfl rfl
    exact officeMoves_trans handled (officeMoves_trans committed (publish_officeMoves hb _ n))
  · exact handled

/-- Every handling but that of an armed timer, in MANUAL mode. -/
theorem handle_officeMoves {c : Nat} (hc : c < 15) {s : State} (superframe apart : Bool) (done : List Handling) (h : Handling)
    (ho : s.examinesNothing superframe) (hm : s.timing.mode = .manual)
    (ht : ∀ k, h = .timer k → s.timers[k].armed = false) :
    s.officeMoves (stagesLeft superframe [h] + c) c (s.handle superframe apart done h) := by
  have le : c ≤ stagesLeft superframe [h] + c := Nat.le_add_left ..
  have moved {t : State} (k : s.officeMoves c c t) : s.officeMoves (stagesLeft superframe [h] + c) c t :=
    officeMoves_trans (officeMoves_of_kept le (fun _ => rfl) (selectionKept_refl s)) k
  have same {t : State} (e : t.timing = s.timing) (d : t.device = s.device) := moved (officeMoves_of_timing e d)
  cases h with
  | number => exact same rfl rfl
  | timer k =>
    have rests : s.handle superframe apart done (.timer k) = s := matchTimer_rests (.inl (ht k rfl))
    rw [rests]
    exact moved (officeMoves_refl c s)
  | store n => exact moved (storeBoundary_officeMoves (by omega) s superframe n)
  | otu => exact otuBoundary_officeMoves hc superframe apart hm
  | outputs => exact moved (officeMoves_of_kept le_rfl (fun _ => rfl) (selectionKept_of_loop rfl rfl))
  | swaps => cases superframe <;> exact same rfl rfl
  | units => cases superframe <;> exact same rfl rfl
  | orderChannel =>
    cases superframe with
    | false => exact same rfl rfl
    | true =>
      obtain ⟨channel, e⟩ := orderBoundary_beside s (fun n => decide (.store n ∈ done)) (ho.resolve_left nofun)
      exact same ((congrArg State.timing e).trans rfl) ((congrArg State.device e).trans rfl)

/-- A handling not to come again takes its stages from those to come. -/
theorem stagesLeft_cons {superframe : Bool} {h : Handling} {rest : List Handling} (hn : h ∉ rest) :
    stagesLeft superframe (h :: rest) = stagesLeft superframe [h] + stagesLeft superframe rest := by
  unfold stagesLeft
  by_cases hh : .otu = h
  · subst hh
    cases superframe <;> simp [hn]
  · simp [hh]

/-- Handlings of a boundary that take no order, with no timer armed among them, in MANUAL mode. -/
theorem handleAll_officeMoves {c : Nat} (hc : c < 14) (superframe apart : Bool) (todo done : List Handling) {s : State}
    (hn : todo.Nodup) (ho : s.examinesNothing superframe) (hm : s.timing.mode = .manual)
    (ht : ∀ k, .timer k ∈ todo → s.timers[k].armed = false) :
    s.officeMoves (stagesLeft superframe todo + c) c (s.handleAll superframe apart done todo) := by
  induction todo generalizing done s with
  | nil =>
    have none : stagesLeft superframe [] + c = c := by simp [stagesLeft]
    rw [none]
    exact officeMoves_refl c s
  | cons h rest ih =>
    obtain ⟨hnot, hrest⟩ := List.nodup_cons.mp hn
    have left := stagesLeft_le superframe rest
    rw [stagesLeft_cons hnot, Nat.add_assoc]
    refine officeMoves_trans (handle_officeMoves (by omega) superframe apart done h ho hm
      fun k e => ht k (e ▸ List.mem_cons_self)) (ih (h :: done) hrest ?_ ?_ fun k hk => ?_)
    · exact (handle_keeps s superframe apart done h ho).orders ho
    · exact (handle_mode s superframe apart done h ho).trans hm
    · rw [handle_timer s superframe apart done h k ho fun e => hnot (e ▸ hk)]
      exact ht k (List.mem_cons_of_mem h hk)

end Sys2Proof.Machine
end

