-- ==== Sys2Proof/Proofs/QualifiedAfterStages.lean ====
section
/-! An entry QUALIFIED once the stages of a boundary are over is QUALIFIED or FAULTED at the boundary's end (R66 to R68): what
faults it there does not clear there, since a span's DRIFT changes with its store's own handling alone, and once (R57, R60). -/

namespace Sys2Proof.Machine

/-! ### An entry moved with its fault condition, as a function of both (Table 4-4) -/

/-- The entry once it has moved with the fault condition `fault`. -/
def RefEntry.followed (x : RefEntry) (fault : Option FaultReason) : RefEntry :=
  match x.state, fault with
  | .disabled, _ => x
  | .faulted, some why => { x with reason := why }
  | .faulted, none => x.requalify
  | .qualifying, some why => { x with state := .faulted, count := 0, reason := why }
  | .qualified, some why => { x with state := .faulted, count := 0, reason := why }
  | .qualifying, none => x
  | .qualified, none => x

theorem followEntry_entry (s : State) (e : Fin 4) : (s.followEntry e).entry e = (s.entry e).followed (s.entryFault e) := by
  have faulted (why : FaultReason) :
      (s.faultEntry e why).entry e = { s.entry e with state := .faulted, count := 0, reason := why } :=
    (faultEntry_entry s e e why).trans (setEntry_entry s e _)
  unfold State.followEntry RefEntry.followed
  cases h : (s.entry e).state with
  | disabled => rfl
  | faulted =>
    cases k : s.entryFault e with
    | none => exact setEntry_entry s e _
    | some why => simp only [setEntry_entry, h]
  | qualifying =>
    cases k : s.entryFault e with
    | none => rfl
    | some why => exact faulted why
  | qualified =>
    cases k : s.entryFault e with
    | none => rfl
    | some why => exact faulted why

/-- Each entry moves by its own fault condition, whatever the others do. -/
theorem followEntries_entry (s : State) (e : Fin 4) : s.followEntries.entry e = (s.entry e).followed (s.entryFault e) := by
  rw [followEntries_eq]
  have same (t : State) (x : Fin 4) (hx : e ≠ x) (k : t.entry e = s.entry e ∧ s.sameFaults t) :
      (t.followEntry x).entry e = s.entry e ∧ s.sameFaults (t.followEntry x) :=
    ⟨(followEntry_entry_ne t x e hx).trans k.1,
      fun y n => (sameFaults_of_timingActs (followEntry_acts t x) y n).trans (k.2 y n)⟩
  have own (t : State) (k : t.entry e = s.entry e ∧ s.sameFaults t) :
      (t.followEntry e).entry e = (s.entry e).followed (s.entryFault e) := by
    rw [followEntry_entry, State.entryFault, k.1, k.2]
    rfl
  have start : s.entry e = s.entry e ∧ s.sameFaults s := ⟨rfl, sameFaults_refl s⟩
  fin_cases e
  · exact ((followEntry_entry_ne _ 3 0 (by decide)).trans (followEntry_entry_ne _ 2 0 (by decide))).trans
      ((followEntry_entry_ne _ 1 0 (by decide)).trans (own s start))
  · exact ((followEntry_entry_ne _ 3 1 (by decide)).trans (followEntry_entry_ne _ 2 1 (by decide))).trans
      (own _ (same s 0 (by decide) start))
  · exact (followEntry_entry_ne _ 3 2 (by decide)).trans (own _ (same _ 1 (by decide) (same s 0 (by decide) start)))
  · exact own _ (same _ 2 (by decide) (same _ 1 (by decide) (same s 0 (by decide) start)))

/-- Moved again with the same fault condition, an entry stands. -/
theorem followed_followed (x : RefEntry) (fault : Option FaultReason) : (x.followed fault).followed fault = x.followed fault := by
  cases h : x.state <;> cases fault <;> simp [RefEntry.followed, RefEntry.requalify, h]

theorem followed_of_follows {s : State} {e : Fin 4} (h : s.follows e) : (s.entry e).followed (s.entryFault e) = s.entry e := by
  rw [← followEntry_entry, followEntry_of_follows s e h]

/-- A QUALIFIED entry stays so or is FAULTED (Table 4-4). -/
theorem followed_qualified {x : RefEntry} (fault : Option FaultReason) (h : x.state = .qualified) :
    (x.followed fault).state = .qualified ∨ (x.followed fault).state = .faulted := by
  unfold RefEntry.followed
  rw [h]
  cases fault with
  | none => exact .inl h
  | some why => exact .inr rfl

theorem publish_entry (s : State) (n : Fin 16) (e : Fin 4) : (s.publish n).entry e = (s.entry e).followed (s.entryFault e) := by
  have latched : s.sameFaults (s.modSpan n Span.latch) := sameFaults_modSpan s n Span.latch fun _ => rfl
  have fault : (s.modSpan n Span.latch).entryFault e = s.entryFault e := latched e _
  rw [State.publish, followEntries_entry, fault]
  rfl

/-! ### DRIFT at a boundary (R57, R60) -/

/-- DRIFT arises at a sample with a limit other than 0 alone. -/
theorem report_drift {m : Meter} (examined : Bool) (r : Report) (h : m.drift = false)
    (hd : (m.report examined r).1.drift = true) : m.limit ≠ 0 := by
  have counted : ((if r.centred then m.clearBaseline else m).countSlip r.slip).drift = false ∧
      ((if r.centred then m.clearBaseline else m).countSlip r.slip).limit = m.limit := by
    rw [countSlip_eq]
    split <;> exact ⟨h, rfl⟩
  rw [report_cases] at hd
  dsimp only at hd
  generalize (if r.centred then m.clearBaseline else m).countSlip r.slip = m1 at counted hd
  obtain ⟨off, limit⟩ := counted
  split at hd
  · cases hb : m1.baseline with
    | none =>
      rw [sample_of_no_baseline m1 _ hb] at hd
      exact absurd (off.symm.trans hd) nofun
    | some prev =>
      rw [sample_of_baseline m1 _ prev hb] at hd
      rintro zero
      rw [limit, zero] at hd
      cases hd
  · exact absurd (off.symm.trans hd) nofun

/-- A span without a line fault has no DRIFT (R67). -/
theorem drift_of_lineFault {sp : Span} (h : sp.lineFault = none) : sp.meter.drift = false := by
  unfold Span.lineFault at h
  split at h
  · cases h
  · split at h
    · cases h
    next hd => exact Bool.eq_false_iff.mpr hd

/-- The line fault is read off the line side and DRIFT (R67). -/
theorem lineFault_meter (sp : Span) (m : Meter) (h : m.drift = sp.meter.drift) :
    ({ sp with meter := m } : Span).lineFault = sp.lineFault := by
  unfold Span.lineFault
  rw [h]

/-- Settings in force already leave a DRIFT that has just arisen (R58, R60). -/
theorem boundary_commit_lineFault {sp : Span} (superframe : Bool) (hs : sp.meter.settled) (hf : sp.lineFault = none) :
    (sp.boundary superframe).1.latch.commitDrift.lineFault = (sp.boundary superframe).1.lineFault := by
  refine lineFault_meter (sp.boundary superframe).1.latch _ ?_
  have metered : (sp.boundary superframe).1.latch.meter = (sp.metered superframe).1 := boundary_meter sp superframe
  rw [metered]
  dsimp only [Meter.commit]
  cases hd : (sp.metered superframe).1.drift with
  | false => rfl
  | true =>
    have limit : sp.meter.limit ≠ 0 := report_drift _ _ (drift_of_lineFault hf) hd
    have settings : (sp.metered superframe).1.driftSettings = sp.meter.driftSettings := report_driftSettings _ _ _
    have stored : (sp.metered superframe).1.limitStored = sp.meter.limitStored := congrArg (fun x => x.1.2) settings
    rw [stored, hs.2]
    simpa using limit

/-! ### A store's own handling and the entries (R33, R51, R67) -/

/-- A store's handling, each change published as it happens: the report, and at an office superframe boundary the settings. -/
theorem storeBoundary_published (s : State) (superframe : Bool) (n : Fin 16) :
    ∃ u : State, (∀ e, u.entry e = s.entry e) ∧ (∀ m, m ≠ n → u.span m = s.span m) ∧
      u.span n = ((s.span n).boundary superframe).1 ∧ u.timing = s.timing ∧
      s.storeBoundary superframe n =
        if superframe then ((u.publish n).modSpan n Span.commitDrift).publish n else u.publish n := by
  refine ⟨if ((s.span n).boundary superframe).2 = .none then s.setSpan n ((s.span n).boundary superframe).1
    else (s.setSpan n ((s.span n).boundary superframe).1).offerSpanTrigger 3 n, fun e => ?_, fun m hm => ?_, ?_, ?_, rfl⟩
  · split <;> rfl
  · split <;> exact setSpan_span_ne s n m _ hm
  · split <;> exact setSpan_span s n _
  · split <;> rfl

/-- The fault condition of an entry is that of its own span, or of a monitor (R66, R67). -/
theorem faultOf_congr {s t : State} {e : Fin 4} {n : Fin 16} (ht : t.timing = s.timing)
    (hs : isLine e = true → (t.span n).lineFault = (s.span n).lineFault) : t.faultOf e n = s.faultOf e n := by
  unfold State.faultOf
  rw [ht]
  split
  next h => exact hs h
  next => rfl

/-- Where both changes of a store's handling leave the entry one fault condition, it moves with that. -/
theorem storeBoundary_entry {s : State} {superframe : Bool} {n : Fin 16} {e : Fin 4} {fault : Option FaultReason}
    (first : ∀ u : State, u.timing = s.timing → (∀ m, m ≠ n → u.span m = s.span m) →
      u.span n = ((s.span n).boundary superframe).1 → u.faultOf e (s.entry e).span = fault)
    (second : isLine e = true → n = (s.entry e).span →
      ((s.span n).boundary superframe).1.latch.commitDrift.lineFault = ((s.span n).boundary superframe).1.lineFault) :
    (s.storeBoundary superframe n).entry e = (s.entry e).followed fault := by
  obtain ⟨u, entries, others, own, timing, handled⟩ := storeBoundary_published s superframe n
  have uFault : u.faultOf e (s.entry e).span = fault := first u timing others own
  have published : (u.publish n).entry e = (s.entry e).followed fault := by
    rw [publish_entry, State.entryFault, entries, uFault]
  rw [handled]
  split
  · obtain ⟨acts, ownSpan, otherSpans⟩ := publish_spec u n
    have span : ((u.publish n).entry e).span = (s.entry e).span := by
      obtain ⟨-, ⟨-, -, -, -, -, -, -, -, settings, -⟩, -⟩ := publish_becomes u n
      obtain ⟨-, -, -, hspan⟩ := settings e
      rw [hspan, entries]
    have sameFault : ((u.publish n).modSpan n Span.commitDrift).faultOf e (s.entry e).span = fault := by
      rw [← uFault]
      have kept : (u.publish n).faultOf e (s.entry e).span = u.faultOf e (s.entry e).span :=
        (sameFaults_of_timingActs acts e _).trans (sameFaults_modSpan u n Span.latch (fun _ => rfl) e _)
      rw [← kept]
      refine faultOf_congr rfl fun line => ?_
      by_cases hn : n = (s.entry e).span
      · rw [← hn, modSpan_span, ownSpan, own]
        exact second line hn
      · rw [modSpan_span_ne _ _ _ _ (Ne.symm hn)]
    have committed : ((u.publish n).modSpan n Span.commitDrift).entry e = (u.publish n).entry e := rfl
    rw [publish_entry, State.entryFault, committed, span, sameFault, published, followed_followed]
  · exact published

/-- An entry that follows, and does not name the span, stands (R67). -/
theorem storeBoundary_entry_other {s : State} (superframe : Bool) {n : Fin 16} {e : Fin 4} (h : s.follows e)
    (hn : isLine e = true → n ≠ (s.entry e).span) : (s.storeBoundary superframe n).entry e = s.entry e := by
  refine (storeBoundary_entry (fault := s.entryFault e) (fun u timing others _ => ?_) fun line k => absurd k (hn line)).trans
    (followed_of_follows h)
  exact faultOf_congr timing fun line => by rw [others _ (hn line).symm]

/-- A QUALIFIED LINE entry stays so or is FAULTED by its own span's store (R67). -/
theorem storeBoundary_entry_own {s : State} (superframe : Bool) {e : Fin 4} (line : isLine e = true) (h : s.follows e)
    (hq : (s.entry e).state = .qualified) (hs : (s.span (s.entry e).span).meter.settled) :
    ((s.storeBoundary superframe (s.entry e).span).entry e).state = .qualified ∨
      ((s.storeBoundary superframe (s.entry e).span).entry e).state = .faulted := by
  have none : (s.span (s.entry e).span).lineFault = none := by
    have clear := h.1 (.inr hq)
    unfold State.entryFault State.faultOf at clear
    rwa [if_pos line] at clear
  have moved := storeBoundary_entry (s := s) (superframe := superframe) (n := (s.entry e).span) (e := e)
    (fault := ((s.span (s.entry e).span).boundary superframe).1.lineFault)
    (fun u _ _ own => by unfold State.faultOf; rw [if_pos line, own])
    fun _ _ => boundary_commit_lineFault superframe hs none
  rw [moved]
  exact followed_qualified _ hq

/-! ### The handlings that follow the stages -/

/-- Entry `e` with the handlings `todo` still to come: QUALIFIED, or FAULTED for what none of them changes. -/
structure State.qualifiedOrLost (s : State) (e : Fin 4) (todo : List Handling) : Prop where
  safe : s.timingSafe
  settled : ∀ n, (s.span n).meter.settled
  state : (s.entry e).state = .qualified ∨
    (s.entry e).state = .faulted ∧ (isLine e = true → .store (s.entry e).span ∉ todo)

theorem handle_settled {s : State} (superframe apart : Bool) (done : List Handling) (h : Handling)
    (ho : s.examinesNothing superframe) (hs : ∀ n, (s.span n).meter.settled) (n : Fin 16) :
    ((s.handle superframe apart done h).span n).meter.settled := by
  rw [handle_span s superframe apart done h n ho]
  split
  · exact storeHandled_settled superframe fun _ => hs n
  · exact hs n

theorem handleAll_settled {s : State} (superframe apart : Bool) (todo done : List Handling) (ho : s.examinesNothing superframe)
    (hs : ∀ n, (s.span n).meter.settled) (n : Fin 16) :
    ((s.handleAll superframe apart done todo).span n).meter.settled :=
  (handleAll_induct (P := fun _ t => ∀ n, (t.span n).meter.settled) superframe apart todo done s
    (fun _ done h _ ht k => handle_settled superframe apart done h ht k) ho hs).2 n

theorem performAction_entry (s : State) (t : Timer) (e : Fin 4) : (s.performAction t).1.entry e = s.entry e := by
  unfold State.performAction
  split
  · rfl
  · rfl
  · rfl
  · rfl
  · unfold State.selectionRequest
    split_ifs <;> rfl

/-- A match selects, but changes no entry (R70). -/
theorem matchTimer_entry (s : State) (n : Fin 4) (e : Fin 4) : (s.matchTimer n).entry e = s.entry e := by
  unfold State.matchTimer
  dsimp only
  split
  · have timing (t : State) : (t.offerUnitTrigger 5 n).entry e = t.entry e :=
      congrArg (fun x : Timing => x.entries[e]) (offerUnitTrigger_timing t 5 n)
    rw [timing]
    exact performAction_entry s s.timers[n] e
  · rfl

/-- The office timing unit and the stores alone move entries, where no order is taken (R66 to R68). -/
theorem handle_entry (s : State) (superframe apart : Bool) (done : List Handling) (h : Handling) (e : Fin 4)
    (ho : s.examinesNothing superframe) (hn : h ≠ .otu) (hs : ∀ n, h ≠ .store n) :
    (s.handle superframe apart done h).entry e = s.entry e := by
  cases h with
  | number => rfl
  | timer n => exact matchTimer_entry s n e
  | store n => exact absurd rfl (hs n)
  | otu => exact absurd rfl hn
  | outputs => rfl
  | swaps => cases superframe <;> rfl
  | units => cases superframe <;> rfl
  | orderChannel =>
    cases superframe with
    | false => rfl
    | true =>
      obtain ⟨channel, k⟩ := orderBoundary_beside s (fun n => decide (.store n ∈ done)) (ho.resolve_left nofun)
      exact (congrArg (fun t : State => t.entry e) k).trans rfl

theorem handle_qualifiedOrLost {s : State} (superframe apart : Bool) (done : List Handling) {h : Handling}
    {rest : List Handling} {e : Fin 4} (ho : s.examinesNothing superframe) (hn : h ≠ .otu) (hnot : h ∉ rest)
    (q : s.qualifiedOrLost e (h :: rest)) : (s.handle superframe apart done h).qualifiedOrLost e rest := by
  refine ⟨handle_timingSafe superframe apart done h q.safe, handle_settled superframe apart done h ho q.settled, ?_⟩
  have stands (k : (s.handle superframe apart done h).entry e = s.entry e) :
      ((s.handle superframe apart done h).entry e).state = .qualified ∨
        ((s.handle superframe apart done h).entry e).state = .faulted ∧
          (isLine e = true → .store ((s.handle superframe apart done h).entry e).span ∉ rest) := by
    rw [k]
    exact q.state.imp_right fun m => ⟨m.1, fun line x => m.2 line (List.mem_cons_of_mem h x)⟩
  by_cases hs : ∃ n, h = .store n
  · obtain ⟨n, rfl⟩ := hs
    by_cases own : isLine e = true ∧ n = (s.entry e).span
    · obtain ⟨line, rfl⟩ := own
      have qualified : (s.entry e).state = .qualified := q.state.resolve_right fun m => m.2 line List.mem_cons_self
      obtain ⟨-, ⟨-, -, -, -, -, -, -, -, settings, -⟩, -⟩ := storeBoundary_becomes s superframe (s.entry e).span
      obtain ⟨-, -, -, span⟩ := settings e
      refine (storeBoundary_entry_own superframe line (q.safe.follow e) qualified (q.settled _)).imp_right fun m => ⟨m, fun _ => ?_⟩
      rw [State.handle, span]
      exact hnot
    · exact stands (storeBoundary_entry_other superframe (q.safe.follow e) fun line k => own ⟨line, k⟩)
  · exact stands (handle_entry s superframe apart done h e ho hn fun n k => hs ⟨n, k⟩)

theorem handleAll_qualifiedOrLost {s : State} (superframe apart : Bool) (todo done : List Handling) {e : Fin 4}
    (hn : todo.Nodup) (ho : s.examinesNothing superframe) (hotu : .otu ∉ todo) (q : s.qualifiedOrLost e todo) :
    (s.handleAll superframe apart done todo).qualifiedOrLost e [] := by
  induction todo generalizing done s with
  | nil => exact q
  | cons h rest ih =>
    obtain ⟨hnot, hrest⟩ := List.nodup_cons.mp hn
    exact ih (h :: done) hrest ((handle_keeps s superframe apart done h ho).orders ho)
      (fun k => hotu (List.mem_cons_of_mem h k))
      (handle_qualifiedOrLost superframe apart done ho (fun k => hotu (k ▸ List.mem_cons_self)) hnot q)

/-! ### The opening of a boundary -/

theorem law_timeout {s : State} (h : s.timing.law) : s.timeout.timing.law := by
  obtain ⟨entries, loop, qualified⟩ := (timingLaw_iff s).mp h
  cases hsel : s.timing.loop.selected with
  | none => rw [timeout_of_none hsel]; exact h
  | some e =>
    obtain ⟨u, drops, -, sameLoop, moved⟩ := timeout_drops hsel
    have enabled : (s.entry e).state ≠ .disabled := by rw [qualified e hsel]; nofun
    rw [drops]
    refine law_dropSelection (fun y => ?_) (sameLoop ▸ loop)
    rw [moved]
    exact entriesLaw_setEntry entries (entryLaw_timedOut (entries e) enabled) y

theorem law_acquisitionTimeout {s : State} (h : s.timing.law) : s.acquisitionTimeout.timing.law := by
  unfold State.acquisitionTimeout
  split
  · exact law_timeout h
  · exact h

theorem readSides_timingSafe {s : State} (l : List (Fin 16)) (h : s.timingSafe) :
    (l.foldl (fun s n => s.readSide n 336) s).timingSafe := by
  induction l generalizing s with
  | nil => exact h
  | cons n rest ih => exact ih (readSide_timingSafe n 336 h.law)

/-- The reads completed are published, and leave every entry following (R31, R67). -/
theorem finishReads_safe {s : State} (h : s.timing.law) : s.finishReads.timingSafe := by
  have split : allSpans = 0 :: allSpans.tail := rfl
  unfold State.finishReads
  rw [split, List.foldl_cons]
  exact readSides_timingSafe _ (readSide_timingSafe 0 336 h)

/-- The handlings of a boundary begin with every entry following its fault condition (R66, R67). -/
theorem opened_timingSafe {s : State} (received : Vector Byte 640) (h : s.timing.law) : (s.opened received).timingSafe := by
  refine openBoundary_timingSafe s.superframeNext ?_
  have timing := endFrame_timing s.acquisitionTimeout received
  refine (finishReads_safe (law_acquisitionTimeout h)).keep (sameFaults_of (fun n => ?_) (by rw [timing]) (by rw [timing]))
    timing
  rw [endFrame_span, lineFault_tx]

theorem opened_settled {s : State} (received : Vector Byte 640) (h : ∀ n, (s.span n).meter.settled) (n : Fin 16) :
    ((s.opened received).span n).meter.settled := by
  have ended := keepsDriftSettings_trans (keepsDriftSettings_of_spans (acquisitionTimeout_spans s))
    (endFrame_driftSettings s.acquisitionTimeout received)
  rw [State.opened, openBoundary_span, openBoundary_meter]
  exact settled_congr (ended n) (h n)

end Sys2Proof.Machine
end

