-- ==== Sys2Proof/Proofs/TimerMatches.lean ====
section
/-! A SELECT-REFERENCE action at its match and at the boundary it is made at, and with it O48 (R77, R104, R115, R116, R118). -/

namespace Sys2Proof.Machine

/-! ### A selection request in MANUAL mode (R77) -/

theorem selectionRequest_held {s : State} {e : Fin 4} (hm : s.timing.mode = .manual) (hs : s.timing.loop.selected = some e) :
    s.selectionRequest e = (s, .done) := by rw [selectionRequest_manual s e hm, if_pos hs]

theorem selectionRequest_notQualified {s : State} {e : Fin 4} (hm : s.timing.mode = .manual)
    (hs : s.timing.loop.selected ≠ some e) (hq : (s.entry e).state ≠ .qualified) :
    s.selectionRequest e = (s, .notQualified) := by rw [selectionRequest_manual s e hm, if_neg hs, if_neg hq]

theorem selectionRequest_selects {s : State} {e : Fin 4} (hm : s.timing.mode = .manual)
    (hs : s.timing.loop.selected ≠ some e) (hq : (s.entry e).state = .qualified) :
    s.selectionRequest e = (s.selectEntry e, .done) := by rw [selectionRequest_manual s e hm, if_neg hs, if_pos hq]

/-! ### A SELECT-REFERENCE action at its match (R115, R116) -/

/-- Timer `n` matches in `u`, with an action that requests entry `e`. -/
structure State.requestsAt (u : State) (n e : Fin 4) : Prop where
  armed : u.timers[n].armed = true
  matched : u.timers[n].matchAt = u.frameNumber
  action : u.timers[n].action = .selectReference
  param : u.timers[n].param = e

section

variable {u v : State} {n e : Fin 4} {o : TimerOutcome} (k : u.requestsAt n e) (hr : u.selectionRequest e = (v, o))
include k hr

/-- What a match leaves, by what its request leaves and its outcome. -/
theorem matchTimer_requests :
    u.matchTimer n = (v.setTimer n (u.timers[n].afterMatch o)).offerUnitTrigger 5 n := by
  rw [matchTimer_acts k.armed k.matched, performAction_select k.action, k.param, hr]

theorem matchTimer_requests_outcome : (u.matchTimer n).timers[n].lastOutcome = o := by
  rw [matchTimer_self k.armed k.matched, performAction_select k.action, k.param, hr, afterMatch_outcome]

theorem matchTimer_requests_timing : (u.matchTimer n).timing = v.timing := by
  rw [matchTimer_requests k hr, offerUnitTrigger_timing, setTimer_timing]

theorem matchTimer_requests_device : (u.matchTimer n).device = v.device := by
  rw [matchTimer_requests k hr, offerUnitTrigger_eq]
  split <;> rfl

theorem matchTimer_requests_triggers {w : Fin 4} (h : v.units[w].newTrigger = true) :
    (u.matchTimer n).units[w].newTrigger = true := by
  rw [matchTimer_requests k hr]
  exact ((offerUnitTrigger_triggersOnly _ 5 n).keepsTrigger w).trigger h

end

/-- A selection is fresh, with one reference switch (R70, R75). -/
theorem matchTimer_selects {u : State} {n e : Fin 4} (k : u.requestsAt n e)
    (hr : u.selectionRequest e = (u.selectEntry e, .done)) :
    (u.matchTimer n).freshly e ∧
      (u.matchTimer n).device.referenceSwitches = raise u.device.referenceSwitches := by
  have timing := matchTimer_requests_timing k hr
  constructor
  · constructor <;> rw [timing] <;> rfl
  · rw [matchTimer_requests_device k hr]
    rfl

/-- A selection triggers the units of trigger source 7 (R75, R123). -/
theorem selectEntry_triggers {u : State} (e : Fin 4) {w : Fin 4} (h : u.units[w].source = 7) :
    (u.selectEntry e).units[w].newTrigger = true := by
  unfold State.selectEntry
  rw [referenceSwitch_unit, if_pos h]

/-! ### The boundary up to the match -/

/-- What a boundary has done to entries and selection when a timer compares there, as `State.officeMoves` says it, but for
freshness, which ends where the boundary of an office superframe opens (R72). -/
structure State.officeReaches (b c : Nat) (s u : State) : Prop where
  away : ∀ y, (s.entry y).away b → (u.entry y).away c
  leaves : ∀ y, (s.entry y).state = .qualified → (u.entry y).state = .qualified ∨ (u.entry y).away c
  kept : u.timing.loop.selected = s.timing.loop.selected ∧ u.device.referenceSwitches = s.device.referenceSwitches ∨
    ∃ y, s.timing.loop.selected = some y ∧ (u.entry y).away c

/-- A boundary opens with the entries and the selection as the end of the office frame left them. -/
theorem openBoundary_officeReaches {a b c : Nat} {s t u : State} {superframe : Bool} (ended : s.officeMoves a b t)
    (h : (t.openBoundary superframe).officeMoves b c u) : s.officeReaches a c u := by
  refine ⟨fun y m => h.away y (ended.away y m), fun y m => ?_, ?_⟩
  · exact (ended.leaves y m).elim (h.leaves y) fun m => .inr (h.away y m)
  · rcases ended.kept with m | ⟨y, hy, m⟩
    · rcases h.kept with k | ⟨y, hy, k⟩
      · exact .inl ⟨k.selected.trans m.selected, k.switches.trans m.switches⟩
      · exact .inr ⟨y, m.selected.symm.trans hy, k⟩
    · exact .inr ⟨y, hy, h.away y m⟩

theorem opened_officeReaches {b c : Nat} (hb : b < 16) {s u : State} {received : Vector Byte 640}
    (h : (s.opened received).officeMoves b c u) : s.officeReaches b c u :=
  openBoundary_officeReaches
    (officeMoves_trans (acquisitionTimeout_officeMoves hb s) (endFrame_officeMoves hb _ received)) h

/-- A boundary of `s` that ends in `t`, in MANUAL mode, with no order to take and no timer armed but `n`, moves no entry to
another state. -/
structure State.entriesStand (s t : State) (n : Fin 4) : Prop where
  orders : s.takesNoOrder
  law : s.timing.law
  manual : s.timing.mode = .manual
  others : ∀ k, k ≠ n → s.timers[k].armed = false
  settled : ∀ m, (s.span m).meter.settled
  entries : ∀ y, (t.entry y).state = (s.entry y).state

section

variable {s u : State} {egress : Vector Byte 640} {order pre post : List Handling} {apart : Bool} {n : Fin 4}
  (h : s.comparesAt egress order apart n pre post u) (stand : s.entriesStand (s.boundary egress order apart) n)
include h stand

theorem State.comparesAt.reaches {c : Nat} (hc : c < 14) :
    s.officeReaches (stagesLeft s.superframeNext pre + c) c u := by
  have := stagesLeft_le s.superframeNext pre
  refine opened_officeReaches (received := egress) (by omega) ?_
  rw [h.before]
  refine handleAll_officeMoves hc _ apart pre [] h.nodup.1 (opened_examinesNothing egress stand.orders)
    ((opened_mode s egress).trans stand.manual) fun k hk => ?_
  rw [opened_timers]
  exact stand.others k fun e => h.notBefore (e ▸ hk)

/-- The handlings after the match, and the beginning of the next office frame. -/
theorem State.comparesAt.movesOn :
    (u.matchTimer n).officeMoves (stagesLeft s.superframeNext post) 0 (s.boundary egress order apart) := by
  obtain ⟨-, nodupPost, disjoint⟩ := h.nodup
  have handled := handleAll_officeMoves (c := 0) (by omega) s.superframeNext apart post (.timer n :: (pre.reverse ++ []))
    nodupPost h.matchOrders ((matchTimer_mode u n).trans ((h.mode stand.orders).trans stand.manual)) fun k hk => by
      have other : n ≠ k := fun e => h.notAfter (e ▸ hk)
      rw [matchTimer_timer u other, h.before,
        handleAll_timer _ _ pre _ _ k (opened_examinesNothing egress stand.orders) (disjoint _ hk), opened_timers]
      exact stand.others k other.symm
  rw [h.after]
  exact officeMoves_trans handled (officeMoves_of_timing rfl rfl)

/-- An entry QUALIFIED at both ends of the boundary is so at the match: once away, it would stay so. -/
theorem State.comparesAt.qualified {y : Fin 4} (hq : (s.entry y).state = .qualified) : (u.entry y).state = .qualified := by
  have := stagesLeft_le s.superframeNext post
  refine ((h.reaches (c := stagesLeft s.superframeNext post) stand (by omega)).leaves y hq).resolve_right fun m => ?_
  rw [← matchTimer_entry u n y] at m
  exact ((h.movesOn stand).away y m).1 ((stand.entries y).trans hq)

/-- The match finds the selection as it was before the boundary. -/
theorem State.comparesAt.selection :
    u.timing.loop.selected = s.timing.loop.selected ∧ u.device.referenceSwitches = s.device.referenceSwitches := by
  obtain ⟨-, -, selects⟩ := (timingLaw_iff s).mp stand.law
  refine (h.reaches (c := 0) stand (by omega)).kept.resolve_right fun ⟨y, hy, m⟩ => ?_
  exact m.1 (h.qualified stand (selects y hy))

/-- What the match leaves selected, QUALIFIED at both ends of the boundary, stays selected. -/
theorem State.comparesAt.selectionStays
    (hq : ∀ y, (u.matchTimer n).timing.loop.selected = some y → (s.entry y).state = .qualified) :
    (u.matchTimer n).selectionKept (s.boundary egress order apart) :=
  (h.movesOn stand).kept.resolve_right fun ⟨y, hy, m⟩ => m.1 ((stand.entries y).trans (hq y hy))

/-- An entry not QUALIFIED at either end is not so at the match. Before the stages it cannot become so. If it does so with
them, it ends QUALIFIED or FAULTED; and FAULTED before the boundary, it would have had to qualify first (R68). -/
theorem State.comparesAt.notQualified {e : Fin 4} (hq : (s.entry e).state ≠ .qualified) :
    (u.entry e).state ≠ .qualified := by
  obtain ⟨laws, -, -⟩ := (timingLaw_iff s).mp stand.law
  have reaches := (h.reaches (c := 0) stand (by omega)).away e
  by_cases stages : s.superframeNext = true ∧ .otu ∈ pre
  · obtain ⟨-, otu⟩ := stages
    obtain ⟨-, nodupPost, disjoint⟩ := h.nodup
    have orders := opened_examinesNothing egress stand.orders
    intro now
    have safe : u.timingSafe := h.before ▸ handleAll_timingSafe _ apart pre [] (opened_timingSafe egress stand.law)
    have settled (m : Fin 16) : (u.span m).meter.settled :=
      h.before ▸ handleAll_settled _ apart pre [] orders (opened_settled egress stand.settled) m
    have compared : (u.matchTimer n).qualifiedOrLost e post := by
      refine ⟨matchTimer_timingSafe n safe, fun m => ?_, .inl ?_⟩
      · rw [State.span, matchTimer_spans]
        exact settled m
      · rw [matchTimer_entry]
        exact now
    have ended := (handleAll_qualifiedOrLost s.superframeNext apart post (.timer n :: (pre.reverse ++ [])) nodupPost
      h.matchOrders (fun k => disjoint _ k otu) compared).state
    have entry : (s.boundary egress order apart).entry e =
        ((u.matchTimer n).handleAll s.superframeNext apart (.timer n :: (pre.reverse ++ [])) post).entry e :=
      (congrArg (fun t : State => t.entry e) h.after).trans rfl
    rw [← entry, stand.entries] at ended
    rcases ended with k | ⟨k, -⟩
    · exact hq k
    · exact (reaches (away_of_idle (.inl k))).1 now
  · have none : stagesLeft s.superframeNext pre = 0 := if_neg stages
    rw [none] at reaches
    exact (reaches (away_of_law (laws e) hq)).1

end

/-! ### The boundary of a SELECT-REFERENCE action (R70, R75, R77, R116) -/

section

variable {s u : State} {egress : Vector Byte 640} {order pre post : List Handling} {apart : Bool} {n e : Fin 4}
  (h : s.comparesAt egress order apart n pre post u) (stand : s.entriesStand (s.boundary egress order apart) n)
  (k : u.requestsAt n e)
include h stand k

/-- A request that selects nothing gives its outcome, and the boundary leaves the selection. -/
theorem State.comparesAt.requestRests {o : TimerOutcome} (hr : u.selectionRequest e = (u, o)) :
    (s.boundary egress order apart).timers[n].lastOutcome = o ∧
      (s.boundary egress order apart).timing.loop.selected = s.timing.loop.selected ∧
      (s.boundary egress order apart).device.referenceSwitches = s.device.referenceSwitches := by
  obtain ⟨-, -, selects⟩ := (timingLaw_iff s).mp stand.law
  obtain ⟨selected, switches⟩ := h.selection stand
  have timing := matchTimer_requests_timing k hr
  have stays := h.selectionStays stand fun y hy => selects y (by rw [← selected, ← timing]; exact hy)
  refine ⟨?_, ?_, ?_⟩
  · rw [h.left]
    exact matchTimer_requests_outcome k hr
  · rw [stays.selected, timing, selected]
  · rw [stays.switches, matchTimer_requests_device k hr, switches]

/-- A request that selects gives DONE, and the boundary leaves the entry freshly selected. -/
theorem State.comparesAt.requestSelects (hq : (s.entry e).state = .qualified)
    (hr : u.selectionRequest e = (u.selectEntry e, .done)) :
    (s.boundary egress order apart).timers[n].lastOutcome = .done ∧ (s.boundary egress order apart).freshly e ∧
      (s.boundary egress order apart).device.referenceSwitches = raise s.device.referenceSwitches ∧
      ∀ w : Fin 4, s.units[w].source = 7 → (s.boundary egress order apart).units[w].newTrigger = true := by
  obtain ⟨-, switches⟩ := h.selection stand
  obtain ⟨fresh, raised⟩ := matchTimer_selects k hr
  have stays := h.selectionStays stand fun y hy => by
    obtain rfl : e = y := Option.some.inj (fresh.selected.symm.trans hy)
    exact hq
  refine ⟨?_, stays.fresh e fresh, ?_, fun w hw => h.triggers ?_⟩
  · rw [h.left]
    exact matchTimer_requests_outcome k hr
  · rw [stays.switches, raised, switches]
  · exact matchTimer_requests_triggers k hr (selectEntry_triggers e ((h.source stand.orders w).trans hw))

end

/-! ### The maps at a match (R104) -/

theorem boundary_banks {s : State} (egress : Vector Byte 640) (order : List Handling) (apart : Bool) (ho : s.takesNoOrder) :
    (s.boundary egress order apart).highway.ingress.banks = s.highway.ingress.banks ∧
      (s.boundary egress order apart).highway.egress.banks = s.highway.egress.banks :=
  ⟨(boundary_map MapOf.ingress s egress order apart ho s.highway.ingress _ (opened_ingress s egress) rfl).1,
    (boundary_map MapOf.egress s egress order apart ho s.highway.egress _ (opened_egress s egress) rfl).1⟩

/-- Settles O48: the match of a SELECT-REFERENCE action by its request; at a boundary, the handlings before the match leave what
it finds, and those after it leave what it did. -/
theorem timerMatches : Obligations.TimerMatches := by
  unfold Obligations.TimerMatches
  refine ⟨?_, ?_, ?_⟩
  · intro m n x recorded offered armed matched action
    have made {v : State} {o : TimerOutcome} (hr : m.selectionRequest x.param = (v, o)) :
        m.matchTimer n = offered (v.setTimer n (recorded o)) := by
      rw [matchTimer_requests ⟨armed, matched, action, rfl⟩ hr, afterMatch_eq o armed]
      rfl
    exact ⟨fun auto => made (selectionRequest_auto m _ auto), fun manual held => made (selectionRequest_held manual held),
      fun manual other hq => made (selectionRequest_notQualified manual other hq),
      fun manual other hq => made (selectionRequest_selects manual other hq)⟩
  · intro s egress order apart n hr hd ho law others settled x e armed action manual
    refine ⟨_, whenRunning_of_runs s _ hr, fun matched entries => ?_⟩
    obtain ⟨pre, post, u, h⟩ := comparesAt_exists s egress order apart n ho
    have stand : s.entriesStand (s.boundary egress order apart) n := ⟨ho, law, manual, others, settled, entries⟩
    have timer := h.timer ho
    have k : u.requestsAt n e := by
      constructor <;> rw [timer]
      · exact armed
      · rw [← h.frameNumber]
        exact matched
      · exact action
    have mode : u.timing.mode = .manual := (h.mode ho).trans manual
    obtain ⟨selected, -⟩ := h.selection stand
    refine ⟨fun held => ?_, fun other hq => ?_, fun other hq => ?_⟩
    · obtain ⟨outcome, stays, switches⟩ := h.requestRests stand k (selectionRequest_held mode (selected.trans held))
      exact ⟨outcome, stays.trans held, switches⟩
    · exact h.requestRests stand k (selectionRequest_notQualified mode (selected ▸ other) (h.notQualified stand hq))
    · obtain ⟨outcome, fresh, switches, triggers⟩ :=
        h.requestSelects stand k hq (selectionRequest_selects mode (selected ▸ other) (h.qualified stand hq))
      exact ⟨outcome, fresh.selected, fresh.state, switches, fresh.lockCount, fresh.acqCount, triggers⟩
  · intro s egress order apart n hr hd ho x
    obtain ⟨pre, post, u, h⟩ := comparesAt_exists s egress order apart n ho
    have timer := h.timer ho
    obtain ⟨ingressBanks, egressBanks⟩ := boundary_banks egress order apart ho
    refine ⟨_, whenRunning_of_runs s _ hr, fun rests => ?_, fun armed matched => ?_, ingressBanks, egressBanks,
      fun within => boundary_frameNumber_undue egress order apart hd (.inl (superframeNext_eq_false within))⟩
    · rw [h.left, matchTimer_rests (by rw [timer, ← h.frameNumber]; exact rests), timer]
    have armedThen : u.timers[n].armed = true := timer ▸ armed
    have matchedThen : u.timers[n].matchAt = u.frameNumber := by rw [timer, ← h.frameNumber]; exact matched
    have record : (s.boundary egress order apart).timers[n] = x.afterMatch (u.performAction x).2 := by
      rw [h.left, matchTimer_self armedThen matchedThen, timer]
    have outcome : (s.boundary egress order apart).timers[n].lastOutcome = (u.performAction x).2 := by
      rw [record, afterMatch_outcome]
    refine ⟨?_, fun other => ?_, fun select auto => ?_, fun source => ?_, fun swaps => ?_, fun swaps => ?_⟩
    · rw [outcome, record]
      exact afterMatch_eq _ armed
    · rw [outcome]
      exact performAction_done other
    · rw [outcome, performAction_select select, selectionRequest_auto u _ ((h.mode ho).trans auto)]
    · exact h.triggers (matchTimer_triggers armedThen matchedThen ((h.source ho n).trans source))
    · exact h.swaps MapOf.ingress ho (opened_ingress s egress) rfl
        ⟨armedThen, matchedThen, (swapsIngress_iff _).mpr (timer ▸ swaps)⟩
    · exact h.swaps MapOf.egress ho (opened_egress s egress) rfl
        ⟨armedThen, matchedThen, (swapsEgress_iff _).mpr (timer ▸ swaps)⟩

end Sys2Proof.Machine
end

