-- ==== Sys2Proof/Proofs/UnitOrders.lean ====
section
/-! SET UNIT (O49); START, STOP, TRIGGER and READ UNIT, READ BUFFER and WRITE BUFFER (O50). -/

namespace Sys2Proof.Machine

/-! ### Reading the operands (Table 7-2) -/

theorem byte_of_below {k : Nat} {b : Byte} {n : Fin k} (h : below k b = some n) : b = BitVec.ofNat 8 n.val := by
  rw [← toNat_of_below h, BitVec.ofNat_toNat, BitVec.setWidth_eq]

theorem unitModeOf_code (m : UnitMode) : unitModeOf m.code = some m := by cases m <;> rfl

theorem unitModeOf_none (b : Byte) (h : 1 < b.toNat) : unitModeOf b = none := by
  have h0 : b ≠ 0 := byte_ne_of_lt h 0 (by decide)
  have h1 : b ≠ 1 := byte_ne_of_lt h 1 (by decide)
  rw [unitModeOf, if_neg h0, if_neg h1]

theorem unitModeOf_one {m : UnitMode} (h : unitModeOf 1 = some m) : m = .insert := by
  cases h
  rfl

/-- A point with the kind and the two arguments that name it (7.1). -/
def Point.named (p : Point) (kind a b : Byte) : Prop :=
  (kind = 0 ∧ (∃ n c, p = .rx n c ∧ a = BitVec.ofNat 8 n.val ∧ b = BitVec.ofNat 8 c.val)) ∨
    (kind = 1 ∧ (∃ n c, p = .tx n c ∧ a = BitVec.ofNat 8 n.val ∧ b = BitVec.ofNat 8 c.val)) ∨
    (kind = 2 ∧ (∃ l t, p = .ingress l t ∧ a = BitVec.ofNat 8 l.val ∧ b = BitVec.ofNat 8 t.val)) ∨
    (kind = 3 ∧ (∃ l t, p = .egress l t ∧ a = BitVec.ofNat 8 l.val ∧ b = BitVec.ofNat 8 t.val))

/-- A point as read is the one that its three bytes name. -/
theorem named_of_pointOf {p : Point} {kind a b : Byte} (h : pointOf kind a b = some p) : p.named kind a b := by
  unfold pointOf at h
  split at h
  next low =>
    split at h
    next n c hn hc =>
      cases h
      rcases low with rfl | rfl
      · exact .inl ⟨rfl, n, c, rfl, byte_of_below hn, byte_of_below hc⟩
      · exact .inr (.inl ⟨rfl, n, c, rfl, byte_of_below hn, byte_of_below hc⟩)
    next => cases h
  next =>
    split at h
    next high =>
      split at h
      next l t hl ht =>
        cases h
        rcases high with rfl | rfl
        · exact .inr (.inr (.inl ⟨rfl, l, t, rfl, byte_of_below hl, byte_of_below ht⟩))
        · exact .inr (.inr (.inr ⟨rfl, l, t, rfl, byte_of_below hl, byte_of_below ht⟩))
      next => cases h
    next => cases h

section

variable {p : Point} {kind a b : Byte} (h : p.named kind a b)
include h

theorem Point.named.read : pointOf kind a b = some p := by
  unfold pointOf
  rcases h with ⟨rfl, n, c, rfl, rfl, rfl⟩ | ⟨rfl, n, c, rfl, rfl, rfl⟩ | ⟨rfl, l, t, rfl, rfl, rfl⟩ |
    ⟨rfl, l, t, rfl, rfl, rfl⟩
  · rw [below_ofNat 16 n (by decide), below_ofNat 40 c (by decide)]
    rfl
  · rw [below_ofNat 16 n (by decide), below_ofNat 40 c (by decide)]
    rfl
  · rw [below_ofNat 4 l (by decide), below_ofNat 160 t (by decide)]
    rfl
  · rw [below_ofNat 4 l (by decide), below_ofNat 160 t (by decide)]
    rfl

theorem Point.named.bytes : p.bytes = [kind, a, b] := by
  rcases h with ⟨rfl, n, c, rfl, rfl, rfl⟩ | ⟨rfl, n, c, rfl, rfl, rfl⟩ | ⟨rfl, l, t, rfl, rfl, rfl⟩ |
    ⟨rfl, l, t, rfl, rfl, rfl⟩ <;> rfl

/-- The arguments of a point keep within the range of its kind. -/
theorem Point.named.inRange :
    (kind.toNat ≤ 1 ∧ a.toNat ≤ 15 ∧ b.toNat ≤ 39) ∨ (2 ≤ kind.toNat ∧ kind.toNat ≤ 3 ∧ a.toNat ≤ 3 ∧ b.toNat ≤ 159) := by
  have le {k : Nat} (n : Fin (k + 1)) : (BitVec.ofNat 8 n.val).toNat ≤ k :=
    (BitVec.toNat_ofNat n.val 8).trans_le ((Nat.mod_le _ _).trans n.is_le)
  rcases h with ⟨rfl, n, c, -, rfl, rfl⟩ | ⟨rfl, n, c, -, rfl, rfl⟩ | ⟨rfl, l, t, -, rfl, rfl⟩ | ⟨rfl, l, t, -, rfl, rfl⟩
  · exact .inl ⟨by decide, le n, le c⟩
  · exact .inl ⟨by decide, le n, le c⟩
  · exact .inr ⟨by decide, by decide, le l, le t⟩
  · exact .inr ⟨by decide, by decide, le l, le t⟩

/-- The management slot is IN(0, 0) and EG(0, 0) (R130 step 2). -/
theorem Point.named.management : p.management = true ↔ 2 ≤ kind.toNat ∧ a = 0 ∧ b = 0 := by
  have zero {k : Nat} (n : Fin (k + 1)) (hk : k < 256) : n = 0 ↔ BitVec.ofNat 8 n.val = 0 := by
    rw [Fin.ext_iff, BitVec.toNat_eq, BitVec.toNat_ofNat, Nat.mod_eq_of_lt (by omega)]
    rfl
  rcases h with ⟨rfl, n, c, rfl, rfl, rfl⟩ | ⟨rfl, n, c, rfl, rfl, rfl⟩ | ⟨rfl, l, t, rfl, rfl, rfl⟩ |
    ⟨rfl, l, t, rfl, rfl, rfl⟩
  · exact ⟨nofun, fun k => absurd k.1 (by decide)⟩
  · exact ⟨nofun, fun k => absurd k.1 (by decide)⟩
  · rw [← zero l (by decide), ← zero t (by decide)]
    simp [Point.management]
  · rw [← zero l (by decide), ← zero t (by decide)]
    simp [Point.management]

/-- INSERT can be set to TX and IN points alone, CAPTURE to any (R122). -/
theorem Point.named.allows (m : UnitMode) : m.allows p = true ↔ (m = .insert → kind = 1 ∨ kind = 2) := by
  cases m with
  | capture => exact ⟨fun _ => nofun, fun _ => rfl⟩
  | insert =>
    rcases h with ⟨rfl, n, c, rfl, -⟩ | ⟨rfl, n, c, rfl, -⟩ | ⟨rfl, l, t, rfl, -⟩ | ⟨rfl, l, t, rfl, -⟩
    · exact ⟨nofun, fun k => absurd (k rfl) (by decide)⟩
    · exact ⟨fun _ _ => .inl rfl, fun _ => rfl⟩
    · exact ⟨fun _ _ => .inr rfl, fun _ => rfl⟩
    · exact ⟨nofun, fun k => absurd (k rfl) (by decide)⟩

end

/-! ### SET UNIT (R130) -/

theorem takeSetUnit_bad (s : State) (tag number mode kind a b source count repeating : Byte)
    (h : 3 < number.toNat ∨ 1 < mode.toNat ∨ 3 < kind.toNat ∨ 1 < repeating.toNat ∨ 7 < source.toNat ∨ count = 0 ∨
      64 < count.toNat ∨ (kind.toNat ≤ 1 ∧ (15 < a.toNat ∨ 39 < b.toNat)) ∨
      (2 ≤ kind.toNat ∧ (3 < a.toNat ∨ 159 < b.toNat)) ∨ (mode = 1 ∧ (kind = 0 ∨ kind = 3))) :
    takeSetUnit tag number mode kind a b source count repeating s = s.refused 0x50 tag .badParameter := by
  unfold takeSetUnit
  split
  next u m p src rep hu hm hp hsrc hrep =>
    have named := named_of_pointOf hp
    have inRange := named.inRange
    rcases h with h | h | h | h | h | rfl | h | h | h | ⟨rfl, h⟩
    · cases hu.symm.trans (below_none 4 number h)
    · cases hm.symm.trans (unitModeOf_none mode h)
    · omega
    · cases hrep.symm.trans (boolOf_none repeating h)
    · cases hsrc.symm.trans (below_none 8 source h)
    · exact if_pos (.inl rfl)
    · exact if_pos (.inr h)
    · omega
    · omega
    · obtain rfl := unitModeOf_one hm
      have barred : UnitMode.allows .insert p = false := Bool.eq_false_iff.mpr fun allowed => by
        have := (named.allows .insert).mp allowed rfl
        rcases h with rfl | rfl <;> exact absurd this (by decide)
      rw [if_pos barred]
      exact ite_self _
  · rfl

/-- The order with its operands read: the management slot, then a running unit, then the record written. -/
theorem takeSetUnit_read (s : State) (tag kind a b count : Byte) (u : Fin 4) (m : UnitMode) (p : Point) (src : Fin 8)
    (rep : Bool) (hp : p.named kind a b) (hone : 1 ≤ count.toNat) (hmax : count.toNat ≤ 64)
    (hm : m = .insert → kind = 1 ∨ kind = 2) :
    takeSetUnit tag (BitVec.ofNat 8 u.val) m.code kind a b (BitVec.ofNat 8 src.val) count (if rep then 1 else 0) s =
      if 2 ≤ kind.toNat ∧ a = 0 ∧ b = 0 then s.refused 0x50 tag .badSlot
      else if s.units[u].state = .running then s.refused 0x50 tag .unitRunning
      else
        (s.setUnit u { s.units[u] with
            mode := m, point := p, source := src, count := count.toNat, repeating := rep
            newTrigger := false, pending := false, state := .stopped }).replied 0x50 tag .done
          #v[0, m.code, kind, a, b, BitVec.ofNat 8 src.val, count, if rep then 1 else 0, 0] := by
  have counted : ¬(count.toNat = 0 ∨ 64 < count.toNat) := by omega
  have allowed : ¬m.allows p = false := fun k => Bool.false_ne_true (k.symm.trans ((hp.allows m).mpr hm))
  unfold takeSetUnit
  rw [below_ofNat 4 u (by decide), unitModeOf_code, hp.read, below_ofNat 8 src (by decide), boolOf_sel]
  dsimp only
  rw [if_neg counted, if_neg allowed]
  simp only [hp.management]
  rw [hp.bytes]
  rfl

/-- Settles O49: the operands out of range, or read, with the three tests that follow. -/
theorem setUnitActs : Obligations.SetUnitActs := by
  unfold Obligations.SetUnitActs
  intro s tag number mode kind a b source count repeating hr
  constructor
  · intro bad
    exact (whenRunning_of_runs s _ hr).trans (congrArg _ (takeSetUnit_bad s tag _ _ _ _ _ _ _ _ bad))
  intro u m p src rep hu hm hsrc hrep hp hone hmax allowed r
  have code : mode = m.code := hm.trans (by cases m <;> rfl)
  have read : r = .next _ := whenRunning_of_runs s _ hr
  subst hu code hsrc hrep
  rw [takeSetUnit_read s tag kind a b count u m p src rep hp hone hmax allowed] at read
  refine ⟨fun slot => ?_, fun slot running => ?_, fun slot stands => ?_⟩
  · rw [read, if_pos slot]
  · rw [read, if_neg slot, if_pos running]
  · rw [read, if_neg slot, if_neg stands]

/-! ### START UNIT, STOP UNIT and TRIGGER UNIT (R131 to R133) -/

/-- The unit flags byte, its bits spelled out (R134). -/
theorem unitFlags_eq (t : TestUnit) :
    t.flags =
      (if t.pending then 0x80 else 0) ||| (if t.newTrigger then 0x40 else 0) ||| (if t.collided then 0x20 else 0) |||
        (if t.mode = .insert then 0x10 else 0) ||| (if t.repeating then 0x08 else 0) ||| BitVec.ofNat 8 t.source.val := by
  obtain ⟨mode, _, _, _, _, _, _, _, _, _, _, _, _⟩ := t
  cases mode <;> rfl

theorem takeStartUnit_refused (s : State) (tag number : Byte) (h : 3 < number.toNat) :
    takeStartUnit tag number s = s.refused 0x51 tag .badParameter := by
  unfold takeStartUnit
  rw [below_none 4 number h]
  rfl

theorem takeStopUnit_refused (s : State) (tag number : Byte) (h : 3 < number.toNat) :
    takeStopUnit tag number s = s.refused 0x52 tag .badParameter := by
  unfold takeStopUnit
  rw [below_none 4 number h]
  rfl

theorem takeTriggerUnit_refused (s : State) (tag number : Byte) (h : 3 < number.toNat) :
    takeTriggerUnit tag number s = s.refused 0x53 tag .badParameter := by
  unfold takeTriggerUnit
  rw [below_none 4 number h]
  rfl

theorem takeStartUnit_read (s : State) (tag : Byte) (u : Fin 4) :
    let x := s.units[u]
    let t : TestUnit := { x with state := .running, pointer := 0, remaining := x.count, wraps := 0, collided := false }
    takeStartUnit tag (BitVec.ofNat 8 u.val) s =
      (s.setUnit u t).replied 0x51 tag .done #v[1, t.flags, 0, BitVec.ofNat 8 x.count, 0, 0, 0, 0, 0] := by
  unfold takeStartUnit
  rw [below_ofNat 4 u (by decide)]
  rfl

theorem takeStopUnit_read (s : State) (tag : Byte) (u : Fin 4) :
    let x := s.units[u]
    let t : TestUnit := { x with state := .stopped }
    takeStopUnit tag (BitVec.ofNat 8 u.val) s =
      (s.setUnit u t).replied 0x52 tag .done
        #v[0, t.flags, BitVec.ofNat 8 x.pointer.val, BitVec.ofNat 8 x.remaining, 0, 0, 0, 0, 0] := by
  unfold takeStopUnit
  rw [below_ofNat 4 u (by decide)]
  rfl

theorem takeTriggerUnit_read (s : State) (tag : Byte) (u : Fin 4) :
    takeTriggerUnit tag (BitVec.ofNat 8 u.val) s =
      (s.setUnit u s.units[u].trigger).replied 0x53 tag .done #v[s.units[u].trigger.flags, 0, 0, 0, 0, 0, 0, 0, 0] := by
  unfold takeTriggerUnit
  rw [below_ofNat 4 u (by decide)]
  rfl

/-! ### READ UNIT (R134) -/

theorem takeReadUnit_refused (s : State) (tag number : Byte) (h : 3 < number.toNat) :
    takeReadUnit tag number s = s.refused 0x54 tag .badParameter := by
  unfold takeReadUnit
  rw [below_none 4 number h]
  rfl

/-- The unit read byte by byte, its point as the three bytes that name it. -/
theorem takeReadUnit_read (s : State) (tag : Byte) (u : Fin 4) {flags kind a b : Byte} (hf : s.units[u].flags = flags)
    (hp : s.units[u].point.bytes = [kind, a, b]) :
    let x := s.units[u]
    takeReadUnit tag (BitVec.ofNat 8 u.val) s =
      s.replied 0x54 tag .done
        #v[x.state.code, flags, BitVec.ofNat 8 x.pointer.val, BitVec.ofNat 8 x.remaining, BitVec.ofNat 8 x.wraps, kind, a, b,
          BitVec.ofNat 8 x.count] := by
  unfold takeReadUnit
  rw [below_ofNat 4 u (by decide)]
  dsimp only
  rw [hf, hp]
  rfl

/-! ### READ BUFFER and WRITE BUFFER (R135) -/

theorem takeReadBuffer_refused (s : State) (tag number offset : Byte) (h : 3 < number.toNat ∨ 63 < offset.toNat) :
    takeReadBuffer tag number offset s = s.refused 0x55 tag .badParameter := by
  unfold takeReadBuffer
  split
  next hu ho =>
    rcases h with h | h
    · cases hu.symm.trans (below_none 4 number h)
    · cases ho.symm.trans (below_none 64 offset h)
  · rfl

theorem takeWriteBuffer_refused (s : State) (tag number offset : Byte) (d : Vector Byte 8)
    (h : 3 < number.toNat ∨ 63 < offset.toNat) :
    takeWriteBuffer tag number offset d s = s.refused 0x56 tag .badParameter := by
  unfold takeWriteBuffer
  split
  next hu ho =>
    rcases h with h | h
    · cases hu.symm.trans (below_none 4 number h)
    · cases ho.symm.trans (below_none 64 offset h)
  · rfl

theorem results9_bufferFrom (buffer : Vector Byte 64) (o : Fin 64) (b : Byte) :
    results9 (b :: bufferFrom buffer o) =
      Vector.ofFn fun i : Fin 9 => if i = 0 then b else buffer[(o.val + (i.val - 1)) % 64] := by
  have first : buffer[o] = buffer[(o.val + 0) % 64] := by simp [Nat.mod_eq_of_lt o.isLt]
  refine Vector.ext fun i hi => ?_
  rw [Vector.getElem_ofFn]
  interval_cases i
  · rfl
  · exact first
  all_goals rfl

theorem takeReadBuffer_read (s : State) (tag : Byte) (u : Fin 4) (o : Fin 64) :
    takeReadBuffer tag (BitVec.ofNat 8 u.val) (BitVec.ofNat 8 o.val) s =
      s.replied 0x55 tag .done
        (Vector.ofFn fun i : Fin 9 =>
          if i = 0 then BitVec.ofNat 8 o.val else s.units[u].buffer[(o.val + (i.val - 1)) % 64]) := by
  unfold takeReadBuffer
  rw [below_ofNat 4 u (by decide), below_ofNat 64 o (by decide), ← results9_bufferFrom]
  rfl

theorem takeWriteBuffer_read (s : State) (tag : Byte) (u : Fin 4) (o : Fin 64) (d : Vector Byte 8) :
    takeWriteBuffer tag (BitVec.ofNat 8 u.val) (BitVec.ofNat 8 o.val) d s =
      (s.setUnit u { s.units[u] with buffer := bufferWith s.units[u].buffer o d }).replied 0x56 tag .done
        #v[BitVec.ofNat 8 o.val, BitVec.ofNat 8 s.units[u].pointer.val, 0, 0, 0, 0, 0, 0, 0] := by
  unfold takeWriteBuffer
  rw [below_ofNat 4 u (by decide), below_ofNat 64 o (by decide)]
  rfl

theorem putByte_get (b : Vector Byte 64) (i j : Fin 64) (x : Byte) : (putByte b i x)[j] = if j - i = 0 then x else b[j] := by
  have place : i.val = j.val ↔ j - i = 0 := by rw [← Fin.ext_iff, sub_eq_zero, eq_comm]
  unfold putByte
  rw [Fin.getElem_fin, Vector.getElem_set]
  simp only [place]
  rfl

/-- The byte a write leaves at each place: the eight from the offset on are the data's. -/
theorem bufferWith_get (b : Vector Byte 64) (o j : Fin 64) (d : Vector Byte 8) :
    (bufferWith b o d)[j] = if h : (j - o).val < 8 then d[(j - o).val] else b[j] := by
  have ahead (i : Fin 64) : j - (o + i) = 0 ↔ j - o = i := by rw [← sub_sub, sub_eq_zero]
  unfold bufferWith
  simp only [putByte_get, ahead]
  generalize j - o = k
  by_cases h : k.val < 8
  · rw [dif_pos h]
    obtain ⟨k, hk⟩ := k
    interval_cases k <;> rfl
  · have far (i : Fin 64) (hi : i.val < 8) : k ≠ i := fun e => h (e ▸ hi)
    rw [dif_neg h, if_neg (far 7 (by decide)), if_neg (far 6 (by decide)), if_neg (far 5 (by decide)),
      if_neg (far 4 (by decide)), if_neg (far 3 (by decide)), if_neg (far 2 (by decide)), if_neg (far 1 (by decide)),
      if_neg (far 0 (by decide))]

theorem bufferWith_written (b : Vector Byte 64) (o : Fin 64) (d : Vector Byte 8) (i : Fin 8) :
    (bufferWith b o d)[(o.val + i.val) % 64] = d[i.val] := by
  have ahead : (⟨(o.val + i.val) % 64, Nat.mod_lt _ (by decide)⟩ - o : Fin 64).val = i.val := by
    rw [Fin.sub_def]
    dsimp only
    omega
  have written := bufferWith_get b o ⟨(o.val + i.val) % 64, Nat.mod_lt _ (by decide)⟩ d
  simp only [ahead, i.isLt, dif_pos] at written
  exact written

theorem bufferWith_kept (b : Vector Byte 64) (o j : Fin 64) (d : Vector Byte 8)
    (h : ∀ i : Fin 8, j.val ≠ (o.val + i.val) % 64) : (bufferWith b o d)[j.val] = b[j.val] := by
  refine (bufferWith_get b o j d).trans (dif_neg fun near => h ⟨(j - o).val, near⟩ ?_)
  have back : (j - o).val = (64 - o.val + j.val) % 64 := rfl
  dsimp only
  omega

theorem unitState_code (x : UnitState) :
    (x = .stopped → x.code = 0) ∧ (x = .running → x.code = 1) ∧ (x = .done → x.code = 2) := by
  cases x <;> simp [UnitState.code]

/-- Settles O50: each order refused, or with its operands read. -/
theorem unitControlAndReads : Obligations.UnitControlAndReads := by
  unfold Obligations.UnitControlAndReads
  have runs {s t v : State} (hr : s.officeRuns = true) (h : t = v) : whenRunning s t = .next v :=
    (whenRunning_of_runs s t hr).trans (congrArg Host.Outcome.next h)
  refine ⟨fun s tag hr => ⟨fun number h => ⟨?_, ?_, ?_⟩, fun u => ?_⟩, fun s tag hr => ⟨fun number _ h => ?_,
    fun number offset d h => ⟨?_, ?_⟩, fun u => ?_, fun u o d => ⟨?_, bufferWith s.units[u].buffer o d, ?_,
      bufferWith_written _ o d, fun j => ?_⟩⟩⟩
  · exact runs hr (takeStartUnit_refused s tag number h)
  · exact runs hr (takeStopUnit_refused s tag number h)
  · exact runs hr (takeTriggerUnit_refused s tag number h)
  · intro x flags started stopped triggered
    have spelled : flags = TestUnit.flags := funext fun y => (unitFlags_eq y).symm
    rw [spelled]
    exact ⟨runs hr (takeStartUnit_read s tag u), runs hr (takeStopUnit_read s tag u), runs hr (takeTriggerUnit_read s tag u)⟩
  · exact runs hr (takeReadUnit_refused s tag number h)
  · exact runs hr (takeReadBuffer_refused s tag number offset h)
  · exact runs hr (takeWriteBuffer_refused s tag number offset d h)
  · intro x
    have read {k a b : Byte} (h : x.point.bytes = [k, a, b]) := runs hr (takeReadUnit_read s tag u (unitFlags_eq x) h)
    obtain ⟨stopped, running, done⟩ := unitState_code x.state
    refine ⟨x.state.code, ?_⟩
    cases hp : x.point with
    | rx n c =>
      refine ⟨_, _, _, stopped, running, done, fun _ _ e => ?_, nofun, nofun, nofun, read (congrArg Point.bytes hp)⟩
      cases e
      exact ⟨rfl, rfl, rfl⟩
    | tx n c =>
      refine ⟨_, _, _, stopped, running, done, nofun, fun _ _ e => ?_, nofun, nofun, read (congrArg Point.bytes hp)⟩
      cases e
      exact ⟨rfl, rfl, rfl⟩
    | ingress l t =>
      refine ⟨_, _, _, stopped, running, done, nofun, nofun, fun _ _ e => ?_, nofun, read (congrArg Point.bytes hp)⟩
      cases e
      exact ⟨rfl, rfl, rfl⟩
    | egress l t =>
      refine ⟨_, _, _, stopped, running, done, nofun, nofun, nofun, fun _ _ e => ?_, read (congrArg Point.bytes hp)⟩
      cases e
      exact ⟨rfl, rfl, rfl⟩
  · exact runs hr (takeReadBuffer_read s tag u o)
  · exact runs hr (takeWriteBuffer_read s tag u o d)
  · exact bufferWith_kept _ o j d

end Sys2Proof.Machine
end

