-- ==== Sys2Proof/Proofs/TriggerSources.lean ====
section
/-! What each operation of a boundary offers the test units: the trigger sources of Table 7-3 that it can bring (R123). -/

namespace Sys2Proof.Machine

/-! ### The sources of what is offered -/

/-- Every unit that follows none of `sources` stands as it did. -/
def State.offersOnly (sources : List (Fin 8)) (s t : State) : Prop :=
  ∀ u : Fin 4, s.units[u].source ∉ sources → t.units[u] = s.units[u]

theorem offersOnly_of_units {sources : List (Fin 8)} {s t : State} (h : t.units = s.units) : s.offersOnly sources t :=
  fun u _ => by rw [h]

theorem offersOnly_refl (sources : List (Fin 8)) (s : State) : s.offersOnly sources s := offersOnly_of_units rfl

theorem offersOnly_trans {sources : List (Fin 8)} {s t v : State} (h : s.offersOnly sources t) (k : t.offersOnly sources v) :
    s.offersOnly sources v := fun u hu => by
  have first := h u hu
  rw [← first] at hu
  exact (k u hu).trans first

theorem offersOnly_mono {few many : List (Fin 8)} (sub : few ⊆ many) {s t : State} (h : s.offersOnly few t) :
    s.offersOnly many t := fun u hu => h u fun k => hu (sub k)

/-- The same where what was offered came to a state with these units. -/
theorem offersOnly_after {sources : List (Fin 8)} {s t v : State} (k : t.offersOnly sources v) (h : t.units = s.units) :
    s.offersOnly sources v := offersOnly_trans (offersOnly_of_units h) k

theorem offerTrigger_offers (s : State) (src : Fin 8) : s.offersOnly [src] (s.offerTrigger src) := fun u hu => by
  rw [offerTrigger_unit, if_neg fun k => hu (List.mem_singleton.mpr k)]

theorem offerSpanTrigger_offers (s : State) (src : Fin 8) (n : Fin 16) : s.offersOnly [src] (s.offerSpanTrigger src n) :=
  fun u hu => by rw [offerSpanTrigger_unit, if_neg fun k => hu (List.mem_singleton.mpr k.1)]

/-- An event offered to one unit triggers that unit where it follows the event's source, and no other. -/
theorem offerUnitTrigger_unit (s : State) (src : Fin 8) (v u : Fin 4) :
    (s.offerUnitTrigger src v).units[u] =
      if v = u ∧ s.units[u].source = src then { s.units[u] with newTrigger := true } else s.units[u] := by
  rw [offerUnitTrigger_eq]
  by_cases hv : v = u
  · subst hv
    by_cases hs : s.units[v].source = src
    · rw [if_pos hs, if_pos ⟨rfl, hs⟩, setUnit_unit]
      rfl
    · rw [if_neg hs, if_neg fun k => hs k.2]
  · have other (x : TestUnit) : (s.setUnit v x).units[u] = s.units[u] :=
      Vector.getElem_set_ne v.isLt u.isLt fun e => hv (Fin.ext e)
    rw [if_neg (fun k : v = u ∧ _ => hv k.1)]
    split
    · exact other _
    · rfl

theorem offerUnitTrigger_offers (s : State) (src : Fin 8) (v : Fin 4) : s.offersOnly [src] (s.offerUnitTrigger src v) :=
  fun u hu => by rw [offerUnitTrigger_unit, if_neg fun k => hu (List.mem_singleton.mpr k.2)]

/-! ### Office timing offers reference switches (R75) -/

theorem referenceSwitch_offers (s : State) : s.offersOnly [7] s.referenceSwitch :=
  offersOnly_after (offerTrigger_offers _ 7) rfl

theorem selectEntry_offers (s : State) (e : Fin 4) : s.offersOnly [7] (s.selectEntry e) := by
  unfold State.selectEntry
  exact offersOnly_after (referenceSwitch_offers _) rfl

theorem dropSelection_offers (s : State) : s.offersOnly [7] s.dropSelection := by
  unfold State.dropSelection
  exact offersOnly_trans (offersOnly_after (referenceSwitch_offers _) rfl)
    (offersOnly_of_units (latchDevice_units _))

theorem faultEntry_offers (s : State) (e : Fin 4) (why : FaultReason) : s.offersOnly [7] (s.faultEntry e why) := by
  unfold State.faultEntry State.dropIfSelected
  split
  · exact offersOnly_after (dropSelection_offers _) rfl
  · exact offersOnly_of_units rfl

theorem followEntry_offers (s : State) (e : Fin 4) : s.offersOnly [7] (s.followEntry e) := by
  unfold State.followEntry
  split
  · exact offersOnly_refl _ s
  · exact offersOnly_of_units rfl
  · exact offersOnly_of_units rfl
  · exact faultEntry_offers s e _
  · exact faultEntry_offers s e _
  · exact offersOnly_refl _ s
  · exact offersOnly_refl _ s

theorem followEntries_offers (s : State) : s.offersOnly [7] s.followEntries :=
  offersOnly_trans (offersOnly_trans (offersOnly_trans (followEntry_offers s 0) (followEntry_offers _ 1))
    (followEntry_offers _ 2)) (followEntry_offers _ 3)

theorem publish_offers (s : State) (n : Fin 16) : s.offersOnly [7] (s.publish n) :=
  offersOnly_after (followEntries_offers _) (modSpan_units s n Span.latch)

theorem finishReads_offers (s : State) : s.offersOnly [7] s.finishReads := by
  unfold State.finishReads
  induction allSpans generalizing s with
  | nil => exact offersOnly_refl _ s
  | cons n rest ih =>
    have read : s.offersOnly [7] (s.readSide n 336) :=
      offersOnly_after (publish_offers _ n) (modSpan_units s n _)
    exact offersOnly_trans read (ih _)

theorem timeout_offers (s : State) : s.offersOnly [7] s.timeout := by
  unfold State.timeout
  split
  · exact offersOnly_refl _ s
  · exact offersOnly_after (dropSelection_offers _) rfl

theorem acquisitionTimeout_offers (s : State) : s.offersOnly [7] s.acquisitionTimeout := by
  unfold State.acquisitionTimeout
  split
  · exact timeout_offers s
  · exact offersOnly_refl _ s

theorem autoSelect_offers (s : State) : s.offersOnly [7] s.autoSelect := by
  unfold State.autoSelect
  split
  · exact offersOnly_refl _ s
  · exact offersOnly_refl _ s
  · split
    · exact selectEntry_offers s _
    · split
      · exact selectEntry_offers s _
      · exact offersOnly_refl _ s

theorem lockStage_offers (s : State) (apart : Bool) : s.offersOnly [7] (s.lockStage apart) := by
  obtain e | ⟨l, e | e⟩ := lockStage_cases s apart <;> rw [e]
  · exact offersOnly_refl _ s
  · exact offersOnly_of_units (setLoop_units s l)
  · exact offersOnly_after (timeout_offers _) (setLoop_units s l)

theorem otuBoundary_offers (s : State) (superframe apart : Bool) : s.offersOnly [7] (s.otuBoundary superframe apart) := by
  have monitored : s.offersOnly [7] s.monitors := offersOnly_after (followEntries_offers _) rfl
  have stages (t : State) : t.offersOnly [7] (t.qualifyAll.autoSelect.lockStage apart) :=
    offersOnly_trans (offersOnly_after (autoSelect_offers _) (qualifyAll_units t)) (lockStage_offers _ apart)
  unfold State.otuBoundary
  split
  · obtain ⟨-, units⟩ := otuSuperframe_stages s.monitors apart
    exact offersOnly_trans (offersOnly_trans monitored (stages _)) (offersOnly_of_units units)
  · exact monitored

/-! ### Timers and stores (R36, R118) -/

theorem performAction_offers (s : State) (t : Timer) : s.offersOnly [7] (s.performAction t).1 := by
  unfold State.performAction
  split
  · exact offersOnly_refl _ s
  · exact offersOnly_of_units rfl
  · exact offersOnly_of_units rfl
  · exact offersOnly_of_units rfl
  · unfold State.selectionRequest
    split_ifs
    · exact offersOnly_refl _ s
    · exact offersOnly_refl _ s
    · exact selectEntry_offers s _
    · exact offersOnly_refl _ s

theorem matchTimer_offers (s : State) (n : Fin 4) : s.offersOnly [5, 7] (s.matchTimer n) := by
  unfold State.matchTimer
  dsimp only
  split
  · have acts : s.offersOnly [5, 7] (s.performAction s.timers[n]).1 := offersOnly_mono (by simp) (performAction_offers s _)
    exact offersOnly_trans (offersOnly_trans acts (offersOnly_of_units (setTimer_units _ n _)))
      (offersOnly_mono (by simp) (offerUnitTrigger_offers _ 5 n))
  · exact offersOnly_refl _ s

theorem storeBoundary_offers (s : State) (superframe : Bool) (n : Fin 16) :
    s.offersOnly [3, 7] (s.storeBoundary superframe n) := by
  have published {t : State} (h : s.offersOnly [3, 7] t) : s.offersOnly [3, 7] (t.publish n) :=
    offersOnly_trans h (offersOnly_mono (by simp) (publish_offers t n))
  have slipped {t : State} (h : s.offersOnly [3, 7] t) : s.offersOnly [3, 7] (t.offerSpanTrigger 3 n) :=
    offersOnly_trans h (offersOnly_mono (by simp) (offerSpanTrigger_offers t 3 n))
  have handled := offersOnly_of_units (sources := [3, 7]) (setSpan_units s n ((s.span n).boundary superframe).1)
  have first : s.offersOnly [3, 7] ((if ((s.span n).boundary superframe).2 = .none
      then s.setSpan n ((s.span n).boundary superframe).1
      else (s.setSpan n ((s.span n).boundary superframe).1).offerSpanTrigger 3 n).publish n) := by
    split
    · exact published handled
    · exact published (slipped handled)
  unfold State.storeBoundary
  dsimp only
  split
  · exact published (offersOnly_trans first (offersOnly_of_units (modSpan_units _ n _)))
  · exact first

/-! ### The handlings of a boundary -/

/-- The sources that a boundary can offer: superframe boundaries at one of those alone. -/
def boundarySources (superframe : Bool) : List (Fin 8) := if superframe then [1, 2, 3, 5, 7] else [1, 3, 5, 7]

theorem within_boundarySources (superframe : Bool) : [1, 3, 5, 7] ⊆ boundarySources superframe := by
  cases superframe <;> decide

/-- TRIGGER UNIT and chain triggers do not come with a boundary (sources 0 and 6). -/
theorem unoffered_sources {src : Fin 8} (h : src = 0 ∨ src = 6) (superframe : Bool) : src ∉ boundarySources superframe := by
  rcases h with rfl | rfl <;> cases superframe <;> decide

theorem handle_offers (s : State) (superframe apart : Bool) (done : List Handling) (h : Handling)
    (ho : s.examinesNothing superframe) : s.offersOnly (boundarySources superframe) (s.handle superframe apart done h) := by
  have among {few : List (Fin 8)} (sub : few ⊆ [1, 3, 5, 7]) : few ⊆ boundarySources superframe :=
    List.Subset.trans sub (within_boundarySources superframe)
  cases h with
  | number => exact offersOnly_of_units (formNumber_units s)
  | timer n => exact offersOnly_mono (among (by decide)) (matchTimer_offers s n)
  | store n => exact offersOnly_mono (among (by decide)) (storeBoundary_offers s superframe n)
  | otu => exact offersOnly_mono (among (by decide)) (otuBoundary_offers s superframe apart)
  | outputs => exact offersOnly_of_units (officePulses_units s _)
  | swaps => cases superframe <;> exact offersOnly_of_units rfl
  | units =>
    have once : s.offersOnly (boundarySources superframe) (s.offerTrigger 1) :=
      offersOnly_mono (among (by decide)) (offerTrigger_offers s 1)
    cases superframe with
    | false => exact once
    | true => exact offersOnly_trans once (offersOnly_mono (by decide) (offerTrigger_offers _ 2))
  | orderChannel =>
    cases superframe with
    | false => exact offersOnly_refl _ s
    | true =>
      obtain ⟨channel, e⟩ := orderBoundary_beside s (fun n => decide (.store n ∈ done)) (ho.resolve_left nofun)
      exact offersOnly_of_units ((congrArg State.units e).trans rfl)

theorem handleAll_offers (superframe apart : Bool) (todo done : List Handling) (s : State)
    (ho : s.examinesNothing superframe) :
    s.offersOnly (boundarySources superframe) (s.handleAll superframe apart done todo) :=
  (handleAll_induct (P := fun _ t => s.offersOnly (boundarySources superframe) t) superframe apart todo done s
    (fun t done h _ ht k => offersOnly_trans k (handle_offers t superframe apart done h ht)) ho (offersOnly_refl _ s)).2

/-! ### Boundaries as triggers (sources 1 and 2, R123) -/

/-- A unit that follows the boundaries of this kind. -/
def TestUnit.takesBoundary (x : TestUnit) (superframe : Bool) : Prop := x.source = 1 ∨ (x.source = 2 ∧ superframe = true)

theorem units_triggers (s : State) (superframe apart : Bool) (done : List Handling) (u : Fin 4)
    (hu : s.units[u].takesBoundary superframe) :
    (s.handle superframe apart done .units).units[u].newTrigger = true := by
  rcases hu with hu | ⟨hu, rfl⟩
  · have once : (s.offerTrigger 1).units[u].newTrigger = true := by
      rw [offerTrigger_unit, if_pos hu]
      rfl
    cases superframe with
    | false => exact once
    | true => exact ((offerTrigger_triggersOnly (s.offerTrigger 1) 2).keepsTrigger u).trigger once
  · have source := ((offerTrigger_triggersOnly s 1).keepsTrigger u).source
    change ((s.offerTrigger 1).offerTrigger 2).units[u].newTrigger = true
    rw [offerTrigger_unit, if_pos (source.trans hu)]
    rfl

/-- In whatever order the handlings come, a unit that follows these boundaries has a new trigger after them. -/
theorem handleAll_boundaryTriggers (superframe apart : Bool) (todo done : List Handling) (s : State) (u : Fin 4)
    (ho : s.examinesNothing superframe) (hmem : .units ∈ todo) (hu : s.units[u].takesBoundary superframe) :
    (s.handleAll superframe apart done todo).units[u].newTrigger = true := by
  induction todo generalizing done s with
  | nil => cases hmem
  | cons h rest ih =>
    have orders := (handle_keeps s superframe apart done h ho).orders ho
    by_cases hh : h = .units
    · subst hh
      exact ((handleAll_triggersOnly superframe apart rest _ _ orders).keepsTrigger u).trigger
        (units_triggers s superframe apart done u hu)
    · have source := ((handle_triggersOnly s superframe apart done h ho).keepsTrigger u).source
      refine ih _ _ orders ((List.mem_cons.mp hmem).resolve_left (Ne.symm hh)) ?_
      unfold TestUnit.takesBoundary
      rwa [source]

end Sys2Proof.Machine
end

