-- ==== Sys2Proof/Proofs/UnitTransfers.lean ====
section
/-! The transfers of the test units at the end of an office frame, and the units across a boundary that takes no order (O51). -/

namespace Sys2Proof.Machine

/-! ### One transfer (R126, R127) -/

/-- A unit as its transfer of `byte` leaves it, before its run advances: a capture enters the byte, and an insertion that `loses` the
arbiter has collided (R126, R129). -/
def TestUnit.takes (x : TestUnit) (byte : Byte) (loses : Bool) : TestUnit :=
  match x.mode with
  | .capture => { x with buffer := x.buffer.set x.pointer byte }
  | .insert => { x with collided := x.collided || loses }

/-- What a transfer moves is the byte or COLLIDED alone. -/
theorem takes_eq (x : TestUnit) (byte : Byte) (loses : Bool) :
    x.takes byte loses = { x with buffer := (x.takes byte loses).buffer, collided := (x.takes byte loses).collided } := by
  unfold TestUnit.takes
  split <;> rfl

/-- What advances is the run alone, and pending is served. -/
theorem advance_eq (t : TestUnit) :
    t.advance = { t with
      pending := false, state := t.advance.state, pointer := t.advance.pointer, remaining := t.advance.remaining
      wraps := t.advance.wraps } := by
  unfold TestUnit.advance
  dsimp only
  split_ifs <;> rfl

theorem advance_goesOn {t : TestUnit} (h : 1 < t.remaining) :
    t.advance = { t with pending := false, pointer := t.pointer + 1, remaining := t.remaining - 1 } :=
  if_neg (Nat.sub_ne_zero_of_lt h)

theorem advance_ends {t : TestUnit} (h : t.remaining = 1) (single : t.repeating = false) :
    t.advance = { t with pending := false, pointer := t.pointer + 1, remaining := 0, state := .done } := by
  unfold TestUnit.advance
  dsimp only
  rw [h, if_pos rfl, single]
  rfl

theorem advance_repeats {t : TestUnit} (h : t.remaining = 1) (repeats : t.repeating = true) :
    t.advance = { t with pending := false, pointer := 0, remaining := t.count, wraps := min (t.wraps + 1) 255 } := by
  unfold TestUnit.advance
  dsimp only
  rw [h, if_pos rfl, if_pos repeats]

/-- A new trigger has no part in a transfer (R126). -/
theorem takes_newTrigger (x : TestUnit) (byte : Byte) (loses n : Bool) :
    TestUnit.takes { x with newTrigger := n } byte loses = { x.takes byte loses with newTrigger := n } := by
  unfold TestUnit.takes
  dsimp only
  split <;> rfl

theorem advance_newTrigger (t : TestUnit) (n : Bool) :
    TestUnit.advance { t with newTrigger := n } = { t.advance with newTrigger := n } := by
  unfold TestUnit.advance
  dsimp only
  split_ifs <;> rfl

theorem transfers_iff (s : State) (u : Fin 4) :
    s.transfers u = true ↔ s.units[u].state = .running ∧ s.units[u].pending = true := by simp [State.transfers]

/-- A unit that makes no transfer is left as it is (R126). -/
theorem transferred_rests {s : State} (received : Vector Byte 640) {u : Fin 4} (h : s.transfers u = false) :
    s.transferred received u = s.units[u] := if_neg (Bool.eq_false_iff.mp h)

section

variable (x : TestUnit) (byte : Byte) (loses : Bool)

theorem served_goesOn (h : 1 < x.remaining) :
    let t := (x.takes byte loses).advance
    t.state = x.state ∧ t.pointer = x.pointer + 1 ∧ t.remaining = x.remaining - 1 ∧ t.wraps = x.wraps := by
  rw [takes_eq, advance_goesOn (by exact h)]
  exact ⟨rfl, rfl, rfl, rfl⟩

theorem served_ends (h : x.remaining = 1) (single : x.repeating = false) :
    let t := (x.takes byte loses).advance
    t.state = .done ∧ t.pointer = x.pointer + 1 ∧ t.remaining = 0 := by
  rw [takes_eq, advance_ends (by exact h) (by exact single)]
  exact ⟨rfl, rfl, rfl⟩

theorem served_repeats (h : x.remaining = 1) (repeats : x.repeating = true) :
    let t := (x.takes byte loses).advance
    t.state = x.state ∧ t.pointer = 0 ∧ t.remaining = x.count ∧ t.wraps = min (x.wraps + 1) 255 := by
  rw [takes_eq, advance_repeats (by exact h) (by exact repeats)]
  exact ⟨rfl, rfl, rfl, rfl⟩

/-- A capture enters one byte, and does not collide. -/
theorem served_captures (h : x.mode = .capture) :
    let t := (x.takes byte loses).advance
    t.buffer[x.pointer] = byte ∧ t.collided = x.collided ∧ ∀ j, j ≠ x.pointer → t.buffer[j] = x.buffer[j] := by
  have captured : x.takes byte loses = { x with buffer := x.buffer.set x.pointer byte } := by
    unfold TestUnit.takes
    rw [h]
  rw [advance_eq, captured]
  exact ⟨Vector.getElem_set_self _, rfl, fun j hj =>
    Vector.getElem_set_ne x.pointer.isLt j.isLt fun e => hj (Fin.ext e.symm)⟩

/-- An insertion leaves the buffer, and collides where it loses. -/
theorem served_inserts (h : x.mode = .insert) :
    let t := (x.takes byte loses).advance
    t.buffer = x.buffer ∧ (t.collided = true ↔ x.collided = true ∨ loses = true) := by
  have inserted : x.takes byte loses = { x with collided := x.collided || loses } := by
    unfold TestUnit.takes
    rw [h]
  rw [advance_eq, inserted]
  exact ⟨rfl, Bool.or_eq_true_iff⟩

end

/-- The lowest-numbered inserting unit wins, and every other loses (R129). -/
theorem loses_iff (s : State) (p : Point) (u : Fin 4) (h : s.inserts p u = true) :
    (s.winner p != some u) = true ↔ ∃ v, v < u ∧ s.inserts p v = true := by
  unfold State.winner
  generalize s.inserts p = f at h
  revert f u
  decide

theorem inserts_iff (s : State) (p : Point) (u : Fin 4) :
    s.inserts p u = true ↔
      s.units[u].state = .running ∧ s.units[u].pending = true ∧ s.units[u].mode = .insert ∧ s.units[u].point = p := by
  simp [State.inserts, State.transfers, and_assoc]

/-- A unit that makes its transfer takes the byte at its point, or loses its insertion where another unit wins; then its run
advances. -/
theorem transferred_moves {s : State} (received : Vector Byte 640) {u : Fin 4} (h : s.transfers u = true) :
    let x := s.units[u]
    s.transferred received u = (x.takes (s.pointByte received x.point) (s.winner x.point != some u)).advance :=
  if_pos h

/-- The record of a unit and its new-trigger flag do not change at a transfer (R120, R126). -/
theorem transferred_record (s : State) (received : Vector Byte 640) (u : Fin 4) :
    let x := s.units[u]
    let t := s.transferred received u
    t.mode = x.mode ∧ t.point = x.point ∧ t.source = x.source ∧ t.count = x.count ∧ t.repeating = x.repeating ∧
      t.newTrigger = x.newTrigger := by
  intro x t
  cases h : s.transfers u with
  | false =>
    have e : t = x := transferred_rests received h
    rw [e]
    exact ⟨rfl, rfl, rfl, rfl, rfl, rfl⟩
  | true =>
    have e : t = _ := transferred_moves received h
    rw [e, advance_eq, takes_eq]
    exact ⟨rfl, rfl, rfl, rfl, rfl, rfl⟩

/-- Pending is served by a transfer, and waits without one (R125, R126). -/
theorem transferred_pending (s : State) (received : Vector Byte 640) (u : Fin 4) :
    (s.transferred received u).pending = true ↔ s.units[u].pending = true ∧ s.units[u].state ≠ .running := by
  cases h : s.transfers u with
  | false =>
    rw [transferred_rests received h]
    exact ⟨fun k => ⟨k, fun r => Bool.false_ne_true (h.symm.trans ((transfers_iff s u).mpr ⟨r, k⟩))⟩, fun k => k.1⟩
  | true =>
    rw [transferred_moves received h, advance_eq]
    exact ⟨nofun, fun k => absurd ((transfers_iff s u).mp h).1 k.2⟩

/-! ### Chain triggers (R127) -/

/-- Where units are triggered and no more, a unit changes in its new-trigger flag alone. -/
theorem State.triggersOnly.unit {s t : State} (h : s.triggersOnly t) (u : Fin 4) :
    t.units[u] = { s.units[u] with newTrigger := t.units[u].newTrigger } := by
  rcases h u with e | e <;> rw [e]

theorem offerUnitTrigger_newTrigger (s : State) (src : Fin 8) (v u : Fin 4) :
    (s.offerUnitTrigger src v).units[u].newTrigger = true ↔
      s.units[u].newTrigger = true ∨ (v = u ∧ s.units[u].source = src) := by
  rw [offerUnitTrigger_unit]
  split
  next h => exact ⟨fun _ => .inr h, fun _ => rfl⟩
  next h => exact (or_iff_left h).symm

theorem chain_newTrigger (before s : State) (v u : Fin 4) :
    (before.chain s v).units[u].newTrigger = true ↔
      s.units[u].newTrigger = true ∨ (s.units[u].source = 6 ∧ v + 1 = u ∧ before.completesRun v = true) := by
  unfold State.chain
  cases before.completesRun v with
  | false => simp
  | true => rw [if_pos rfl, offerUnitTrigger_newTrigger, and_comm (a := v + 1 = u), eq_self, and_true]

/-- The chain triggers of some units, one after another. -/
theorem chains_newTrigger (before : State) (l : List (Fin 4)) (s : State) (u : Fin 4) :
    (l.foldl before.chain s).units[u].newTrigger = true ↔
      s.units[u].newTrigger = true ∨ (s.units[u].source = 6 ∧ ∃ v ∈ l, v + 1 = u ∧ before.completesRun v = true) := by
  induction l generalizing s with
  | nil => simp
  | cons v l ih =>
    rw [List.foldl_cons, ih, chain_newTrigger, ((chain_triggersOnly before s v).keepsTrigger u).source, or_assoc, ← and_or_left,
      List.exists_mem_cons_iff]

/-- A unit follows the chain trigger of the unit numbered one lower, which completes its run (R123, R127). -/
def State.chained (s : State) (u : Fin 4) : Prop := s.units[u].source = 6 ∧ s.completesRun (u - 1) = true

/-- The units once their transfers are made, before chain triggers are offered. -/
def State.transfersMade (s : State) (received : Vector Byte 640) : State :=
  { s with units := Vector.ofFn fun u => s.transferred received u }

theorem transfersMade_unit (s : State) (received : Vector Byte 640) (u : Fin 4) :
    (s.transfersMade received).units[u] = s.transferred received u := by simp [State.transfersMade]

theorem unitsEndFrame_endFrame (s : State) (received : Vector Byte 640) (u : Fin 4) :
    (s.unitsEndFrame received).units[u] = ((allFour.foldl s.chain (s.transfersMade received)).units[u]).endFrame := by
  simp [State.unitsEndFrame, State.transfersMade]

/-- A unit at the end of an office frame: its transfer made, its triggers and a chain trigger pending (R125 to R127). -/
theorem unitsEndFrame_unit (s : State) (received : Vector Byte 640) (u : Fin 4) :
    ∃ p, (s.unitsEndFrame received).units[u] = { s.transferred received u with pending := p, newTrigger := false } ∧
      (p = true ↔ (s.transferred received u).pending = true ∨ s.units[u].newTrigger = true ∨ s.chained u) := by
  obtain ⟨-, -, source, -, -, newTrigger⟩ := transferred_record s received u
  have chain : (∃ v ∈ allFour, v + 1 = u ∧ s.completesRun v = true) ↔ s.completesRun (u - 1) = true := by
    have lower (v : Fin 4) : v + 1 = u ↔ v = u - 1 := eq_sub_iff_add_eq.symm
    simp [lower, mem_allFour]
  have flag := chains_newTrigger s allFour (s.transfersMade received) u
  rw [chain, transfersMade_unit, source, newTrigger] at flag
  refine ⟨_, ?_, Bool.or_eq_true_iff.trans (or_congr Iff.rfl flag)⟩
  rw [unitsEndFrame_endFrame, (chains_triggersOnly s allFour _).unit u, transfersMade_unit]
  rfl

/-! ### The frame in progress read to its end -/

section

variable {s t : State} (h : s.triggersOnly t)
include h

/-- A new trigger has no part in the transfers of the frame in progress (R125, R126). -/
theorem transfers_of_triggersOnly (u : Fin 4) : t.transfers u = s.transfers u := by
  rw [State.transfers, State.transfers, h.unit u]

theorem completesRun_of_triggersOnly (u : Fin 4) : t.completesRun u = s.completesRun u := by
  rw [State.completesRun, State.completesRun, transfers_of_triggersOnly h, h.unit u]

theorem chained_of_triggersOnly (u : Fin 4) : t.chained u ↔ s.chained u := by
  rw [State.chained, State.chained, completesRun_of_triggersOnly h, h.unit u]

end

section

variable {s t : State} (h : s.besideSpans t)
include h

theorem winner_beside (p : Point) : t.winner p = s.winner p := by
  rw [State.winner, State.winner, funext (inserts_beside h p)]

variable (htx : ∀ n, (t.span n).tx = (s.span n).tx)
include htx

/-- The byte at every point is that of the frame in progress (R121). -/
theorem pointByte_beside (received : Vector Byte 640) (p : Point) : t.pointByte received p = s.pointByte received p := by
  cases p with
  | rx n c => exact congrArg (fun w : Highway => w.retimed[n][c]) h.highway
  | tx n c => exact channelByte_beside h n (htx n) c
  | ingress l slot => exact ingressByte_beside h l slot
  | egress l slot => rfl

theorem transferred_beside (received : Vector Byte 640) (u : Fin 4) :
    t.transferred received u = { s.transferred received u with newTrigger := t.units[u].newTrigger } := by
  have unit := State.triggersOnly.unit h.units u
  have alike := transfers_of_triggersOnly h.units u
  cases moves : s.transfers u with
  | false => rw [transferred_rests received moves, transferred_rests received (alike.trans moves), ← unit]
  | true =>
    rw [transferred_moves received moves, transferred_moves received (alike.trans moves)]
    simp only [pointByte_beside h htx, winner_beside h]
    rw [unit, takes_newTrigger, advance_newTrigger]

end

/-- The state whose office frame ends: an acquisition timeout left to this moment made, the reads of the stores completed, the
management byte gathered (R31, R72, R137). -/
def State.frameRead (s : State) (received : Vector Byte 640) : State := s.acquisitionTimeout.finishReads.gather received[0]

theorem opened_units (s : State) (received : Vector Byte 640) :
    (s.opened received).units = ((s.frameRead received).unitsEndFrame received).units := by
  rw [State.opened, openBoundary_units]
  unfold State.endFrame State.frameRead
  dsimp only

theorem frameRead_units (s : State) (received : Vector Byte 640) :
    (s.frameRead received).units = s.acquisitionTimeout.finishReads.units := gather_units _ _

theorem frameRead_triggersOnly (s : State) (received : Vector Byte 640) : s.triggersOnly (s.frameRead received) :=
  triggersOnly_trans (besideSpans_trans (acquisitionTimeout_beside s) (finishReads_beside _)).units
    (triggersOnly_of_units (gather_units _ _))

/-- A unit that follows no reference switches enters the end of its frame as it is. -/
theorem frameRead_offers (s : State) (received : Vector Byte 640) : s.offersOnly [7] (s.frameRead received) :=
  offersOnly_trans (offersOnly_trans (acquisitionTimeout_offers s) (finishReads_offers _))
    (offersOnly_of_units (gather_units _ _))

theorem gather_transferred (s : State) (b : Byte) (received : Vector Byte 640) (u : Fin 4) :
    (s.gather b).transferred received u = s.transferred received u := by
  unfold State.gather
  split <;> rfl

theorem frameRead_transferred (s : State) (received : Vector Byte 640) (u : Fin 4) :
    (s.frameRead received).transferred received u =
      { s.transferred received u with newTrigger := (s.frameRead received).units[u].newTrigger } := by
  have tx (n : Fin 16) : (s.acquisitionTimeout.finishReads.span n).tx = (s.span n).tx := by
    have kept : s.acquisitionTimeout.span n = s.span n := by rw [State.span, State.span, acquisitionTimeout_spans]
    rw [finishReads_span, latch_tx, readTo_tx, kept]
  rw [frameRead_units, State.frameRead, gather_transferred]
  exact transferred_beside (besideSpans_trans (acquisitionTimeout_beside s) (finishReads_beside _)) tx received u

/-! ### The boundary -/

/-- A unit as the handlings of a boundary find it. -/
theorem opened_unit (s : State) (received : Vector Byte 640) (u : Fin 4) :
    ∃ p, (s.opened received).units[u] = { s.transferred received u with pending := p, newTrigger := false } ∧
      (p = true ↔ (s.transferred received u).pending = true ∨ (s.frameRead received).units[u].newTrigger = true ∨
        s.chained u) := by
  obtain ⟨p, unit, pends⟩ := unitsEndFrame_unit (s.frameRead received) received u
  rw [frameRead_transferred, chained_of_triggersOnly (frameRead_triggersOnly s received)] at pends
  rw [frameRead_transferred] at unit
  exact ⟨p, by rw [opened_units]; exact unit, pends⟩

theorem boundary_units (s : State) (egress : Vector Byte 640) (order : List Handling) (apart : Bool) :
    (s.boundary egress order apart).units =
      ((s.opened egress).handleAll s.superframeNext apart [] (schedule order)).units := rfl

section

variable {s : State} (egress : Vector Byte 640) (order : List Handling) (apart : Bool) (u : Fin 4) (ho : s.takesNoOrder)
include ho

/-- A unit across a boundary that takes no order: the handlings offer it triggers and no more. -/
theorem boundary_unit :
    ∃ p n, (s.boundary egress order apart).units[u] = { s.transferred egress u with pending := p, newTrigger := n } ∧
      (p = true ↔ (s.transferred egress u).pending = true ∨ (s.frameRead egress).units[u].newTrigger = true ∨ s.chained u) := by
  obtain ⟨p, unit, pends⟩ := opened_unit s egress u
  have handled := (handleAll_triggersOnly s.superframeNext apart (schedule order) [] (s.opened egress)
    (opened_examinesNothing egress ho)).unit u
  rw [unit] at handled
  exact ⟨p, _, handled, pends⟩

/-- A unit that follows boundaries of this kind has a trigger of the frame that begins (R124). -/
theorem boundary_newTrigger (hu : s.units[u].takesBoundary s.superframeNext) :
    (s.boundary egress order apart).units[u].newTrigger = true := by
  rw [boundary_units]
  refine handleAll_boundaryTriggers _ apart _ _ _ u (opened_examinesNothing egress ho) (mem_schedule order .units) ?_
  unfold TestUnit.takesBoundary
  rwa [opened_source]

/-- A unit that follows nothing the boundary offers begins the next frame with no trigger (R125). -/
theorem boundary_noTrigger (hu : s.units[u].source ∉ boundarySources s.superframeNext) :
    (s.boundary egress order apart).units[u].newTrigger = false := by
  obtain ⟨p, unit, -⟩ := opened_unit s egress u
  have stands := handleAll_offers s.superframeNext apart (schedule order) [] (s.opened egress)
    (opened_examinesNothing egress ho) u (by rwa [opened_source])
  rw [boundary_units, stands, unit]

end

/-- A unit that has a transfer left completes its run with the last of them (R127). -/
theorem completesRun_iff {s : State} {v : Fin 4} (lasts : s.units[v].state = .running → 1 ≤ s.units[v].remaining) :
    s.completesRun v = true ↔
      s.units[v].state = .running ∧ s.units[v].pending = true ∧ s.units[v].remaining = 1 := by
  have left : s.units[v].state = .running → (s.units[v].remaining ≤ 1 ↔ s.units[v].remaining = 1) := fun h =>
    (lasts h).ge_iff_eq'
  rw [State.completesRun, Bool.and_eq_true, transfers_iff, decide_eq_true_iff, and_assoc]
  exact and_congr_right fun h => and_congr_right fun _ => left h

/-- Settles O51: the unit across the boundary, with its transfer made or not, and the triggers it is offered there. -/
theorem unitTransfers : Obligations.UnitTransfers := by
  unfold Obligations.UnitTransfers
  intro s egress order apart u hr ho x v chained
  refine ⟨_, whenRunning_of_runs s _ hr, ?_⟩
  intro y
  obtain ⟨p, n, unit, pends⟩ : ∃ p n, y = { s.transferred egress u with pending := p, newTrigger := n } ∧ _ :=
    boundary_unit egress order apart u ho
  obtain ⟨mode, point, source, count, repeating, -⟩ := transferred_record s egress u
  have pending : y.pending = p := by rw [unit]
  refine ⟨unit ▸ mode, unit ▸ point, unit ▸ source, unit ▸ count, unit ▸ repeating, fun triggered => ?_, fun other lasts => ?_,
    fun h => boundary_newTrigger egress order apart u ho (.inl h), fun h => ⟨fun k => ?_, fun k => ?_⟩, fun h => ?_,
    fun rests => ?_, fun running waits => ?_⟩
  · rw [pending]
    exact pends.mpr (.inr (.inl (((frameRead_triggersOnly s egress).keepsTrigger u).trigger triggered)))
  · have enters := frameRead_offers s egress u fun k => other (List.mem_singleton.mp k)
    rw [pending, pends, transferred_pending, enters, State.chained, completesRun_iff lasts]
    exact or_comm.trans or_assoc
  · by_contra within
    have unoffered : x.source ∉ boundarySources s.superframeNext := by
      rw [h, superframeNext_eq_false within]
      decide
    exact absurd (k.symm.trans (boundary_noTrigger egress order apart u ho unoffered)) nofun
  · exact boundary_newTrigger egress order apart u ho (.inr ⟨h, (superframeNext_iff s).mpr k⟩)
  · exact boundary_noTrigger egress order apart u ho (unoffered_sources h _)
  · have idle : s.transfers u = false := Bool.eq_false_iff.mpr fun k => by
      obtain ⟨running, waits⟩ := (transfers_iff s u).mp k
      exact rests.elim (· running) fun k => Bool.false_ne_true (k.symm.trans waits)
    rw [transferred_rests egress idle] at unit pends
    exact ⟨unit ▸ rfl, unit ▸ rfl, unit ▸ rfl, unit ▸ rfl, unit ▸ rfl, unit ▸ rfl, fun waits =>
      pending.trans (pends.mpr (.inl waits))⟩
  · have moves : s.transferred egress u = (x.takes (s.pointByte egress x.point) (s.winner x.point != some u)).advance :=
      transferred_moves egress ((transfers_iff s u).mpr ⟨running, waits⟩)
    have collides (inserts : x.mode = .insert) :=
      loses_iff s x.point u ((inserts_iff s x.point u).mpr ⟨running, waits, inserts, rfl⟩)
    generalize s.pointByte egress x.point = byte at moves ⊢
    generalize (s.winner x.point != some u) = loses at moves collides
    rw [unit, moves]
    refine ⟨fun more => ?_, served_ends x byte loses, fun last repeats => ?_, served_captures x byte loses, fun inserts => ?_⟩
    · rw [← running]
      exact served_goesOn x byte loses more
    · rw [← running]
      exact served_repeats x byte loses last repeats
    · obtain ⟨buffer, collided⟩ := served_inserts x byte loses inserts
      simp only [inserts_iff] at collides
      exact ⟨buffer, collided.trans (or_congr Iff.rfl (collides inserts))⟩

end Sys2Proof.Machine
end

