-- ==== Sys2Proof/Proofs/OrderCells.lean ====
section
/-! The bytes of a cell: the check word (O13), the order a cell carries (O14), an unassigned code (O18), and an order given as a
command (O15). -/

namespace Sys2Proof

/-! ### Bytes and words of a cell -/

/-- The check word takes the last two bytes of a cell and leaves the others alone. -/
@[simp] theorem sealCell_getElem (cell : Cell) (i : Nat) (h : i < 14) : (sealCell cell)[i] = cell[i] := by
  have h14 : (14 : Nat) ≠ i := by omega
  have h15 : (15 : Nat) ≠ i := by omega
  simp only [sealCell, Vector.getElem_set, h14, h15, if_false]

/-- The two bytes of a word, put together again. -/
theorem byteFields_append (w : Word) : (w.extractLsb' 8 8 ++ w.extractLsb' 0 8 : Word) = w := by
  rw [BitVec.extractLsb'_append_extractLsb'_eq_extractLsb' (by rfl)]
  exact BitVec.extractLsb'_eq_self

/-- The three bytes of a 24-bit field, put together again. -/
theorem byteFields_append_append (v : BitVec 24) :
    (v.extractLsb' 16 8 ++ v.extractLsb' 8 8 ++ v.extractLsb' 0 8 : BitVec 24) = v := by
  rw [BitVec.extractLsb'_append_extractLsb'_eq_extractLsb' (by rfl), BitVec.extractLsb'_append_extractLsb'_eq_extractLsb' (by rfl)]
  exact BitVec.extractLsb'_eq_self

theorem sealCell_checkWord (cell : Cell) : (sealCell cell)[14] ++ (sealCell cell)[15] = (0 - cellHead cell : Word) := by
  simp only [sealCell, Vector.getElem_set_self, Vector.getElem_set_ne, ne_eq, Nat.reduceEqDiff, not_false_eq_true]
  exact byteFields_append _

theorem cellWord_toNat (cell : Cell) (i : Fin 8) :
    (cellWord cell i).toNat = 256 * cell[2 * i.val].toNat + cell[2 * i.val + 1].toNat := by
  have low := cell[2 * i.val + 1].isLt
  rw [cellWord, BitVec.toNat_append, ← Nat.shiftLeft_add_eq_or_of_lt low, Nat.shiftLeft_eq]
  omega

theorem cellHead_toNat (cell : Cell) :
    (cellHead cell).toNat = (∑ i : Fin 7, (256 * cell[2 * i.val].toNat + cell[2 * i.val + 1].toNat)) % 65536 := by
  simp only [cellHead, BitVec.toNat_add, cellWord_toNat, Fin.sum_univ_succ, Fin.sum_univ_zero]
  simp
  omega

theorem cellSum_toNat (cell : Cell) :
    (cellSum cell).toNat = (∑ i : Fin 8, (256 * cell[2 * i.val].toNat + cell[2 * i.val + 1].toNat)) % 65536 := by
  rw [cellSum, BitVec.toNat_add, cellHead_toNat, cellWord_toNat, Fin.sum_univ_castSucc (n := 7), Nat.mod_add_mod]
  rfl

/-- A cell meets the check exactly where its eight words sum to 0 modulo 65536 (R138). -/
theorem meetsCheck_iff (cell : Cell) :
    meetsCheck cell = true ↔
      (∑ i : Fin 8, (256 * cell[2 * i.val].toNat + cell[2 * i.val + 1].toNat)) % 65536 = 0 := by
  rw [meetsCheck, beq_iff_eq, ← cellSum_toNat, ← BitVec.toNat_inj]
  rfl

/-- The check word is 65536 less the sum of the first seven words (R138). -/
theorem checkWord_eq (cell : Cell) :
    (sealCell cell)[14] ++ (sealCell cell)[15] =
      BitVec.ofNat 16 (65536 - (∑ i : Fin 7, (256 * cell[2 * i.val].toNat + cell[2 * i.val + 1].toNat)) % 65536) := by
  rw [sealCell_checkWord, ← cellHead_toNat]
  apply BitVec.eq_of_toNat_eq
  rw [BitVec.toNat_sub, BitVec.toNat_ofNat]
  rfl

theorem stampStatus_meetsCheck (n : FrameNumber) (cell : Cell) : meetsCheck (Machine.stampStatus n cell) = true :=
  meetsCheck_sealCell _

end Sys2Proof

namespace Sys2Proof.Machine

theorem judgeCell_empty (s : State) (sampled : Fin 16 → Bool) {cell : Cell} (h : cell[1] = 0) :
    s.judgeCell sampled cell = s := if_pos h

/-- Settles O13: the check word and the check, read as sums of the cell's words. -/
theorem checkWord : Obligations.CheckWord :=
  ⟨fun cell => ⟨checkWord_eq cell, fun i => sealCell_getElem cell i i.isLt, meetsCheck_iff cell, meetsCheck_sealCell cell⟩,
    fun _ _ => meetsCheck_sealCell _, fun _ => meetsCheck_sealCell _, stampStatus_meetsCheck,
    fun s sampled _ h => judgeCell_empty s sampled h⟩

/-! ### The order a cell carries (Table 8-4) -/

/-- A cell whose code is that of no order is read as an unknown order, its code and tag kept (R142). -/
theorem decodeOrder_unassigned {cell : Cell} (h : cell[1] ∉ assignedCodes) :
    decodeOrder cell = .unknownOrder cell[2] cell[1] := by
  have differs {n : Nat} (hn : cell[1].toNat = n) (hm : BitVec.ofNat 8 n ∈ assignedCodes) : False :=
    h (by rwa [← hn, BitVec.ofNat_toNat, BitVec.setWidth_eq] at hm)
  unfold decodeOrder
  dsimp only
  split
  case h_38 => rfl
  all_goals exact (differs ‹_› (by decide)).elim

theorem decodeOrder_sealCell (cell : Cell) : decodeOrder (sealCell cell) = decodeOrder cell := by
  simp only [decodeOrder, sealCell_getElem, Nat.reduceLT]

/-- Every assigned code is read as its own order, and every other as an unknown one: the order of a cell built for `i` is
`i` again (R141, R142). -/
theorem decodeOrder_orderCell {i : Instr} {station : Byte} {cell : Cell} (hw : i.wellFormed = true)
    (h : orderCell station i = some cell) : decodeOrder cell = i := by
  cases i with
  | unknownOrder tag code =>
    cases h
    simp only [Instr.wellFormed, unassignedCode, Bool.and_eq_true, bne_iff_ne, Bool.not_eq_true', List.contains_eq_mem,
      decide_eq_false_iff_not] at hw
    exact (decodeOrder_sealCell _).trans (decodeOrder_unassigned hw.2)
  | setThresholds tag n low high =>
    cases h
    exact (decodeOrder_sealCell _).trans (congrArg₂ (Instr.setThresholds tag n) (byteFields_append low) (byteFields_append high))
  | setDrift tag n k limit =>
    cases h
    exact (decodeOrder_sealCell _).trans (congrArg (Instr.setDrift tag n k) (byteFields_append limit))
  | setTimer tag n mode period action param =>
    cases h
    exact (decodeOrder_sealCell _).trans (congrArg (Instr.setTimer tag n mode · action param) (byteFields_append period))
  | loadMatch tag n value =>
    cases h
    exact (decodeOrder_sealCell _).trans (congrArg (Instr.loadMatch tag n) (byteFields_append_append value))
  | setFrameNumber tag value =>
    cases h
    exact (decodeOrder_sealCell _).trans (congrArg (Instr.setFrameNumber tag) (byteFields_append_append value))
  | writeBuffer tag n offset data =>
    cases h
    refine (decodeOrder_sealCell _).trans (congrArg (Instr.writeBuffer tag n offset) ?_)
    ext i hi
    interval_cases i <;> rfl
  | _ => cases h <;> exact decodeOrder_sealCell _

/-- Settles O14: every byte but the check word stands in the cell as `cellOf` places it. -/
theorem orderCellRoundTrip : Obligations.OrderCellRoundTrip := by
  intro i station cell hw h
  refine ⟨decodeOrder_orderCell hw h, ?_⟩
  cases i <;> cases h <;> exact sealCell_first _

/-- Settles O18: the code is tested as the order channel tests it, and read from a cell as an unknown order. -/
theorem unknownOrderAnswered : Obligations.UnknownOrderAnswered := by
  intro tag code h0 ha
  refine ⟨fun s hr => ?_, fun cell hc ht => ?_⟩
  · refine (whenRunning_of_runs s _ hr).trans (congrArg _ ?_)
    have unassigned : unassignedCode code = true :=
      Bool.and_eq_true_iff.mpr ⟨bne_iff_ne.mpr h0, by simp [ha]⟩
    rw [if_pos unassigned]
    rfl
  · subst hc ht
    exact decodeOrder_unassigned ha

/-- SET DRIFT given as a command comes into force at once, as after the sample of its boundary; an order that names no span
has none to wait for (R60). -/
theorem takeOrder_setDrift (s : State) (tag n k : Byte) (l : Word) :
    s.takeOrder (fun _ => true) (.setDrift tag n k l) = takeSetDrift true tag n k l s := by
  dsimp only [State.takeOrder]
  unfold takeSetDrift
  cases spanOf n <;> rfl

/-- An order of Table 8-4 given as a command, while office timing runs, is its taking (R141). -/
theorem exec_order {i : Instr} {s : State} {station : Byte} (hr : s.officeRuns = true) (hw : i.wellFormed = true)
    (ho : (orderCell station i).isSome = true) : exec i s = .next (s.takeOrder (fun _ => true) i) := by
  cases i with
  | unknownOrder tag code =>
    exact (whenRunning_of_runs s _ hr).trans (congrArg _ (if_pos hw))
  | setDrift tag n k l =>
    exact (whenRunning_of_runs s _ hr).trans (congrArg _ (takeOrder_setDrift s tag n k l).symm)
  | _ => cases ho <;> exact whenRunning_of_runs s _ hr

/-- Settles O15. -/
theorem directOrderIsTaking : Obligations.DirectOrderIsTaking := fun _ _ _ hw ho hr => exec_order hr hw ho

end Sys2Proof.Machine
end

