-- ==== Sys2Proof/Proofs/OrderChannel.lean ====
section
/-! What lies beside the order channel, the reply of every order taken, and the order channel's place in a boundary; that every
command completes (O2), and that every step keeps the send cell's law (O11). -/

namespace Sys2Proof.Machine

/-! ### Beside the order channel -/

/-- The queue, the station held, the order channel and CHECK ERRORS stand as they did, and no latched device alarm is lost. -/
structure State.besideChannel (s t : State) : Prop where
  pending : t.pending = s.pending
  station : t.restart.station = s.restart.station
  channel : t.channel = s.channel
  checkErrors : t.device.checkErrors = s.device.checkErrors
  latched : subset s.device.latched t.device.latched

theorem besideChannel_refl (s : State) : s.besideChannel s := ⟨rfl, rfl, rfl, rfl, subset_refl _⟩

theorem besideChannel_trans {s t u : State} (h : s.besideChannel t) (k : t.besideChannel u) : s.besideChannel u :=
  ⟨k.pending.trans h.pending, k.station.trans h.station, k.channel.trans h.channel, k.checkErrors.trans h.checkErrors,
    subset_trans h.latched k.latched⟩

/-- Where the restart's record and the device's too stand as they did. -/
theorem besideChannel_of {s t : State} (hp : t.pending = s.pending) (hr : t.restart = s.restart) (hc : t.channel = s.channel)
    (hd : t.device = s.device) : s.besideChannel t :=
  ⟨hp, by rw [hr], hc, by rw [hd], by rw [hd]; exact subset_refl _⟩

theorem besideChannel_of_timingActs {s t : State} (h : s.timingActs t) : s.besideChannel t := by
  obtain ⟨hp, hr, -, -, -, -, -, hc, -, -, -, -, -, -, -, -, -, -, -, -, he, -, hl⟩ := h
  exact ⟨hp, by rw [hr], hc, he, hl⟩

theorem State.eventAt.besideChannel {s t : State} {n : Fin 16} : s.eventAt n t → s.besideChannel t
  | ⟨_, _, ⟨_, hp, hr, _, _, _, _, _, _, _, _, _, _, _, _, _, _, _, he, _, hl⟩, hc⟩ => ⟨hp, by rw [hr], hc, he, hl⟩

theorem publish_besideChannel (s : State) (n : Fin 16) : s.besideChannel (s.publish n) :=
  State.eventAt.besideChannel ⟨_, publish_becomes s n⟩

/-! ### Office timing and the handlings beside the order channel -/

theorem timeout_besideChannel (s : State) : s.besideChannel s.timeout := by
  unfold State.timeout
  split
  · exact besideChannel_refl s
  · obtain ⟨hp, hr, hc, he, hl⟩ := besideChannel_of_timingActs (dropSelection_spec _).1
    exact ⟨hp, hr, hc, he, subset_trans (subset_or_left _ _) hl⟩

theorem acquisitionTimeout_besideChannel (s : State) : s.besideChannel s.acquisitionTimeout := by
  unfold State.acquisitionTimeout
  split
  · exact timeout_besideChannel s
  · exact besideChannel_refl s

theorem lockStage_besideChannel (s : State) (apart : Bool) : s.besideChannel (s.lockStage apart) := by
  have loop (l : Loop) : s.besideChannel (s.setLoop l) := besideChannel_of rfl rfl rfl rfl
  obtain e | ⟨l, e | e⟩ := lockStage_cases s apart <;> rw [e]
  · exact besideChannel_refl s
  · exact loop l
  · exact besideChannel_trans (loop l) (timeout_besideChannel _)

theorem autoSelect_besideChannel (s : State) : s.besideChannel s.autoSelect := by
  unfold State.autoSelect
  split
  · exact besideChannel_refl s
  · exact besideChannel_refl s
  · split
    · exact besideChannel_of_timingActs (selectEntry_spec s _).1
    · split
      · exact besideChannel_of_timingActs (selectEntry_spec s _).1
      · exact besideChannel_refl s

theorem monitors_besideChannel (s : State) : s.besideChannel s.monitors := by
  have followed := besideChannel_of_timingActs (followEntries_acts { s with timing := { s.timing with
    monitorA := s.timing.monitorA.frameEnd, monitorB := s.timing.monitorB.frameEnd } })
  exact ⟨followed.pending, followed.station, followed.channel, followed.checkErrors, followed.latched⟩

theorem otuSuperframe_besideChannel (s : State) (apart : Bool) : s.besideChannel (s.otuSuperframe apart) := by
  have qualified : s.besideChannel s.qualifyAll := besideChannel_of rfl rfl rfl rfl
  have staged := besideChannel_trans qualified
    (besideChannel_trans (autoSelect_besideChannel _) (lockStage_besideChannel _ apart))
  exact ⟨staged.pending, staged.station, staged.channel, staged.checkErrors, staged.latched⟩

theorem otuBoundary_besideChannel (s : State) (superframe apart : Bool) :
    s.besideChannel (s.otuBoundary superframe apart) := by
  unfold State.otuBoundary
  split
  · exact besideChannel_trans (monitors_besideChannel s) (otuSuperframe_besideChannel _ apart)
  · exact monitors_besideChannel s

theorem performAction_besideChannel (s : State) (t : Timer) : s.besideChannel (s.performAction t).1 := by
  unfold State.performAction
  split
  · exact besideChannel_refl s
  · exact besideChannel_of rfl rfl rfl rfl
  · exact besideChannel_of rfl rfl rfl rfl
  · exact besideChannel_of rfl rfl rfl rfl
  · exact besideChannel_of_timingActs (selectionRequest_acts s t.param)

theorem offerUnitTrigger_besideChannel (s : State) (src : Fin 8) (u : Fin 4) :
    s.besideChannel (s.offerUnitTrigger src u) := by
  rw [offerUnitTrigger_eq]
  split <;> exact besideChannel_of rfl rfl rfl rfl

theorem matchTimer_besideChannel (s : State) (n : Fin 4) : s.besideChannel (s.matchTimer n) := by
  unfold State.matchTimer
  dsimp only
  split
  · have written (t : State) (x : Timer) : t.besideChannel (t.setTimer n x) := besideChannel_of rfl rfl rfl rfl
    exact besideChannel_trans (performAction_besideChannel s _)
      (besideChannel_trans (written _ _) (offerUnitTrigger_besideChannel _ 5 n))
  · exact besideChannel_refl s

/-- Every handling but the order channel's leaves the order channel alone (R145). -/
theorem handle_besideChannel (s : State) (superframe apart : Bool) (done : List Handling) {h : Handling}
    (hc : h ≠ .orderChannel) : s.besideChannel (s.handle superframe apart done h) := by
  cases h with
  | number => exact besideChannel_of (formNumber_pending s) (formNumber_restart s) (formNumber_channel s) (formNumber_device s)
  | timer n => exact matchTimer_besideChannel s n
  | store n => exact State.eventAt.besideChannel ⟨_, storeBoundary_becomes s superframe n⟩
  | otu => exact otuBoundary_besideChannel s superframe apart
  | outputs => exact besideChannel_of rfl rfl rfl rfl
  | swaps => cases superframe <;> exact besideChannel_of rfl rfl rfl rfl
  | units => cases superframe <;> exact besideChannel_of rfl rfl rfl rfl
  | orderChannel => exact absurd rfl hc

theorem handleAll_besideChannel (superframe apart : Bool) (todo done : List Handling) (s : State)
    (hc : .orderChannel ∉ todo) : s.besideChannel (s.handleAll superframe apart done todo) := by
  induction todo generalizing done s with
  | nil => exact besideChannel_refl s
  | cons h rest ih =>
    have here : h ≠ .orderChannel := Ne.symm (List.ne_of_not_mem_cons hc)
    exact besideChannel_trans (handle_besideChannel s superframe apart done here) (ih _ _ (List.not_mem_of_not_mem_cons hc))

/-! ### An order taken and its reply (R141, R146) -/

/-- The reply of an order is pending, its code and tag echoed, and beside it the channel, the queue and the station held stand
as they did. -/
structure State.answers (s : State) (code tag : Byte) (t : State) : Prop where
  pending : t.pending = s.pending
  station : t.restart.station = s.restart.station
  channel : ∃ o r, t.channel = { s.channel with reply := some ⟨code, tag, o, r⟩ }

theorem State.besideChannel.answers {s t : State} (h : s.besideChannel t) (code tag : Byte) (o : OrderOutcome) (r : List Byte) :
    s.answers code tag (t.answer code tag o r) :=
  ⟨h.pending, h.station, o, results9 r, by rw [← h.channel]; rfl⟩

theorem modSpan_besideChannel (s : State) (n : Fin 16) (f : Span → Span) : s.besideChannel (s.modSpan n f) :=
  besideChannel_of rfl rfl rfl rfl

theorem publish_modSpan_besideChannel (s : State) (n : Fin 16) (f : Span → Span) :
    s.besideChannel ((s.modSpan n f).publish n) :=
  besideChannel_trans (modSpan_besideChannel s n f) (publish_besideChannel _ n)

theorem takeSetSpan_answers (tag a b c d e f : Byte) (s : State) : s.answers 0x10 tag (takeSetSpan tag a b c d e f s) := by
  unfold takeSetSpan
  split
  · exact (publish_modSpan_besideChannel s _ _).answers _ _ _ _
  · exact (besideChannel_refl s).answers _ _ _ _

theorem takeSpanRestart_answers (tag a : Byte) (s : State) : s.answers 0x11 tag (takeSpanRestart tag a s) := by
  unfold takeSpanRestart
  split
  · exact (besideChannel_refl s).answers _ _ _ _
  · exact (publish_modSpan_besideChannel s _ _).answers _ _ _ _

theorem takeSetDrift_answers (sampled : Bool) (tag a k : Byte) (l : Word) (s : State) :
    s.answers 0x15 tag (takeSetDrift sampled tag a k l s) := by
  unfold takeSetDrift
  split
  · exact (besideChannel_refl s).answers _ _ _ _
  next n _ =>
    have written := modSpan_besideChannel s n fun sp =>
      { sp with meter := { sp.meter with kStored := min k.toNat 7, limitStored := l.toNat } }
    cases sampled with
    | false => exact written.answers _ _ _ _
    | true => exact (besideChannel_trans written (publish_modSpan_besideChannel _ n _)).answers _ _ _ _

theorem takeSelectReference_answers (tag a : Byte) (s : State) : s.answers 0x22 tag (takeSelectReference tag a s) := by
  unfold takeSelectReference
  split
  · exact (besideChannel_refl s).answers _ _ _ _
  next e _ =>
    have requested := besideChannel_of_timingActs (selectionRequest_acts s e)
    split
    case h_1 k => rw [k] at requested; exact requested.answers _ _ _ _
    case h_2 k => rw [k] at requested; exact requested.answers _ _ _ _

theorem takeReadCounts_answers (tag a b c : Byte) (s : State) : s.answers 0x62 tag (takeReadCounts tag a b c s) := by
  unfold takeReadCounts
  split
  · exact ⟨rfl, rfl, _, _, rfl⟩
  next cl _ =>
    split
    · cases cl <;> exact ⟨rfl, rfl, _, _, rfl⟩
    · split
      · exact ⟨rfl, rfl, _, _, rfl⟩
      · dsimp only
        split_ifs <;> exact ⟨rfl, rfl, _, _, rfl⟩

/-- An event is no order and changes nothing where it is taken for one; every order answers with the code and the tag of its
own cell (R146). -/
theorem takeOrder_answers (sampled : Fin 16 → Bool) (s : State) (i : Instr) :
    (orderCell 0 i = none ∧ s.takeOrder sampled i = s) ∨
      ∃ code tag p, orderCell 0 i = some (cellOf 0 code tag p) ∧ s.answers code tag (s.takeOrder sampled i) := by
  have order {code tag : Byte} {p : List Byte} (hc : orderCell 0 i = some (cellOf 0 code tag p))
      (h : s.answers code tag (s.takeOrder sampled i)) :
      (orderCell 0 i = none ∧ s.takeOrder sampled i = s) ∨
        ∃ code tag p, orderCell 0 i = some (cellOf 0 code tag p) ∧ s.answers code tag (s.takeOrder sampled i) :=
    .inr ⟨code, tag, p, hc, h⟩
  cases i with
  | unknownOrder => exact order rfl ⟨rfl, rfl, _, _, rfl⟩
  | identify => exact order rfl ⟨rfl, rfl, _, _, rfl⟩
  | warmRestart => exact order rfl ⟨rfl, rfl, _, _, rfl⟩
  | readTiming => exact order rfl ⟨rfl, rfl, _, _, rfl⟩
  | setSpan => exact order rfl (takeSetSpan_answers _ _ _ _ _ _ _ s)
  | spanRestart => exact order rfl (takeSpanRestart_answers _ _ s)
  | setDrift => exact order rfl (takeSetDrift_answers _ _ _ _ _ s)
  | selectReference => exact order rfl (takeSelectReference_answers _ _ s)
  | readCounts => exact order rfl (takeReadCounts_answers _ _ _ _ s)
  | setReference =>
    refine order rfl ?_
    dsimp only [State.takeOrder]
    unfold takeSetReference
    split
    · split
      · exact ⟨rfl, rfl, _, _, rfl⟩
      · split <;> exact ⟨rfl, rfl, _, _, rfl⟩
    · exact ⟨rfl, rfl, _, _, rfl⟩
  | readSpan =>
    refine order rfl ?_
    dsimp only [State.takeOrder]
    unfold takeReadSpan
    split <;> exact ⟨rfl, rfl, _, _, rfl⟩
  | setThresholds =>
    refine order rfl ?_
    dsimp only [State.takeOrder]
    unfold takeSetThresholds
    split <;> exact ⟨rfl, rfl, _, _, rfl⟩
  | readStore =>
    refine order rfl ?_
    dsimp only [State.takeOrder]
    unfold takeReadStore
    split <;> exact ⟨rfl, rfl, _, _, rfl⟩
  | readDrift =>
    refine order rfl ?_
    dsimp only [State.takeOrder]
    unfold takeReadDrift
    split <;> exact ⟨rfl, rfl, _, _, rfl⟩
  | setTimingMode =>
    refine order rfl ?_
    dsimp only [State.takeOrder]
    unfold takeSetTimingMode
    split <;> exact ⟨rfl, rfl, _, _, rfl⟩
  | readReference =>
    refine order rfl ?_
    dsimp only [State.takeOrder]
    unfold takeReadReference
    split <;> exact ⟨rfl, rfl, _, _, rfl⟩
  | setTimingOutput =>
    refine order rfl ?_
    dsimp only [State.takeOrder]
    unfold takeSetTimingOutput
    split <;> exact ⟨rfl, rfl, _, _, rfl⟩
  | writeIngressEntry =>
    refine order rfl ?_
    dsimp only [State.takeOrder]
    unfold takeWriteIngressEntry
    split <;> [split_ifs <;> exact ⟨rfl, rfl, _, _, rfl⟩; exact ⟨rfl, rfl, _, _, rfl⟩]
  | writeEgressEntry =>
    refine order rfl ?_
    dsimp only [State.takeOrder]
    unfold takeWriteEgressEntry
    split <;> [split_ifs <;> exact ⟨rfl, rfl, _, _, rfl⟩; exact ⟨rfl, rfl, _, _, rfl⟩]
  | readIngressEntry =>
    refine order rfl ?_
    dsimp only [State.takeOrder]
    unfold takeReadIngressEntry
    split <;> [split_ifs <;> exact ⟨rfl, rfl, _, _, rfl⟩; exact ⟨rfl, rfl, _, _, rfl⟩]
  | readEgressEntry =>
    refine order rfl ?_
    dsimp only [State.takeOrder]
    unfold takeReadEgressEntry
    split <;> exact ⟨rfl, rfl, _, _, rfl⟩
  | swapMaps =>
    refine order rfl ?_
    dsimp only [State.takeOrder]
    unfold takeSwapMaps
    split <;> exact ⟨rfl, rfl, _, _, rfl⟩
  | copyMaps =>
    refine order rfl ?_
    dsimp only [State.takeOrder]
    unfold takeCopyMaps
    split <;> [exact ⟨rfl, rfl, _, _, rfl⟩; split_ifs <;> exact ⟨rfl, rfl, _, _, rfl⟩]
  | setTimer =>
    refine order rfl ?_
    dsimp only [State.takeOrder]
    unfold takeSetTimer
    split <;> [split_ifs <;> exact ⟨rfl, rfl, _, _, rfl⟩; exact ⟨rfl, rfl, _, _, rfl⟩]
  | loadMatch =>
    refine order rfl ?_
    dsimp only [State.takeOrder]
    unfold takeLoadMatch
    split <;> exact ⟨rfl, rfl, _, _, rfl⟩
  | armTimer =>
    refine order rfl ?_
    dsimp only [State.takeOrder]
    unfold takeArmTimer takeArming
    split <;> exact ⟨rfl, rfl, _, _, rfl⟩
  | disarmTimer =>
    refine order rfl ?_
    dsimp only [State.takeOrder]
    unfold takeDisarmTimer takeArming
    split <;> exact ⟨rfl, rfl, _, _, rfl⟩
  | readTimer =>
    refine order rfl ?_
    dsimp only [State.takeOrder]
    unfold takeReadTimer
    split <;> exact ⟨rfl, rfl, _, _, rfl⟩
  | setFrameNumber =>
    refine order rfl ?_
    dsimp only [State.takeOrder]
    unfold takeSetFrameNumber
    split_ifs <;> exact ⟨rfl, rfl, _, _, rfl⟩
  | setUnit =>
    refine order rfl ?_
    dsimp only [State.takeOrder]
    unfold takeSetUnit
    split <;> [split_ifs <;> exact ⟨rfl, rfl, _, _, rfl⟩; exact ⟨rfl, rfl, _, _, rfl⟩]
  | startUnit =>
    refine order rfl ?_
    dsimp only [State.takeOrder]
    unfold takeStartUnit
    split <;> exact ⟨rfl, rfl, _, _, rfl⟩
  | stopUnit =>
    refine order rfl ?_
    dsimp only [State.takeOrder]
    unfold takeStopUnit
    split <;> exact ⟨rfl, rfl, _, _, rfl⟩
  | triggerUnit =>
    refine order rfl ?_
    dsimp only [State.takeOrder]
    unfold takeTriggerUnit
    split <;> exact ⟨rfl, rfl, _, _, rfl⟩
  | readUnit =>
    refine order rfl ?_
    dsimp only [State.takeOrder]
    unfold takeReadUnit
    split <;> exact ⟨rfl, rfl, _, _, rfl⟩
  | readBuffer =>
    refine order rfl ?_
    dsimp only [State.takeOrder]
    unfold takeReadBuffer
    split <;> exact ⟨rfl, rfl, _, _, rfl⟩
  | writeBuffer =>
    refine order rfl ?_
    dsimp only [State.takeOrder]
    unfold takeWriteBuffer
    split <;> exact ⟨rfl, rfl, _, _, rfl⟩
  | readAlarms =>
    refine order rfl ?_
    dsimp only [State.takeOrder]
    unfold takeReadAlarms
    split <;> exact ⟨rfl, rfl, _, _, rfl⟩
  | clearLatched =>
    refine order rfl ?_
    dsimp only [State.takeOrder]
    unfold takeClearLatched
    split <;> exact ⟨rfl, rfl, _, _, rfl⟩
  | _ => exact .inl ⟨rfl, rfl⟩

theorem cellOf_code (station code tag : Byte) (p : List Byte) : (cellOf station code tag p)[1] = code :=
  sealCell_getElem _ 1 (by decide)

theorem cellOf_tag (station code tag : Byte) (p : List Byte) : (cellOf station code tag p)[2] = tag :=
  sealCell_getElem _ 2 (by decide)

/-- The order a cell carries has the code and the tag of the cell. -/
theorem orderCell_decodeOrder (cell : Cell) :
    ∃ p, orderCell 0 (decodeOrder cell) = some (cellOf 0 cell[1] cell[2] p) := by
  have read {n : Nat} (hn : cell[1].toNat = n) : BitVec.ofNat 8 n = cell[1] := by
    rw [← hn, BitVec.ofNat_toNat, BitVec.setWidth_eq]
  unfold decodeOrder
  dsimp only
  split
  case h_38 => exact ⟨_, rfl⟩
  all_goals exact ⟨_, congrArg (fun code => some (cellOf 0 code cell[2] _)) (read ‹_›)⟩

/-- The order of a cell is answered with the code and the tag of the cell (R146). -/
theorem decodeOrder_answers (sampled : Fin 16 → Bool) (s : State) (cell : Cell) :
    s.answers cell[1] cell[2] (s.takeOrder sampled (decodeOrder cell)) := by
  obtain ⟨p, carried⟩ := orderCell_decodeOrder cell
  obtain ⟨none, -⟩ | ⟨code, tag, q, own, h⟩ := takeOrder_answers sampled s (decodeOrder cell)
  · cases none.symm.trans carried
  · have same : cellOf 0 code tag q = cellOf 0 cell[1] cell[2] p := Option.some.inj (own.symm.trans carried)
    have hc : code = cell[1] := by rw [← cellOf_code 0 code tag q, same, cellOf_code]
    have ht : tag = cell[2] := by rw [← cellOf_tag 0 code tag q, same, cellOf_tag]
    rwa [hc, ht] at h

/-- The queue, the station held, and of the order channel all but the pending reply. -/
structure State.keepsCells (s t : State) : Prop where
  pending : t.pending = s.pending
  station : t.restart.station = s.restart.station
  receive : t.channel.receive = s.channel.receive
  send : t.channel.send = s.channel.send
  framed : t.channel.framed = s.channel.framed

theorem State.besideChannel.keepsCells {s t : State} (h : s.besideChannel t) : s.keepsCells t :=
  ⟨h.pending, h.station, by rw [h.channel], by rw [h.channel], by rw [h.channel]⟩

theorem State.answers.keepsCells {s t : State} {code tag : Byte} (h : s.answers code tag t) : s.keepsCells t := by
  obtain ⟨hp, hs, o, r, hc⟩ := h
  exact ⟨hp, hs, by rw [hc], by rw [hc], by rw [hc]⟩

theorem keepsCells_refl (s : State) : s.keepsCells s := ⟨rfl, rfl, rfl, rfl, rfl⟩

theorem takeOrder_keepsCells (sampled : Fin 16 → Bool) (s : State) (i : Instr) : s.keepsCells (s.takeOrder sampled i) := by
  obtain ⟨-, e⟩ | ⟨_, _, _, -, h⟩ := takeOrder_answers sampled s i
  · rw [e]; exact keepsCells_refl s
  · exact h.keepsCells

/-! ### The send cell and the receive cell at a superframe boundary (R140, R145) -/

/-- What becomes the send cell: the pending reply, or a status cell where none is pending (R145). -/
def State.sendCell (s : State) : Cell := s.channel.reply.elim s.statusCell s.replyCell

theorem formSend_eq (s : State) :
    s.formSend = { s with channel := { s.channel with send := some s.sendCell, reply := none } } := by
  unfold State.formSend State.sendCell
  cases s.channel.reply <;> rfl

theorem sendCell_meetsCheck (s : State) : meetsCheck s.sendCell = true := by
  unfold State.sendCell
  cases s.channel.reply <;> exact meetsCheck_sealCell _

theorem judgeCell_keepsCells (s : State) (sampled : Fin 16 → Bool) (cell : Cell) :
    s.keepsCells (s.judgeCell sampled cell) := by
  unfold State.judgeCell
  split_ifs
  · exact keepsCells_refl s
  · exact ⟨rfl, rfl, rfl, rfl, rfl⟩
  · exact takeOrder_keepsCells sampled s _
  · exact keepsCells_refl s

/-- The examination of the receive cell touches neither the send cell nor the framing of cells. -/
theorem examine_send (s : State) (sampled : Fin 16 → Bool) :
    (s.examine sampled).pending = s.pending ∧ (s.examine sampled).restart.station = s.restart.station ∧
      (s.examine sampled).channel.send = s.channel.send ∧ (s.examine sampled).channel.framed = s.channel.framed := by
  obtain ⟨hp, hs, -, send, framed⟩ := judgeCell_keepsCells s sampled s.channel.receive
  unfold State.examine
  split
  · exact ⟨hp, hs, send, framed⟩
  · exact ⟨rfl, rfl, rfl, rfl⟩

theorem orderBoundary_send (s : State) (sampled : Fin 16 → Bool) :
    (s.orderBoundary sampled).pending = s.pending ∧ (s.orderBoundary sampled).restart.station = s.restart.station ∧
      (s.orderBoundary sampled).channel.send = some s.sendCell ∧
      (s.orderBoundary sampled).channel.framed = s.channel.framed := by
  have examined := examine_send s.formSend sampled
  rw [formSend_eq] at examined
  rw [State.orderBoundary, formSend_eq]
  exact examined

/-! ### The order channel's place in a boundary (R141, R145) -/

/-- The order channel's handling comes once in a schedule. -/
theorem schedule_orderChannel (order : List Handling) :
    ∃ pre post, schedule order = pre ++ .orderChannel :: post ∧ .orderChannel ∉ pre ∧ .orderChannel ∉ post := by
  obtain ⟨pre, post, split⟩ := List.append_of_mem (mem_schedule order .orderChannel)
  obtain ⟨-, nodupRest, apartFrom⟩ := List.nodup_append.mp (split ▸ schedule_nodup order)
  exact ⟨pre, post, split, fun k => apartFrom _ k _ List.mem_cons_self rfl, (List.nodup_cons.mp nodupRest).1⟩

theorem orderChannel_not_added (l done : List Handling) (hl : .orderChannel ∉ l) (hd : .orderChannel ∉ done) :
    .orderChannel ∉ l.foldl addHandling done := by
  induction l generalizing done with
  | nil => exact hd
  | cons h l ih =>
    refine ih _ (List.not_mem_of_not_mem_cons hl) ?_
    rw [mem_addHandling]
    refine not_or.mpr ⟨hd, fun k => hl ?_⟩
    cases h with
    | orderChannel => exact List.mem_cons_self
    | timer n => simp [expand] at k
    | _ => simp [expand] at k

/-- The model's order of the handlings up to the order channel's. -/
def cellsOpeningOrder : List Handling := openingOrder ++ [.outputs, .swaps, .units]

/-- Handlings of the timers done, the order channel adds itself alone (R115). -/
theorem addHandling_orderChannel {done : List Handling} (fresh : .orderChannel ∉ done) (timers : ∀ n, .timer n ∈ done) :
    addHandling done .orderChannel = done ++ [.orderChannel] := by
  unfold addHandling
  dsimp only [expand]
  split <;> simp [fresh, timers]

/-- Where a command does not name the order channel's handling, it comes last, after every store's (R60, R141). -/
theorem schedule_orderChannel_last (order : List Handling) (h : .orderChannel ∉ order) :
    ∃ pre, schedule order = pre ++ [.orderChannel] ∧ .orderChannel ∉ pre ∧ ∀ n, .store n ∈ pre := by
  have parts : order ++ defaultOrder = (order ++ cellsOpeningOrder) ++ [.orderChannel] := by
    simp [defaultOrder, cellsOpeningOrder, openingOrder]
  have fresh : .orderChannel ∉ (order ++ cellsOpeningOrder).foldl addHandling [] :=
    orderChannel_not_added _ [] (by simp [h, cellsOpeningOrder, openingOrder]) nofun
  have opening {x : Handling} (hx : x ∈ cellsOpeningOrder) : x ∈ (order ++ cellsOpeningOrder).foldl addHandling [] :=
    mem_foldl_addHandling _ _ _ (.inr (List.mem_append_right _ hx))
  have timers (n : Fin 4) := opening (x := .timer n) (by revert n; decide)
  refine ⟨_, ?_, fresh, fun n => opening (by simp [cellsOpeningOrder, openingOrder, mem_allSpans])⟩
  rw [schedule, parts, List.foldl_append]
  exact addHandling_orderChannel fresh timers

/-- The handlings up to the order channel's, that one, and those after it. -/
theorem handleAll_orderChannel (apart : Bool) (pre post done : List Handling) (s : State) :
    s.handleAll true apart done (pre ++ .orderChannel :: post) =
      ((s.handleAll true apart done pre).orderBoundary fun n => decide (.store n ∈ pre.reverse ++ done)).handleAll true apart
        (.orderChannel :: (pre.reverse ++ done)) post := by
  rw [handleAll_append]
  rfl

theorem finishReads_besideChannel (s : State) : s.besideChannel s.finishReads := by
  unfold State.finishReads
  induction allSpans generalizing s with
  | nil => exact besideChannel_refl s
  | cons n rest ih =>
    exact besideChannel_trans (State.eventAt.besideChannel ⟨_, (becomes_refl s n).readSide 336⟩) (ih _)

theorem gather_pending (s : State) (b : Byte) : (s.gather b).pending = s.pending := by
  unfold State.gather; split <;> rfl

/-- The opening of a boundary, the office frame in progress ended: beside the channel, which gathers the frame's management
byte (R137), nothing of the queue, the station or the check errors is changed. -/
theorem opened_besideChannel (s : State) (received : Vector Byte 640) :
    (s.gather received[0]).besideChannel (s.opened received) := by
  have read := besideChannel_trans (acquisitionTimeout_besideChannel s) (finishReads_besideChannel _)
  have gathered : (s.gather received[0]).besideChannel (s.acquisitionTimeout.finishReads.gather received[0]) := by
    refine ⟨?_, ?_, gather_channel_beside
      (besideSpans_trans (acquisitionTimeout_beside s) (finishReads_beside _)) received[0], ?_, ?_⟩
    · rw [gather_pending, gather_pending]; exact read.pending
    · rw [gather_restart, gather_restart]; exact read.station
    · rw [gather_device, gather_device]; exact read.checkErrors
    · rw [gather_device, gather_device]; exact read.latched
  refine besideChannel_trans gathered ?_
  unfold State.opened State.endFrame
  generalize s.acquisitionTimeout.finishReads.gather received[0] = t
  refine besideChannel_of ?_ ?_ ?_ ?_ <;> dsimp only [State.openBoundary, State.takeHolds]

/-- A superframe boundary around its order channel: `u` is what the order channel finds, and `w` what the last handling
leaves. -/
structure State.channelAt (s : State) (egress : Vector Byte 640) (order : List Handling) (apart : Bool) (u : State)
    (sampled : Fin 16 → Bool) (w : State) : Prop where
  before : (s.gather egress[0]).besideChannel u
  after : (u.orderBoundary sampled).besideChannel w
  closes : s.boundary egress order apart = w.closeBoundary true s.channel.reply.isNone
  last : .orderChannel ∉ order → w = u.orderBoundary sampled

/-- A superframe boundary whose schedule ends with the order channel: every meter has made its sample before (R60). -/
theorem boundary_channelLast {s : State} (egress : Vector Byte 640) {order pre : List Handling} (apart : Bool)
    (h : s.superframeNext = true) (split : schedule order = pre ++ [.orderChannel]) (stores : ∀ n, .store n ∈ pre) :
    s.boundary egress order apart =
      (((s.opened egress).handleAll true apart [] pre).orderBoundary fun _ => true).closeBoundary true
        s.channel.reply.isNone := by
  have closes : s.boundary egress order apart =
      ((s.opened egress).handleAll true apart [] (schedule order)).closeBoundary true s.channel.reply.isNone := by
    rw [← h]; rfl
  have sampled : (fun n => decide (Handling.store n ∈ pre.reverse ++ [])) = fun _ => true :=
    funext fun n => decide_eq_true (by simp [stores n])
  rw [closes, split, handleAll_orderChannel, sampled]
  rfl

theorem channelAt_exists {s : State} (egress : Vector Byte 640) (order : List Handling) (apart : Bool)
    (h : s.superframeNext = true) : ∃ u sampled w, s.channelAt egress order apart u sampled w := by
  have before {pre : List Handling} (notBefore : .orderChannel ∉ pre) :
      (s.gather egress[0]).besideChannel ((s.opened egress).handleAll true apart [] pre) :=
    besideChannel_trans (opened_besideChannel s egress) (handleAll_besideChannel true apart pre [] (s.opened egress) notBefore)
  by_cases named : .orderChannel ∈ order
  · obtain ⟨pre, post, split, notBefore, notAfter⟩ := schedule_orderChannel order
    have closes : s.boundary egress order apart =
        ((s.opened egress).handleAll true apart [] (schedule order)).closeBoundary true s.channel.reply.isNone := by
      rw [← h]; rfl
    rw [split, handleAll_orderChannel] at closes
    exact ⟨_, _, _, before notBefore, handleAll_besideChannel true apart post _ _ notAfter, closes, fun k => absurd named k⟩
  · obtain ⟨pre, split, notBefore, stores⟩ := schedule_orderChannel_last order named
    exact ⟨_, _, _, before notBefore, besideChannel_refl _, boundary_channelLast egress apart h split stores, fun _ => rfl⟩

section
variable {s u w : State} {egress : Vector Byte 640} {order : List Handling} {apart : Bool} {sampled : Fin 16 → Bool}

/-- The cell a superframe boundary sends: the one formed at its order channel's handling, a status cell then stamped with the
superframe count (R145, R148). -/
theorem State.channelAt.send (h : s.channelAt egress order apart u sampled w) :
    (s.boundary egress order apart).channel.send =
      some (if s.channel.reply.isNone then stampStatus (s.boundary egress order apart).frameNumber u.sendCell
        else u.sendCell) := by
  obtain ⟨-, -, sent, -⟩ := orderBoundary_send u sampled
  rw [← h.after.channel] at sent
  rw [h.closes]
  unfold State.closeBoundary
  dsimp only
  rw [sent]
  cases s.channel.reply.isNone <;> rfl

theorem State.channelAt.framed (h : s.channelAt egress order apart u sampled w) :
    (s.boundary egress order apart).channel.framed = true := by
  rw [h.closes]
  exact Bool.or_true _

end

/-! ### The queue and the send cell across a command (O2, O11) -/

theorem handle_pending (s : State) (superframe apart : Bool) (done : List Handling) (h : Handling) :
    (s.handle superframe apart done h).pending = s.pending := by
  by_cases hc : h = .orderChannel
  · subst hc
    cases superframe with
    | false => rfl
    | true => exact (orderBoundary_send s _).1
  · exact (handle_besideChannel s superframe apart done hc).pending

theorem handleAll_pending (superframe apart : Bool) (todo done : List Handling) (s : State) :
    (s.handleAll superframe apart done todo).pending = s.pending := by
  induction todo generalizing done s with
  | nil => rfl
  | cons h rest ih => exact (ih _ _).trans (handle_pending s superframe apart done h)

theorem boundary_pending (s : State) (egress : Vector Byte 640) (order : List Handling) (apart : Bool) :
    (s.boundary egress order apart).pending = s.pending := by
  have closes : (s.boundary egress order apart).pending =
      ((s.opened egress).handleAll s.superframeNext apart [] (schedule order)).pending := rfl
  rw [closes, handleAll_pending, (opened_besideChannel s egress).pending, gather_pending]

theorem superframeNext_false {s : State} (h : s.superframeNext = false) : (s.frameNumber.toNat + 1) % 16 ≠ 0 :=
  fun k => Bool.false_ne_true (h.symm.trans ((superframeNext_iff s).mpr k))

/-- A boundary keeps the send cell's law: one of a superframe sends a cell that meets the check, and any other sends the cell
on (R138, R145, R150). -/
theorem boundary_channel_law {s : State} (egress : Vector Byte 640) (order : List Handling) (apart : Bool)
    (h : s.channel.law) : (s.boundary egress order apart).channel.law := by
  cases hs : s.superframeNext with
  | true =>
    obtain ⟨u, sampled, w, placed⟩ := channelAt_exists egress order apart hs
    unfold OrderChannel.law
    rw [placed.framed, placed.send]
    refine ⟨⟨fun _ => rfl, fun _ => rfl⟩, fun cell e => ?_⟩
    cases e
    split
    · exact stampStatus_meetsCheck _ _
    · exact sendCell_meetsCheck u
  | false =>
    have within := superframeNext_false hs
    unfold OrderChannel.law at h ⊢
    rw [boundary_channel_within s egress order apart within, gather_framed, gather_send]
    exact h

/-- What a command can do to the framing of cells and to the send cell: it keeps both, or a restart leaves none, or the office
frame ends. -/
def State.cellsAfter (s t : State) : Prop :=
  (t.channel.framed = s.channel.framed ∧ t.channel.send = s.channel.send) ∨ t.channel = .reset ∨
    ∃ egress order apart, t = s.boundary egress order apart

/-- Every command completes, leaves the queue alone, and does to the cells what `cellsAfter` says. -/
theorem exec_completes (c : Instr) (s : State) : ∃ t, exec c s = .next t ∧ t.pending = s.pending ∧ s.cellsAfter t := by
  have stays : s.cellsAfter s := .inl ⟨rfl, rfl⟩
  have kept {t : State} (h : s.keepsCells t) : t.pending = s.pending ∧ s.cellsAfter t :=
    ⟨h.pending, .inl ⟨h.framed, h.send⟩⟩
  have whenRuns {t : State} (e : exec c s = whenRunning s t) (h : t.pending = s.pending ∧ s.cellsAfter t) :
      ∃ t, exec c s = .next t ∧ t.pending = s.pending ∧ s.cellsAfter t := by
    cases hr : s.officeRuns with
    | true => exact ⟨t, e.trans (whenRunning_of_runs s t hr), h⟩
    | false => exact ⟨s, e.trans (whenRunning_of_held s t hr), rfl, stays⟩
  have event {n : Fin 16} {t : State} (h : s.eventAt n t) : t.pending = s.pending ∧ s.cellsAfter t :=
    kept h.besideChannel.keepsCells
  have timing {t : State} (h : s.besideChannel t) : t.pending = s.pending ∧ s.cellsAfter t := kept h.keepsCells
  have taken (e : exec c s = whenRunning s (s.takeOrder (fun _ => true) c)) :
      ∃ t, exec c s = .next t ∧ t.pending = s.pending ∧ s.cellsAfter t :=
    whenRuns e (kept (takeOrder_keepsCells (fun _ => true) s c))
  cases c with
  | powerOn => exact ⟨_, rfl, rfl, .inr (.inl rfl)⟩
  | coldRestartBegin =>
    dsimp only [exec, execColdRestartBegin]
    split <;> exact ⟨_, rfl, rfl, .inr (.inl rfl)⟩
  | supplyFall =>
    dsimp only [exec, execSupplyFall]
    split
    · exact ⟨s, rfl, rfl, stays⟩
    · split
      · exact ⟨_, rfl, rfl, .inr (.inl rfl)⟩
      · exact ⟨s, rfl, rfl, stays⟩
  | restartEnd =>
    dsimp only [exec, execRestartEnd]
    split
    · exact ⟨s, rfl, rfl, stays⟩
    · split
      · exact ⟨_, rfl, rfl, .inr (.inl rfl)⟩
      · exact ⟨s, rfl, rfl, stays⟩
  | clockPresentRise n =>
    refine ⟨_, rfl, event (n := n) ?_⟩
    split
    · exact clockRise_eventAt s n
    · exact setClock_eventAt s n true
  | clockPresentFall m =>
    refine ⟨_, rfl, event (n := m.span) ?_⟩
    split
    · exact clockFall_eventAt s m.span m.readSoFar
    · exact setClock_eventAt s m.span false
  | lineWindowEnd => exact whenRuns rfl (event (windowEnd_eventAt s _ _ _))
  | noisePeriodEnd => exact whenRuns rfl (event (noiseEnd_eventAt s _))
  | huntCandidateFound => exact whenRuns rfl (event (huntFound_eventAt s _ _ _))
  | verifyCheck => exact whenRuns rfl (event (verifyCheck_eventAt s _ _ _))
  | expectedAlignmentOctet => exact whenRuns rfl (event (expectedOctet_eventAt s _ _ _ _))
  | alignedFrame => exact whenRuns rfl (event (alignedFrame_eventAt s _ _ _))
  | storeUnderrun => exact whenRuns rfl (event (underrun_eventAt s _))
  | referenceEvent => exact whenRuns rfl (timing (by split <;> exact besideChannel_of rfl rfl rfl rfl))
  | officeFrameBoundary egress order apart =>
    exact whenRuns rfl ⟨boundary_pending s egress order apart, .inr (.inr ⟨egress, order, apart, rfl⟩)⟩
  | qualificationComplete =>
    refine whenRuns rfl (timing ?_)
    unfold State.qualificationComplete
    dsimp only
    split <;> exact besideChannel_of rfl rfl rfl rfl
  | acquisitionTimeout => exact whenRuns rfl (timing (acquisitionTimeout_besideChannel s))
  | unknownOrder =>
    refine whenRuns rfl (kept ?_)
    split <;> exact ⟨rfl, rfl, rfl, rfl, rfl⟩
  | setDrift tag n k l => exact whenRuns rfl (kept (takeSetDrift_answers true tag n k l s).keepsCells)
  | _ => exact taken rfl

/-- Settles O2. -/
theorem everyCommandCompletes : Obligations.EveryCommandCompletes := fun c s => by
  obtain ⟨t, e, hp, -⟩ := exec_completes c s
  exact ⟨t, e, hp⟩

/-- Settles O11: a command keeps the send cell, or a restart leaves none, or a boundary sends one that meets the check. -/
theorem sendCellLawKept : Obligations.SendCellLawKept := by
  intro s t h hstep
  obtain rfl | ⟨c, rest, -, he⟩ := step_cases hstep
  · exact h
  · obtain ⟨t', e, -, cells⟩ := exec_completes c { s with pending := rest }
    cases he.symm.trans e
    obtain ⟨framed, send⟩ | reset | ⟨egress, order, apart, rfl⟩ := cells
    · unfold OrderChannel.law
      rw [framed, send]
      exact h
    · rw [reset]
      exact ⟨⟨nofun, nofun⟩, nofun⟩
    · exact boundary_channel_law egress order apart h

end Sys2Proof.Machine
end

