-- ==== Sys2Proof/Proofs/SendCell.lean ====
section
/-! The send cell: the bytes of a status cell and of a reply cell, and the cell a superframe boundary sends (O17). -/

namespace Sys2Proof.Machine

/-! ### Sets of flags, bit by bit -/

theorem flag_getLsbD : ∀ (i j : Fin 8) (b : Bool), (flag i.val b).getLsbD j.val = (b && decide (i = j)) := by decide

/-- Eight flags gathered into a byte, each at its own bit. -/
theorem flags_getLsbD (f : Nat → Bool) (j : Fin 8) :
    ((List.range 8).foldl (fun acc i => acc ||| flag i (f i)) (0 : Byte)).getLsbD j.val = f j.val := by
  have bits : (List.range 8).foldl (fun acc i => acc ||| flag i (f i)) (0 : Byte) =
      0 ||| flag (0 : Fin 8).val (f 0) ||| flag (1 : Fin 8).val (f 1) ||| flag (2 : Fin 8).val (f 2) |||
        flag (3 : Fin 8).val (f 3) ||| flag (4 : Fin 8).val (f 4) ||| flag (5 : Fin 8).val (f 5) |||
        flag (6 : Fin 8).val (f 6) ||| flag (7 : Fin 8).val (f 7) := rfl
  rw [bits]
  simp only [BitVec.getLsbD_or, flag_getLsbD]
  fin_cases j <;> simp

/-- Four flags of a byte: the bits of its lower half (Table 8-2). -/
theorem fourFlags_getLsbD (f : Fin 4 → Bool) (j : Fin 8) :
    (flag 0 (f 0) ||| flag 1 (f 1) ||| flag 2 (f 2) ||| flag 3 (f 3)).getLsbD j.val = true ↔
      ∃ u : Fin 4, u.val = j.val ∧ f u = true := by
  change (flag (0 : Fin 8).val (f 0) ||| flag (1 : Fin 8).val (f 1) ||| flag (2 : Fin 8).val (f 2) |||
    flag (3 : Fin 8).val (f 3)).getLsbD j.val = true ↔ _
  simp only [BitVec.getLsbD_or, flag_getLsbD, Fin.exists_fin_succ, Bool.or_eq_true, Bool.and_eq_true, decide_eq_true_eq]
  fin_cases j <;> simp

theorem alignedSet_getLsbD (s : State) (base : Nat) (i : Fin 8) (n : Fin 16) (hn : base + i.val = n.val) :
    (s.alignedSet base).getLsbD i.val = (s.span n).rx.aligner.aligned := by
  rw [State.alignedSet, flags_getLsbD, hn]
  simp [State.span]

theorem runningSet_getLsbD (s : State) (i : Fin 8) :
    s.runningSet.getLsbD i.val = true ↔ ∃ u : Fin 4, u.val = i.val ∧ s.units[u].state = .running := by
  refine (fourFlags_getLsbD (fun u => s.units[u].state == .running) i).trans ?_
  simp only [beq_iff_eq]

theorem armedSet_getLsbD (s : State) (i : Fin 8) :
    s.armedSet.getLsbD i.val = true ↔ ∃ n : Fin 4, n.val = i.val ∧ s.timers[n].armed = true :=
  fourFlags_getLsbD (fun n => s.timers[n].armed) i

theorem swapFlags_getLsbD (h : Highway) (i : Fin 8) :
    h.swapFlags.getLsbD i.val = true ↔
      (i = 1 ∧ h.egress.request ≠ .absent) ∨ (i = 0 ∧ h.ingress.request ≠ .absent) := by
  change (flag (1 : Fin 8).val h.egress.request.isPending ||| flag (0 : Fin 8).val h.ingress.request.isPending).getLsbD
    i.val = true ↔ _
  simp only [BitVec.getLsbD_or, flag_getLsbD, Bool.or_eq_true, Bool.and_eq_true, decide_eq_true_eq, isPending_iff]
  tauto

/-! ### The bytes of a status cell and of a reply cell (Tables 8-1 and 8-2) -/

/-- The bytes of a status cell but its check word, byte 2 still open (R148). -/
theorem statusCell_bytes (s : State) (cell : Cell) (h : ∀ i : Fin 14, i ≠ 2 → cell[i.val] = s.statusCell[i.val]) :
    cell[0] = s.stationByte ∧ cell[1] = 0 ∧ cell[3] = 0 ∧ s.statusBytes cell := by
  have byte (i : Fin 14) (hi : i ≠ 2) := (h i hi).trans (sealCell_getElem _ i.val i.isLt)
  have entry (x : EntryState) : x.code = (match x with | .disabled => 0 | .qualifying => 1 | .qualified => 2 | .faulted => 3) := by
    cases x <;> rfl
  refine ⟨byte 0 (by decide), byte 1 (by decide), byte 3 (by decide), (byte 4 (by decide)).trans ?_,
    (byte 5 (by decide)).trans ?_, (byte 6 (by decide)).trans ?_, (byte 7 (by decide)).trans ?_, fun i => ⟨?_, ?_⟩,
    fun i => ⟨?_, ?_, ?_⟩, byte 13 (by decide)⟩
  · change s.timing.loop.state.code = _
    cases s.timing.loop.state <;> rfl
  · change selectedCode s.timing.loop.selected = _
    cases s.timing.loop.selected <;> rfl
  · exact congrArg₂ (fun a b : Byte => a <<< 4 ||| b) (entry (s.entry 0).state) (entry (s.entry 1).state)
  · exact congrArg₂ (fun a b : Byte => a <<< 4 ||| b) (entry (s.entry 2).state) (entry (s.entry 3).state)
  · rw [show cell[8] = s.alignedSet 8 from byte 8 (by decide)]
    exact alignedSet_getLsbD s 8 i _ rfl
  · rw [show cell[9] = s.alignedSet 0 from byte 9 (by decide)]
    exact alignedSet_getLsbD s 0 i _ (Nat.zero_add _)
  · rw [show cell[10] = s.highway.swapFlags from byte 10 (by decide)]
    exact swapFlags_getLsbD s.highway i
  · rw [show cell[11] = s.runningSet from byte 11 (by decide)]
    exact runningSet_getLsbD s i
  · rw [show cell[12] = s.armedSet from byte 12 (by decide)]
    exact armedSet_getLsbD s i

/-- The bytes of a reply cell but its check word (R146, R149). -/
theorem replyCell_bytes (s : State) (r : Reply) :
    (s.replyCell r)[0] = s.stationByte ∧ (s.replyCell r)[1] = r.code ∧ (s.replyCell r)[2] = r.tag ∧
      (s.replyCell r)[3] = r.outcome.code ∧ (∀ i : Fin 9, (s.replyCell r)[4 + i.val] = r.results[i.val]) ∧
      (s.replyCell r)[13] = s.summary := by
  refine ⟨sealCell_getElem _ 0 (by decide), sealCell_getElem _ 1 (by decide), sealCell_getElem _ 2 (by decide),
    sealCell_getElem _ 3 (by decide), fun i => (sealCell_getElem _ (4 + i.val) (by omega)).trans ?_,
    sealCell_getElem _ 13 (by decide)⟩
  fin_cases i <;> rfl

theorem stationByte_toNat (s : State) : s.stationByte.toNat = s.restart.station.toNat := by
  have := s.restart.station.isLt
  rw [State.stationByte, BitVec.toNat_setWidth]
  omega

/-- The stamp of a status cell writes byte 2 and the check word alone (R148). -/
theorem stampStatus_getElem (n : FrameNumber) (cell : Cell) (i : Fin 14) (hi : i ≠ 2) :
    (stampStatus n cell)[i.val] = cell[i.val] := by
  have other : (2 : Nat) ≠ i.val := fun k => hi (Fin.ext k.symm)
  rw [stampStatus, sealCell_getElem _ i.val i.isLt, Vector.getElem_set_ne _ _ other]

theorem stampStatus_two (n : FrameNumber) (cell : Cell) : (stampStatus n cell)[2] = BitVec.ofNat 8 (n.toNat / 16) := by
  rw [stampStatus, sealCell_getElem _ 2 (by decide), Vector.getElem_set_self]
  rfl

/-! ### The send cell as it is formed, and as a boundary sends it -/

/-- The outcome codes of Table 8-3. -/
def outcomeByte (o : OrderOutcome) : Byte := match o with
  | .done => 0x00 | .doneClamped => 0x01 | .accepted => 0x02 | .unknownOrder => 0x10 | .badParameter => 0x11
  | .badSlot => 0x12 | .swapPending => 0x13 | .notQualified => 0x14 | .inUse => 0x15 | .wrongMode => 0x16
  | .unitRunning => 0x17

theorem outcome_code (o : OrderOutcome) : o.code = outcomeByte o := by cases o <;> rfl

/-- A cell carries a pending reply (R146). -/
def Reply.carriedBy (r : Reply) (cell : Cell) : Prop :=
  cell[1] = r.code ∧ cell[2] = r.tag ∧ cell[3] = outcomeByte r.outcome ∧ ∀ i : Fin 9, cell[4 + i.val] = r.results[i.val]

/-- The send cell where a reply is pending. -/
theorem sendCell_reply {s : State} {r : Reply} (h : s.channel.reply = some r) :
    s.sendCell[0].toNat = s.restart.station.toNat ∧ s.sendCell[13] = s.summary ∧ r.carriedBy s.sendCell := by
  have formed : s.sendCell = s.replyCell r := by rw [State.sendCell, h]; rfl
  obtain ⟨station, code, tag, outcome, results, summary⟩ := replyCell_bytes s r
  rw [formed]
  exact ⟨by rw [station, stationByte_toNat], summary, code, tag, by rw [outcome, outcome_code], results⟩

/-- The send cell where no reply is pending, its byte 2 open: as formed, and as stamped at the boundary (R148). -/
theorem sendCell_status {s : State} (h : s.channel.reply = none) {cell : Cell}
    (hc : ∀ i : Fin 14, i ≠ 2 → cell[i.val] = s.sendCell[i.val]) :
    cell[0].toNat = s.restart.station.toNat ∧ cell[1] = 0 ∧ cell[3] = 0 ∧ s.statusBytes cell := by
  have formed : s.sendCell = s.statusCell := by rw [State.sendCell, h]; rfl
  obtain ⟨station, code, outcome, status⟩ := statusCell_bytes s cell (formed ▸ hc)
  exact ⟨by rw [station, stationByte_toNat], code, outcome, status⟩

theorem statusBytes_summary {s : State} {cell : Cell} (h : s.statusBytes cell) : cell[13] = s.summary := by
  obtain ⟨-, -, -, -, -, -, summary⟩ := h
  exact summary

/-- The forming of a send cell (R145, R146, R148, R149). -/
theorem formSend_sends (s : State) :
    ∃ cell, s.formSend = { s with channel := { s.channel with send := some cell, reply := none } } ∧
      meetsCheck cell = true ∧ cell[0].toNat = s.restart.station.toNat ∧ cell[13] = s.summary ∧
      (∀ r, s.channel.reply = some r → r.carriedBy cell) ∧
      (s.channel.reply = none → cell[1] = 0 ∧ cell[3] = 0 ∧ s.statusBytes cell) := by
  refine ⟨s.sendCell, formSend_eq s, sendCell_meetsCheck s, ?_⟩
  cases h : s.channel.reply with
  | none =>
    obtain ⟨station, code, outcome, status⟩ := sendCell_status h fun _ _ => rfl
    exact ⟨station, statusBytes_summary status, nofun, fun _ => ⟨code, outcome, status⟩⟩
  | some r =>
    obtain ⟨station, summary, carried⟩ := sendCell_reply h
    exact ⟨station, summary, fun r' e => Option.some.inj e ▸ carried, nofun⟩

/-! ### What the end of a boundary leaves of the status (R148, R149) -/

/-- Neither a cell nor an overhead octet shows in the attention summary. -/
theorem closeBoundary_summary (s : State) (superframe status : Bool) :
    (s.closeBoundary superframe status).summary = s.summary := by
  unfold State.summary State.spanLatched State.closeBoundary
  simp only [Vector.toList_map, List.any_map]
  rfl

theorem closeBoundary_statusBytes (s : State) (superframe status : Bool) (cell : Cell) :
    (s.closeBoundary superframe status).statusBytes cell ↔ s.statusBytes cell := by
  unfold State.statusBytes
  simp only [closeBoundary_summary, closeBoundary_span]
  rfl

theorem gather_reply (s : State) (b : Byte) : (s.gather b).channel.reply = s.channel.reply := by
  unfold State.gather; split <;> rfl

/-- An order channel that takes no order leaves no reply pending (R145). -/
theorem orderBoundary_reply_none (s : State) (sampled : Fin 16 → Bool)
    (h : s.channel.framed = false ∨ s.channel.receive[1] = 0) : (s.orderBoundary sampled).channel.reply = none := by
  unfold State.orderBoundary State.examine
  split
  next hf =>
    have empty : s.formSend.channel.receive[1] = 0 := h.resolve_left fun k => Bool.false_ne_true (k.symm.trans hf)
    rw [judgeCell_empty _ _ empty]
    rfl
  next => rfl

section
variable {s u w : State} {egress : Vector Byte 640} {order : List Handling} {apart : Bool} {sampled : Fin 16 → Bool}

theorem State.channelAt.reply (h : s.channelAt egress order apart u sampled w) : u.channel.reply = s.channel.reply := by
  rw [h.before.channel, gather_reply]

theorem State.channelAt.station (h : s.channelAt egress order apart u sampled w) :
    u.restart.station = s.restart.station := by
  rw [h.before.station, gather_restart]

/-- At a boundary that takes no order the order channel finds none (R140, R151). -/
theorem State.channelAt.nothing (h : s.channelAt egress order apart u sampled w) (hs : s.superframeNext = true)
    (ho : s.takesNoOrder) : u.channel.framed = false ∨ u.channel.receive[1] = 0 := by
  have multiple := (superframeNext_iff s).mp hs
  rw [h.before.channel, gather_framed, gather_receive_one s egress[0] (by omega)]
  exact ho.resolve_left fun k => k multiple

end

/-- Settles O17: the cell formed at the order channel's handling is the one sent, a status cell stamped with the superframe
count; and what follows a forming that is left last shows in no status byte. -/
theorem superframeBoundarySends : Obligations.SuperframeBoundarySends := by
  refine ⟨formSend_sends, fun s egress order apart hr hs => ?_⟩
  obtain ⟨u, sampled, w, placed⟩ := channelAt_exists egress order apart hs
  have unseen (ho : s.takesNoOrder) (named : .orderChannel ∉ order) (cell : Cell) :
      (u.statusBytes cell → (s.boundary egress order apart).statusBytes cell) ∧
        u.summary = (s.boundary egress order apart).summary := by
    obtain ⟨channel, e⟩ := orderBoundary_beside u sampled (placed.nothing hs ho)
    rw [placed.closes, placed.last named, e, closeBoundary_statusBytes, closeBoundary_summary]
    exact ⟨id, rfl⟩
  have unanswered (ho : s.takesNoOrder) : (s.boundary egress order apart).channel.reply = none := by
    have examined := orderBoundary_reply_none u sampled (placed.nothing hs ho)
    rw [← placed.after.channel] at examined
    rw [placed.closes]
    exact examined
  have sent := placed.send
  have framed := placed.framed
  rw [← placed.station]
  refine ⟨_, _, whenRunning_of_runs s _ hr, sent, ?_⟩
  cases h : s.channel.reply with
  | none =>
    obtain ⟨station, code, outcome, status⟩ := sendCell_status (placed.reply.trans h)
      (stampStatus_getElem (s.boundary egress order apart).frameNumber u.sendCell)
    exact ⟨stampStatus_meetsCheck _ _, station, framed, nofun, fun _ => ⟨code, stampStatus_two _ _, outcome⟩,
      fun ho => ⟨unanswered ho, fun named =>
        ⟨(statusBytes_summary status).trans (unseen ho named u.sendCell).2, fun _ => (unseen ho named _).1 status⟩⟩⟩
  | some r =>
    obtain ⟨station, summary, carried⟩ := sendCell_reply (placed.reply.trans h)
    exact ⟨sendCell_meetsCheck u, station, framed, fun r' e => Option.some.inj e ▸ carried, nofun,
      fun ho => ⟨unanswered ho, fun named => ⟨summary.trans (unseen ho named u.sendCell).2, nofun⟩⟩⟩

end Sys2Proof.Machine
end

