-- ==== Sys2Proof/Proofs/Dress.lean ====
section
/-! What the end of a boundary writes, overhead octets and cells, is looked at by no handling but the order channel's. -/

namespace Sys2Proof.Machine

/-! ### A state in another dress -/

/-- A span whose overhead octet is overwritten. -/
def Span.dress (g : Byte → Byte) (sp : Span) : Span := { sp with tx := { sp.tx with overhead := g sp.tx.overhead } }

/-- The state with the overhead octets of its spans and its order channel rewritten: what the end of a boundary rewrites, and
nothing that a handling or an order's rule looks at. -/
def State.dress (g : Byte → Byte) (k : OrderChannel → OrderChannel) (s : State) : State :=
  { s with spans := s.spans.map (Span.dress g), channel := k s.channel }

section
variable (g : Byte → Byte) (k : OrderChannel → OrderChannel)

@[simp] theorem dress_timing (s : State) : (s.dress g k).timing = s.timing := rfl
@[simp] theorem dress_highway (s : State) : (s.dress g k).highway = s.highway := rfl
@[simp] theorem dress_frameNumber (s : State) : (s.dress g k).frameNumber = s.frameNumber := rfl
@[simp] theorem dress_timers (s : State) : (s.dress g k).timers = s.timers := rfl
@[simp] theorem dress_units (s : State) : (s.dress g k).units = s.units := rfl
@[simp] theorem dress_entry (s : State) (e : Fin 4) : (s.dress g k).entry e = s.entry e := rfl
@[simp] theorem dress_span (s : State) (n : Fin 16) : (s.dress g k).span n = (s.span n).dress g := by
  simp [State.dress, State.span]

@[simp] theorem setSpan_dress (s : State) (n : Fin 16) (sp : Span) :
    (s.dress g k).setSpan n (sp.dress g) = (s.setSpan n sp).dress g k := by
  simp [State.dress, State.setSpan, Vector.map_set]

/-- A change of a span that neither reads nor writes its overhead octet. -/
theorem modSpan_dress {f : Span → Span} (hf : ∀ sp, f (sp.dress g) = (f sp).dress g) (s : State) (n : Fin 16) :
    (s.dress g k).modSpan n f = (s.modSpan n f).dress g k := by
  rw [State.modSpan, dress_span, hf, setSpan_dress]
  rfl

@[simp] theorem dress_lineFault (sp : Span) : (sp.dress g).lineFault = sp.lineFault := rfl

@[simp] theorem dress_faultOf (s : State) (e : Fin 4) (n : Fin 16) : (s.dress g k).faultOf e n = s.faultOf e n := by
  rw [State.faultOf, dress_span, dress_lineFault]
  rfl

@[simp] theorem dress_entryFault (s : State) (e : Fin 4) : (s.dress g k).entryFault e = s.entryFault e :=
  dress_faultOf g k s e _

/-! ### The shared operations -/

theorem dropIfSelected_dress (s : State) (e : Fin 4) :
    (s.dress g k).dropIfSelected e = (s.dropIfSelected e).dress g k := by
  unfold State.dropIfSelected
  rw [dress_timing]
  split <;> rfl

theorem faultEntry_dress (s : State) (e : Fin 4) (why : FaultReason) :
    (s.dress g k).faultEntry e why = (s.faultEntry e why).dress g k :=
  dropIfSelected_dress g k ((s.setEntry e { s.entry e with state := .faulted, count := 0, reason := why }).latchDevice) e

theorem followEntry_dress (s : State) (e : Fin 4) : (s.dress g k).followEntry e = (s.followEntry e).dress g k := by
  unfold State.followEntry
  rw [dress_entry, dress_entryFault]
  split
  · rfl
  · rfl
  · rfl
  · exact faultEntry_dress g k s e _
  · exact faultEntry_dress g k s e _
  · rfl
  · rfl

theorem followEntries_dress (s : State) : (s.dress g k).followEntries = s.followEntries.dress g k := by
  unfold State.followEntries
  simp only [allFour, List.foldl_cons, List.foldl_nil, followEntry_dress]

theorem publish_dress (s : State) (n : Fin 16) : (s.dress g k).publish n = (s.publish n).dress g k := by
  have latched (sp : Span) : (sp.dress g).latch = sp.latch.dress g := rfl
  rw [State.publish, modSpan_dress g k latched, followEntries_dress]
  rfl

/-- A change of a span with its publishing. -/
theorem publish_modSpan_dress {f : Span → Span} (hf : ∀ sp, f (sp.dress g) = (f sp).dress g) (s : State) (n : Fin 16) :
    ((s.dress g k).modSpan n f).publish n = ((s.modSpan n f).publish n).dress g k := by
  rw [modSpan_dress g k hf, publish_dress]

theorem offerUnitTrigger_dress (s : State) (src : Fin 8) (u : Fin 4) :
    (s.dress g k).offerUnitTrigger src u = (s.offerUnitTrigger src u).dress g k := by
  rw [offerUnitTrigger_eq, offerUnitTrigger_eq, dress_units]
  split <;> rfl

/-! ### Office timing -/

theorem timeout_dress (s : State) : (s.dress g k).timeout = s.timeout.dress g k := by
  unfold State.timeout
  rw [dress_timing]
  split <;> rfl

theorem acquisitionTimeout_dress (s : State) : (s.dress g k).acquisitionTimeout = s.acquisitionTimeout.dress g k := by
  unfold State.acquisitionTimeout
  rw [dress_timing]
  split
  · exact timeout_dress g k s
  · rfl

theorem selectionRequest_dress (s : State) (e : Fin 4) :
    (s.dress g k).selectionRequest e = ((s.selectionRequest e).1.dress g k, (s.selectionRequest e).2) := by
  unfold State.selectionRequest
  rw [dress_timing, dress_entry]
  split_ifs <;> rfl

theorem monitors_dress (s : State) : (s.dress g k).monitors = s.monitors.dress g k :=
  followEntries_dress g k
    { s with timing := { s.timing with monitorA := s.timing.monitorA.frameEnd, monitorB := s.timing.monitorB.frameEnd } }

theorem autoSelect_dress (s : State) : (s.dress g k).autoSelect = s.autoSelect.dress g k := by
  unfold State.autoSelect
  simp only [dress_timing]
  split
  · rfl
  · rfl
  next b _ _ =>
    split
    · rfl
    next e _ =>
      exact (apply_ite (State.dress g k) (s.timing.revertive ∧ (s.entry b).priority < (s.entry e).priority) (s.selectEntry b)
        s).symm

theorem lockStage_dress (s : State) (apart : Bool) : (s.dress g k).lockStage apart = (s.lockStage apart).dress g k := by
  unfold State.lockStage
  rw [dress_timing]
  dsimp only
  generalize (if s.timing.detector.reading = true then s.timing.loop.lockCount + 1 else 0) = count
  split
  · split
    · rfl
    · split
      · rfl
      · split
        · rfl
        · exact timeout_dress g k (s.setLoop _)
  · rfl

theorem otuBoundary_dress (s : State) (superframe apart : Bool) :
    (s.dress g k).otuBoundary superframe apart = (s.otuBoundary superframe apart).dress g k := by
  have steered (t : State) :
      { t.dress g k with timing := { (t.dress g k).timing.steer with detector := (t.dress g k).timing.detector.nextSuperframe } } =
        State.dress g k { t with timing := { t.timing.steer with detector := t.timing.detector.nextSuperframe } } := rfl
  have qualified (t : State) : (t.dress g k).qualifyAll = t.qualifyAll.dress g k := rfl
  unfold State.otuBoundary State.otuSuperframe
  dsimp only
  rw [monitors_dress, qualified, autoSelect_dress, lockStage_dress, steered]
  split <;> rfl

/-! ### The handlings of a boundary -/

theorem performAction_dress (s : State) (t : Timer) :
    (s.dress g k).performAction t = ((s.performAction t).1.dress g k, (s.performAction t).2) := by
  unfold State.performAction
  split
  · rfl
  · rfl
  · rfl
  · rfl
  · exact selectionRequest_dress g k s t.param

theorem matchTimer_dress (s : State) (n : Fin 4) : (s.dress g k).matchTimer n = (s.matchTimer n).dress g k := by
  unfold State.matchTimer
  simp only [dress_timers, dress_frameNumber, performAction_dress]
  split
  · exact offerUnitTrigger_dress g k ((s.performAction s.timers[n]).1.setTimer n _) 5 n
  · rfl

theorem slipped_dress (sp : Span) (slip : Slip) : (sp.dress g).slipped slip = (sp.slipped slip).dress g := by
  cases slip <;> rfl

theorem hitCounted_dress (sp : Span) (hit : Bool) : (sp.dress g).hitCounted hit = (sp.hitCounted hit).dress g := by
  cases hit <;> rfl

theorem spanBoundary_dress (sp : Span) (superframe : Bool) :
    (sp.dress g).boundary superframe = ((sp.boundary superframe).1.dress g, (sp.boundary superframe).2) := by
  have met (st : Store) (m : Meter) : ({ sp.dress g with store := st, meter := m } : Span) =
      Span.dress g { sp with store := st, meter := m } := rfl
  have store : (sp.dress g).store = sp.store := rfl
  have meter : (sp.dress g).meter = sp.meter := rfl
  unfold Span.boundary
  simp only [store, meter, met, slipped_dress, hitCounted_dress]

theorem storeBoundary_dress (s : State) (superframe : Bool) (n : Fin 16) :
    (s.dress g k).storeBoundary superframe n = (s.storeBoundary superframe n).dress g k := by
  have offered (t : State) : (t.dress g k).offerSpanTrigger 3 n = (t.offerSpanTrigger 3 n).dress g k := rfl
  have committed (sp : Span) : (sp.dress g).commitDrift = sp.commitDrift.dress g := rfl
  unfold State.storeBoundary
  simp only [dress_span, spanBoundary_dress, setSpan_dress, offered]
  rw [← apply_ite (State.dress g k), publish_dress, publish_modSpan_dress g k committed]
  split <;> rfl

/-- A handling other than the order channel's looks at no cell and at no overhead octet. -/
theorem handle_dress (s : State) (superframe apart : Bool) (done : List Handling) {h : Handling} (hc : h ≠ .orderChannel) :
    (s.dress g k).handle superframe apart done h = (s.handle superframe apart done h).dress g k := by
  cases h with
  | number => rfl
  | timer n => exact matchTimer_dress g k s n
  | store n => exact storeBoundary_dress g k s superframe n
  | otu => exact otuBoundary_dress g k s superframe apart
  | outputs => rfl
  | swaps => cases superframe <;> rfl
  | units => cases superframe <;> rfl
  | orderChannel => exact absurd rfl hc

theorem handleAll_dress (superframe apart : Bool) (todo done : List Handling) (s : State) (hc : .orderChannel ∉ todo) :
    (s.dress g k).handleAll superframe apart done todo = (s.handleAll superframe apart done todo).dress g k := by
  induction todo generalizing done s with
  | nil => rfl
  | cons h rest ih =>
    have here : h ≠ .orderChannel := Ne.symm (List.ne_of_not_mem_cons hc)
    refine Eq.trans ?_ (ih (h :: done) (s.handle superframe apart done h) (List.not_mem_of_not_mem_cons hc))
    rw [← handle_dress g k s superframe apart done here]
    rfl

/-! ### The reads of the stores -/

theorem withStore_dress (sp : Span) (st : Store) : (sp.dress g).withStore st = (sp.withStore st).dress g := by
  have store : (sp.dress g).store = sp.store := rfl
  unfold Span.withStore
  rw [store]
  split <;> rfl

theorem readBits_dress (n : Nat) (sp : Span) : (sp.dress g).readBits n = (sp.readBits n).dress g := by
  have store (sp : Span) : (sp.dress g).store = sp.store := rfl
  induction n generalizing sp with
  | zero => rfl
  | succ n ih =>
    unfold Span.readBits
    rw [store, withStore_dress, ih]
    split <;> rfl

theorem finishReads_dress (s : State) : (s.dress g k).finishReads = s.finishReads.dress g k := by
  have read (sp : Span) : (sp.dress g).readTo 336 = (sp.readTo 336).dress g := readBits_dress g _ sp
  unfold State.finishReads
  induction allSpans generalizing s with
  | nil => rfl
  | cons n rest ih =>
    rw [List.foldl_cons, List.foldl_cons, State.readSide, publish_modSpan_dress g k read]
    exact ih _

end

end Sys2Proof.Machine
end

