-- ==== Sys2Proof/Proofs/OrdersDress.lean ====
section
/-! What the end of a boundary writes is looked at by no order's rule either: an order carried out before it does what it does
after it. -/

namespace Sys2Proof.Machine

/-- A rewriting of the order channel that leaves the pending reply alone. -/
def keepsReplies (k : OrderChannel → OrderChannel) : Prop := ∀ c r, k { c with reply := r } = { k c with reply := r }

section
variable (g : Byte → Byte) {k : OrderChannel → OrderChannel} (hk : keepsReplies k)
include hk

theorem answer_dress {t t' : State} (code tag : Byte) (o : OrderOutcome) (r : List Byte) (h : t' = t.dress g k := by rfl) :
    t'.answer code tag o r = (t.answer code tag o r).dress g k := by
  subst h
  exact congrArg (fun channel : OrderChannel => { t.dress g k with channel })
    (hk t.channel (some ⟨code, tag, o, results9 r⟩)).symm

/-! ### Orders of the spans (R21 to R23, R43, R46, R60, R61) -/

omit hk in
theorem toAligner_dress (sp : Span) (a : Aligner) : (sp.dress g).toAligner a = (sp.toAligner a).dress g := by
  have aligner : (sp.dress g).rx = sp.rx := rfl
  unfold Span.toAligner
  rw [aligner]
  split
  · rfl
  · dsimp only
    split <;> rfl

omit hk in
theorem enableActs_dress (sp : Span) (was : Bool) : (sp.dress g).enableActs was = (sp.enableActs was).dress g := by
  have record : (sp.dress g).record = sp.record := rfl
  have cleared : (sp.dress g).clearWindows = sp.clearWindows.dress g := rfl
  unfold Span.enableActs
  rw [record, cleared, toAligner_dress, toAligner_dress]
  split
  · rfl
  · split <;> rfl

omit hk in
theorem restart_dress (sp : Span) : (sp.dress g).restart = sp.restart.dress g := by
  have aligner : (sp.dress g).restartAligner = sp.restartAligner := rfl
  unfold Span.restart
  rw [aligner, toAligner_dress]
  rfl

theorem takeSetSpan_dress (tag a b c d e f : Byte) (s : State) :
    takeSetSpan tag a b c d e f (s.dress g k) = (takeSetSpan tag a b c d e f s).dress g k := by
  have recorded (r : SpanRecord) (sp : Span) :
      ({ sp.dress g with record := r } : Span).enableActs (sp.dress g).record.enable =
        (({ sp with record := r } : Span).enableActs sp.record.enable).dress g :=
    enableActs_dress g { sp with record := r } sp.record.enable
  unfold takeSetSpan
  rcases spanOf a with _ | n
  · exact answer_dress g hk _ _ _ _
  rcases boolOf b with _ | en
  · exact answer_dress g hk _ _ _ _
  rcases transmitModeOf c with _ | tm
  · exact answer_dress g hk _ _ _ _
  rcases loopbackOf d with _ | lb
  · exact answer_dress g hk _ _ _ _
  · exact answer_dress g hk _ _ _ _ (publish_modSpan_dress g k (recorded _) s n)

theorem takeSpanRestart_dress (tag a : Byte) (s : State) :
    takeSpanRestart tag a (s.dress g k) = (takeSpanRestart tag a s).dress g k := by
  unfold takeSpanRestart
  rcases spanOf a with _ | n
  · exact answer_dress g hk _ _ _ _
  · exact answer_dress g hk _ _ _ _ (publish_modSpan_dress g k (restart_dress g) s n)

theorem takeSetThresholds_dress (tag a : Byte) (l h : Word) (s : State) :
    takeSetThresholds tag a l h (s.dress g k) = (takeSetThresholds tag a l h s).dress g k := by
  unfold takeSetThresholds
  rcases spanOf a with _ | n
  · exact answer_dress g hk _ _ _ _
  · refine answer_dress g hk _ _ _ _ (modSpan_dress g k ?_ s n)
    exact fun _ => rfl

theorem takeSetDrift_dress (sampled : Bool) (tag a b : Byte) (l : Word) (s : State) :
    takeSetDrift sampled tag a b l (s.dress g k) = (takeSetDrift sampled tag a b l s).dress g k := by
  have committed (sp : Span) : (sp.dress g).commitDrift = sp.commitDrift.dress g := rfl
  unfold takeSetDrift
  rcases spanOf a with _ | n
  · exact answer_dress g hk _ _ _ _
  · have written := modSpan_dress g k (f := fun sp =>
      { sp with meter := { sp.meter with kStored := min b.toNat 7, limitStored := l.toNat } }) (fun _ => rfl) s n
    dsimp only
    rw [written]
    cases sampled with
    | false => exact answer_dress g hk _ _ _ _
    | true => exact answer_dress g hk _ _ _ _ (publish_modSpan_dress g k committed _ n)

theorem takeReadSpan_dress (tag a : Byte) (s : State) :
    takeReadSpan tag a (s.dress g k) = (takeReadSpan tag a s).dress g k := by
  unfold takeReadSpan
  simp only [dress_span]
  rcases spanOf a with _ | n <;> exact answer_dress g hk _ _ _ _

theorem takeReadStore_dress (tag a : Byte) (s : State) :
    takeReadStore tag a (s.dress g k) = (takeReadStore tag a s).dress g k := by
  unfold takeReadStore
  simp only [dress_span]
  rcases spanOf a with _ | n <;> exact answer_dress g hk _ _ _ _

theorem takeReadDrift_dress (tag a : Byte) (s : State) :
    takeReadDrift tag a (s.dress g k) = (takeReadDrift tag a s).dress g k := by
  unfold takeReadDrift
  simp only [dress_span]
  rcases spanOf a with _ | n <;> exact answer_dress g hk _ _ _ _

/-! ### Orders of office timing (R77, R78, R82 to R85) -/

theorem takeSetReference_dress (tag a b c d e : Byte) (s : State) :
    takeSetReference tag a b c d e (s.dress g k) = (takeSetReference tag a b c d e s).dress g k := by
  have written (x : Fin 4) (en : Bool) (p : Nat) (q : QPeriod) (n : Fin 16) :
      (s.dress g k).writeReference x en p q n = (s.writeReference x en p q n).dress g k := by
    unfold State.writeReference
    rw [dress_faultOf]
    rfl
  unfold takeSetReference
  rcases below 4 a with _ | x
  · exact answer_dress g hk _ _ _ _
  rcases boolOf b with _ | en
  · exact answer_dress g hk _ _ _ _
  rcases priorityOf c with _ | p
  · exact answer_dress g hk _ _ _ _
  rcases qOf d with _ | q
  · exact answer_dress g hk _ _ _ _
  dsimp only
  rw [dress_entry]
  rcases referenceSpan x e (s.entry x).span with _ | n
  · exact answer_dress g hk _ _ _ _
  dsimp only
  rw [dress_timing, written]
  split
  · exact answer_dress g hk _ _ _ _
  · exact answer_dress g hk _ _ _ _

theorem takeSelectReference_dress (tag a : Byte) (s : State) :
    takeSelectReference tag a (s.dress g k) = (takeSelectReference tag a s).dress g k := by
  unfold takeSelectReference
  rcases below 4 a with _ | e
  · exact answer_dress g hk _ _ _ _
  dsimp only
  rw [selectionRequest_dress]
  generalize s.selectionRequest e = r
  obtain ⟨t, o⟩ := r
  cases o <;> exact answer_dress g hk _ _ _ _

theorem takeSetTimingOutput_dress (tag a b c d e : Byte) (s : State) :
    takeSetTimingOutput tag a b c d e (s.dress g k) = (takeSetTimingOutput tag a b c d e s).dress g k := by
  unfold takeSetTimingOutput
  rcases boolOf a with _ | output
  · exact answer_dress g hk _ _ _ _
  rcases boolOf b with _ | en
  · exact answer_dress g hk _ _ _ _
  rcases outputSourceOf c with _ | src
  · exact answer_dress g hk _ _ _ _
  rcases outputRateOf d with _ | rate
  · exact answer_dress g hk _ _ _ _
  rcases boolOf e with _ | squelch <;> exact answer_dress g hk _ _ _ _

/-! ### Orders of the maps (R98 to R102) -/

theorem takeWriteIngressEntry_dress (tag a b c d e : Byte) (s : State) :
    takeWriteIngressEntry tag a b c d e (s.dress g k) = (takeWriteIngressEntry tag a b c d e s).dress g k := by
  unfold takeWriteIngressEntry
  rcases below 4 a with _ | l
  · exact answer_dress g hk _ _ _ _
  rcases below 160 b with _ | t
  · exact answer_dress g hk _ _ _ _
  rcases ingressEntryOf c d e with _ | x
  · exact answer_dress g hk _ _ _ _
  dsimp only
  rw [dress_highway]
  split_ifs <;> exact answer_dress g hk _ _ _ _

theorem takeWriteEgressEntry_dress (tag a b c d e : Byte) (s : State) :
    takeWriteEgressEntry tag a b c d e (s.dress g k) = (takeWriteEgressEntry tag a b c d e s).dress g k := by
  unfold takeWriteEgressEntry
  rcases spanOf a with _ | n
  · exact answer_dress g hk _ _ _ _
  rcases below 40 b with _ | ch
  · exact answer_dress g hk _ _ _ _
  rcases egressEntryOf c d e with _ | x
  · exact answer_dress g hk _ _ _ _
  dsimp only
  rw [dress_highway]
  split_ifs <;> exact answer_dress g hk _ _ _ _

theorem takeReadIngressEntry_dress (tag a b c : Byte) (s : State) :
    takeReadIngressEntry tag a b c (s.dress g k) = (takeReadIngressEntry tag a b c s).dress g k := by
  unfold takeReadIngressEntry
  rcases below 4 a with _ | l
  · exact answer_dress g hk _ _ _ _
  rcases below 160 b with _ | t
  · exact answer_dress g hk _ _ _ _
  rcases boolOf c with _ | x
  · exact answer_dress g hk _ _ _ _
  dsimp only
  split_ifs <;> exact answer_dress g hk _ _ _ _

theorem takeReadEgressEntry_dress (tag a b c : Byte) (s : State) :
    takeReadEgressEntry tag a b c (s.dress g k) = (takeReadEgressEntry tag a b c s).dress g k := by
  unfold takeReadEgressEntry
  rcases spanOf a with _ | n
  · exact answer_dress g hk _ _ _ _
  rcases below 40 b with _ | ch
  · exact answer_dress g hk _ _ _ _
  rcases boolOf c with _ | x <;> exact answer_dress g hk _ _ _ _

theorem takeCopyMaps_dress (tag a : Byte) (s : State) :
    takeCopyMaps tag a (s.dress g k) = (takeCopyMaps tag a s).dress g k := by
  unfold takeCopyMaps
  rcases directionOf a with _ | ⟨i, e⟩
  · exact answer_dress g hk _ _ _ _
  dsimp only
  rw [dress_highway]
  split <;> exact answer_dress g hk _ _ _ _

/-! ### Orders of the timers and of the test units (R111, R130, R135) -/

theorem takeSetTimer_dress (tag a b : Byte) (p : Word) (c d : Byte) (s : State) :
    takeSetTimer tag a b p c d (s.dress g k) = (takeSetTimer tag a b p c d s).dress g k := by
  unfold takeSetTimer
  rcases below 4 a with _ | n
  · exact answer_dress g hk _ _ _ _
  rcases timerModeOf b with _ | m
  · exact answer_dress g hk _ _ _ _
  rcases timerActionOf c d with _ | ⟨action, param⟩
  · exact answer_dress g hk _ _ _ _
  dsimp only
  split <;> exact answer_dress g hk _ _ _ _

theorem takeSetUnit_dress (tag a b c d e f h i : Byte) (s : State) :
    takeSetUnit tag a b c d e f h i (s.dress g k) = (takeSetUnit tag a b c d e f h i s).dress g k := by
  unfold takeSetUnit
  rcases below 4 a with _ | u
  · exact answer_dress g hk _ _ _ _
  rcases unitModeOf b with _ | m
  · exact answer_dress g hk _ _ _ _
  rcases pointOf c d e with _ | p
  · exact answer_dress g hk _ _ _ _
  rcases below 8 f with _ | src
  · exact answer_dress g hk _ _ _ _
  rcases boolOf i with _ | rep
  · exact answer_dress g hk _ _ _ _
  dsimp only
  rw [dress_units]
  split_ifs <;> exact answer_dress g hk _ _ _ _

theorem takeReadBuffer_dress (tag a b : Byte) (s : State) :
    takeReadBuffer tag a b (s.dress g k) = (takeReadBuffer tag a b s).dress g k := by
  unfold takeReadBuffer
  rcases below 4 a with _ | u
  · exact answer_dress g hk _ _ _ _
  rcases below 64 b with _ | o <;> exact answer_dress g hk _ _ _ _

theorem takeWriteBuffer_dress (tag a b : Byte) (d : Vector Byte 8) (s : State) :
    takeWriteBuffer tag a b d (s.dress g k) = (takeWriteBuffer tag a b d s).dress g k := by
  unfold takeWriteBuffer
  rcases below 4 a with _ | u
  · exact answer_dress g hk _ _ _ _
  rcases below 64 b with _ | o <;> exact answer_dress g hk _ _ _ _

/-! ### Orders of the collector and of the restarts (R156, R157, R159, R164) -/

omit hk in
theorem warm_dress (s : State) : (s.dress g k).warm = s.warm.dress g k := by
  have warmed : Span.warm ∘ Span.dress g = Span.dress g ∘ Span.warm := rfl
  unfold State.warm State.dress
  dsimp only
  rw [Vector.map_map, Vector.map_map, warmed]

theorem takeReadAlarms_dress (tag a : Byte) (s : State) :
    takeReadAlarms tag a (s.dress g k) = (takeReadAlarms tag a s).dress g k := by
  unfold takeReadAlarms
  simp only [dress_span]
  rcases ownerOf a with _ | _ | n <;> exact answer_dress g hk _ _ _ _

theorem takeClearLatched_dress (tag a : Byte) (s : State) :
    takeClearLatched tag a (s.dress g k) = (takeClearLatched tag a s).dress g k := by
  unfold takeClearLatched
  simp only [dress_span]
  rcases ownerOf a with _ | _ | n
  · exact answer_dress g hk _ _ _ _
  · exact answer_dress g hk _ _ _ _
  · have cleared := modSpan_dress g k (f := fun sp => { sp with latched := (s.span n).latched &&& (s.span n).active })
      (fun _ => rfl) s n
    refine answer_dress g hk _ _ _ _ ?_
    exact congrArg (fun t : State => { t with restart := { t.restart with notice := false } }) cleared

theorem takeReadCounts_dress (tag a b c : Byte) (s : State) :
    takeReadCounts tag a b c (s.dress g k) = (takeReadCounts tag a b c s).dress g k := by
  have cleared (n : Fin 16) (f : SpanCounts → SpanCounts) :=
    modSpan_dress g k (f := fun sp => { sp with counts := f sp.counts }) (fun _ => rfl) s n
  unfold takeReadCounts
  simp only [dress_span, cleared]
  rcases boolOf c with _ | cl
  · exact answer_dress g hk _ _ _ _
  dsimp only
  split
  · cases cl <;> exact answer_dress g hk _ _ _ _
  rcases spanOf b with _ | n
  · exact answer_dress g hk _ _ _ _
  dsimp only
  split_ifs <;> exact answer_dress g hk _ _ _ _

/-- An order's rule looks at no cell and at no overhead octet, and writes none (R141). -/
theorem takeOrder_dress (sampled : Fin 16 → Bool) (s : State) (i : Instr) :
    (s.dress g k).takeOrder sampled i = (s.takeOrder sampled i).dress g k := by
  cases i with
  | unknownOrder => exact answer_dress g hk _ _ _ _
  | identify => exact answer_dress g hk _ _ _ _
  | warmRestart => exact answer_dress g hk _ _ _ _ (warm_dress g s)
  | setSpan => exact takeSetSpan_dress g hk _ _ _ _ _ _ _ s
  | spanRestart => exact takeSpanRestart_dress g hk _ _ s
  | readSpan => exact takeReadSpan_dress g hk _ _ s
  | setThresholds => exact takeSetThresholds_dress g hk _ _ _ _ s
  | readStore => exact takeReadStore_dress g hk _ _ s
  | setDrift => exact takeSetDrift_dress g hk _ _ _ _ _ s
  | readDrift => exact takeReadDrift_dress g hk _ _ s
  | setReference => exact takeSetReference_dress g hk _ _ _ _ _ _ s
  | setTimingMode tag a b =>
    dsimp only [State.takeOrder]
    unfold takeSetTimingMode
    rcases timingModeOf a with _ | m
    · exact answer_dress g hk _ _ _ _
    rcases boolOf b with _ | r <;> exact answer_dress g hk _ _ _ _
  | selectReference => exact takeSelectReference_dress g hk _ _ s
  | readReference tag a =>
    dsimp only [State.takeOrder]
    unfold takeReadReference
    rcases below 4 a with _ | e <;> exact answer_dress g hk _ _ _ _
  | readTiming => exact answer_dress g hk _ _ _ _
  | setTimingOutput => exact takeSetTimingOutput_dress g hk _ _ _ _ _ _ s
  | writeIngressEntry => exact takeWriteIngressEntry_dress g hk _ _ _ _ _ _ s
  | writeEgressEntry => exact takeWriteEgressEntry_dress g hk _ _ _ _ _ _ s
  | readIngressEntry => exact takeReadIngressEntry_dress g hk _ _ _ _ s
  | readEgressEntry => exact takeReadEgressEntry_dress g hk _ _ _ _ s
  | swapMaps tag a =>
    dsimp only [State.takeOrder]
    unfold takeSwapMaps
    rcases directionOf a with _ | ⟨i, e⟩ <;> exact answer_dress g hk _ _ _ _
  | copyMaps => exact takeCopyMaps_dress g hk _ _ s
  | setTimer => exact takeSetTimer_dress g hk _ _ _ _ _ _ s
  | loadMatch tag a v =>
    dsimp only [State.takeOrder]
    unfold takeLoadMatch
    rcases below 4 a with _ | n <;> exact answer_dress g hk _ _ _ _
  | armTimer tag a =>
    dsimp only [State.takeOrder]
    unfold takeArmTimer takeArming
    rcases below 4 a with _ | n <;> exact answer_dress g hk _ _ _ _
  | disarmTimer tag a =>
    dsimp only [State.takeOrder]
    unfold takeDisarmTimer takeArming
    rcases below 4 a with _ | n <;> exact answer_dress g hk _ _ _ _
  | readTimer tag a =>
    dsimp only [State.takeOrder]
    unfold takeReadTimer
    rcases below 4 a with _ | n <;> exact answer_dress g hk _ _ _ _
  | setFrameNumber tag v =>
    dsimp only [State.takeOrder]
    unfold takeSetFrameNumber
    split <;> exact answer_dress g hk _ _ _ _
  | setUnit => exact takeSetUnit_dress g hk _ _ _ _ _ _ _ _ _ s
  | startUnit tag a =>
    dsimp only [State.takeOrder]
    unfold takeStartUnit
    rcases below 4 a with _ | u <;> exact answer_dress g hk _ _ _ _
  | stopUnit tag a =>
    dsimp only [State.takeOrder]
    unfold takeStopUnit
    rcases below 4 a with _ | u <;> exact answer_dress g hk _ _ _ _
  | triggerUnit tag a =>
    dsimp only [State.takeOrder]
    unfold takeTriggerUnit
    rcases below 4 a with _ | u <;> exact answer_dress g hk _ _ _ _
  | readUnit tag a =>
    dsimp only [State.takeOrder]
    unfold takeReadUnit
    rcases below 4 a with _ | u <;> exact answer_dress g hk _ _ _ _
  | readBuffer => exact takeReadBuffer_dress g hk _ _ _ s
  | writeBuffer => exact takeWriteBuffer_dress g hk _ _ _ _ s
  | readAlarms => exact takeReadAlarms_dress g hk _ _ s
  | clearLatched => exact takeClearLatched_dress g hk _ _ s
  | readCounts => exact takeReadCounts_dress g hk _ _ _ _ s
  | _ => rfl

end

end Sys2Proof.Machine
end

