-- ==== Sys2Proof/Proofs/CellExamination.lean ====
section
/-! The examination of the receive cell by itself and at a superframe boundary, compared with that of an empty cell (O16). -/

namespace Sys2Proof.Machine

/-! ### The three tests of a receive cell (R140) -/

/-- A cell that leaves no trace: empty, or good and for another station. -/
def State.passesOver (s : State) (cell : Cell) : Prop :=
  cell[1] = 0 ∨ (meetsCheck cell = true ∧ cell[0].toNat ≠ s.restart.station.toNat ∧ cell[0] ≠ 31)

/-- A cell that is not empty and fails the check. -/
def damaged (cell : Cell) : Prop := cell[1] ≠ 0 ∧ meetsCheck cell = false

/-- A good cell with an order for this station or for all. -/
def State.takesFrom (s : State) (cell : Cell) : Prop :=
  cell[1] ≠ 0 ∧ meetsCheck cell = true ∧ (cell[0].toNat = s.restart.station.toNat ∨ cell[0] = 31)

theorem passesOver_of_station {s t : State} {cell : Cell} (ht : t.restart.station = s.restart.station)
    (h : s.passesOver cell) : t.passesOver cell := by
  unfold State.passesOver
  rwa [ht]

theorem takesFrom_of_station {s t : State} {cell : Cell} (ht : t.restart.station = s.restart.station)
    (h : s.takesFrom cell) : t.takesFrom cell := by
  unfold State.takesFrom
  rwa [ht]

theorem eq_stationByte_iff (s : State) (b : Byte) : b = s.stationByte ↔ b.toNat = s.restart.station.toNat := by
  rw [← stationByte_toNat, BitVec.toNat_inj]

section
variable {s : State} {cell : Cell} (sampled : Fin 16 → Bool)

theorem judgeCell_passesOver (h : s.passesOver cell) : s.judgeCell sampled cell = s := by
  unfold State.judgeCell
  split_ifs with empty failed own
  · rfl
  · obtain ⟨good, -⟩ := h.resolve_left empty
    cases good.symm.trans failed
  · obtain ⟨-, other, notAll⟩ := h.resolve_left empty
    exact absurd own (not_or.mpr ⟨fun k => other ((eq_stationByte_iff s _).mp k), notAll⟩)
  · rfl

theorem judgeCell_damaged (h : damaged cell) : s.judgeCell sampled cell = s.checkError := by
  obtain ⟨full, failed⟩ := h
  rw [State.judgeCell, if_neg full, if_pos failed]

theorem judgeCell_takesFrom (h : s.takesFrom cell) : s.judgeCell sampled cell = s.takeOrder sampled (decodeOrder cell) := by
  obtain ⟨full, good, own⟩ := h
  rw [State.judgeCell, if_neg full, if_neg (by rw [good]; nofun), if_pos (own.imp_left (eq_stationByte_iff s _).mpr)]

end

theorem examine_framed {s : State} (sampled : Fin 16 → Bool) (h : s.channel.framed = true) :
    s.examine sampled = (s.judgeCell sampled s.channel.receive).clearCell := if_pos h

theorem examine_unframed {s : State} (sampled : Fin 16 → Bool) (h : s.channel.framed = false) : s.examine sampled = s :=
  if_neg (by rw [h]; nofun)

/-! ### Boundaries that examine no cell (R140, R151) -/

/-- Within a superframe every handling leaves the order channel alone. -/
theorem handleAll_within_besideChannel (apart : Bool) (todo done : List Handling) (s : State) :
    s.besideChannel (s.handleAll false apart done todo) := by
  induction todo generalizing done s with
  | nil => exact besideChannel_refl s
  | cons h rest ih =>
    refine besideChannel_trans ?_ (ih (h :: done) (s.handle false apart done h))
    by_cases hc : h = .orderChannel
    · subst hc; exact besideChannel_refl s
    · exact handle_besideChannel s false apart done hc

theorem gather_unframed {s : State} (b : Byte) (h : s.channel.framed = false) : s.gather b = s := if_neg (by rw [h]; nofun)

/-- A boundary within a superframe. -/
theorem boundary_within {s : State} (egress : Vector Byte 640) (order : List Handling) (apart : Bool)
    (h : (s.frameNumber.toNat + 1) % 16 ≠ 0) :
    (s.boundary egress order apart).device.checkErrors = s.device.checkErrors ∧
      (s.boundary egress order apart).channel = (s.gather egress[0]).channel := by
  refine ⟨?_, boundary_channel_within s egress order apart h⟩
  have closes : (s.boundary egress order apart).device.checkErrors =
      ((s.opened egress).handleAll s.superframeNext apart [] (schedule order)).device.checkErrors := rfl
  rw [closes, superframeNext_eq_false h, (handleAll_within_besideChannel apart _ _ _).checkErrors,
    (opened_besideChannel s egress).checkErrors, gather_device]

section
variable {s u w : State} {egress : Vector Byte 640} {order : List Handling} {apart : Bool} {sampled : Fin 16 → Bool}

theorem State.channelAt.checkErrors (h : s.channelAt egress order apart u sampled w) :
    u.device.checkErrors = s.device.checkErrors := by
  rw [h.before.checkErrors, gather_device]

/-- What a superframe boundary leaves of the channel's receive side, as its order channel left it. -/
theorem State.channelAt.receives (h : s.channelAt egress order apart u sampled w) :
    (s.boundary egress order apart).channel.receive = (u.orderBoundary sampled).channel.receive ∧
      (s.boundary egress order apart).channel.reply = (u.orderBoundary sampled).channel.reply ∧
      (s.boundary egress order apart).device.checkErrors = (u.orderBoundary sampled).device.checkErrors ∧
      subset (u.orderBoundary sampled).device.latched (s.boundary egress order apart).device.latched := by
  rw [h.closes, ← h.after.channel, ← h.after.checkErrors]
  exact ⟨rfl, rfl, rfl, h.after.latched⟩

/-- The first superframe boundary examines no cell (R151). -/
theorem State.channelAt.unframed (h : s.channelAt egress order apart u sampled w) (hf : s.channel.framed = false) :
    (s.boundary egress order apart).device.checkErrors = s.device.checkErrors ∧
      (s.boundary egress order apart).channel.reply = none ∧
      (s.boundary egress order apart).channel.receive = s.channel.receive := by
  have channel : u.channel = s.channel := by rw [h.before.channel, gather_unframed _ hf]
  have idle : u.orderBoundary sampled = u.formSend := examine_unframed (s := u.formSend) sampled
    ((congrArg OrderChannel.framed channel).trans hf)
  obtain ⟨receive, reply, errors, -⟩ := h.receives
  rw [receive, reply, errors, idle]
  have same : u.channel.receive = s.channel.receive := by rw [channel]
  exact ⟨h.checkErrors, rfl, same⟩

end

/-! ### The cell of a superframe boundary (R137, R140, R145) -/

/-- The management byte of a superframe's last office frame completes the cell (R137). -/
theorem gather_completes {s : State} (b : Byte) (h : (s.frameNumber.toNat + 1) % 16 = 0) (hf : s.channel.framed = true) :
    (s.gather b).channel = { s.channel with receive := s.channel.receive.set 15 b } := by
  have last : frameIndex s.frameNumber = 15 := by unfold frameIndex; omega
  have placed : (Vector.ofFn fun i : Fin 16 => if i.val = 15 then b else s.channel.receive[i]) =
      s.channel.receive.set 15 b := by
    ext i hi
    rw [Vector.getElem_ofFn, Vector.getElem_set]
    by_cases h15 : 15 = i
    · rw [if_pos h15.symm, if_pos h15]
    · rw [if_neg (Ne.symm h15), if_neg h15]
      rfl
  unfold State.gather
  rw [if_pos hf, last, placed]

section
variable {s u w : State} {egress : Vector Byte 640} {order : List Handling} {apart : Bool} {sampled : Fin 16 → Bool}

/-- The order channel of a superframe boundary, cells framed: the send cell formed, then the cell gathered examined and
cleared (R145). -/
theorem State.channelAt.examines (h : s.channelAt egress order apart u sampled w) (hs : s.superframeNext = true)
    (hf : s.channel.framed = true) :
    u.orderBoundary sampled =
      (u.formSend.judgeCell sampled (s.channel.receive.set 15 egress[0])).clearCell := by
  have channel : u.channel = { s.channel with receive := s.channel.receive.set 15 egress[0] } :=
    h.before.channel.trans (gather_completes _ ((superframeNext_iff s).mp hs) hf)
  have receive : u.formSend.channel.receive = s.channel.receive.set 15 egress[0] := congrArg OrderChannel.receive channel
  rw [← receive]
  exact examine_framed (s := u.formSend) sampled ((congrArg OrderChannel.framed channel).trans hf)

end

/-- What each finding on the cell leaves of a superframe boundary (R140, R141, R146). -/
theorem boundary_finds {s : State} (egress : Vector Byte 640) (order : List Handling) (apart : Bool)
    (hs : s.superframeNext = true) (hf : s.channel.framed = true) {cell : Cell}
    (hcell : s.channel.receive.set 15 egress[0] = cell) {t : State} (ht : t = s.boundary egress order apart) :
    t.channel.receive = Vector.replicate 16 0 ∧
      (s.passesOver cell → t.channel.reply = none ∧ t.device.checkErrors = s.device.checkErrors) ∧
      (damaged cell → t.channel.reply = none ∧ t.device.checkErrors = raise s.device.checkErrors ∧
        t.device.latched.getLsbD 6 = true) ∧
      (s.takesFrom cell → ∃ r, t.channel.reply = some r ∧ r.code = cell[1] ∧ r.tag = cell[2]) := by
  obtain ⟨u, sampled, w, placed⟩ := channelAt_exists egress order apart hs
  obtain ⟨receive, reply, errors, latched⟩ := placed.receives
  have examined := placed.examines hs hf
  rw [hcell] at examined
  have station : u.formSend.restart.station = s.restart.station := placed.station
  rw [ht, receive, reply, errors]
  rw [examined] at latched ⊢
  refine ⟨rfl, fun h => ?_, fun h => ?_, fun h => ?_⟩
  · rw [judgeCell_passesOver sampled (passesOver_of_station station h)]
    exact ⟨rfl, placed.checkErrors⟩
  · rw [judgeCell_damaged sampled h] at latched ⊢
    refine ⟨rfl, congrArg raise placed.checkErrors, getLsbD_of_subset latched ?_⟩
    change (u.device.latched ||| checkErrorAlarm).getLsbD 6 = true
    rw [BitVec.getLsbD_or]
    exact Bool.or_eq_true_iff.mpr (.inr rfl)
  · rw [judgeCell_takesFrom sampled (takesFrom_of_station station h)]
    obtain ⟨-, -, o, r, channel⟩ := decodeOrder_answers sampled u.formSend cell
    exact ⟨⟨cell[1], cell[2], o, r⟩, congrArg OrderChannel.reply channel, rfl, rfl⟩

/-! ### The same boundary with an empty cell (R140) -/

/-- The order channel with its receive cell empty. -/
def OrderChannel.emptied (c : OrderChannel) : OrderChannel := { c with receive := Vector.replicate 16 0 }

/-- A dress of the order channel alone. -/
theorem dress_id (k : OrderChannel → OrderChannel) (s : State) : s.dress id k = { s with channel := k s.channel } := by
  have same : Span.dress id = id := rfl
  rw [State.dress, same, Vector.map_id]

theorem gather_emptied (s : State) (b : Byte) :
    (s.dress id OrderChannel.emptied).gather 0 = (s.gather b).dress id OrderChannel.emptied := by
  have zeros : (Vector.ofFn fun i : Fin 16 => if i.val = frameIndex s.frameNumber then (0 : Byte) else
      (Vector.replicate 16 (0 : Byte))[i]) = Vector.replicate 16 0 := by
    ext i hi
    simp
  rw [dress_id, dress_id]
  unfold State.gather OrderChannel.emptied
  dsimp only
  rw [zeros]
  split <;> rfl

/-- Away from the management slot the bytes received are the same (R89). -/
theorem pointByte_emptied (s : State) (received : Vector Byte 640) {p : Point} (hp : p.management = false) :
    State.pointByte { s with channel := s.channel.emptied } (received.set 0 0) p = s.pointByte received p := by
  cases p with
  | rx => rfl
  | tx => rfl
  | ingress => rfl
  | egress l t =>
    have away : 0 ≠ (slotIndex l t).val := fun k => by
      have sum : 160 * l.val + t.val = 0 := k.symm
      have lane : l = 0 := Fin.ext (by omega)
      have slot : t = 0 := Fin.ext (by omega)
      rw [lane, slot] at hp
      cases hp
    exact Vector.getElem_set_ne _ _ away

theorem transferred_emptied (s : State) (received : Vector Byte 640) {u : Fin 4}
    (hu : s.units[u].point.management = false) :
    (s.dress id OrderChannel.emptied).transferred (received.set 0 0) u = s.transferred received u := by
  have transfers : State.transfers { s with channel := s.channel.emptied } u = s.transfers u := rfl
  have winner (p : Point) : State.winner { s with channel := s.channel.emptied } p = s.winner p := rfl
  rw [dress_id]
  unfold State.transferred State.moved
  dsimp only
  rw [transfers, pointByte_emptied s received hu, winner]

theorem unitsEndFrame_emptied (s : State) (received : Vector Byte 640)
    (hu : ∀ u : Fin 4, s.units[u].point.management = false) :
    ((s.dress id OrderChannel.emptied).unitsEndFrame (received.set 0 0)).units = (s.unitsEndFrame received).units := by
  ext1 i hi
  obtain ⟨p, e, hp⟩ := unitsEndFrame_unit (s.dress id OrderChannel.emptied) (received.set 0 0) ⟨i, hi⟩
  obtain ⟨q, f, hq⟩ := unitsEndFrame_unit s received ⟨i, hi⟩
  rw [transferred_emptied s received (hu ⟨i, hi⟩)] at e hp
  have pends : p = q := Bool.eq_iff_iff.mpr (hp.trans hq.symm)
  rw [pends] at e
  exact e.trans f.symm

theorem takeHolds_emptied (s : State) (received : Vector Byte 640) :
    (s.dress id OrderChannel.emptied).takeHolds (received.set 0 0) =
      (s.takeHolds received).dress id OrderChannel.emptied := by
  have held : (received.set 0 0).set 0 0xFF = received.set 0 0xFF := Vector.set_set ..
  have sent (n : Fin 16) : State.sentFrame { s with channel := s.channel.emptied } n = s.sentFrame n := rfl
  have lanes (i : Fin 640) : State.ingressAt { s with channel := s.channel.emptied } i = s.ingressAt i := rfl
  rw [dress_id, dress_id]
  unfold State.takeHolds
  simp only [held, sent, lanes]
  rfl

theorem openBoundary_emptied (s : State) (superframe : Bool) :
    (s.dress id OrderChannel.emptied).openBoundary superframe =
      (s.openBoundary superframe).dress id OrderChannel.emptied := by
  rw [dress_id, dress_id]
  rfl

theorem besideSpans_point {s t : State} (h : s.besideSpans t) (u : Fin 4) : t.units[u].point = s.units[u].point := by
  rcases h.units u with k | k <;> rw [k]

/-- The end of an office frame with no unit at the management slot. -/
theorem frameEnd_emptied (s : State) (received : Vector Byte 640) (superframe : Bool)
    (hu : ∀ u : Fin 4, s.units[u].point.management = false) :
    State.openBoundary { (s.dress id OrderChannel.emptied).takeHolds (received.set 0 0) with
        units := ((s.dress id OrderChannel.emptied).unitsEndFrame (received.set 0 0)).units } superframe =
      (State.openBoundary { s.takeHolds received with units := (s.unitsEndFrame received).units } superframe).dress id
        OrderChannel.emptied := by
  rw [takeHolds_emptied, unitsEndFrame_emptied s received hu]
  exact openBoundary_emptied { s.takeHolds received with units := (s.unitsEndFrame received).units } superframe

/-- The opening of a boundary with no unit at the management slot: the byte received there shows in the receive cell alone. -/
theorem opened_emptied {s : State} (received : Vector Byte 640) (hu : ∀ u : Fin 4, s.units[u].point.management = false) :
    (s.dress id OrderChannel.emptied).opened (received.set 0 0) = (s.opened received).dress id OrderChannel.emptied := by
  have points (u : Fin 4) : (s.acquisitionTimeout.finishReads.gather received[0]).units[u].point.management = false := by
    rw [gather_units, besideSpans_point (besideSpans_trans (acquisitionTimeout_beside s) (finishReads_beside _)), hu u]
  have first : (received.set 0 0)[0] = (0 : Byte) := Vector.getElem_set_self _
  have next : (s.dress id OrderChannel.emptied).superframeNext = s.superframeNext := rfl
  have ended := frameEnd_emptied _ received s.superframeNext points
  rw [← gather_emptied] at ended
  unfold State.opened State.endFrame
  dsimp only
  rw [next, acquisitionTimeout_dress, finishReads_dress, first]
  exact ended

/-- An order channel that finds an empty cell forms its send cell, and that is all (R140, R145). -/
theorem orderBoundary_emptied {s : State} (sampled : Fin 16 → Bool) (hf : s.channel.framed = true) :
    (s.dress id OrderChannel.emptied).orderBoundary sampled = s.formSend.clearCell := by
  have framed : (State.formSend { s with channel := s.channel.emptied }).channel.framed = true := hf
  have empty : (State.formSend { s with channel := s.channel.emptied }).channel.receive[1] = 0 := rfl
  rw [dress_id, State.orderBoundary, examine_framed sampled framed, judgeCell_empty _ _ empty, formSend_eq, formSend_eq]
  rfl

/-! ### The end of a superframe boundary as a dress -/

/-- The order channel as a superframe boundary leaves it, its cell examined and cleared. -/
def OrderChannel.closed (n : FrameNumber) (status : Bool) (c : OrderChannel) : OrderChannel :=
  { receive := Vector.replicate 16 0, send := if status then c.send.map (stampStatus n) else c.send, reply := c.reply
    framed := true }

/-- The frame that begins at a superframe boundary has index 0, and its overhead octet is the marker whatever the span: all
that the end of the boundary writes is dress (R18, R107, R148). -/
theorem closeBoundary_eq_dress {s : State} (status : Bool) (h : frameIndex s.frameNumber = 0) :
    s.clearCell.closeBoundary true status =
      s.dress (fun _ => Config.superframeMarker) (OrderChannel.closed s.frameNumber status) := by
  have marked : (fun sp : Span => { sp with tx := { sp.tx with overhead := sp.overheadAt (frameIndex s.frameNumber) } }) =
      Span.dress fun _ => Config.superframeMarker := by
    rw [h]; rfl
  have framed : (s.channel.framed || true) = true := Bool.or_true _
  unfold State.closeBoundary State.dress State.clearCell OrderChannel.closed
  dsimp only
  rw [marked, framed]
  cases status <;> rfl

/-- An order carried out before the end of a superframe boundary does what it does after it. -/
theorem takeOrder_closeBoundary {s : State} (sampled : Fin 16 → Bool) (i : Instr) (status : Bool)
    (h : frameIndex s.frameNumber = 0) :
    (s.takeOrder sampled i).clearCell.closeBoundary true status =
      (s.clearCell.closeBoundary true status).takeOrder sampled i := by
  have after : frameIndex (s.takeOrder sampled i).frameNumber = 0 := by rw [takeOrder_frameNumber]; exact h
  have replies : keepsReplies (OrderChannel.closed s.frameNumber status) := fun _ _ => rfl
  rw [closeBoundary_eq_dress status after, closeBoundary_eq_dress status h, takeOrder_frameNumber,
    takeOrder_dress _ replies]

/-- The number a superframe boundary forms is a multiple of 16 (R107, R108). -/
theorem boundary_frameIndex {s : State} (egress : Vector Byte 640) (order : List Handling) (apart : Bool)
    (hs : s.superframeNext = true) (hd : s.dueLaw) : frameIndex (s.boundary egress order apart).frameNumber = 0 :=
  boundary_forms (V := fun v => frameIndex v = 0) s egress order apart (recordMove_dueBy s.superframeNext [])
    (fun _ ht e => nextNumber_multiple ht (e ▸ (superframeNext_iff s).mp hs)) (opened_dueBy egress hd)

/-- Where the order channel comes last, a superframe boundary leaves what it leaves with an empty cell, and what the finding
on its own cell adds. -/
theorem boundary_examinesLast {s : State} (egress : Vector Byte 640) {order : List Handling} (apart : Bool)
    (hs : s.superframeNext = true) (hf : s.channel.framed = true) (named : .orderChannel ∉ order) (hd : s.dueLaw)
    (hu : ∀ u : Fin 4, s.units[u].point.management = false) {cell : Cell}
    (hcell : s.channel.receive.set 15 egress[0] = cell) {t e : State} (ht : t = s.boundary egress order apart)
    (he : e = (s.dress id OrderChannel.emptied).boundary (egress.set 0 0) order apart) :
    (s.passesOver cell → t = e) ∧
      (damaged cell → t = { e with device := { e.device with
        checkErrors := raise e.device.checkErrors, latched := e.device.latched ||| 0x0040 } }) ∧
      (s.takesFrom cell → t = e.takeOrder (fun _ => true) (decodeOrder cell)) := by
  obtain ⟨pre, split, notBefore, stores⟩ := schedule_orderChannel_last order named
  have index := boundary_frameIndex egress order apart hs hd
  have last := boundary_channelLast egress apart hs split stores
  have lastEmptied : e = _ := he.trans
    (boundary_channelLast (s := s.dress id OrderChannel.emptied) (egress.set 0 0) apart hs split stores)
  rw [opened_emptied egress hu, handleAll_dress id _ true apart pre [] _ notBefore] at lastEmptied
  have before : (s.gather egress[0]).besideChannel ((s.opened egress).handleAll true apart [] pre) :=
    besideChannel_trans (opened_besideChannel s egress) (handleAll_besideChannel true apart pre [] _ notBefore)
  generalize (s.opened egress).handleAll true apart [] pre = u at last lastEmptied before
  have placed : s.channelAt egress order apart u (fun _ => true) (u.orderBoundary fun _ => true) :=
    ⟨before, besideChannel_refl _, last, fun _ => rfl⟩
  have number : frameIndex u.formSend.frameNumber = 0 := by
    rw [last] at index
    exact (congrArg frameIndex (orderBoundary_frameNumber u _)).symm.trans index
  have framed : u.channel.framed = true := by rw [before.channel, gather_framed, hf]
  have station : u.formSend.restart.station = s.restart.station := placed.station
  rw [orderBoundary_emptied _ framed] at lastEmptied
  rw [placed.examines hs hf, hcell] at last
  rw [ht, last, lastEmptied]
  refine ⟨fun h => ?_, fun h => ?_, fun h => ?_⟩
  · rw [judgeCell_passesOver _ (passesOver_of_station station h)]
    rfl
  · rw [judgeCell_damaged _ h]
    rfl
  · rw [judgeCell_takesFrom _ (takesFrom_of_station station h)]
    exact takeOrder_closeBoundary _ _ _ number

/-- Settles O16: the tests of a cell by themselves, boundaries that examine none, and the cell of a superframe boundary. -/
theorem cellExamination : Obligations.CellExamination := by
  refine ⟨fun s sampled hf => ?_, fun s egress order apart hr => ⟨fun h => ?_, fun h hf => ?_⟩⟩
  · dsimp only
    rw [examine_framed sampled hf]
    refine ⟨fun empty => ?_, fun full failed => ?_, fun full good other notAll => ?_, fun full good own => ?_⟩
    · rw [judgeCell_empty _ _ empty]
    · rw [judgeCell_damaged _ ⟨full, failed⟩]
      rfl
    · rw [judgeCell_passesOver _ (.inr ⟨good, other, notAll⟩)]
    · rw [judgeCell_takesFrom _ ⟨full, good, own⟩]
  · refine ⟨_, whenRunning_of_runs s _ hr, ?_⟩
    cases hs : s.superframeNext with
    | true =>
      have multiple := (superframeNext_iff s).mp hs
      obtain ⟨u, sampled, w, placed⟩ := channelAt_exists egress order apart hs
      obtain ⟨errors, reply, receive⟩ := placed.unframed (h.resolve_left fun k => k multiple)
      exact ⟨errors, fun k => absurd multiple k, fun _ => reply, fun _ => receive⟩
    | false =>
      have within := superframeNext_false hs
      obtain ⟨errors, channel⟩ := boundary_within egress order apart within
      rw [channel, gather_reply]
      exact ⟨errors, fun _ => rfl, fun k => absurd k within, fun unframed => by rw [gather_unframed _ unframed]⟩
  · have hs := (superframeNext_iff s).mpr h
    obtain ⟨cleared, passed, failed, taken⟩ := boundary_finds egress order apart hs hf rfl rfl
    refine ⟨_, whenRunning_of_runs s _ hr, cleared, passed, failed, taken, fun named hd hu => ?_⟩
    have emptied := dress_id OrderChannel.emptied s
    refine ⟨_, whenRunning_of_runs _ _ hr, boundary_examinesLast egress apart hs hf named hd hu rfl rfl ?_⟩
    rw [emptied]
    rfl

end Sys2Proof.Machine
end

