-- ==== Sys2Proof/Proofs/Latching.lean ====
section
/-! Alarm sets within one another, and the latch law through every operation that publishes a change (R155). -/

namespace Sys2Proof.Machine

/-! ### Alarm sets within one another -/

theorem subset_or {a b c d : Word} (h : subset a b) (k : subset c d) : subset (a ||| c) (b ||| d) := by
  unfold subset at *
  rw [← h, ← k]
  ext i hi
  simp
  tauto

theorem subset_alarmBit (i : Nat) {a b : Bool} (h : a = true → b = true) : subset (alarmBit i a) (alarmBit i b) := by
  cases a with
  | false => exact BitVec.zero_and
  | true => rw [h rfl]; exact subset_refl _

/-- Office timing `u` raises no alarm over `t`: it has no entry faulted that `t` has not, and its loop has the state it had or
one that is no alarm (R154). -/
structure Timing.raisesNone (t u : Timing) : Prop where
  faulted : ∀ e : Fin 4, u.entries[e].state = .faulted → t.entries[e].state = .faulted
  loop : u.loop.state = t.loop.state ∨ u.loop.state = .acquiring ∨ u.loop.state = .locked

theorem raisesNone_refl (t : Timing) : t.raisesNone t := ⟨fun _ => id, .inl rfl⟩

theorem raisesNone_of_loop {t u : Timing} (he : u.entries = t.entries)
    (hl : u.loop.state = t.loop.state ∨ u.loop.state = .acquiring ∨ u.loop.state = .locked) : t.raisesNone u :=
  ⟨fun e => by rw [he]; exact id, hl⟩

theorem Timing.raisesNone.subset_active {t u : Timing} (h : t.raisesNone u) : subset u.active t.active := by
  have entry (e : Fin 4) : (u.entries[e].state == .faulted) = true → (t.entries[e].state == .faulted) = true := by
    simpa using h.faulted e
  have loop (x : LoopState) (ha : x ≠ .acquiring) (hl : x ≠ .locked) :
      (u.loop.state == x) = true → (t.loop.state == x) = true := by
    simp only [beq_iff_eq]
    rintro rfl
    exact (h.loop.resolve_right (not_or.mpr ⟨ha, hl⟩)).symm
  unfold Timing.active
  exact subset_or (subset_or (subset_or (subset_or (subset_or (subset_alarmBit 0 (entry 0)) (subset_alarmBit 1 (entry 1)))
    (subset_alarmBit 2 (entry 2))) (subset_alarmBit 3 (entry 3))) (subset_alarmBit 4 (loop .holdover nofun nofun)))
    (subset_alarmBit 5 (loop .free nofun nofun))

/-! ### The device set -/

/-- Qualification faults no entry (R68). -/
theorem faulted_of_qualify {x : RefEntry} (h : x.qualify.state = .faulted) : x.state = .faulted := by
  obtain ⟨-, e⟩ | ⟨-, -, e⟩ | ⟨-, -, e⟩ := qualify_cases x <;> rw [e] at h
  · exact h
  · cases h
  · exact h

/-- Every active device alarm is latched (R155). -/
def State.deviceLatched (s : State) : Prop := subset s.timing.active s.device.latched

theorem latchDevice_latched (s : State) : s.latchDevice.deviceLatched := subset_or_right _ _

theorem State.deviceLatched.of {s t : State} (h : s.deviceLatched) (ht : s.timing.raisesNone t.timing)
    (hd : t.device.latched = s.device.latched) : t.deviceLatched := by
  unfold State.deviceLatched
  rw [hd]
  exact subset_trans ht.subset_active h

theorem State.deviceLatched.of_same {s t : State} (h : s.deviceLatched) (ht : t.timing = s.timing) (hd : t.device = s.device) :
    t.deviceLatched := by
  unfold State.deviceLatched
  rw [ht, hd]
  exact h

theorem dropSelection_latched (s : State) : s.dropSelection.deviceLatched := latchDevice_latched _

section

variable {s : State} (h : s.deviceLatched)
include h

theorem setEntry_latched (e : Fin 4) {x : RefEntry} (hx : x.state = .faulted → (s.entry e).state = .faulted) :
    (s.setEntry e x).deviceLatched := by
  refine h.of ⟨fun y => ?_, .inl rfl⟩ rfl
  by_cases hy : y = e
  · subst hy
    intro k
    exact hx (congrArg RefEntry.state (setEntry_entry s y x) ▸ k)
  · intro k
    exact congrArg RefEntry.state (setEntry_entry_ne s e y x hy) ▸ k

theorem setLoop_latched {l : Loop} (hl : l.state = s.timing.loop.state ∨ l.state = .acquiring ∨ l.state = .locked) :
    (s.setLoop l).deviceLatched := h.of (raisesNone_of_loop rfl hl) rfl

theorem selectEntry_latched (e : Fin 4) : (s.selectEntry e).deviceLatched :=
  h.of (raisesNone_of_loop rfl (.inr (.inl rfl))) rfl

omit h in
theorem faultEntry_latched (s : State) (e : Fin 4) (why : FaultReason) : (s.faultEntry e why).deviceLatched := by
  unfold State.faultEntry State.dropIfSelected
  split
  · exact dropSelection_latched _
  · exact latchDevice_latched _

/-- An entry that follows its fault condition raises its alarm only where it is latched at once. -/
theorem followEntry_latched (e : Fin 4) : (s.followEntry e).deviceLatched := by
  unfold State.followEntry
  split
  · exact h
  · exact setEntry_latched h e id
  · exact setEntry_latched h e nofun
  · exact faultEntry_latched s e _
  · exact faultEntry_latched s e _
  · exact h
  · exact h

theorem followEntries_latched : s.followEntries.deviceLatched :=
  followEntry_latched (followEntry_latched (followEntry_latched (followEntry_latched h 0) 1) 2) 3

theorem timeout_latched : s.timeout.deviceLatched := by
  unfold State.timeout
  split
  · exact h
  · exact dropSelection_latched _

theorem acquisitionTimeout_latched : s.acquisitionTimeout.deviceLatched := by
  unfold State.acquisitionTimeout
  split
  · exact timeout_latched h
  · exact h

theorem selectionRequest_latched (e : Fin 4) : (s.selectionRequest e).1.deviceLatched := by
  unfold State.selectionRequest
  split_ifs
  · exact h
  · exact h
  · exact selectEntry_latched h e
  · exact h

theorem qualificationComplete_latched (e : Fin 4) : (s.qualificationComplete e).deviceLatched := by
  unfold State.qualificationComplete
  dsimp only
  split
  · exact setEntry_latched h e faulted_of_qualify
  · exact h

/-! ### Office timing at a boundary (R66 to R72) -/

theorem qualifyAll_latched : s.qualifyAll.deviceLatched := by
  refine h.of ⟨fun e hf => ?_, .inl rfl⟩ rfl
  exact faulted_of_qualify (congrArg RefEntry.state (qualifyAll_entry s e) ▸ hf)

theorem autoSelect_latched : s.autoSelect.deviceLatched := by
  unfold State.autoSelect
  split
  · exact h
  · exact h
  · split
    · exact selectEntry_latched h _
    · split
      · exact selectEntry_latched h _
      · exact h

theorem lockStage_latched (apart : Bool) : (s.lockStage apart).deviceLatched := by
  unfold State.lockStage
  dsimp only
  generalize (if s.timing.detector.reading = true then s.timing.loop.lockCount + 1 else 0) = count
  split_ifs
  · exact setLoop_latched h (.inr (.inr rfl))
  · exact setLoop_latched h (.inl rfl)
  · exact setLoop_latched h (.inl rfl)
  · exact timeout_latched (setLoop_latched h (.inl rfl))
  · exact h

theorem otuBoundary_latched (superframe apart : Bool) : (s.otuBoundary superframe apart).deviceLatched := by
  have followed : s.monitors.deviceLatched :=
    followEntries_latched (s := { s with timing :=
      { s.timing with monitorA := s.timing.monitorA.frameEnd, monitorB := s.timing.monitorB.frameEnd } }) h
  unfold State.otuBoundary
  split
  · have staged := lockStage_latched (autoSelect_latched (qualifyAll_latched followed)) apart
    unfold State.otuSuperframe
    generalize s.monitors.qualifyAll.autoSelect.lockStage apart = t at staged
    have entries : t.timing.steer.entries = t.timing.entries := by rw [steer_eq]
    have state : t.timing.steer.loop.state = t.timing.loop.state := by rw [steer_eq]
    exact staged.of (raisesNone_of_loop entries (.inl state)) rfl
  · exact followed

end

/-! ### The sets of the spans with that of the device -/

/-- Every active alarm of the span is latched (R155). -/
def Span.alarmsLatched (sp : Span) : Prop := subset sp.active sp.latched

theorem latch_alarmsLatched (sp : Span) : sp.latch.alarmsLatched := subset_or_right _ _

/-- Every active alarm is latched but those of span `n`, where a change has not yet been published. -/
structure State.latchedBut (s : State) (n : Fin 16) : Prop where
  others : ∀ m, m ≠ n → (s.span m).alarmsLatched
  device : s.deviceLatched

theorem State.latchLaw.but {s : State} (h : s.latchLaw) (n : Fin 16) : s.latchedBut n := ⟨fun m _ => h.1 m, h.2⟩

theorem State.latchedBut.modSpan {s : State} {n : Fin 16} (h : s.latchedBut n) (f : Span → Span) :
    (s.modSpan n f).latchedBut n :=
  ⟨fun m hm => by rw [modSpan_span_ne s n m f hm]; exact h.others m hm, h.device⟩

theorem State.latchedBut.offer {s : State} {n : Fin 16} (h : s.latchedBut n) (src : Fin 8) :
    (s.offerSpanTrigger src n).latchedBut n := ⟨h.others, h.device⟩

/-- A change published leaves every active alarm latched, whatever the change was at its span. -/
theorem State.latchedBut.publish {s : State} {n : Fin 16} (h : s.latchedBut n) : (s.publish n).latchLaw := by
  obtain ⟨-, hn, hm⟩ := publish_spec s n
  refine ⟨fun m => ?_, followEntries_latched (s := s.modSpan n Span.latch) h.device⟩
  by_cases e : m = n
  · subst e; rw [hn]; exact latch_alarmsLatched _
  · rw [hm m e]; exact h.others m e

/-- Where no span has changed, the device's set alone is in question. -/
theorem State.latchLaw.of_spans {s t : State} (h : s.latchLaw) (hs : t.spans = s.spans) (hd : t.deviceLatched) : t.latchLaw :=
  ⟨fun n => by simp only [State.span, hs]; exact h.1 n, hd⟩

/-- Where the spans have changed in nothing their alarms read, and nothing else has in what the device's read. -/
theorem State.latchLaw.of_alike {s t : State} (h : s.latchLaw)
    (hs : ∀ n, (t.span n).active = (s.span n).active ∧ (t.span n).latched = (s.span n).latched)
    (ht : t.timing = s.timing) (hd : t.device.latched = s.device.latched) : t.latchLaw :=
  ⟨fun n => by rw [(hs n).1, (hs n).2]; exact h.1 n, State.deviceLatched.of (s := s) h.2 (ht ▸ raisesNone_refl _) hd⟩

/-- One span changed with its alarms still latched. -/
theorem State.latchLaw.modSpan {s : State} (h : s.latchLaw) (n : Fin 16) {f : Span → Span} (hf : (f (s.span n)).alarmsLatched) :
    (s.modSpan n f).latchLaw := by
  refine ⟨fun m => ?_, h.2⟩
  by_cases e : m = n
  · subst e; rw [modSpan_span]; exact hf
  · rw [modSpan_span_ne s n m f e]; exact h.1 m

/-! ### Events of span timing -/

section

variable {s : State} (h : s.latchLaw)
include h

theorem readSide_latchLaw (n : Fin 16) (r : Nat) : (s.readSide n r).latchLaw := ((h.but n).modSpan _).publish

omit h in
theorem loseAlignment_latchLaw {n : Fin 16} (h : s.latchedBut n) (r : Nat) (a : Aligner) :
    (s.loseAlignment n r a).latchLaw := by
  have read : (s.readSide n r).latchLaw := (h.modSpan _).publish
  unfold State.loseAlignment
  split
  · exact (((read.but n).modSpan _).offer 4).publish
  · exact (h.modSpan _).publish

theorem setClock_latchLaw (n : Fin 16) (l : Bool) : (s.modSpan n fun sp => sp.setClock l).latchLaw := h.modSpan n (h.1 n)

theorem clockRise_latchLaw (n : Fin 16) : (s.clockRise n).latchLaw := by
  unfold State.clockRise
  dsimp only
  split
  · exact (((h.but n).modSpan _).modSpan _).publish
  · exact setClock_latchLaw h n true

theorem clockFall_latchLaw (n : Fin 16) (r : Nat) : (s.clockFall n r).latchLaw := by
  unfold State.clockFall
  dsimp only
  split
  · exact loseAlignment_latchLaw (((h.but n).modSpan _).modSpan _) r .absent
  · exact setClock_latchLaw h n false

theorem noiseEnd_latchLaw (n : Fin 16) : (s.noiseEnd n).latchLaw := by
  unfold State.noiseEnd
  split
  · exact ((h.but n).modSpan _).publish
  · exact h

omit h in
theorem windowActs_latchLaw {n : Fin 16} (h : s.latchedBut n) (r : Nat) (before : LineWindows) :
    (s.windowActs n r before).latchLaw := by
  have lost (a : Aligner) := loseAlignment_latchLaw h r a
  unfold State.windowActs
  dsimp only
  cases (s.span n).rx.aligner with
  | hunt f => dsimp only; split; exacts [(h.modSpan _).publish, h.publish]
  | verify c m f => dsimp only; split; exacts [lost _, h.publish]
  | locked p => dsimp only; split; exacts [lost _, h.publish]
  | flywheel p m => dsimp only; split; exacts [lost _, h.publish]
  | off => exact h.publish
  | absent => exact h.publish

theorem windowEnd_latchLaw (n : Fin 16) (r : Nat) (samples : Vector Looks 336) : (s.windowEnd n r samples).latchLaw := by
  unfold State.windowEnd
  split
  · refine windowActs_latchLaw (.modSpan ?_ _) r _
    split
    · exact State.latchLaw.but ((h.but n).modSpan _).publish n
    · exact h.but n
  · exact h

theorem huntFound_latchLaw (n : Fin 16) (p : Nat) (o : Byte) : (s.huntFound n p o).latchLaw := by
  unfold State.huntFound
  split
  · split
    · exact ((h.but n).modSpan _).publish
    · exact h
  · exact h

theorem verifyCheck_latchLaw (n : Fin 16) (p : Nat) (o : Byte) : (s.verifyCheck n p o).latchLaw := by
  obtain e | ⟨c, m, f, -, e⟩ := verifyCheck_cases s n p o <;> rw [e]
  · exact h
  · unfold State.verifyResult
    dsimp only
    split_ifs <;> exact ((h.but n).modSpan _).publish

theorem expectedOctet_latchLaw (n : Fin 16) (r p : Nat) (o : Byte) : (s.expectedOctet n r p o).latchLaw := by
  obtain e | ⟨-, ⟨a, -, -, e⟩ | e⟩ := expectedOctet_cases s n r p o <;> rw [e]
  · exact h
  · exact ((h.but n).modSpan _).publish
  · exact loseAlignment_latchLaw (h.but n) r _

theorem alignedFrame_latchLaw (n : Fin 16) (r : Nat) (bits : List Bool) : (s.alignedFrame n r bits).latchLaw := by
  unfold State.alignedFrame
  split
  · exact ((h.but n).modSpan _).publish
  · exact h

theorem underrun_latchLaw (n : Fin 16) : (s.underrun n).latchLaw := by
  unfold State.underrun
  split
  · exact ((h.but n).modSpan _).publish
  · exact h

end

/-! ### Orders -/

/-- An order that acts on no span and on no part of office timing leaves the device's latched set and counts alone. -/
theorem takeOrder_device (sampled : Fin 16 → Bool) (s : State) (i : Instr) (hs : ordersSpans i = false)
    (ht : ordersTiming i = false) : (s.takeOrder sampled i).device = s.device := by
  cases i with
  | readSpan => dsimp only [State.takeOrder]; unfold takeReadSpan; split <;> rfl
  | readStore => dsimp only [State.takeOrder]; unfold takeReadStore; split <;> rfl
  | readDrift => dsimp only [State.takeOrder]; unfold takeReadDrift; split <;> rfl
  | readReference => dsimp only [State.takeOrder]; unfold takeReadReference; split <;> rfl
  | writeIngressEntry => dsimp only [State.takeOrder]; unfold takeWriteIngressEntry; split <;> [split_ifs <;> rfl; rfl]
  | writeEgressEntry => dsimp only [State.takeOrder]; unfold takeWriteEgressEntry; split <;> [split_ifs <;> rfl; rfl]
  | readIngressEntry => dsimp only [State.takeOrder]; unfold takeReadIngressEntry; split <;> [split_ifs <;> rfl; rfl]
  | readEgressEntry => dsimp only [State.takeOrder]; unfold takeReadEgressEntry; split <;> rfl
  | swapMaps => dsimp only [State.takeOrder]; unfold takeSwapMaps; split <;> rfl
  | copyMaps => dsimp only [State.takeOrder]; unfold takeCopyMaps; split <;> [rfl; split_ifs <;> rfl]
  | setTimer => dsimp only [State.takeOrder]; unfold takeSetTimer; split <;> [split_ifs <;> rfl; rfl]
  | loadMatch => dsimp only [State.takeOrder]; unfold takeLoadMatch; split <;> rfl
  | armTimer => dsimp only [State.takeOrder]; unfold takeArmTimer takeArming; split <;> rfl
  | disarmTimer => dsimp only [State.takeOrder]; unfold takeDisarmTimer takeArming; split <;> rfl
  | readTimer => dsimp only [State.takeOrder]; unfold takeReadTimer; split <;> rfl
  | setFrameNumber => dsimp only [State.takeOrder]; unfold takeSetFrameNumber; split_ifs <;> rfl
  | setUnit => dsimp only [State.takeOrder]; unfold takeSetUnit; split <;> [split_ifs <;> rfl; rfl]
  | startUnit => dsimp only [State.takeOrder]; unfold takeStartUnit; split <;> rfl
  | stopUnit => dsimp only [State.takeOrder]; unfold takeStopUnit; split <;> rfl
  | triggerUnit => dsimp only [State.takeOrder]; unfold takeTriggerUnit; split <;> rfl
  | readUnit => dsimp only [State.takeOrder]; unfold takeReadUnit; split <;> rfl
  | readBuffer => dsimp only [State.takeOrder]; unfold takeReadBuffer; split <;> rfl
  | writeBuffer => dsimp only [State.takeOrder]; unfold takeWriteBuffer; split <;> rfl
  | readAlarms => dsimp only [State.takeOrder]; unfold takeReadAlarms; split <;> rfl
  | warmRestart => cases hs
  | setSpan => cases hs
  | spanRestart => cases hs
  | setThresholds => cases hs
  | setDrift => cases hs
  | clearLatched => cases hs
  | readCounts => cases hs
  | setReference => cases ht
  | setTimingMode => cases ht
  | selectReference => cases ht
  | setTimingOutput => cases ht
  | _ => rfl

theorem subset_and {a l : Word} (h : subset a l) : subset a (l &&& a) := by
  unfold subset at *
  rw [← BitVec.and_assoc, h, BitVec.and_self]

theorem latchLaw_answer {s : State} (h : s.latchLaw) (code tag : Byte) (o : OrderOutcome) (r : List Byte) :
    (s.answer code tag o r).latchLaw := h

theorem warm_latchLaw (s : State) : s.warm.latchLaw := by
  refine ⟨fun n => ?_, subset_refl _⟩
  have e : s.warm.span n = (s.span n).warm := by simp [State.warm, State.span]
  rw [e]
  exact subset_refl _

section

variable {s : State} (h : s.latchLaw)
include h

theorem takeSetSpan_latchLaw (tag a b c d e f : Byte) : (takeSetSpan tag a b c d e f s).latchLaw := by
  unfold takeSetSpan
  split
  next n _ _ _ _ _ _ _ => exact latchLaw_answer ((h.but n).modSpan _).publish _ _ _ _
  · exact h

theorem takeSpanRestart_latchLaw (tag a : Byte) : (takeSpanRestart tag a s).latchLaw := by
  unfold takeSpanRestart
  split
  · exact h
  next n _ => exact latchLaw_answer ((h.but n).modSpan _).publish _ _ _ _

theorem takeSetThresholds_latchLaw (tag a : Byte) (l k : Word) : (takeSetThresholds tag a l k s).latchLaw := by
  unfold takeSetThresholds
  split
  · exact h
  next n _ =>
    refine latchLaw_answer (h.modSpan n ?_) _ _ _ _
    exact h.1 n

theorem takeSetDrift_latchLaw (sampled : Bool) (tag a k : Byte) (l : Word) : (takeSetDrift sampled tag a k l s).latchLaw := by
  unfold takeSetDrift
  split
  · exact h
  next n _ =>
    refine latchLaw_answer ?_ _ _ _ _
    split
    · exact (((h.but n).modSpan _).modSpan _).publish
    · exact h.modSpan n (h.1 n)

/-- CLEAR LATCHED takes out of a latched set no alarm that is active (R156). -/
theorem takeClearLatched_latchLaw (tag a : Byte) : (takeClearLatched tag a s).latchLaw := by
  unfold takeClearLatched
  split
  · exact h
  next n _ =>
    exact h.modSpan (f := fun sp => { sp with latched := (s.span n).latched &&& (s.span n).active }) n (subset_and (h.1 n))
  · exact ⟨h.1, subset_and h.2⟩

theorem takeReadCounts_latchLaw (tag a b c : Byte) : (takeReadCounts tag a b c s).latchLaw := by
  have cleared (n : Fin 16) (f : SpanCounts → SpanCounts) :
      (s.modSpan n fun sp => { sp with counts := f sp.counts }).latchLaw := h.modSpan n (h.1 n)
  unfold takeReadCounts
  split
  · exact h
  next cl _ =>
    split
    · cases cl <;> exact h
    · split
      · exact h
      next n _ =>
        dsimp only
        split_ifs
        · exact cleared n SpanCounts.clear0
        · exact h
        · exact cleared n SpanCounts.clear1
        · exact h
        · exact h

/-- SET REFERENCE may fault its entry, and latches the alarm (R83). -/
theorem takeSetReference_latchLaw (tag a b c d e : Byte) : (takeSetReference tag a b c d e s).latchLaw := by
  refine h.of_spans (takeSetReference_spans tag a b c d e s) ?_
  unfold takeSetReference
  split
  · split
    · exact h.2
    next n _ =>
      split_ifs
      · exact h.2
      · exact latchDevice_latched (s.setEntry _ _)
  · exact h.2

theorem takeSelectReference_latchLaw (tag a : Byte) : (takeSelectReference tag a s).latchLaw := by
  refine h.of_spans (takeSelectReference_spans tag a s) ?_
  unfold takeSelectReference
  split
  · exact h.2
  next e _ =>
    have requested := selectionRequest_latched (s := s) h.2 e
    generalize s.selectionRequest e = r at requested
    obtain ⟨t, o⟩ := r
    cases o <;> exact requested

theorem takeSetTimingMode_latchLaw (tag a b : Byte) : (takeSetTimingMode tag a b s).latchLaw := by
  unfold takeSetTimingMode
  split <;> exact h

theorem takeSetTimingOutput_latchLaw (tag a b c d e : Byte) : (takeSetTimingOutput tag a b c d e s).latchLaw := by
  unfold takeSetTimingOutput
  split
  next b _ _ _ _ _ _ _ _ _ => cases b <;> exact h
  · exact h

/-- Every order leaves every active alarm latched. -/
theorem takeOrder_latchLaw (sampled : Fin 16 → Bool) (i : Instr) : (s.takeOrder sampled i).latchLaw := by
  cases hs : ordersSpans i with
  | true =>
    cases i with
    | warmRestart => exact warm_latchLaw s
    | setSpan => exact takeSetSpan_latchLaw h _ _ _ _ _ _ _
    | spanRestart => exact takeSpanRestart_latchLaw h _ _
    | setThresholds => exact takeSetThresholds_latchLaw h _ _ _ _
    | setDrift => exact takeSetDrift_latchLaw h _ _ _ _ _
    | clearLatched => exact takeClearLatched_latchLaw h _ _
    | readCounts => exact takeReadCounts_latchLaw h _ _ _ _
    | _ => cases hs
  | false =>
    cases ht : ordersTiming i with
    | false =>
      exact h.of_spans (takeOrder_spans sampled s i hs)
        (State.deviceLatched.of_same (s := s) h.2 (takeOrder_timing sampled s i ht) (takeOrder_device sampled s i hs ht))
    | true =>
      cases i with
      | setReference => exact takeSetReference_latchLaw h _ _ _ _ _ _
      | setTimingMode => exact takeSetTimingMode_latchLaw h _ _ _
      | selectReference => exact takeSelectReference_latchLaw h _ _
      | setTimingOutput => exact takeSetTimingOutput_latchLaw h _ _ _ _ _ _
      | setSpan => cases hs
      | spanRestart => cases hs
      | setDrift => cases hs
      | _ => cases ht

/-! ### The office frame boundary -/

theorem matchTimer_latchLaw (n : Fin 4) : (s.matchTimer n).latchLaw := by
  refine h.of_spans (matchTimer_spans s n) ?_
  have performed : (s.performAction s.timers[n]).1.deviceLatched := by
    unfold State.performAction
    split
    · exact h.2
    · exact h.2
    · exact h.2
    · exact h.2
    · exact selectionRequest_latched h.2 _
  unfold State.matchTimer
  dsimp only
  split
  · rw [offerUnitTrigger_eq]
    split <;> exact performed
  · exact h.2

theorem storeBoundary_latchLaw (superframe : Bool) (n : Fin 16) : (s.storeBoundary superframe n).latchLaw := by
  have slipped : (if ((s.span n).boundary superframe).2 = .none then s.setSpan n ((s.span n).boundary superframe).1
      else (s.setSpan n ((s.span n).boundary superframe).1).offerSpanTrigger 3 n).latchedBut n := by
    have set := (h.but n).modSpan fun _ => ((s.span n).boundary superframe).1
    split
    · exact set
    · exact set.offer 3
  have handled := slipped.publish
  unfold State.storeBoundary
  dsimp only
  generalize State.publish _ n = t at handled
  split
  · exact ((handled.but n).modSpan _).publish
  · exact handled

theorem orderBoundary_latchLaw (sampled : Fin 16 → Bool) : (s.orderBoundary sampled).latchLaw := by
  have formed : s.formSend.latchLaw := h
  unfold State.orderBoundary State.examine
  split
  · unfold State.judgeCell
    split_ifs
    · exact formed
    · exact ⟨formed.1, subset_trans formed.2 (subset_or_left _ _)⟩
    · exact takeOrder_latchLaw formed sampled _
    · exact formed
  · exact formed

theorem handle_latchLaw (superframe apart : Bool) (done : List Handling) (i : Handling) :
    (s.handle superframe apart done i).latchLaw := by
  cases i with
  | number => exact h.of_spans (formNumber_spans s) h.2
  | timer n => exact matchTimer_latchLaw h n
  | store n => exact storeBoundary_latchLaw h superframe n
  | otu => exact h.of_spans (otuBoundary_spans s superframe apart) (otuBoundary_latched h.2 superframe apart)
  | outputs => exact h
  | swaps => cases superframe <;> exact h
  | units => cases superframe <;> exact h
  | orderChannel =>
    cases superframe with
    | false => exact h
    | true => exact orderBoundary_latchLaw h _

omit h in
theorem handleAll_latchLaw (superframe apart : Bool) (todo done : List Handling) {s : State} (h : s.latchLaw) :
    (s.handleAll superframe apart done todo).latchLaw := by
  induction todo generalizing done s with
  | nil => exact h
  | cons i rest ih => exact ih _ (handle_latchLaw h superframe apart done i)

omit h in
theorem finishReads_latchLaw {s : State} (h : s.latchLaw) : s.finishReads.latchLaw := by
  unfold State.finishReads
  induction allSpans generalizing s with
  | nil => exact h
  | cons n rest ih => exact ih (readSide_latchLaw h n 336)

omit h in
/-- The transmitter has no part in a span's alarms (Table 9-1). -/
theorem active_tx (sp : Span) (tx : Transmitter) : ({ sp with tx } : Span).active = sp.active := rfl

theorem endFrame_latchLaw (received : Vector Byte 640) : (s.endFrame received).latchLaw :=
  (finishReads_latchLaw h).of_alike (fun n => by rw [endFrame_span]; exact ⟨active_tx _ _, by dsimp only⟩)
    (endFrame_timing s received) (by rw [endFrame_device])

theorem openBoundary_latchLaw (superframe : Bool) : (s.openBoundary superframe).latchLaw :=
  ⟨fun n => by rw [openBoundary_span]; exact h.1 n, h.2⟩

theorem closeBoundary_latchLaw (superframe status : Bool) : (s.closeBoundary superframe status).latchLaw :=
  h.of_alike (fun n => by rw [closeBoundary_span]; exact ⟨active_tx _ _, rfl⟩) rfl rfl

theorem acquisitionTimeout_latchLaw : s.acquisitionTimeout.latchLaw :=
  h.of_spans (acquisitionTimeout_spans s) (acquisitionTimeout_latched h.2)

theorem boundary_latchLaw (received : Vector Byte 640) (order : List Handling) (apart : Bool) :
    (s.boundary received order apart).latchLaw :=
  closeBoundary_latchLaw (handleAll_latchLaw _ apart (schedule order) []
    (openBoundary_latchLaw (endFrame_latchLaw (acquisitionTimeout_latchLaw h) received) _)) _ _

/-! ### One command -/

theorem referenceEvent_latchLaw (input : RefInput) (time : Int) (frequency : Rat) :
    ({ s with timing := s.timing.referenceEvent input time frequency } : State).latchLaw := by
  have same := referenceEvent_sameLoop s.timing input time frequency
  exact h.of_spans rfl (State.deviceLatched.of (s := s) h.2 (raisesNone_of_loop same.entries (.inl (by rw [same.loop]))) rfl)

omit h in
/-- A restart ends with the alarms and the latched sets as after reset (R162). -/
theorem restarted_latchLaw (s : State) (k : RestartKind) (straps : BitVec 5) : (s.restarted k straps).latchLaw := by
  refine reset_latchLaw.of_alike (fun n => ?_) rfl rfl
  rw [restarted_span, reset_span]
  exact ⟨rfl, rfl⟩

end

/-- Every command leaves every active alarm latched, while office timing runs and in a restart. -/
theorem exec_latchLaw (c : Instr) {s t : State} (h : s.latchLaw) (k : exec c s = .next t) : t.latchLaw := by
  have running {u : State} (k : whenRunning s u = .next t) (hu : u.latchLaw) : t.latchLaw := by
    rcases (whenRunning_eq_next s u t).mp k with ⟨-, rfl⟩ | ⟨-, rfl⟩
    · exact hu
    · exact h
  have taken (e : exec c s = whenRunning s (s.takeOrder (fun _ => true) c)) : t.latchLaw :=
    running (e.symm.trans k) (takeOrder_latchLaw h _ c)
  cases c with
  | powerOn => cases k; exact h
  | coldRestartBegin =>
    simp only [exec, execColdRestartBegin] at k
    split at k <;> (cases k; exact h)
  | supplyFall =>
    simp only [exec, execSupplyFall] at k
    split at k
    · cases k; exact h
    · split at k <;> (cases k; exact h)
  | restartEnd =>
    simp only [exec, execRestartEnd] at k
    split at k
    · cases k; exact h
    · split at k
      · cases k; exact restarted_latchLaw _ _ _
      · cases k; exact h
  | clockPresentRise n =>
    cases k
    split
    · exact clockRise_latchLaw h n
    · exact setClock_latchLaw h n true
  | clockPresentFall m =>
    cases k
    split
    · exact clockFall_latchLaw h _ _
    · exact setClock_latchLaw h _ false
  | lineWindowEnd => exact running k (windowEnd_latchLaw h _ _ _)
  | noisePeriodEnd => exact running k (noiseEnd_latchLaw h _)
  | huntCandidateFound => exact running k (huntFound_latchLaw h _ _ _)
  | verifyCheck => exact running k (verifyCheck_latchLaw h _ _ _)
  | expectedAlignmentOctet => exact running k (expectedOctet_latchLaw h _ _ _ _)
  | alignedFrame => exact running k (alignedFrame_latchLaw h _ _ _)
  | storeUnderrun => exact running k (underrun_latchLaw h _)
  | referenceEvent =>
    refine running k ?_
    split
    · exact referenceEvent_latchLaw h _ _ _
    · exact h
  | officeFrameBoundary => exact running k (boundary_latchLaw h _ _ _)
  | qualificationComplete e =>
    exact running k (h.of_spans (by unfold State.qualificationComplete; dsimp only; split <;> rfl)
      (qualificationComplete_latched h.2 e))
  | acquisitionTimeout => exact running k (acquisitionTimeout_latchLaw h)
  | unknownOrder =>
    refine running k ?_
    split <;> exact h
  | setDrift => exact running k (takeSetDrift_latchLaw h true _ _ _ _)
  | _ => exact taken rfl

/-- Settles O12: every change of an alarm's condition is published or latched with it, and the sets are cleared of no active
alarm. -/
theorem latchLawKept : Obligations.LatchLawKept := fun _ _ h hstep =>
  step_keeps (P := State.latchLaw) (fun _ _ h => h) (fun c _ _ h k => exec_latchLaw c h k) h hstep

end Sys2Proof.Machine
end

