-- ==== Sys2Proof/Proofs/RestartBegins.lean ====
section
/-! The beginnings of restarts, and a part that a restart holds (O19). -/

namespace Sys2Proof.Machine

/-- A restart that begins or goes on abandons what R163 and R151 name and keeps the rest until its end. -/
theorem hold_abandons (s : State) (k : RestartKind) (low up : Bool) : s.abandons (s.hold k low up) :=
  ⟨rfl, rfl, rfl, rfl, rfl, rfl, rfl, rfl, rfl, rfl⟩

/-- ALM and TDE are inactive and no frame pulse is begun while a restart holds the part (R163). -/
theorem hold_pins (s : State) (k : RestartKind) (low up : Bool) :
    (s.hold k low up).alm = false ∧ (s.hold k low up).hfpWidth = 0 ∧ ∀ n, (s.hold k low up).tde n = false :=
  ⟨rfl, rfl, fun _ => rfl⟩

/-- COLD_RESTART_BEGIN begins a COLD restart, or goes on with the one in progress (R163). -/
theorem execColdRestartBegin_eq (s : State) :
    execColdRestartBegin s = .next (s.hold (s.restart.inProgress.getD .cold) true s.restart.supplyUp) := by
  unfold execColdRestartBegin
  cases s.restart.inProgress <;> rfl

/-- SUPPLY_FALL in a restart with RESET_N low makes it a POWER-ON restart (R163). -/
theorem execSupplyFall_falls {s : State} (hp : s.restart.inProgress.isSome = true) (hl : s.restart.resetLow = true) :
    execSupplyFall s = .next (s.hold .powerOn true false) := by
  obtain ⟨k, hk⟩ := Option.isSome_iff_exists.mp hp
  simp only [execSupplyFall, hk, hl, if_true]

/-- At any other moment SUPPLY_FALL is not the event of R163. -/
theorem execSupplyFall_other {s : State} (h : s.restart.inProgress = none ∨ s.restart.resetLow = false) :
    execSupplyFall s = .next s := by
  unfold execSupplyFall
  split
  · rfl
  next k hk =>
    have low : s.restart.resetLow = false := h.resolve_left fun e => nomatch e.symm.trans hk
    rw [low]
    rfl

/-- While a restart holds the part no command has an effect but those of the restarts and the levels of clock-present. -/
theorem exec_of_held {c : Instr} {s : State} (hr : s.officeRuns = false) (hc : actsInRestart c = false) :
    exec c s = .next s := by
  cases c with
  | powerOn => cases hc
  | coldRestartBegin => cases hc
  | supplyFall => cases hc
  | restartEnd => cases hc
  | clockPresentRise => cases hc
  | clockPresentFall => cases hc
  | _ => exact whenRunning_of_held s _ hr

/-- While a restart holds the part clock-present is followed as a level, and nothing else (notes/assumptions/3.md). -/
theorem exec_clockPresent_of_held {s : State} (hr : s.officeRuns = false) (n : Fin 16) (readSoFar : Nat) :
    exec (.clockPresentRise n) s = .next (s.modSpan n fun sp => sp.setClock true) ∧
      exec (.clockPresentFall ⟨n, readSoFar⟩) s = .next (s.modSpan n fun sp => sp.setClock false) := by
  simp only [exec, execClockPresentRise, execClockPresentFall, hr, Bool.false_eq_true, if_false, and_self]

/-- Settles O19, event by event, and then for the part held. -/
theorem restartBegins : Obligations.RestartBegins := by
  refine ⟨fun s => ⟨fun low => ?_, ?_, fun hp hl => ?_, execSupplyFall_other⟩, fun c s k hk => ?_⟩
  · exact ⟨_, rfl, hold_abandons s _ _ _, rfl, hold_pins s _ _ _⟩
  · exact ⟨_, execColdRestartBegin_eq s, hold_abandons s _ _ _, rfl, hold_pins s _ _ _⟩
  · refine ⟨_, execSupplyFall_falls hp hl, hold_abandons s _ _ _, ?_⟩
    rw [← hl]
    rfl
  · have held : s.officeRuns = false := by rw [State.officeRuns, hk]; rfl
    exact ⟨exec_of_held held, fun n => (exec_clockPresent_of_held held n 0).1,
      fun n readSoFar => (exec_clockPresent_of_held held n readSoFar).2⟩

end Sys2Proof.Machine
end

