-- ==== Sys2Proof/Proofs/AlarmSets.lean ====
section
/-! The active alarm sets bit by bit, the attention summary and ALM (O54). -/

namespace Sys2Proof.Machine

/-! ### The bits of an alarm set and of the attention summary -/

theorem alarmBit_getLsbD (i j : Nat) (b : Bool) (hi : i < 16) : (alarmBit i b).getLsbD j = (b && decide (i = j)) := by
  cases b with
  | false => exact BitVec.getLsbD_zero
  | true =>
    change (BitVec.twoPow 16 i).getLsbD j = _
    rw [BitVec.getLsbD_twoPow, decide_eq_true hi]

/-- The bit a flag sets, by its number. -/
theorem flag_bit (i j : Nat) (b : Bool) (hi : i < 8) (hj : j < 8) : (flag i b).getLsbD j = (b && decide (i = j)) := by
  simpa using flag_getLsbD ⟨i, hi⟩ ⟨j, hj⟩ b

theorem any_iff_exists_fin {α : Type} {n : Nat} (v : Vector α n) (p : α → Bool) :
    v.any p = true ↔ ∃ i : Fin n, p v[i] = true := by
  simp [Vector.any_eq_true, Fin.exists_iff]

theorem seeking_iff (a : Aligner) : a.seeking = true ↔ (∃ f, a = .hunt f) ∨ ∃ c m f, a = .verify c m f := by
  cases a <;> simp [Aligner.seeking]

theorem isLocked_eq_false_iff (x : SuperframeState) : x.isLocked = false ↔ ∃ c, x = .search c := by
  cases x <;> simp [SuperframeState.isLocked]

/-! ### The active sets (R153, R154) -/

/-- Bit `i` of the span active set (Table 9-1). -/
theorem spanActive_getLsbD (sp : Span) (i : Nat) :
    sp.active.getLsbD i =
      ((sp.record.enable && sp.rx.aligner == .absent) && decide (0 = i) || sp.win.blank.active && decide (1 = i) ||
        sp.win.brk.active && decide (2 = i) || sp.win.noisy && decide (3 = i) || sp.rx.aligner.seeking && decide (4 = i) ||
        (sp.rx.aligner.aligned && !sp.sf.state.isLocked) && decide (5 = i) || sp.sf.farEnd.active && decide (6 = i) ||
        sp.meter.drift && decide (7 = i)) := by
  simp (disch := decide) only [Span.active, BitVec.getLsbD_or, alarmBit_getLsbD]

/-- Bit `i` of the device active set of office timing (Table 9-1). -/
theorem timingActive_getLsbD (t : Timing) (i : Nat) :
    t.active.getLsbD i =
      ((t.entries[0].state == .faulted) && decide (0 = i) || (t.entries[1].state == .faulted) && decide (1 = i) ||
        (t.entries[2].state == .faulted) && decide (2 = i) || (t.entries[3].state == .faulted) && decide (3 = i) ||
        (t.loop.state == .holdover) && decide (4 = i) || (t.loop.state == .free) && decide (5 = i)) := by
  simp (disch := decide) only [Timing.active, BitVec.getLsbD_or, alarmBit_getLsbD]

theorem spanActive_bits (sp : Span) :
    (sp.active.getLsbD 0 = true ↔ sp.record.enable = true ∧ sp.rx.aligner = .absent) ∧
    (sp.active.getLsbD 1 = true ↔ sp.win.blank.active = true) ∧ (sp.active.getLsbD 2 = true ↔ sp.win.brk.active = true) ∧
    (sp.active.getLsbD 3 = true ↔ sp.win.noisy = true) ∧
    (sp.active.getLsbD 4 = true ↔ (∃ f, sp.rx.aligner = .hunt f) ∨ ∃ c m f, sp.rx.aligner = .verify c m f) ∧
    (sp.active.getLsbD 5 = true ↔ sp.rx.aligner.aligned = true ∧ ∃ c, sp.sf.state = .search c) ∧
    (sp.active.getLsbD 6 = true ↔ sp.sf.farEnd.active = true) ∧ (sp.active.getLsbD 7 = true ↔ sp.meter.drift = true) ∧
    ∀ i, 8 ≤ i → sp.active.getLsbD i = false := by
  simp only [spanActive_getLsbD]
  refine ⟨by simp, by simp, by simp, by simp, by simp [seeking_iff], by simp [isLocked_eq_false_iff], by simp, by simp,
    fun i hi => ?_⟩
  have past (k : Nat) (hk : k < 8) : decide (k = i) = false := decide_eq_false (by omega)
  simp (disch := decide) only [past, Bool.and_false, Bool.or_false]

theorem timingActive_bits (t : Timing) :
    (∀ e : Fin 4, t.active.getLsbD e.val = true ↔ t.entries[e].state = .faulted) ∧
    (t.active.getLsbD 4 = true ↔ t.loop.state = .holdover) ∧ (t.active.getLsbD 5 = true ↔ t.loop.state = .free) ∧
    ∀ i, 6 ≤ i → t.active.getLsbD i = false := by
  refine ⟨fun e => by rw [active_entry, beq_iff_eq], ?_⟩
  simp only [timingActive_getLsbD]
  refine ⟨by simp, by simp, fun i hi => ?_⟩
  have past (k : Nat) (hk : k < 6) : decide (k = i) = false := decide_eq_false (by omega)
  simp (disch := decide) only [past, Bool.and_false, Bool.or_false]

/-! ### The attention summary and ALM (R160, R161) -/

/-- Bit `i` of the attention summary (Table 9-3). -/
theorem summary_getLsbD (s : State) (i : Nat) (hi : i < 8) :
    s.summary.getLsbD i =
      ((s.timing.loop.state != .locked) && decide (7 = i) || s.spanLatched && decide (6 = i) ||
        (s.device.latched != 0) && decide (5 = i) || (s.units.toList.any fun u => u.state == .done) && decide (4 = i) ||
        (s.timers.toList.any fun t => t.matched) && decide (3 = i) ||
        (s.highway.ingress.request.isPending || s.highway.egress.request.isPending) && decide (2 = i) ||
        s.restart.notice && decide (1 = i) || (s.spans.toList.any fun sp => sp.unaligned) && decide (0 = i)) := by
  have bit (k : Nat) (b : Bool) (hk : k < 8) := flag_bit k i b hk hi
  simp (disch := decide) only [State.summary, BitVec.getLsbD_or, bit]

theorem spanLatched_iff (s : State) : s.spanLatched = true ↔ ∃ n, (s.span n).latched ≠ 0 := by
  simp only [State.spanLatched, Vector.any_toList, any_iff_exists_fin, bne_iff_ne]
  rfl

theorem unaligned_iff (s : State) :
    (s.spans.any fun sp => sp.unaligned) = true ↔
      ∃ n, (s.span n).record.enable = true ∧ (s.span n).rx.aligner.aligned = false := by
  simp only [any_iff_exists_fin, Span.unaligned, Bool.and_eq_true, Bool.not_eq_true']
  rfl

/-- While office timing runs, ALM follows the latched sets (R161). -/
theorem alm_iff {s : State} (hr : s.officeRuns = true) :
    s.alm = true ↔ s.spanLatched = true ∨ (s.device.latched != 0) = true := by
  have free : s.restart.inProgress.isNone = true := hr
  rw [State.alm, free, Bool.true_and, Bool.or_eq_true]

/-- Settles O54, bit by bit. -/
theorem alarmsAndSummary : Obligations.AlarmsAndSummary := by
  refine ⟨spanActive_bits, timingActive_bits, fun s => ?_⟩
  simp (disch := decide) only [summary_getLsbD]
  refine ⟨by simp, by simp [spanLatched_iff], by simp, ?_, ?_, by simp [isPending_iff], by simp, ?_, fun hr => ?_⟩
  · simp [any_iff_exists_fin]
  · simp [any_iff_exists_fin]
  · simp [unaligned_iff]
  · simp [alm_iff hr]

end Sys2Proof.Machine
end

