-- ==== Sys2Proof/Proofs/AlarmOrders.lean ====
section
/-! READ ALARMS, CLEAR LATCHED and READ COUNTS (O52, O53). -/

namespace Sys2Proof.Machine

/-! ### The owner of alarm sets (R156) -/

theorem ownerOf_ofNat (n : Fin 16) : ownerOf (BitVec.ofNat 8 n.val) = some (some n) := by
  have span : BitVec.ofNat 8 n.val ≠ 0x10 := fun e => by
    have := congrArg BitVec.toNat e
    rw [BitVec.toNat_ofNat, Nat.mod_eq_of_lt (by omega)] at this
    exact absurd (this ▸ n.isLt) (by decide)
  rw [ownerOf, if_neg span, below_ofNat 16 n (by decide)]
  rfl

theorem ownerOf_device : ownerOf 0x10 = some none := rfl

theorem ownerOf_none (b : Byte) (h : 16 < b.toNat) : ownerOf b = none := by
  have device : b ≠ 0x10 := byte_ne_of_lt h 16 (by decide)
  rw [ownerOf, if_neg device, below_none 16 b (by omega)]
  rfl

/-! ### READ ALARMS (R157) -/

/-- Settles O52, by the owner of the sets. -/
theorem readAlarmsReply : Obligations.ReadAlarmsReply := by
  intro s tag hr
  refine ⟨fun owner h => ?_, fun n => ?_, ?_⟩ <;> refine (whenRunning_of_runs s _ hr).trans (congrArg _ ?_)
  · rw [takeReadAlarms, ownerOf_none owner h]
    rfl
  · rw [takeReadAlarms, ownerOf_ofNat]
    rfl
  · rw [takeReadAlarms, ownerOf_device]
    rfl

/-! ### READ COUNTS (R159) -/

theorem takeReadCounts_refused (s : State) (tag group span x : Byte)
    (h : 2 < group.toNat ∨ 1 < x.toNat ∨ (group.toNat ≤ 1 ∧ 15 < span.toNat)) :
    takeReadCounts tag group span x s = s.refuse 0x62 tag .badParameter := by
  unfold takeReadCounts
  cases hx : boolOf x with
  | none => rfl
  | some clear =>
    dsimp only
    have small : ¬1 < x.toNat := fun k => nomatch (boolOf_none x k).symm.trans hx
    rcases h with h | h | ⟨hg, hs⟩
    · have h0 : group ≠ 0 := byte_ne_of_lt h 0 (by decide)
      have h1 : group ≠ 1 := byte_ne_of_lt h 1 (by decide)
      have h2 : group ≠ 2 := byte_ne_of_lt h 2 (by decide)
      rw [if_neg h2]
      cases spanOf span with
      | none => rfl
      | some n => dsimp only; rw [if_neg h0, if_neg h1]
    · exact absurd h small
    · have spanGroup : group ≠ 2 := fun e => absurd (e ▸ hg) (by decide)
      rw [if_neg spanGroup, spanOf_none span hs]

/-- Settles O53, by the owner of the sets and by the group of the counts. -/
theorem clearAndCounts : Obligations.ClearAndCounts := by
  refine ⟨fun s tag hr => ?_, fun s tag clear hr => ?_⟩
  · refine ⟨fun owner h => ?_, fun n => ?_, ?_⟩ <;> refine (whenRunning_of_runs s _ hr).trans (congrArg _ ?_)
    · rw [takeClearLatched, ownerOf_none owner h]
      rfl
    · rw [takeClearLatched, ownerOf_ofNat]
      rfl
    · rw [takeClearLatched, ownerOf_device]
      rfl
  · refine ⟨fun group span x h => ?_, fun n => ⟨?_, ?_⟩, fun span => ?_⟩ <;>
      refine (whenRunning_of_runs s _ hr).trans (congrArg _ ?_)
    · exact takeReadCounts_refused s tag group span x h
    · rw [takeReadCounts, boolOf_sel, spanOf_ofNat]
      cases clear <;> rfl
    · rw [takeReadCounts, boolOf_sel, spanOf_ofNat]
      cases clear <;> rfl
    · rw [takeReadCounts, boolOf_sel]
      cases clear <;> rfl

end Sys2Proof.Machine
end
